-- ==== Sys2Proof/Word.lean ====
section
/-! DEFINITION. The widths the command port uses (spec/10_state.md R20, R21; spec/00_scope.md R13):
bytes, the 16-bit value field and the 32-bit command word, and byte strings as lists of bytes. -/

namespace Sys2Proof

/-- One byte (R13: "A byte is 8 bits"). -/
abbrev Byte := BitVec 8

/-- The 16-bit operand field `b` of a command word and the field RSP.value (R21, R90). -/
abbrev Half := BitVec 16

/-- The 32-bit command word CMD (R20, R90). -/
abbrev Word := BitVec 32

/-- A byte string (R13: "Byte strings are lists of bytes"). -/
abbrev Bytes := List Byte

/-- The level of a line or an oracle's answer, 0 or 1 (R13, R130): `true` is 1. -/
abbrev Level := Bool

end Sys2Proof
end

