-- ==== Sys2Proof/Syntax.lean ====
section
/-! DEFINITION. The thirteen operations of the command port, one constructor for each row of
spec/opcode_table.json (spec/30_encoding.md R91), with the scalar operands the formats Z, A, T, L and M
carry (R92 to R96). Byte-string operands are not in the word (R90): they stand in the buffers. -/

namespace Sys2Proof

/-- The two-bit field `ev` of MOTOR_UPDATE (R96): 0 NoEvent, 1 ShortPress, 2 LongPress; 3 is refused by
value (R97). -/
inductive EventArg where
  | noEvent
  | shortPress
  | longPress
  | reserved3
  deriving DecidableEq, Repr

/-- A command (R91). -/
inductive Instr where
  /-- 0x01, format A: write `n` bytes of TXBUF to the device `addr7` (R141). -/
  | i2cWrite (addr7 : BitVec 7) (n : Byte)
  /-- 0x02, format A: read `n` bytes from the device `addr7` (R142). -/
  | i2cRead (addr7 : BitVec 7) (n : Byte)
  /-- 0x03, format A with n = 0: does the device `addr7` acknowledge (R143). -/
  | i2cProbe (addr7 : BitVec 7)
  /-- 0x04, format Z: are both lines high (R144). -/
  | i2cBusIdle
  /-- 0x10, format T: read one pulse frame, `tmo` microseconds for each wait and each hold (R178). -/
  | dhtReadFrame (tmo : Half)
  /-- 0x20, format L: read one line, at most `maxLen` bytes, `timeout` milliseconds (R205). -/
  | uartReadLine (maxLen : Byte) (timeout : Half)
  /-- 0x21, format T: send STR0 as a command and await STR1, `timeout` milliseconds (R210). -/
  | uartSendCommand (timeout : Half)
  /-- 0x22, format T: run the initialization sequence with apn STR0, host STR1 and `port` (R216). -/
  | uartInitSession (port : Half)
  /-- 0x23, format Z: send STR0 as one payload line (R220). -/
  | uartSendLine
  /-- 0x30, format Z: sample and debounce the button, report at most one event (R253). -/
  | btnPoll
  /-- 0x40, format T: the fan duty of the temperature `tempC` (R270). -/
  | dutyAuto (tempC : Half)
  /-- 0x41, format L: update the alarms from one reading (R280). -/
  | alarmUpdate (humidity : Byte) (tempC : Half)
  /-- 0x42, format M: apply one button event and the latest reading to the motor (R275). -/
  | motorUpdate (rv : Bool) (ev : EventArg) (tempC : Half)
  deriving DecidableEq, Repr

end Sys2Proof
end

