-- ==== Sys2Proof/Decode.lean ====
section
/-! DEFINITION. Decoding a command word, and after it the encoder (spec/30_encoding.md R90 to R96). The decoder
follows the formats Z, A, T, L and M field by field; the masks of the opcode map (R91) are not used by it
(they stand in `opcodeMap`, for statements). The checks by value (R97) are not the decoder's: a word
that selects a row decodes, and `Instr.wf` decides whether the command is refused by value. -/

namespace Sys2Proof

/-- The slice of `len` bits of `w` from bit `lo` up, as an unsigned number (R13). -/
def field (w : Word) (lo len : Nat) : Nat := w.toNat / 2 ^ lo % 2 ^ len

/-- Why a word is refused by the decoder (R110). -/
inductive DecodeError where
  /-- bits 31:24 are no assigned opcode -/
  | unassignedOpcode
  /-- a bit the format does not use is not 0 (R90) -/
  | unusedBitSet
  deriving DecidableEq, Repr

/-- Accept `i` when every unused field of the format is 0 (R90: "Bits a format does not use must be 0"). -/
def whenZero (unused : List Nat) (i : Instr) : Except DecodeError Instr :=
  if unused.all (· == 0) then .ok i else .error .unusedBitSet

/-- The field `ev` of format M (R96). -/
def eventOfField : Nat → EventArg
  | 0 => .noEvent
  | 1 => .shortPress
  | 2 => .longPress
  | _ => .reserved3

/-- The word's `addr7` (R93: bits 22:16). -/
def addrField (w : Word) : BitVec 7 := BitVec.ofNat 7 (field w 16 7)

/-- The word's `n` (R93: bits 7:0). -/
def countField (w : Word) : Byte := BitVec.ofNat 8 (field w 0 8)

/-- The word's `a8` (R95: bits 23:16). -/
def a8Field (w : Word) : Byte := BitVec.ofNat 8 (field w 16 8)

/-- The word's `v16` (R94 to R96: bits 15:0). -/
def v16Field (w : Word) : Half := BitVec.ofNat 16 (field w 0 16)

/-- Decode one command word: the opcode in bits 31:24 selects the format (R90 to R96). -/
def decode (w : Word) : Except DecodeError Instr :=
  let opcode := field w 24 8
  if opcode = 0x01 then whenZero [field w 23 1, field w 8 8] (.i2cWrite (addrField w) (countField w))
  else if opcode = 0x02 then whenZero [field w 23 1, field w 8 8] (.i2cRead (addrField w) (countField w))
  else if opcode = 0x03 then whenZero [field w 23 1, field w 0 16] (.i2cProbe (addrField w))
  else if opcode = 0x04 then whenZero [field w 0 24] .i2cBusIdle
  else if opcode = 0x10 then whenZero [field w 16 8] (.dhtReadFrame (v16Field w))
  else if opcode = 0x20 then whenZero [] (.uartReadLine (a8Field w) (v16Field w))
  else if opcode = 0x21 then whenZero [field w 16 8] (.uartSendCommand (v16Field w))
  else if opcode = 0x22 then whenZero [field w 16 8] (.uartInitSession (v16Field w))
  else if opcode = 0x23 then whenZero [field w 0 24] .uartSendLine
  else if opcode = 0x30 then whenZero [field w 0 24] .btnPoll
  else if opcode = 0x40 then whenZero [field w 16 8] (.dutyAuto (v16Field w))
  else if opcode = 0x41 then whenZero [] (.alarmUpdate (a8Field w) (v16Field w))
  else if opcode = 0x42 then
    whenZero [field w 18 5]
      (.motorUpdate (decide (field w 23 1 = 1)) (eventOfField (field w 16 2)) (v16Field w))
  else .error .unassignedOpcode

/-- The instruction an opcode-table word stands for: its `nbits` bits, every bit above them 0. -/
def decodeTableWord (nbits w : Nat) : Option Instr :=
  match decode (BitVec.ofNat 32 (w % 2 ^ nbits)) with
  | .ok i => some i
  | .error _ => none

/-! ## The encoder -/

/-- Assemble a word from its opcode, its field `a` (bits 23:16) and its field `b` (bits 15:0) (R90). -/
def assemble (opcode a b : Nat) : Word := BitVec.ofNat 32 (opcode * 2 ^ 24 + a * 2 ^ 16 + b)

/-- The two bits of `ev` (R96). -/
def eventField : EventArg → Nat
  | .noEvent => 0
  | .shortPress => 1
  | .longPress => 2
  | .reserved3 => 3

/-- The command word of an instruction (R91 to R96). -/
def encode : Instr → Word
  | .i2cWrite addr7 n => assemble 0x01 addr7.toNat n.toNat
  | .i2cRead addr7 n => assemble 0x02 addr7.toNat n.toNat
  | .i2cProbe addr7 => assemble 0x03 addr7.toNat 0
  | .i2cBusIdle => assemble 0x04 0 0
  | .dhtReadFrame tmo => assemble 0x10 0 tmo.toNat
  | .uartReadLine maxLen timeout => assemble 0x20 maxLen.toNat timeout.toNat
  | .uartSendCommand timeout => assemble 0x21 0 timeout.toNat
  | .uartInitSession port => assemble 0x22 0 port.toNat
  | .uartSendLine => assemble 0x23 0 0
  | .btnPoll => assemble 0x30 0 0
  | .dutyAuto tempC => assemble 0x40 0 tempC.toNat
  | .alarmUpdate humidity tempC => assemble 0x41 humidity.toNat tempC.toNat
  | .motorUpdate rv ev tempC => assemble 0x42 (rv.toNat * 2 ^ 7 + eventField ev) tempC.toNat

/-! ## The opcode map's masks (R91), as the table gives them -/

/-- `match` and `mask` of an instruction's row: "a word w selects the row when `w & mask = match`" (R91). -/
def opcodeMap : Instr → Word × Word
  | .i2cWrite _ _ => (0x01000000, 0xFF80FF00)
  | .i2cRead _ _ => (0x02000000, 0xFF80FF00)
  | .i2cProbe _ => (0x03000000, 0xFF80FFFF)
  | .i2cBusIdle => (0x04000000, 0xFFFFFFFF)
  | .dhtReadFrame _ => (0x10000000, 0xFFFF0000)
  | .uartReadLine _ _ => (0x20000000, 0xFF000000)
  | .uartSendCommand _ => (0x21000000, 0xFFFF0000)
  | .uartInitSession _ => (0x22000000, 0xFFFF0000)
  | .uartSendLine => (0x23000000, 0xFFFFFFFF)
  | .btnPoll => (0x30000000, 0xFFFFFFFF)
  | .dutyAuto _ => (0x40000000, 0xFFFF0000)
  | .alarmUpdate _ _ => (0x41000000, 0xFF000000)
  | .motorUpdate _ _ _ => (0x42000000, 0xFF7C0000)

/-- Every row's `match` and `mask`, in the table's order (R91). -/
def opcodeRows : List (Word × Word) :=
  [(0x01000000, 0xFF80FF00), (0x02000000, 0xFF80FF00), (0x03000000, 0xFF80FFFF),
   (0x04000000, 0xFFFFFFFF), (0x10000000, 0xFFFF0000), (0x20000000, 0xFF000000),
   (0x21000000, 0xFFFF0000), (0x22000000, 0xFFFF0000), (0x23000000, 0xFFFFFFFF),
   (0x30000000, 0xFFFFFFFF), (0x40000000, 0xFFFF0000), (0x41000000, 0xFF000000),
   (0x42000000, 0xFF7C0000)]

end Sys2Proof
end

