-- ==== Sys2Proof/Config.lean ====
section
/-! DEFINITION. The implementation parameters (spec/00_scope.md R8 to R12), each a configuration field,
their reference value REF, and the free values: what nothing in the spec fixes. A machine holds its
configuration as a constant part of its state (assumption 1), so every statement over all states is a
statement over all configurations, as R362 asks. -/

namespace Sys2Proof

/-- I2C parameters, all delays in microseconds (R8). I2C_MAX_LEN is fixed at 255 by the 8-bit field `n`
and STR_CAP at 255 by the 8-bit length registers, so neither is a field. -/
structure I2cConfig where
  /-- I2C_T_SETTLE: between releasing both lines and sampling them. -/
  settle : Nat
  /-- I2C_T_STA: from SDA falling to SCL falling in START. -/
  sta : Nat
  /-- I2C_T_SU: data setup before SCL rises. -/
  su : Nat
  /-- I2C_T_HI1: from SCL rising to the sample. -/
  hi1 : Nat
  /-- I2C_T_HI2: from the sample to SCL falling. -/
  hi2 : Nat
  /-- I2C_T_LO: after SCL falls. -/
  lo : Nat
  /-- I2C_T_STO: from SCL rising to SDA release in STOP. -/
  sto : Nat
  /-- I2C_T_BUF: after STOP. -/
  buf : Nat
  deriving DecidableEq, Repr

/-- DHT parameters (R9). -/
structure DhtConfig where
  /-- DHT_T_WARMUP_MS. -/
  warmupMs : Nat
  /-- DHT_T_SPACING_MS. -/
  spacingMs : Nat
  /-- DHT_T_HEALTH_US. -/
  healthUs : Nat
  /-- DHT_T_START_LOW_US. -/
  startLowUs : Nat
  /-- DHT_T_RELEASE_US. -/
  releaseUs : Nat
  /-- DHT_RESP_NOMINAL_US: informative, no rule reads it (R9). -/
  respNominalUs : Nat
  /-- DHT_MIN_RESP_US. -/
  minRespUs : Nat
  /-- DHT_MIN_BITLOW_US. -/
  minBitLowUs : Nat
  /-- DHT_BIT_THRESH_US. -/
  bitThreshUs : Nat
  deriving DecidableEq, Repr

/-- A piece of a command template (R106): text sent as it stands, or a substitution slot. -/
inductive Piece (σ : Type) where
  | text (bs : Bytes)
  | slot (x : σ)
  deriving DecidableEq, Repr

/-- The slot of CMD_SETAPN: `compose(CMD_SETAPN, apn)` (R216). -/
inductive ApnSlot where
  | apn
  deriving DecidableEq, Repr

/-- The slots of CMD_SOCK_OPEN: `compose(CMD_SOCK_OPEN, host, port)` (R216). -/
inductive OpenSlot where
  | host
  | port
  deriving DecidableEq, Repr

/-- The slot of CMD_SEND_PREP: `compose(CMD_SEND_PREP, N)` (R220). -/
inductive PrepSlot where
  | n
  deriving DecidableEq, Repr

/-- A command template: its pieces in order (R106). -/
abbrev Template (σ : Type) := List (Piece σ)

/-- UART parameters (R10). -/
structure UartConfig where
  /-- ERR_GENERIC. -/
  errGeneric : Bytes
  /-- ERR_CODE_MARKER: the empty string disables it. -/
  errCodeMarker : Bytes
  /-- CMD_TERM. -/
  cmdTerm : Bytes
  /-- PAYLOAD_TERM. -/
  payloadTerm : Bytes
  /-- PROMPT_CHAR. -/
  promptChar : Byte
  /-- EOD_BYTE. -/
  eodByte : Byte
  /-- HANDSHAKE_RETRIES: extra attempts of the basic handshake. -/
  handshakeRetries : Nat
  /-- CMD_HANDSHAKE. -/
  cmdHandshake : Bytes
  /-- CMD_FULLFUNC. -/
  cmdFullFunc : Bytes
  /-- CMD_ATTACH. -/
  cmdAttach : Bytes
  /-- CMD_SETAPN. -/
  cmdSetApn : Template ApnSlot
  /-- DIAG_CMDS. -/
  diagCmds : List Bytes
  /-- CMD_SOCK_CLOSE. -/
  cmdSockClose : Bytes
  /-- CMD_SOCK_OPEN. -/
  cmdSockOpen : Template OpenSlot
  /-- CMD_SEND_PREP. -/
  cmdSendPrep : Template PrepSlot
  /-- EXP_OK. -/
  expOk : Bytes
  /-- EXP_SOCK_OPENED. -/
  expSockOpened : Bytes
  /-- EXP_SEND_ACK. -/
  expSendAck : Bytes
  /-- T_CMD_MS. -/
  tCmdMs : Nat
  /-- T_ATTACH_MS. -/
  tAttachMs : Nat
  /-- T_SOCK_WAIT_MS. -/
  tSockWaitMs : Nat
  /-- T_PROMPT_MS. -/
  tPromptMs : Nat
  /-- T_SEND_ACK_MS. -/
  tSendAckMs : Nat
  /-- T_IDLE_COMMIT_MS. -/
  tIdleCommitMs : Nat
  /-- LINE_MAX: bounded by the 8-bit length register LINELEN (R23, assumption 13). -/
  lineMax : Fin 256
  /-- CMD_TEXT_CAP. -/
  cmdTextCap : Nat
  /-- RX_ACC_CAP. -/
  rxAccCap : Nat
  /-- RX_Q_CAP, in items. -/
  rxQCap : Nat
  deriving DecidableEq, Repr

/-- BTN parameters (R11). -/
structure BtnConfig where
  /-- BTN_POLL_MS: "a duty of HOST, not read by any rule". -/
  pollMs : Nat
  /-- BTN_T_SETTLE_MS. -/
  settleMs : Nat
  /-- BTN_T_LONG_MS. -/
  longMs : Nat
  /-- BTN_ACTIVE_LEVEL: the electrical level that means pressed. The model works on "1 = pressed" (R250),
  so no rule reads it. -/
  activeLevel : Level
  deriving DecidableEq, Repr

/-- What an event leaves of MOTOR: whether the mode is Manual, and manualOn. -/
structure MotorControl where
  isManual : Bool
  manualOn : Bool
  deriving DecidableEq, Repr

/-- What one button event leaves, for each mode and each value of manualOn it meets. -/
structure MotorRow where
  autoOff : MotorControl
  autoOn : MotorControl
  manualOff : MotorControl
  manualOn : MotorControl
  deriving DecidableEq, Repr

/-- Which button event changes which motor field: "a model should take it as a configuration table" (R275;
spec/93_implementation_defined.md U19). One row for each event. -/
structure MotorMap where
  shortPress : MotorRow
  longPress : MotorRow
  deriving DecidableEq, Repr

/-- The mapping of R275's pseudocode: a long press toggles the mode, a short press toggles manualOn in Manual
and does nothing in Auto. -/
def MotorMap.r275 : MotorMap where
  shortPress := ⟨⟨false, false⟩, ⟨false, true⟩, ⟨true, true⟩, ⟨true, false⟩⟩
  longPress := ⟨⟨true, false⟩, ⟨true, true⟩, ⟨false, false⟩, ⟨false, true⟩⟩

/-- DUTY parameters (R12). Percentages are 0 to 100 by their type. -/
structure DutyConfig where
  /-- DUTY_T_LOW. -/
  tLow : Int
  /-- DUTY_T_HIGH. -/
  tHigh : Int
  /-- DUTY_RAMP_MIN. -/
  rampMin : Fin 101
  /-- MANUAL_ON_DUTY. -/
  manualOnDuty : Fin 101
  /-- AL_T_HIGH. -/
  alTHigh : Int
  /-- AL_T_HYST. -/
  alTHyst : Int
  /-- AL_H_HIGH. -/
  alHHigh : Int
  /-- AL_H_HYST. -/
  alHHyst : Int
  /-- AL_COOLDOWN_MS. -/
  cooldownMs : Nat
  /-- The event mapping of R275 (U19). -/
  motorMap : MotorMap
  deriving DecidableEq, Repr

/-- All parameters of the block (R8 to R12). -/
structure Config where
  i2c : I2cConfig
  dht : DhtConfig
  uart : UartConfig
  btn : BtnConfig
  duty : DutyConfig
  deriving DecidableEq, Repr

/-- The constraints the spec lets a model assume of any configuration: "DHT_MIN_RESP_US <
DHT_RESP_NOMINAL_US" (R9) and "T_SOCK_WAIT_MS > T_CMD_MS" (R10). No meaning reads them. -/
def Config.wf (c : Config) : Bool :=
  decide (c.dht.minRespUs < c.dht.respNominalUs) && decide (c.uart.tCmdMs < c.uart.tSockWaitMs)

/-! ## REF, the reference configuration (R8 to R12; decision D32)

It stands here so that the spec's test vectors are concrete; it is no property of the hardware (R362). -/

def I2cConfig.ref : I2cConfig where
  settle := 200
  sta := 200
  su := 200
  hi1 := 100
  hi2 := 100
  lo := 200
  sto := 200
  buf := 200

def DhtConfig.ref : DhtConfig where
  warmupMs := 1000
  spacingMs := 2000
  healthUs := 10
  startLowUs := 20000
  releaseUs := 30
  respNominalUs := 80
  minRespUs := 40
  minBitLowUs := 20
  bitThreshUs := 40

def UartConfig.ref : UartConfig where
  -- "ERROR"
  errGeneric := [0x45, 0x52, 0x52, 0x4F, 0x52]
  -- "+CME ERROR"
  errCodeMarker := [0x2B, 0x43, 0x4D, 0x45, 0x20, 0x45, 0x52, 0x52, 0x4F, 0x52]
  cmdTerm := [0x0D, 0x0A]
  payloadTerm := [0x0A]
  promptChar := 0x3E
  eodByte := 0x1A
  handshakeRetries := 1
  -- "AT"
  cmdHandshake := [0x41, 0x54]
  -- "AT+CFUN=1"
  cmdFullFunc := [0x41, 0x54, 0x2B, 0x43, 0x46, 0x55, 0x4E, 0x3D, 0x31]
  -- "AT+CGATT=1"
  cmdAttach := [0x41, 0x54, 0x2B, 0x43, 0x47, 0x41, 0x54, 0x54, 0x3D, 0x31]
  -- AT+CGDCONT=1,"IP","<apn>"
  cmdSetApn :=
    [.text [0x41, 0x54, 0x2B, 0x43, 0x47, 0x44, 0x43, 0x4F, 0x4E, 0x54, 0x3D, 0x31, 0x2C,
      0x22, 0x49, 0x50, 0x22, 0x2C, 0x22], .slot .apn, .text [0x22]]
  diagCmds := []
  -- "AT+QICLOSE=0"
  cmdSockClose := [0x41, 0x54, 0x2B, 0x51, 0x49, 0x43, 0x4C, 0x4F, 0x53, 0x45, 0x3D, 0x30]
  -- AT+QIOPEN=1,0,"UDP","<host>",<port>,0,1
  cmdSockOpen :=
    [.text [0x41, 0x54, 0x2B, 0x51, 0x49, 0x4F, 0x50, 0x45, 0x4E, 0x3D, 0x31, 0x2C, 0x30, 0x2C,
      0x22, 0x55, 0x44, 0x50, 0x22, 0x2C, 0x22], .slot .host, .text [0x22, 0x2C], .slot .port,
      .text [0x2C, 0x30, 0x2C, 0x31]]
  -- AT+QISEND=0,<n>
  cmdSendPrep :=
    [.text [0x41, 0x54, 0x2B, 0x51, 0x49, 0x53, 0x45, 0x4E, 0x44, 0x3D, 0x30, 0x2C], .slot .n]
  -- "OK"
  expOk := [0x4F, 0x4B]
  -- "+QIOPEN: 0,0"
  expSockOpened := [0x2B, 0x51, 0x49, 0x4F, 0x50, 0x45, 0x4E, 0x3A, 0x20, 0x30, 0x2C, 0x30]
  -- "SEND OK"
  expSendAck := [0x53, 0x45, 0x4E, 0x44, 0x20, 0x4F, 0x4B]
  tCmdMs := 1000
  tAttachMs := 10000
  tSockWaitMs := 15000
  tPromptMs := 2000
  tSendAckMs := 5000
  tIdleCommitMs := 50
  lineMax := 128
  cmdTextCap := 255
  rxAccCap := 256
  rxQCap := 1024

def BtnConfig.ref : BtnConfig where
  pollMs := 10
  settleMs := 20
  longMs := 1000
  activeLevel := false

def DutyConfig.ref : DutyConfig where
  tLow := 32
  tHigh := 38
  rampMin := 50
  manualOnDuty := 100
  alTHigh := 35
  alTHyst := 1
  alHHigh := 80
  alHHyst := 5
  cooldownMs := 10000
  motorMap := .r275

def Config.ref : Config where
  i2c := .ref
  dht := .ref
  uart := .ref
  btn := .ref
  duty := .ref

/-! ## Free values

No body: nothing can be proved of what they are. The environment's answers are unconstrained
(spec/93_implementation_defined.md U4); a state scripts finitely many of them as plain data, and past the
end of a script these stand for the answers (assumption 2). -/

/-- The `k`-th unscripted answer of the I2C lines (R130, U4). -/
opaque Config.freeLine : Nat → Level

/-- The `k`-th unscripted answer of the button (R250, U4). -/
opaque Config.freeButton : Nat → Level

/-- The level of DLINE at a time past the scripted waveform (R170, U4). -/
opaque Config.freeDline : Nat → Level

/-- What HOST would read of RXBUF at or beyond RXLEN: unspecified bytes (R62, U8). The first argument is the
model's counter, the second the index; that the byte depends on these two alone is the model's choice
(assumption 14). -/
opaque Config.freeRxByte : Nat → Nat → Byte

/-- The same of LINEBUF at or beyond LINELEN: a constant of its own, so that nothing ties its bytes to those of RXBUF
(R62, U8, assumption 14). -/
opaque Config.freeLineByte : Nat → Nat → Byte

end Sys2Proof
end

