-- ==== Sys2Proof/Machine/State.lean ====
section
/-! DEFINITION. The machine's state as plain data: every piece of state spec/10_state.md gives the block (R20 to
R31), the output trace (R25), the time (R15), the configuration (R8 to R12), and the inputs the outside world
still holds for it: the environment's answers (R130, R170, R200, R250) and the commands HOST has yet to issue
(R6). `State.reset` is the state after reset (R35, R340). -/

namespace Sys2Proof.Machine

/-! ## Why a run could stop -/

/-- No condition of this block stops it: "all errors are local, recoverable conditions", "no operation blocks
indefinitely", "no behaviour of the block halts the model" (spec/93_implementation_defined.md part 1; R300,
R314). An error is a status in RSP and the machine goes on, so there is no fault to name, and this type is
empty. -/
inductive Fault where
  deriving DecidableEq, Repr

/-- What the model itself leaves out. A command the spec says is refused (R110) is no such refusal: it is
answered ILLEGAL_COMMAND in RSP and the machine goes on. -/
inductive Refusal where
  /-- Raised by an arm of `exec` whose instruction has no meaning yet (safe: nothing can be proved of it).
  No arm of this model raises it. -/
  | notModelled (mnemonic : String)
  deriving DecidableEq, Repr

/-! ## Status codes and events -/

/-- The status codes of R301. -/
inductive Status where
  | ok
  | busNack
  | lineIdleFault
  | protocolTimeout
  | checksumMismatch
  | deviceBusy
  | sessionPhaseFailure
  | substringMismatch
  | deviceReportedError
  | illegalCommand
  deriving DecidableEq, Repr

/-- The units of a DELAY event (R25). -/
inductive TimeUnit where
  | us
  | ms
  deriving DecidableEq, Repr

/-- How one phase measurement ended (R174). -/
inductive PhaseOutcome where
  | held (dur : Nat)
  | waitTimedOut
  | holdTimedOut
  | tooShort (dur : Nat)
  deriving DecidableEq, Repr

/-- The alphabet of the output trace (R25). -/
inductive Event where
  | sdaRel
  | sdaLow
  | sclHigh
  | sclLow
  | sampleSda (b : Level)
  | sampleScl (b : Level)
  | dlInput
  | dlLow
  | sampleDl (b : Level)
  | dlPhase (level : Level) (outcome : PhaseOutcome)
  | tx (bytes : Bytes)
  | delay (n : Nat) (unit : TimeUnit)
  | sampleBtn (p : Level)
  deriving DecidableEq, Repr

/-! ## Pins (R24) -/

/-- The drive states of SDA: open-drain, never driven high (R24). -/
inductive SdaDrive where
  | released
  | driveLow
  deriving DecidableEq, Repr

/-- The drive states of SCL (R24). -/
inductive SclDrive where
  | high
  | low
  deriving DecidableEq, Repr

/-- The drive states of DLINE (R24). -/
inductive DlineDrive where
  | inputPullup
  | driveLow
  deriving DecidableEq, Repr

/-- The drive registers of the three output pins (R24). -/
structure Pins where
  sda : SdaDrive
  scl : SclDrive
  dline : DlineDrive
  deriving DecidableEq, Repr

/-! ## Records -/

/-- The response record RSP (R21); a field an operation does not name is 0. -/
structure Rsp where
  status : Byte := 0
  aux : Byte := 0
  aux2 : Byte := 0
  value : Half := 0
  deriving DecidableEq, Repr

/-- The rate limiter's record (R27). -/
structure Dht where
  haveRead : Bool
  lastOkMs : Nat
  deriving DecidableEq, Repr

/-- READING, the last valid sensor reading (R27). -/
structure Reading where
  valid : Bool
  temperatureCelsius : Byte
  humidityPercent : Byte
  validSinceMs : Nat
  deriving DecidableEq, Repr

/-- SESSION (R28). -/
structure Session where
  attached : Bool
  socketOpen : Bool
  deriving DecidableEq, Repr

/-- A committed item of the receive queue: `B(byte)` or `IDLE_EOL` (R28). -/
inductive RxItem where
  | byte (b : Byte)
  | idleEol
  deriving DecidableEq, Repr

/-- The receive side: RX.acc, RX.last_ms and RX.q (R28). -/
structure Rx where
  acc : Bytes
  lastMs : Nat
  q : List RxItem
  deriving DecidableEq, Repr

/-- BTN.phase (R29). -/
inductive BtnPhase where
  | idle
  | pressed
  | longReported
  deriving DecidableEq, Repr

/-- BTN (R29). -/
structure Btn where
  debouncedLevel : Level
  pressStartMs : Nat
  phase : BtnPhase
  rawPrev : Level
  rawSinceMs : Nat
  deriving DecidableEq, Repr

/-- MOTOR.mode (R30). -/
inductive MotorMode where
  | auto
  | manual
  deriving DecidableEq, Repr

/-- MOTOR (R30). -/
structure Motor where
  mode : MotorMode
  manualOn : Bool
  dutyPercent : BitVec 7
  deriving DecidableEq, Repr

/-- ALARM (R31). -/
structure Alarm where
  temperatureAbnormal : Bool
  humidityAbnormal : Bool
  lastTempBeepMs : Nat
  lastHumidityBeepMs : Nat
  lastBothBeepMs : Nat
  tempBeeped : Bool
  humBeeped : Bool
  bothBeeped : Bool
  deriving DecidableEq, Repr

/-! ## The buffers' storage -/

/-- A byte buffer's contents as (index, byte) pairs in one canonical form (`Memory.wf`): indexes strictly rising
and no entry equal to what an unlisted index reads as (0, the reset contents of R23). -/
abbrev Memory := List Host.Cell

/-! ## What the outside world still holds for the block -/

/-- One received byte and the millisecond it arrives at (R200). -/
abbrev Arrival := Nat × Byte

/-- The environment's inputs not yet consumed (R6 (4)). Each is a finite script; any run consumes finitely many
answers, so a statement over every script is a statement over every environment. Past the end of a script of
levels the answer is a free value (`Config.freeLine`, `Config.freeButton`, `Config.freeDline`); past the end
of the arrivals no byte arrives (assumption 2). -/
structure Env where
  /-- Answers to `sample SDA` (while released) and `sample SCL`, in the order they are consumed (R130). -/
  lineAnswers : List Level
  /-- Answers to `sample BTN_IN`, 1 = pressed (R250). -/
  btnAnswers : List Level
  /-- The waveform W of DLINE (R170): each entry gives the level at every time below its first component
  that no earlier entry covers. -/
  wave : List (Nat × Level)
  /-- Arrivals from the modem, times in milliseconds, not decreasing (R200). -/
  arrivals : List Arrival
  /-- The model's own counter of free values drawn; each step and each unscripted answer advances it. -/
  draws : Nat
  deriving DecidableEq, Repr

/-- The operand buffers HOST writes (R23). -/
inductive OperandBuf where
  | txbuf
  | str0
  | str1
  deriving DecidableEq, Repr

/-- The length registers HOST writes (R23). -/
inductive LengthReg where
  | str0len
  | str1len
  deriving DecidableEq, Repr

/-- What HOST does through the command port, one at a time (R6 (1), R20, R23, R320 (d)). -/
inductive HostAct where
  /-- write the command word CMD and wait for the response -/
  | command (w : Word)
  /-- write one byte of an operand buffer -/
  | writeByte (b : OperandBuf) (i : Nat) (v : Byte)
  /-- write a length register -/
  | writeLength (r : LengthReg) (n : Byte)
  /-- let `us` microseconds pass -/
  | wait (us : Nat)
  deriving DecidableEq, Repr

/-! ## The state -/

/-- The whole machine. -/
structure State where
  /-- the parameters, constant along every run (R8 to R12) -/
  cfg : Config
  /-- CMD (R20) -/
  cmd : Word
  /-- RSP (R21) -/
  rsp : Rsp
  /-- `busy` (R22) -/
  busy : Bool
  /-- TXBUF (R23) -/
  txbuf : Memory
  /-- RXBUF (R23) -/
  rxbuf : Memory
  /-- RXLEN (R23) -/
  rxlen : Byte
  /-- STR0 (R23) -/
  str0 : Memory
  /-- STR0LEN (R23) -/
  str0len : Byte
  /-- STR1 (R23) -/
  str1 : Memory
  /-- STR1LEN (R23) -/
  str1len : Byte
  /-- LINEBUF (R23) -/
  linebuf : Memory
  /-- LINELEN (R23) -/
  linelen : Byte
  /-- the drive registers (R24) -/
  pins : Pins
  /-- the output trace from reset on, oldest event first (R25, assumption 5) -/
  trace : List Event
  /-- the time T in microseconds (R15) -/
  t : Nat
  /-- DHT (R27) -/
  dht : Dht
  /-- READING (R27) -/
  reading : Reading
  /-- SESSION (R28) -/
  session : Session
  /-- RX (R28) -/
  rx : Rx
  /-- BTN (R29) -/
  btn : Btn
  /-- MOTOR (R30) -/
  motor : Motor
  /-- ALARM (R31) -/
  alarm : Alarm
  /-- the environment's inputs not yet consumed (R6) -/
  env : Env
  /-- what HOST has yet to do, first action first (R6) -/
  host : List HostAct
  deriving DecidableEq, Repr

/-! ## Reset -/

/-- An environment that scripts no answer and no arrival. -/
def Env.unscripted : Env where
  lineAnswers := []
  btnAnswers := []
  wave := []
  arrivals := []
  draws := 0

/-- The state after reset under a configuration, in an environment and with a host program (R35: "the all-zero,
idle, nothing-valid state"; R340). -/
def State.resetWith (c : Config) (e : Env) (h : List HostAct) : State where
  cfg := c
  cmd := 0
  rsp := {}
  busy := false
  txbuf := []
  rxbuf := []
  rxlen := 0
  str0 := []
  str0len := 0
  str1 := []
  str1len := 0
  linebuf := []
  linelen := 0
  pins := ⟨.released, .high, .inputPullup⟩
  trace := []
  t := 0
  dht := ⟨false, 0⟩
  reading := ⟨false, 0, 0, 0⟩
  session := ⟨false, false⟩
  rx := ⟨[], 0, []⟩
  btn := ⟨false, 0, .idle, false, 0⟩
  motor := ⟨.auto, false, 0⟩
  alarm := ⟨false, false, 0, 0, 0, false, false, false⟩
  env := e
  host := h

/-- The state after reset (R35, R340), under REF and with nothing scripted (assumptions 1 to 3). -/
def State.reset : State := State.resetWith Config.ref Env.unscripted []

end Sys2Proof.Machine
end

