-- ==== Sys2Proof/Machine/Receive.lean ====
section
/-! DEFINITION. RXP, the receive producer (spec/42_uart_session_framer.md R202, R203): the two atomic steps, arrival
and idle commit, and their application in time order. ENGINE never reads RX.acc; RXP alone writes it and
RX.last_ms and appends to RX.q (spec/20_memory.md R73). -/

namespace Sys2Proof.Machine

/-- A terminator byte: carriage return or line feed (R105, R202). -/
def isTerminator (b : Byte) : Bool := b == 0x0D || b == 0x0A

/-- The data byte of an item, `none` for an item of terminator class (R203). -/
def RxItem.data? : RxItem → Option Byte
  | .byte b => if isTerminator b then none else some b
  | .idleEol => none

/-- `q_append(x)`: what does not fit is dropped (R202). -/
def Rx.append (c : UartConfig) (x : RxItem) (rx : Rx) : Rx :=
  if rx.q.length < c.rxQCap then { rx with q := rx.q ++ [x] } else rx

/-- Commit: move the bytes of RX.acc to RX.q, then the item that ends them (R202). -/
def Rx.commit (c : UartConfig) (last : RxItem) (rx : Rx) : Rx :=
  { (rx.acc.foldl (fun r b => r.append c (.byte b)) rx).append c last with acc := [] }

/-- "on arrival (t, b)" (R202). -/
def Rx.arrive (c : UartConfig) (t : Nat) (b : Byte) (rx : Rx) : Rx :=
  let r := { rx with lastMs := t }
  if isTerminator b then r.commit c (.byte b)
  else if r.acc.length < c.rxAccCap then { r with acc := r.acc ++ [b] }
  else r

/-- The time of the pending idle commit, if RX.acc is not empty (R202). -/
def Rx.idleDue (c : UartConfig) (rx : Rx) : Option Nat :=
  if rx.acc.isEmpty then none else some (rx.lastMs + c.tIdleCommitMs)

/-- The idle commit, applied when it is due before `limit` (a time not included) (R202). -/
def Rx.idleBefore (c : UartConfig) (limit : Nat) (rx : Rx) : Rx :=
  match rx.idleDue c with
  | some d => if d < limit then rx.commit c .idleEol else rx
  | none => rx

/-- Apply every RXP step due at or before the millisecond `now`, in time order: an arrival with time t <= now,
after an idle commit due before t; an idle commit due at the time of an arrival comes after it, if still due
(R202: "the arrival resets RX.last_ms, so it is not"). DESIGN CHOICE (assumption 23), for a modem whose bytes depend on
what is transmitted (R200): all arrivals of a millisecond are applied before any step of ENGINE in that millisecond,
the reply to a transmission ENGINE has yet to make in it among them. -/
def rxRun (c : UartConfig) (now : Nat) (rx : Rx) : List Arrival → Rx × List Arrival
  | [] => (rx.idleBefore c (now + 1), [])
  | (t, b) :: rest =>
    if t ≤ now then rxRun c now ((rx.idleBefore c t).arrive c t b) rest
    else (rx.idleBefore c (now + 1), (t, b) :: rest)

/-- The millisecond at which RX.q, empty now, is first not empty, or `deadline` if that comes first (R204, R209:
"let time pass until RX.q is not empty or" the deadline). -/
def wakeAt (c : UartConfig) (deadline : Nat) (rx : Rx) : List Arrival → Nat
  | [] =>
    match rx.idleDue c with
    | some d => if (rx.commit c .idleEol).q.isEmpty then deadline else min d deadline
    | none => deadline
  | (t, b) :: rest =>
    let r := rx.idleBefore c t
    if r.q.isEmpty then
      if deadline ≤ t then
        deadline
      else
        let r' := r.arrive c t b
        if r'.q.isEmpty then max t (wakeAt c deadline r' rest) else t
    else min (rx.lastMs + c.tIdleCommitMs) deadline

/-- How many items RX.q can ever hold in all from here, without a further arrival being scripted: a bound on
the number of times an item can be removed. -/
def rxItems (rx : Rx) (arrivals : List Arrival) : Nat :=
  rx.q.length + rx.acc.length + (if rx.acc.isEmpty then 0 else 1) + 2 * arrivals.length

end Sys2Proof.Machine
end

