-- ==== Sys2Proof/WellFormed.lean ====
section
/-! DEFINITION. The checks by value a command must pass after its word has selected a row of the opcode map
(spec/30_encoding.md R97 (1) to (3)). A command that fails one is refused (R110). Check (4), a command while
`busy` = 1, is about the state and stands in Machine/Ops.lean. -/

namespace Sys2Proof

/-- R97 (1) to (3): a read of no bytes, a `maxLen` that is 0 or above LINE_MAX, and `ev` = 3 are refused; "There
is no other check". -/
def Instr.wf (c : Config) : Instr → Bool
  | .i2cWrite _ _ => true
  | .i2cRead _ n => decide (n ≠ 0)
  | .i2cProbe _ => true
  | .i2cBusIdle => true
  | .dhtReadFrame _ => true
  | .uartReadLine maxLen _ => decide (maxLen ≠ 0) && decide (maxLen.toNat ≤ c.uart.lineMax.val)
  | .uartSendCommand _ => true
  | .uartInitSession _ => true
  | .uartSendLine => true
  | .btnPoll => true
  | .dutyAuto _ => true
  | .alarmUpdate _ _ => true
  | .motorUpdate _ ev _ => decide (ev ≠ .reserved3)

end Sys2Proof
end

