-- ==== Sys2Proof/Machine/Ops.lean ====
section
/-! DEFINITION. The named operations over the state that every meaning is built from: the buffers (spec/10_state.md
R23, spec/20_memory.md R62), time (R15, R320), the output trace (R25), the oracles (R130, R170, R250), the
start and the end of an operation and the refusal of a command (R14, R97, R110, R300, R312), and what HOST
does through the command port (R6, R20, R23). -/

namespace Sys2Proof.Machine

/-! ## Buffers -/

/-- What an unlisted index reads as: "All contents and lengths are 0 after reset" (R23). -/
def Memory.unlisted : Byte := 0

/-- `MemRead(B+i, 1)` (R14). -/
def Memory.read : Memory → Nat → Byte
  | [], _ => Memory.unlisted
  | (k, v) :: rest, i => if k = i then v else Memory.read rest i

/-- `MemWrite(B+i, 1, v)` (R14), keeping the canonical form. -/
def Memory.write (m : Memory) (i : Nat) (v : Byte) : Memory :=
  match m with
  | [] => if v = Memory.unlisted then [] else [(i, v)]
  | (k, w) :: rest =>
    if i < k then
      if v = Memory.unlisted then (k, w) :: rest else (i, v) :: (k, w) :: rest
    else if k = i then
      if v = Memory.unlisted then rest else (i, v) :: rest
    else (k, w) :: Memory.write rest i v

/-- Every index of `m` is at least `lo`, the indexes rise strictly and no entry is the unlisted byte. -/
def Memory.wfFrom (lo : Nat) : Memory → Bool
  | [] => true
  | (k, v) :: rest => decide (lo ≤ k) && decide (v ≠ Memory.unlisted) && Memory.wfFrom (k + 1) rest

/-- The canonical form. -/
def Memory.wf (m : Memory) : Bool := Memory.wfFrom 0 m

/-- Every listed index is below `cap`. -/
def Memory.below (cap : Nat) (m : Memory) : Bool := m.all (fun c => decide (c.1 < cap))

/-- `B[0..n)` as a byte string (R13, R62). -/
def Memory.prefixBytes (m : Memory) (n : Nat) : Bytes := (List.range n).map (Memory.read m)

/-- The capacity of TXBUF, RXBUF, STR0 and STR1 (R23; STR_CAP is fixed by the 8-bit length registers, R10). -/
def bufCap : Nat := 255

/-! ## Time -/

/-- `now_us()` (R15, R320). -/
def State.nowUs (s : State) : Nat := s.t

/-- `now_ms()` (R15, R320). -/
def State.nowMs (s : State) : Nat := s.t / 1000

/-- Apply every RXP step that is due (R202, R311: "every RXP step due at or before the current time is applied
before ENGINE's next step"). -/
def State.pump (s : State) : State :=
  let r := rxRun s.cfg.uart s.nowMs s.rx s.env.arrivals
  { s with rx := r.1, env := { s.env with arrivals := r.2 } }

/-- `T <- x`, and the RXP steps that are due by then: RXP runs at all times (R354 (6)). -/
def State.setTime (s : State) (x : Nat) : State := { s with t := x }.pump

/-- A duration in microseconds. -/
def TimeUnit.toUs : TimeUnit → Nat → Nat
  | .us, n => n
  | .ms, n => n * 1000

/-! ## The output trace -/

/-- What an event writes: the column "writes" of R25. -/
def State.applyEvent (s : State) : Event → State
  | .sdaRel => { s with pins := { s.pins with sda := .released } }
  | .sdaLow => { s with pins := { s.pins with sda := .driveLow } }
  | .sclHigh => { s with pins := { s.pins with scl := .high } }
  | .sclLow => { s with pins := { s.pins with scl := .low } }
  | .dlInput => { s with pins := { s.pins with dline := .inputPullup } }
  | .dlLow => { s with pins := { s.pins with dline := .driveLow } }
  | .delay n u => s.setTime (s.t + u.toUs n)
  | .sampleSda _ => s
  | .sampleScl _ => s
  | .sampleDl _ => s
  | .dlPhase _ _ => s
  | .tx _ => s
  | .sampleBtn _ => s

/-- `emit E` (R14): append the event to the trace, with what it writes. -/
def State.emit (s : State) (e : Event) : State :=
  let s1 := s.applyEvent e
  { s1 with trace := s1.trace ++ [e] }

/-- `delay_us(n)` (R14). -/
def State.delayUs (s : State) (n : Nat) : State := s.emit (.delay n .us)

/-- `delay_ms(n)` (R14). -/
def State.delayMs (s : State) (n : Nat) : State := s.emit (.delay n .ms)

/-! ## The oracles -/

/-- Consume one answer of the I2C lines (R130). -/
def State.drawLine (s : State) : Level × State :=
  match s.env.lineAnswers with
  | b :: rest => (b, { s with env := { s.env with lineAnswers := rest } })
  | [] => (Config.freeLine s.env.draws, { s with env := { s.env with draws := s.env.draws + 1 } })

/-- Consume one answer of the button (R250). -/
def State.drawBtn (s : State) : Level × State :=
  match s.env.btnAnswers with
  | b :: rest => (b, { s with env := { s.env with btnAnswers := rest } })
  | [] => (Config.freeButton s.env.draws, { s with env := { s.env with draws := s.env.draws + 1 } })

/-- `sample SDA` and its event: 0 without an answer while SDA is driven low, else the oracle's answer (R24,
R130). -/
def State.sampleSda (s : State) : Level × State :=
  match s.pins.sda with
  | .driveLow => (false, s.emit (.sampleSda false))
  | .released => (s.drawLine.1, s.drawLine.2.emit (.sampleSda s.drawLine.1))

/-- `sample SCL` and its event (R130). -/
def State.sampleScl (s : State) : Level × State :=
  (s.drawLine.1, s.drawLine.2.emit (.sampleScl s.drawLine.1))

/-- `sample BTN_IN` and its event (R250, R253). -/
def State.sampleBtn (s : State) : Level × State :=
  (s.drawBtn.1, s.drawBtn.2.emit (.sampleBtn s.drawBtn.1))

/-- `W(t)` of a scripted waveform, a free value past its end (R170). -/
def waveLevel : List (Nat × Level) → Nat → Level
  | [], t => Config.freeDline t
  | (u, b) :: rest, t => if t < u then b else waveLevel rest t

/-- The level of DLINE at time `t`: 0 while the block drives it low, else W(t) (R170). -/
def State.dlineLevel (s : State) (t : Nat) : Level :=
  match s.pins.dline with
  | .driveLow => false
  | .inputPullup => waveLevel s.env.wave t

/-- `sample DLINE` and its event (R172). -/
def State.sampleDl (s : State) : Level × State :=
  (s.dlineLevel s.t, s.emit (.sampleDl (s.dlineLevel s.t)))

/-! ## Start, end and refusal of an operation -/

/-- The numbers of R301. -/
def Status.code : Status → Byte
  | .ok => 0x00
  | .busNack => 0x01
  | .lineIdleFault => 0x02
  | .protocolTimeout => 0x03
  | .checksumMismatch => 0x04
  | .deviceBusy => 0x05
  | .sessionPhaseFailure => 0x06
  | .substringMismatch => 0x07
  | .deviceReportedError => 0x08
  | .illegalCommand => 0xFF

/-- A response: "Fields not named are 0" (R109). -/
def response (st : Status) (aux aux2 : Byte) (value : Half) : Rsp := ⟨st.code, aux, aux2, value⟩

/-- `busy <- 1`, after the RXP steps that are due (R22, R202). -/
def State.accept (s : State) : State := { s with busy := true }.pump

/-- `return R`: write all four fields of RSP, `busy <- 0` (R14, R21). An error takes the same way with a status
other than OK; it "saves nothing and switches nothing" (R300, R312). -/
def State.respond (s : State) (r : Rsp) : State := { s with rsp := r, busy := false }

/-- The refusal of a command: RSP = ILLEGAL_COMMAND, no event, no other change, `busy` as it was (R110). -/
def State.refuse (s : State) : State := { s with rsp := response .illegalCommand 0 0 0 }

/-- Run an operation to its `return`: refused while `busy` = 1 or when its checks by value fail, before any side
effect (R97, R110, R311); else accepted, run and answered. -/
def runOp (valid : Bool) (op : State → Rsp × State) (s : State) : Host.Outcome State Fault Refusal :=
  if s.busy || !valid then .next s.refuse
  else .next ((op s.accept).2.respond (op s.accept).1)

/-! ## HOST -/

/-- HOST writes CMD; while `busy` = 1 the running operation's word stands (R20, R90; spec/93_implementation_defined.md
U7). -/
def State.writeCmd (s : State) (w : Word) : State := if s.busy then s else { s with cmd := w }

/-- HOST writes one byte of an operand buffer, only while `busy` = 0 (R23, R76) and only below the capacity ("a
write past a capacity never happens", R23). -/
def State.hostWriteByte (s : State) (b : OperandBuf) (i : Nat) (v : Byte) : State :=
  if s.busy || decide (bufCap ≤ i) then s
  else
    match b with
    | .txbuf => { s with txbuf := Memory.write s.txbuf i v }
    | .str0 => { s with str0 := Memory.write s.str0 i v }
    | .str1 => { s with str1 := Memory.write s.str1 i v }

/-- HOST writes a length register, only while `busy` = 0 (R23, R76). -/
def State.hostWriteLength (s : State) (r : LengthReg) (n : Byte) : State :=
  if s.busy then s
  else
    match r with
    | .str0len => { s with str0len := n }
    | .str1len => { s with str1len := n }

/-- Time passes between commands (R320 (d)). -/
def State.wait (s : State) (us : Nat) : State := s.setTime (s.t + us)

/-- HOST's next action, and the state with it taken. When HOST has nothing to do the time alone moves, by one
microsecond (R6 (5), assumption 4). -/
def State.nextAction (s : State) : HostAct × State :=
  match s.host with
  | [] => (.wait 1, { s with env := { s.env with draws := s.env.draws + 1 } })
  | a :: rest => (a, { s with host := rest, env := { s.env with draws := s.env.draws + 1 } })

/-- What HOST reads of RXBUF: the byte below RXLEN, an unspecified byte at or beyond it (R62, U8). Two reads of one
index between the same two steps give one byte, which is the model's choice (assumption 14). -/
def State.hostReadRxbuf (s : State) (i : Nat) : Byte :=
  if i < s.rxlen.toNat then Memory.read s.rxbuf i else Config.freeRxByte s.env.draws i

/-- What HOST reads of LINEBUF: the byte below LINELEN, an unspecified byte at or beyond it, free of what RXBUF gives
(R62, U8). Two reads of one index between the same two steps give one byte, which is the model's choice (assumption
14). -/
def State.hostReadLinebuf (s : State) (i : Nat) : Byte :=
  if i < s.linelen.toNat then Memory.read s.linebuf i else Config.freeLineByte s.env.draws i

end Sys2Proof.Machine
end

