-- ==== Sys2Proof/Machine/Operands.lean ====
section
/-! DEFINITION. Operand forms: the signed temperatures (spec/30_encoding.md R94 to R96), the I2C address byte
(R100), the operand byte strings (R23, R62), numerals and command templates (R106, R212), bits to bytes
(R63, R64) and the substring test (R13). -/

namespace Sys2Proof.Machine

/-- `sext_16(v)`: v if v < 32768, else v - 65536 (R13). -/
def sext16 (v : Half) : Int := if v.toNat < 32768 then (v.toNat : Int) else (v.toNat : Int) - 65536

/-- `zext_N(v)` as an integer (R13). -/
def zext8 (v : Byte) : Int := (v.toNat : Int)

/-- The direction bit of an address byte: 0 write, 1 read (R100). -/
inductive Direction where
  | write
  | read
  deriving DecidableEq, Repr

/-- The address byte `addr7 * 2 + rw` (R100, R139). -/
def addressByte (addr7 : BitVec 7) (d : Direction) : Byte :=
  BitVec.ofNat 8 (addr7.toNat * 2 + (match d with | .write => 0 | .read => 1))

/-- TXBUF[0..n) (R141). -/
def State.txBytes (s : State) (n : Byte) : Bytes := Memory.prefixBytes s.txbuf n.toNat

/-- STR0[0..STR0LEN) (R210, R216, R220). -/
def State.str0Bytes (s : State) : Bytes := Memory.prefixBytes s.str0 s.str0len.toNat

/-- STR1[0..STR1LEN) (R210, R216). -/
def State.str1Bytes (s : State) : Bytes := Memory.prefixBytes s.str1 s.str1len.toNat

/-- Bits to an unsigned number, first bit most significant: `v <- v * 2 + bit` (R138, R178). -/
def bitsToNat (bits : List Level) : Nat := bits.foldl (fun v b => v * 2 + b.toNat) 0

/-- Eight bits to a byte, first bit ending as bit 7 (R63, R64). -/
def bitsToByte (bits : List Level) : Byte := BitVec.ofNat 8 (bitsToNat bits)

/-- Byte `k` of a frame of bits in arrival order: bits 8k to 8k+7 (R64, R177). -/
def frameByte (bits : List Level) (k : Nat) : Byte := bitsToByte ((bits.drop (8 * k)).take 8)

/-- `trunc_8` of an integer sum (R13). -/
def trunc8 (n : Nat) : Byte := BitVec.ofNat 8 (n % 256)

/-- Prepend the decimal digits of `n` to `tail`, `fuel` digits at most. -/
def decimalOnto : Nat → Nat → Bytes → Bytes
  | 0, _, tail => tail
  | fuel + 1, n, tail =>
    let d := BitVec.ofNat 8 (0x30 + n % 10)
    if n < 10 then d :: tail else decimalOnto fuel (n / 10) (d :: tail)

/-- The shortest ASCII decimal numeral (R106): no sign, no leading zeros, "0" for zero. -/
def decimal (n : Nat) : Bytes := decimalOnto (n + 1) n []

/-- A template with its slots replaced (R106). -/
def Template.fill {σ : Type} (value : σ → Bytes) (tpl : Template σ) : Bytes :=
  tpl.flatMap fun
    | .text bs => bs
    | .slot x => value x

/-- `compose(template, ...)`: filled, then cut to CMD_TEXT_CAP bytes (R106, R212). -/
def compose {σ : Type} (c : UartConfig) (value : σ → Bytes) (tpl : Template σ) : Bytes :=
  (Template.fill value tpl).take c.cmdTextCap

/-- `compose(CMD_SETAPN, apn)` (R216). -/
def composeSetApn (c : UartConfig) (apn : Bytes) : Bytes :=
  compose c (fun | .apn => apn) c.cmdSetApn

/-- `compose(CMD_SOCK_OPEN, host, port)` (R216). -/
def composeSockOpen (c : UartConfig) (host : Bytes) (port : Nat) : Bytes :=
  compose c (fun | .host => host | .port => decimal port) c.cmdSockOpen

/-- `compose(CMD_SEND_PREP, N)` (R220). -/
def composeSendPrep (c : UartConfig) (n : Nat) : Bytes :=
  compose c (fun | .n => decimal n) c.cmdSendPrep

/-- `contains(h, n)`: some slice of `h` equals `n`, byte for byte; true for empty `n` (R13). -/
def contains : Bytes → Bytes → Bool
  | [], n => n.isEmpty
  | b :: rest, n => n.isPrefixOf (b :: rest) || contains rest n

end Sys2Proof.Machine
end

