-- ==== Sys2Proof/Machine/Flags.lean ====
section
/-! DEFINITION. The single-bit status flags of spec/10_state.md R32 and how responses pack them
(spec/30_encoding.md R109): the hysteresis of the alarm flags (R281), the session flags (R213, R216), the
outcome of a reply line (R207, R208), the sampled bus levels (R144), the motor's two bits (R275). -/

namespace Sys2Proof.Machine

/-- Two bits, `hi` in bit 1 and `lo` in bit 0, as an unsigned number (R109). -/
def twoBits (hi lo : Bool) : Nat := hi.toNat * 2 + lo.toNat

/-- The hysteresis rule (R281): a clear flag is set strictly above the outer threshold, a set flag is cleared
strictly below the inner one. -/
def hyst (flag : Bool) (x high hystv : Int) : Bool :=
  if flag then !decide (x < high - hystv) else decide (x > high)

/-- `flags()`: attached in bit 0, socketOpen in bit 1 (R216). -/
def Session.flags (x : Session) : Half := BitVec.ofNat 16 (twoBits x.socketOpen x.attached)

/-- temperatureAbnormal in bit 0, humidityAbnormal in bit 1 (R280). -/
def Alarm.flags (x : Alarm) : Half := BitVec.ofNat 16 (twoBits x.humidityAbnormal x.temperatureAbnormal)

/-- The number of a control mode (R30). -/
def MotorMode.bit : MotorMode → Bool
  | .auto => false
  | .manual => true

/-- mode in bit 0 (1 = Manual), manualOn in bit 1 (R109, R275). -/
def Motor.flags (x : Motor) : Byte := BitVec.ofNat 8 (twoBits x.manualOn x.mode.bit)

/-- The number of a button phase (R29). -/
def BtnPhase.code : BtnPhase → Byte
  | .idle => 0
  | .pressed => 1
  | .longReported => 2

/-- The two sampled levels, SDA in bit 0 and SCL in bit 1 (R109, R144). -/
def busLevels (sda scl : Level) : Byte := BitVec.ofNat 8 (twoBits scl sda)

/-- The outcome one reply line decides, tested in the order expected, structured marker, generic marker (R207,
R208); `none` for a line that is ignored. -/
def lineOutcome (c : UartConfig) (expected line : Bytes) : Option Status :=
  if contains line expected then some .ok
  else if !c.errCodeMarker.isEmpty && contains line c.errCodeMarker then some .substringMismatch
  else if contains line c.errGeneric then some .deviceReportedError
  else none

end Sys2Proof.Machine
end

