-- ==== Sys2Proof/Machine/Btn.lean ====
section
/-! DEFINITION. The BTN sub-block (spec/43_button_debouncer.md): debounce (R251), the event state machine (R252) and
BTN_POLL (R253). -/

namespace Sys2Proof.Machine

/-- The three results of a poll (R253). -/
inductive BtnEvent where
  | noEvent
  | shortPress
  | longPress
  deriving DecidableEq, Repr

/-- RSP.value of an event: 0 NoEvent, 1 ShortPress, 2 LongPress (R109). -/
def BtnEvent.code : BtnEvent → Half
  | .noEvent => 0
  | .shortPress => 1
  | .longPress => 2

/-- `debounce(p, now)` (R251). -/
def Btn.debounce (settleMs : Nat) (p : Level) (now : Nat) (b : Btn) : Btn :=
  if p ≠ b.rawPrev then { b with rawPrev := p, rawSinceMs := now }
  else if p ≠ b.debouncedLevel ∧ b.rawSinceMs + settleMs ≤ now then { b with debouncedLevel := p }
  else b

/-- `events(now)` (R252): at most one transition and one event; in Pressed the long-press test comes first. -/
def Btn.events (longMs : Nat) (now : Nat) (b : Btn) : BtnEvent × Btn :=
  match b.phase with
  | .idle =>
    if b.debouncedLevel then (.noEvent, { b with phase := .pressed, pressStartMs := now }) else (.noEvent, b)
  | .pressed =>
    if b.pressStartMs + longMs ≤ now then (.longPress, { b with phase := .longReported })
    else if b.debouncedLevel then (.noEvent, b)
    else (.shortPress, { b with phase := .idle })
  | .longReported => if b.debouncedLevel then (.noEvent, b) else (.noEvent, { b with phase := .idle })

/-- One poll of the button with the sample `p`: debounce, then the state machine (R253). -/
def Btn.poll (c : BtnConfig) (p : Level) (now : Nat) (b : Btn) : BtnEvent × Btn :=
  (b.debounce c.settleMs p now).events c.longMs now

/-- RSP of a poll: the phase and the accepted level after it, and the event (R109, R253). -/
def btnResponse (r : BtnEvent × Btn) : Rsp :=
  response .ok r.2.phase.code (BitVec.ofNat 8 r.2.debouncedLevel.toNat) r.1.code

/-- The body of BTN_POLL (R253). -/
def btnPollOp (s : State) : Rsp × State :=
  let p := s.sampleBtn
  let r := s.btn.poll s.cfg.btn p.1 s.nowMs
  (btnResponse r, { p.2 with btn := r.2 })

/-- BTN_POLL (R253). -/
def execBtnPoll (s : State) : Host.Outcome State Fault Refusal :=
  runOp (Instr.btnPoll.wf s.cfg) btnPollOp s

end Sys2Proof.Machine
end

