-- ==== Sys2Proof/Machine/Dht.lean ====
section
/-! DEFINITION. The DHT sub-block (spec/41_pulse_decoder.md): rate limiter, line-health check, start signal, phase
measurement, payload, checksum and DHT_READ_FRAME (R171 to R182). -/

namespace Sys2Proof.Machine

/-- `rate_limited()` (R171). -/
def State.rateLimited (s : State) : Bool :=
  decide (s.nowMs < s.cfg.dht.warmupMs) ||
    (s.dht.haveRead && decide (s.nowMs < s.dht.lastOkMs + s.cfg.dht.spacingMs))

/-- `line_health()` (R172). -/
def lineHealth (s : State) : Level × State := ((s.emit .dlInput).delayUs s.cfg.dht.healthUs).sampleDl

/-- `start_signal()` (R173). -/
def startSignal (s : State) : State :=
  (((s.emit .dlLow).delayUs s.cfg.dht.startLowUs).emit .dlInput).delayUs s.cfg.dht.releaseUs

/-- The least time of `t, t+1, …, t+fuel-1` at which `p` holds. -/
def firstTime (p : Nat → Bool) : Nat → Nat → Option Nat
  | 0, _ => none
  | fuel + 1, t => if p t then some t else firstTime p fuel (t + 1)

/-- `measure_phase(level, tmo, minDur)` (R174): the wait fails at `tmo`, the hold may last `tmo`. -/
def measurePhase (level : Level) (tmo minDur : Nat) (s : State) : PhaseOutcome × State :=
  match firstTime (fun t => s.dlineLevel t == level) tmo s.t with
  | none => (.waitTimedOut, (s.setTime (s.t + tmo)).emit (.dlPhase level .waitTimedOut))
  | some ta =>
    match firstTime (fun t => s.dlineLevel t != level) tmo (ta + 1) with
    | none => (.holdTimedOut, (s.setTime (ta + tmo)).emit (.dlPhase level .holdTimedOut))
    | some tb =>
      let out : PhaseOutcome := if tb - ta < minDur then .tooShort (tb - ta) else .held (tb - ta)
      (out, (s.setTime tb).emit (.dlPhase level out))

/-- The duration of a phase that ended as Held. -/
def PhaseOutcome.heldDur? : PhaseOutcome → Option Nat
  | .held d => some d
  | .waitTimedOut => none
  | .holdTimedOut => none
  | .tooShort _ => none

/-- The step codes of R176. -/
inductive DhtStep where
  | respLow
  | respHigh
  | bitLow
  | bitHigh
  deriving DecidableEq, Repr

/-- The numbers of the step codes (R176). -/
def DhtStep.code : DhtStep → Byte
  | .respLow => 1
  | .respHigh => 2
  | .bitLow => 3
  | .bitHigh => 4

/-- How reading the payload ended: all bits in arrival order, or the failing phase and its bit's index. -/
inductive PayloadResult where
  | bits (bs : List Level)
  | failed (step : DhtStep) (i : Nat)
  deriving DecidableEq, Repr

/-- The payload from bit `i` on, `left` bits to come, `got` the bits so far in arrival order (R177): a bit is 1
when its high phase lasts strictly longer than DHT_BIT_THRESH_US (R104). -/
def readPayload (tmo : Nat) : Nat → Nat → List Level → State → PayloadResult × State
  | 0, _, got, s => (.bits got, s)
  | left + 1, i, got, s =>
    let lowPhase := measurePhase false tmo s.cfg.dht.minBitLowUs s
    match lowPhase.1.heldDur? with
    | none => (.failed .bitLow i, lowPhase.2)
    | some _ =>
      let highPhase := measurePhase true tmo 0 lowPhase.2
      match highPhase.1.heldDur? with
      | none => (.failed .bitHigh i, highPhase.2)
      | some h => readPayload tmo left (i + 1) (got ++ [decide (s.cfg.dht.bitThreshUs < h)]) highPhase.2

/-- The checksum test: the fifth byte equals the truncated sum of the first four (R103, R181). -/
def checksumOk (bits : List Level) : Bool :=
  frameByte bits 4 ==
    trunc8 ((frameByte bits 0).toNat + (frameByte bits 1).toNat + (frameByte bits 2).toNat + (frameByte bits 3).toNat)

/-- READING is superseded wholesale and the rate limiter's time is taken, on success only (R27, R182). -/
def State.recordReading (s : State) (humidity temperature : Byte) : State :=
  { s with
    reading :=
      { valid := true, temperatureCelsius := temperature, humidityPercent := humidity, validSinceMs := s.nowMs }
    dht := { haveRead := true, lastOkMs := s.nowMs } }

/-- The validation and the outputs of a frame of 40 bits (R181, R182). -/
def finishFrame (bits : List Level) (s : State) : Rsp × State :=
  if checksumOk bits then
    (response .ok 0 0 (frameByte bits 0 ++ frameByte bits 2), s.recordReading (frameByte bits 0) (frameByte bits 2))
  else (response .checksumMismatch 0 0 0, s)

/-- The body of DHT_READ_FRAME (R178). -/
def dhtReadFrameOp (tmo : Nat) (s : State) : Rsp × State :=
  if s.rateLimited then (response .deviceBusy 0 0 0, s)
  else
    let health := lineHealth s
    if !health.1 then (response .lineIdleFault 0 0 0, health.2)
    else
      let respLow := measurePhase false tmo s.cfg.dht.minRespUs (startSignal health.2)
      match respLow.1.heldDur? with
      | none => (response .protocolTimeout DhtStep.respLow.code 0 0, respLow.2)
      | some _ =>
        let respHigh := measurePhase true tmo s.cfg.dht.minRespUs respLow.2
        match respHigh.1.heldDur? with
        | none => (response .protocolTimeout DhtStep.respHigh.code 0 0, respHigh.2)
        | some _ =>
          let p := readPayload tmo 40 0 [] respHigh.2
          match p.1 with
          | .failed step i => (response .protocolTimeout step.code (BitVec.ofNat 8 i) 0, p.2)
          | .bits bits => finishFrame bits p.2

/-- DHT_READ_FRAME (R178): the operand is in microseconds, unsigned (R94). -/
def execDhtReadFrame (tmo : Half) (s : State) : Host.Outcome State Fault Refusal :=
  runOp ((Instr.dhtReadFrame tmo).wf s.cfg) (dhtReadFrameOp tmo.toNat) s

end Sys2Proof.Machine
end

