-- ==== Sys2Proof/Machine/Duty.lean ====
section
/-! DEFINITION. The DUTY sub-block (spec/44_duty_alarm.md): auto duty (R270), the motor state and its duty (R275,
R276), the hysteretic alarms and the beep request (R280, R281, R283). -/

namespace Sys2Proof.Machine

/-! ## Auto duty and motor -/

/-- `autoDuty(t)` (R270): floor division, both operands positive where it is reached. -/
def autoDuty (c : DutyConfig) (t : Int) : Nat :=
  if t ≤ c.tLow then 0
  else if c.tHigh ≤ t then 100
  else c.rampMin.val + ((100 - c.rampMin.val) * (t - c.tLow).toNat) / (c.tHigh - c.tLow).toNat

/-- `duty(mode, manualOn, rv, t)` (R276). -/
def motorDuty (c : DutyConfig) (mode : MotorMode) (manualOn rv : Bool) (t : Int) : Nat :=
  match mode with
  | .manual => if manualOn then c.manualOnDuty.val else 0
  | .auto => if rv then autoDuty c t else 0

/-- The entry of a row for a mode and a value of manualOn (R275, U19). -/
def MotorRow.entry (r : MotorRow) : MotorMode → Bool → MotorControl
  | .auto, false => r.autoOff
  | .auto, true => r.autoOn
  | .manual, false => r.manualOff
  | .manual, true => r.manualOn

/-- Set mode and manualOn. -/
def Motor.setControl (x : MotorControl) (m : Motor) : Motor :=
  { m with mode := if x.isManual then .manual else .auto, manualOn := x.manualOn }

/-- Apply one event by the event mapping; NoEvent does nothing (R275). -/
def Motor.press (map : MotorMap) (ev : EventArg) (m : Motor) : Motor :=
  match ev with
  | .noEvent => m
  | .shortPress => m.setControl (MotorRow.entry map.shortPress m.mode m.manualOn)
  | .longPress => m.setControl (MotorRow.entry map.longPress m.mode m.manualOn)
  | .reserved3 => m

/-- The motor after one event and one reading: mode and manualOn by the mapping, then the duty (R275). -/
def Motor.update (c : DutyConfig) (rv : Bool) (ev : EventArg) (t : Int) (m : Motor) : Motor :=
  let m1 := m.press c.motorMap ev
  { m1 with dutyPercent := BitVec.ofNat 7 (motorDuty c m1.mode m1.manualOn rv t) }

/-- The body of DUTY_AUTO (R270). -/
def dutyAutoOp (t : Int) (s : State) : Rsp × State :=
  (response .ok 0 0 (BitVec.ofNat 16 (autoDuty s.cfg.duty t)), s)

/-- The body of MOTOR_UPDATE (R275). -/
def motorUpdateOp (rv : Bool) (ev : EventArg) (t : Int) (s : State) : Rsp × State :=
  let m := s.motor.update s.cfg.duty rv ev t
  (response .ok m.flags 0 (m.dutyPercent.zeroExtend 16), { s with motor := m })

/-! ## Alarms -/

/-- The beep patterns (R109, R283). -/
inductive Beep where
  | none
  | temperatureOnly
  | humidityOnly
  | both
  deriving DecidableEq, Repr

/-- RSP.aux of a beep request (R109). -/
def Beep.code : Beep → Byte
  | .none => 0
  | .temperatureOnly => 1
  | .humidityOnly => 2
  | .both => 3

/-- The two flags after a reading (R280, R281). -/
def Alarm.setFlags (c : DutyConfig) (h t : Int) (a : Alarm) : Alarm :=
  { a with
    temperatureAbnormal := hyst a.temperatureAbnormal t c.alTHigh c.alTHyst
    humidityAbnormal := hyst a.humidityAbnormal h c.alHHigh c.alHHyst }

/-- May a pattern beep: it never has, or its cooldown has elapsed (R283). -/
def mayBeep (beeped : Bool) (lastMs cooldownMs now : Nat) : Bool := !beeped || decide (lastMs + cooldownMs ≤ now)

/-- `beep_request(now)` (R283): the three patterns exclude one another, each with its own cooldown. -/
def Alarm.beepRequest (cooldownMs now : Nat) (a : Alarm) : Beep × Alarm :=
  if a.temperatureAbnormal && a.humidityAbnormal then
    if mayBeep a.bothBeeped a.lastBothBeepMs cooldownMs now then
      (.both, { a with lastBothBeepMs := now, bothBeeped := true })
    else (.none, a)
  else if a.temperatureAbnormal then
    if mayBeep a.tempBeeped a.lastTempBeepMs cooldownMs now then
      (.temperatureOnly, { a with lastTempBeepMs := now, tempBeeped := true })
    else (.none, a)
  else if a.humidityAbnormal then
    if mayBeep a.humBeeped a.lastHumidityBeepMs cooldownMs now then
      (.humidityOnly, { a with lastHumidityBeepMs := now, humBeeped := true })
    else (.none, a)
  else (.none, a)

/-- The alarms after one reading at `now` (R280). -/
def Alarm.update (c : DutyConfig) (h t : Int) (now : Nat) (a : Alarm) : Beep × Alarm :=
  (a.setFlags c h t).beepRequest c.cooldownMs now

/-- The body of ALARM_UPDATE (R280). -/
def alarmUpdateOp (h t : Int) (s : State) : Rsp × State :=
  let r := s.alarm.update s.cfg.duty h t s.nowMs
  (response .ok r.1.code 0 r.2.flags, { s with alarm := r.2 })

/-- DUTY_AUTO (R270). -/
def execDutyAuto (tempC : Half) (s : State) : Host.Outcome State Fault Refusal :=
  runOp ((Instr.dutyAuto tempC).wf s.cfg) (dutyAutoOp (sext16 tempC)) s

/-- ALARM_UPDATE (R280): the humidity is unsigned, the temperature signed (R95). -/
def execAlarmUpdate (humidity : Byte) (tempC : Half) (s : State) : Host.Outcome State Fault Refusal :=
  runOp ((Instr.alarmUpdate humidity tempC).wf s.cfg) (alarmUpdateOp (zext8 humidity) (sext16 tempC)) s

/-- MOTOR_UPDATE (R275); `ev` = 3 is refused (R97). -/
def execMotorUpdate (rv : Bool) (ev : EventArg) (tempC : Half) (s : State) :
    Host.Outcome State Fault Refusal :=
  runOp ((Instr.motorUpdate rv ev tempC).wf s.cfg) (motorUpdateOp rv ev (sext16 tempC)) s

end Sys2Proof.Machine
end

