-- ==== Sys2Proof/Machine/I2c.lean ====
section
/-! DEFINITION. The I2C sub-block (spec/40_i2c_master.md): the wire micro-operations (R132 to R139) and the four
operations (R141 to R144). No wait on SCL (R131), no check of a written bit (R134), no retry (R145), no
repeated START (R146). -/

namespace Sys2Proof.Machine

/-! ## Micro-operations -/

/-- The idle check: release both lines, settle, sample SDA, then SCL (R132). -/
def idleCheck (s : State) : (Level × Level) × State :=
  let s1 := ((s.emit .sdaRel).emit .sclHigh).delayUs s.cfg.i2c.settle
  let d := s1.sampleSda
  let c := d.2.sampleScl
  ((d.1, c.1), c.2)

/-- CLOCK_PULSE: one clock period with one sample (R133). -/
def clockPulse (s : State) : Level × State :=
  let s1 := ((s.delayUs s.cfg.i2c.su).emit .sclHigh).delayUs s.cfg.i2c.hi1
  let r := s1.sampleSda
  (r.1, ((r.2.delayUs s.cfg.i2c.hi2).emit .sclLow).delayUs s.cfg.i2c.lo)

/-- START: `true` for Ok, `false` for NotIdle, where no START goes on the wire (R135). -/
def start (s : State) : Bool × State :=
  let r := idleCheck s
  if r.1.1 && r.1.2 then
    (true, (((r.2.emit .sdaLow).delayUs s.cfg.i2c.sta).emit .sclLow).delayUs s.cfg.i2c.lo)
  else (false, r.2)

/-- STOP (R136). -/
def stop (s : State) : State :=
  ((((s.emit .sdaLow).delayUs s.cfg.i2c.su).emit .sclHigh).delayUs s.cfg.i2c.sto |>.emit .sdaRel).delayUs
    s.cfg.i2c.buf

/-- Put one bit on SDA: 1 releases, 0 drives low (R101, R137). -/
def driveBit (b : Level) (s : State) : State := s.emit (if b then .sdaRel else .sdaLow)

/-- Clock out bits `k-1` down to 0 of `v`, each sample discarded (R134, R137). -/
def writeBits (v : Byte) : Nat → State → State
  | 0, s => s
  | k + 1, s => writeBits v k (clockPulse (driveBit (v.getLsbD k) s)).2

/-- WRITE_BYTE: was the byte acknowledged (R137)? -/
def writeByte (v : Byte) (s : State) : Bool × State :=
  let r := clockPulse ((writeBits v 8 s).emit .sdaRel)
  (!r.1, r.2)

/-- Clock in `k` bits, in arrival order (R138). -/
def readBits : Nat → State → List Level × State
  | 0, s => ([], s)
  | k + 1, s =>
    let r := clockPulse s
    let rest := readBits k r.2
    (r.1 :: rest.1, rest.2)

/-- READ_BYTE: the acknowledgement is driven low but after the last byte, where the line is left released (R138). -/
def readByte (last : Bool) (s : State) : Byte × State :=
  let r := readBits 8 (s.emit .sdaRel)
  (bitsToByte r.1, (clockPulse (driveBit last r.2)).2.emit .sdaRel)

/-- Write data bytes until one is not acknowledged: its index, or `none` when all were (R141). -/
def sendData : Bytes → Nat → State → Option Nat × State
  | [], _, s => (none, s)
  | v :: rest, k, s =>
    let r := writeByte v s
    if r.1 then sendData rest (k + 1) r.2 else (some k, r.2)

/-- Read `left` bytes into RXBUF from index `k` on (R142). -/
def readData : Nat → Nat → State → State
  | 0, _, s => s
  | left + 1, k, s =>
    let r := readByte (left == 0) s
    readData left (k + 1) { r.2 with rxbuf := Memory.write r.2.rxbuf k r.1 }

/-- RXLEN <- n. -/
def State.setRxlen (s : State) (n : Byte) : State := { s with rxlen := n }

/-! ## Operations -/

/-- The cause codes in RSP.aux (R109, R302). -/
inductive I2cCause where
  | none
  | addrNack
  | dataNack
  | busNotIdle
  deriving DecidableEq, Repr

/-- The numbers of the cause codes (R109). -/
def I2cCause.code : I2cCause → Byte
  | .none => 0
  | .addrNack => 1
  | .dataNack => 2
  | .busNotIdle => 3

/-- The body of I2C_WRITE (R141). -/
def i2cWriteOp (addr7 : BitVec 7) (n : Byte) (s : State) : Rsp × State :=
  let st := start s
  if !st.1 then (response .busNack I2cCause.busNotIdle.code 0 0, st.2)
  else
    let a := writeByte (addressByte addr7 .write) st.2
    if !a.1 then (response .busNack I2cCause.addrNack.code 0 0, stop a.2)
    else
      let d := sendData (s.txBytes n) 0 a.2
      match d.1 with
      | some k => (response .busNack I2cCause.dataNack.code (BitVec.ofNat 8 k) 0, stop d.2)
      | none => (response .ok I2cCause.none.code n 0, stop d.2)

/-- The body of I2C_READ (R142). -/
def i2cReadOp (addr7 : BitVec 7) (n : Byte) (s : State) : Rsp × State :=
  let st := start s
  if !st.1 then (response .busNack I2cCause.busNotIdle.code 0 0, st.2.setRxlen 0)
  else
    let a := writeByte (addressByte addr7 .read) st.2
    if !a.1 then (response .busNack I2cCause.addrNack.code 0 0, (stop a.2).setRxlen 0)
    else (response .ok I2cCause.none.code 0 (n.zeroExtend 16), (stop (readData n.toNat 0 a.2)).setRxlen n)

/-- The body of I2C_PROBE (R143). -/
def i2cProbeOp (addr7 : BitVec 7) (s : State) : Rsp × State :=
  let st := start s
  if !st.1 then (response .ok I2cCause.busNotIdle.code 0 0, st.2)
  else
    let a := writeByte (addressByte addr7 .write) st.2
    if a.1 then (response .ok I2cCause.none.code 0 1, stop a.2)
    else (response .ok I2cCause.addrNack.code 0 0, stop a.2)

/-- The body of I2C_BUS_IDLE (R144). -/
def i2cBusIdleOp (s : State) : Rsp × State :=
  let r := idleCheck s
  (response .ok 0 (busLevels r.1.1 r.1.2) (if r.1.1 && r.1.2 then 1 else 0), r.2)

/-- I2C_WRITE (R141). -/
def execI2cWrite (addr7 : BitVec 7) (n : Byte) (s : State) : Host.Outcome State Fault Refusal :=
  runOp ((Instr.i2cWrite addr7 n).wf s.cfg) (i2cWriteOp addr7 n) s

/-- I2C_READ (R142); n = 0 is refused (R97). -/
def execI2cRead (addr7 : BitVec 7) (n : Byte) (s : State) : Host.Outcome State Fault Refusal :=
  runOp ((Instr.i2cRead addr7 n).wf s.cfg) (i2cReadOp addr7 n) s

/-- I2C_PROBE (R143). -/
def execI2cProbe (addr7 : BitVec 7) (s : State) : Host.Outcome State Fault Refusal :=
  runOp ((Instr.i2cProbe addr7).wf s.cfg) (i2cProbeOp addr7) s

/-- I2C_BUS_IDLE (R144). -/
def execI2cBusIdle (s : State) : Host.Outcome State Fault Refusal :=
  runOp (Instr.i2cBusIdle.wf s.cfg) i2cBusIdleOp s

end Sys2Proof.Machine
end

