-- ==== Sys2Proof/Machine/Uart.lean ====
section
/-! DEFINITION. The UART sub-block (spec/42_uart_session_framer.md): the wait for an item, `readLine` (R204), `tx`
(R206), `awaitReply` (R207), `awaitByte` (R209), `sendCommand` (R210), the sequences, and the four operations
(R205, R210, R216, R220). Nothing flushes RX.q or RX.acc (R211). All times are in milliseconds. -/

namespace Sys2Proof.Machine

/-! ## Taking items from RX.q -/

/-- "let time pass until RX.q is not empty or" the deadline (R204, R209). Waiting takes the time to the start of
that millisecond. -/
def State.waitItem (deadline : Nat) (s : State) : State :=
  s.setTime (max s.t (1000 * wakeAt s.cfg.uart deadline s.rx s.env.arrivals))

/-- Remove the head of RX.q. -/
def State.popItem (s : State) : Option RxItem × State :=
  match s.rx.q with
  | [] => (none, s)
  | x :: rest => (some x, { s with rx := { s.rx with q := rest } })

/-- One round of the loops of R204 and R209: the deadline test first, then, if RX.q is empty, the wait and the
deadline test again, then the removal of one item. `none` when the deadline was reached. -/
def State.nextItem (deadline : Nat) (s : State) : Option RxItem × State :=
  if deadline ≤ s.nowMs then (none, s)
  else
    let s1 := if s.rx.q.isEmpty then s.waitItem deadline else s
    if deadline ≤ s1.nowMs then (none, s1) else s1.popItem

/-- A bound on the number of items that can still be removed from RX.q. -/
def State.rxBudget (s : State) : Nat := rxItems s.rx s.env.arrivals

/-! ## Procedures -/

/-- MemWrite(LINEBUF+n, 1, b). -/
def State.writeLine (s : State) (n : Nat) (b : Byte) : State :=
  { s with linebuf := Memory.write s.linebuf n b }

/-- LINELEN <- n. -/
def State.setLinelen (s : State) (n : Nat) : State := { s with linelen := BitVec.ofNat 8 n }

/-- The loop of `readLine` with `n` bytes stored (R204). `fuel` bounds the items removed; with more than
`State.rxBudget` of it the loop never runs out. -/
def readLineLoop (maxLen deadline : Nat) : Nat → Nat → State → Nat × State
  | 0, n, s => (n, s.setLinelen n)
  | fuel + 1, n, s =>
    let r := s.nextItem deadline
    match r.1 with
    | none => (n, r.2.setLinelen n)
    | some x =>
      match x.data? with
      | none =>
        if n = 0 then readLineLoop maxLen deadline fuel 0 r.2
        else (n, r.2.setLinelen n)
      | some b =>
        if n < maxLen then readLineLoop maxLen deadline fuel (n + 1) (r.2.writeLine n b)
        else readLineLoop maxLen deadline fuel n r.2

/-- `readLine(maxLen, timeout)` (R204). -/
def readLine (maxLen timeout : Nat) (s : State) : Nat × State :=
  readLineLoop maxLen (s.nowMs + timeout) (s.rxBudget + 1) 0 (s.setLinelen 0)

/-- `tx(bytes)` (R206). -/
def State.transmit (s : State) (bs : Bytes) : State := s.emit (.tx bs)

/-- The loop of `awaitReply` up to a deadline (R207): each line is given the whole of the time that remains.
`fuel` bounds the lines read. -/
def awaitReplyLoop (expected : Bytes) (deadline : Nat) : Nat → State → Status × State
  | 0, s => (.protocolTimeout, s)
  | fuel + 1, s =>
    if deadline ≤ s.nowMs then (.protocolTimeout, s)
    else
      let r := readLine s.cfg.uart.lineMax.val (deadline - s.nowMs) s
      if r.1 = 0 then awaitReplyLoop expected deadline fuel r.2
      else
        match lineOutcome s.cfg.uart expected (Memory.prefixBytes r.2.linebuf r.1) with
        | some st => (st, r.2)
        | none => awaitReplyLoop expected deadline fuel r.2

/-- `awaitReply(expected, timeout)` (R207). -/
def awaitReply (expected : Bytes) (timeout : Nat) (s : State) : Status × State :=
  awaitReplyLoop expected (s.nowMs + timeout) (s.rxBudget + 2) s

/-- The loop of `awaitByte` (R209): every item but the awaited byte is discarded. -/
def awaitByteLoop (c : Byte) (deadline : Nat) : Nat → State → Bool × State
  | 0, s => (false, s)
  | fuel + 1, s =>
    let r := s.nextItem deadline
    match r.1 with
    | none => (false, r.2)
    | some x => if x = .byte c then (true, r.2) else awaitByteLoop c deadline fuel r.2

/-- `awaitByte(c, timeout)` (R209). -/
def awaitByte (c : Byte) (timeout : Nat) (s : State) : Bool × State :=
  awaitByteLoop c (s.nowMs + timeout) (s.rxBudget + 1) s

/-- `sendCommand(text, expected, timeout)` (R210). -/
def sendCommand (text expected : Bytes) (timeout : Nat) (s : State) : Status × State :=
  awaitReply expected timeout (s.transmit (text ++ s.cfg.uart.cmdTerm))

/-- A command of the initialization sequence that expects EXP_OK. -/
def sendExpectOk (text : Bytes) (timeout : Nat) (s : State) : Status × State :=
  sendCommand text s.cfg.uart.expOk timeout s

/-- The basic handshake with `retries` further attempts, ending at the first OK, else with the last attempt's
status (R214). -/
def handshake : Nat → State → Status × State
  | 0, s => sendExpectOk s.cfg.uart.cmdHandshake s.cfg.uart.tCmdMs s
  | retries + 1, s =>
    let r := sendExpectOk s.cfg.uart.cmdHandshake s.cfg.uart.tCmdMs s
    if r.1 = .ok then r else handshake retries r.2

/-- The optional diagnostic queries in order, results ignored (R216). -/
def diagnostics : List Bytes → State → State
  | [], s => s
  | q :: rest, s => diagnostics rest (sendExpectOk q s.cfg.uart.tCmdMs s).2

/-! ## Session flags and phase codes -/

/-- Clear both flags: "never reset except by re-running initialization" (R213). -/
def State.clearSession (s : State) : State := { s with session := ⟨false, false⟩ }

/-- attached <- 1 (R213). -/
def State.setAttached (s : State) : State := { s with session := { s.session with attached := true } }

/-- socketOpen <- 1 (R213). -/
def State.setSocketOpen (s : State) : State := { s with session := { s.session with socketOpen := true } }

/-- The phases of R215. -/
inductive SessionPhase where
  | handshake
  | fullFunc
  | attach
  | setApn
  | sockOpen
  | sockWait
  | sendPrompt
  | sendAck
  deriving DecidableEq, Repr

/-- The phase codes (R215). -/
def SessionPhase.code : SessionPhase → Byte
  | .handshake => 1
  | .fullFunc => 2
  | .attach => 3
  | .setApn => 4
  | .sockOpen => 5
  | .sockWait => 6
  | .sendPrompt => 7
  | .sendAck => 8

/-- `fail(p, r)` of the initialization (R216). -/
def initFail (p : SessionPhase) (r : Status) (s : State) : Rsp × State :=
  (response .sessionPhaseFailure p.code r.code s.session.flags, s)

/-! ## Operations -/

/-- The body of UART_READ_LINE (R205). -/
def uartReadLineOp (maxLen timeout : Nat) (s : State) : Rsp × State :=
  let r := readLine maxLen timeout s
  (response .ok 0 0 (BitVec.ofNat 16 r.1), r.2)

/-- The body of UART_SEND_COMMAND (R210). -/
def uartSendCommandOp (timeout : Nat) (s : State) : Rsp × State :=
  let r := sendCommand s.str0Bytes s.str1Bytes timeout s
  (response r.1 0 0 0, r.2)

/-- The last part of the initialization: the socket-opened wait (R216, R219). -/
def initSockWait (s : State) : Rsp × State :=
  let r := awaitReply s.cfg.uart.expSockOpened s.cfg.uart.tSockWaitMs s
  if r.1 = .ok then (response .ok 0 0 r.2.setSocketOpen.session.flags, r.2.setSocketOpen)
  else initFail .sockWait r.1 r.2

/-- The initialization from the stale-socket close on (R216). -/
def initSocket (port : Nat) (s : State) : Rsp × State :=
  let close := sendExpectOk s.cfg.uart.cmdSockClose s.cfg.uart.tCmdMs s
  let r := sendExpectOk (composeSockOpen s.cfg.uart s.str1Bytes port) s.cfg.uart.tCmdMs close.2
  if r.1 = .ok then initSockWait r.2 else initFail .sockOpen r.1 r.2

/-- The initialization from the set-APN step on (R216). -/
def initSetApn (port : Nat) (s : State) : Rsp × State :=
  let r := sendExpectOk (composeSetApn s.cfg.uart s.str0Bytes) s.cfg.uart.tCmdMs s
  if r.1 = .ok then initSocket port (diagnostics s.cfg.uart.diagCmds r.2) else initFail .setApn r.1 r.2

/-- The initialization from the full-function step on (R216). -/
def initFullFunc (port : Nat) (s : State) : Rsp × State :=
  let f := sendExpectOk s.cfg.uart.cmdFullFunc s.cfg.uart.tCmdMs s
  if f.1 = .ok then
    let a := sendExpectOk s.cfg.uart.cmdAttach s.cfg.uart.tAttachMs f.2
    if a.1 = .ok then initSetApn port a.2.setAttached else initFail .attach a.1 a.2
  else initFail .fullFunc f.1 f.2

/-- The body of UART_INIT_SESSION (R216). -/
def uartInitSessionOp (port : Nat) (s : State) : Rsp × State :=
  let r := handshake s.cfg.uart.handshakeRetries s.clearSession
  if r.1 = .ok then initFullFunc port r.2 else initFail .handshake r.1 r.2

/-- The body of UART_SEND_LINE (R107, R220); SESSION is neither read nor written. -/
def uartSendLineOp (s : State) : Rsp × State :=
  let payload := s.str0Bytes ++ s.cfg.uart.payloadTerm
  let value : Half := BitVec.ofNat 16 payload.length
  let prompt := awaitByte s.cfg.uart.promptChar s.cfg.uart.tPromptMs
    (s.transmit (composeSendPrep s.cfg.uart payload.length ++ s.cfg.uart.cmdTerm))
  if !prompt.1 then
    (response .sessionPhaseFailure SessionPhase.sendPrompt.code Status.protocolTimeout.code value, prompt.2)
  else
    let r := awaitReply s.cfg.uart.expSendAck s.cfg.uart.tSendAckMs
      (prompt.2.transmit (payload ++ [s.cfg.uart.eodByte]))
    if r.1 = .ok then (response .ok 0 0 value, r.2)
    else (response .sessionPhaseFailure SessionPhase.sendAck.code r.1.code value, r.2)

/-- UART_READ_LINE (R205); `maxLen` = 0 or above LINE_MAX is refused (R97). -/
def execUartReadLine (maxLen : Byte) (timeout : Half) (s : State) : Host.Outcome State Fault Refusal :=
  runOp ((Instr.uartReadLine maxLen timeout).wf s.cfg) (uartReadLineOp maxLen.toNat timeout.toNat) s

/-- UART_SEND_COMMAND (R210). -/
def execUartSendCommand (timeout : Half) (s : State) : Host.Outcome State Fault Refusal :=
  runOp ((Instr.uartSendCommand timeout).wf s.cfg) (uartSendCommandOp timeout.toNat) s

/-- UART_INIT_SESSION (R216). -/
def execUartInitSession (port : Half) (s : State) : Host.Outcome State Fault Refusal :=
  runOp ((Instr.uartInitSession port).wf s.cfg) (uartInitSessionOp port.toNat) s

/-- UART_SEND_LINE (R220). -/
def execUartSendLine (s : State) : Host.Outcome State Fault Refusal :=
  runOp (Instr.uartSendLine.wf s.cfg) uartSendLineOp s

end Sys2Proof.Machine
end

