-- ==== Sys2Proof/Machine/Dispatch.lean ====
section
/-! DEFINITION. `exec`: one arm per constructor of Instr, each one direct call of its meaning. -/

namespace Sys2Proof.Machine

/-- The meaning of a command (spec/30_encoding.md R91). -/
def exec (i : Instr) (s : State) : Host.Outcome State Fault Refusal :=
  match i with
  | .i2cWrite addr7 n => Sys2Proof.Machine.execI2cWrite addr7 n s
  | .i2cRead addr7 n => Sys2Proof.Machine.execI2cRead addr7 n s
  | .i2cProbe addr7 => Sys2Proof.Machine.execI2cProbe addr7 s
  | .i2cBusIdle => Sys2Proof.Machine.execI2cBusIdle s
  | .dhtReadFrame tmo => Sys2Proof.Machine.execDhtReadFrame tmo s
  | .uartReadLine maxLen timeout => Sys2Proof.Machine.execUartReadLine maxLen timeout s
  | .uartSendCommand timeout => Sys2Proof.Machine.execUartSendCommand timeout s
  | .uartInitSession port => Sys2Proof.Machine.execUartInitSession port s
  | .uartSendLine => Sys2Proof.Machine.execUartSendLine s
  | .btnPoll => Sys2Proof.Machine.execBtnPoll s
  | .dutyAuto tempC => Sys2Proof.Machine.execDutyAuto tempC s
  | .alarmUpdate humidity tempC => Sys2Proof.Machine.execAlarmUpdate humidity tempC s
  | .motorUpdate rv ev tempC => Sys2Proof.Machine.execMotorUpdate rv ev tempC s

end Sys2Proof.Machine
end

