-- ==== Sys2Proof/Machine/Port.lean ====
section
/-! DEFINITION. What one action of HOST does (spec/00_scope.md R6 (1)): a command word is decoded and its operation
run to its response, or it is refused (spec/30_encoding.md R110); every other action writes an operand buffer or
a length register or lets time pass. -/

namespace Sys2Proof.Machine

/-- HOST writes a command word: the operation it selects, or the refusal (R91, R110). -/
def runWord (w : Word) (s : State) : Host.Outcome State Fault Refusal :=
  match decode w with
  | .ok i => exec i (s.writeCmd w)
  | .error _ => .next (s.writeCmd w).refuse

/-- One action of HOST, its wait for the response included (R6: "HOST issues a command only when ENGINE is idle,
and waits for the response"). -/
def runAction (a : HostAct) (s : State) : Host.Outcome State Fault Refusal :=
  match a with
  | .command w => runWord w s
  | .writeByte b i v => .next (s.hostWriteByte b i v)
  | .writeLength r n => .next (s.hostWriteLength r n)
  | .wait us => .next (s.wait us)

/-- Put a command word at the head of what HOST has yet to do. -/
def State.withCommand (s : State) (w : Word) : State := { s with host := .command w :: s.host }

end Sys2Proof.Machine
end

