-- ==== Sys2Proof/Machine/Step.lean ====
section
/-! DEFINITION. One step: HOST's next action, run to its end (spec/10_state.md R22: "HOST chooses every next command";
spec/00_scope.md R7, assumption 4). -/

namespace Sys2Proof.Machine

/-- One step of the machine. -/
def step (s : State) : Host.Outcome State Fault Refusal :=
  runAction s.nextAction.1 s.nextAction.2

/-- `s` with the command word `w`, its bits above `nbits` zero, as HOST's next action. -/
def State.withFetchWord (s : State) (nbits w : Nat) : State :=
  s.withCommand (BitVec.ofNat 32 (w % 2 ^ nbits))

end Sys2Proof.Machine
end

