-- ==== Sys2Proof/Safety.lean ====
section
/-! DEFINITION. What a good state is (`State.Inv`), when no receive step is due (`State.Pumped`), and the terms in which
statements speak of the environment and of the wire: the symbols an I2C bus analyser would see
(spec/30_encoding.md R100 to R102), the answers a device that acknowledges gives (spec/40_i2c_master.md R130,
R137), a waveform given by its phases (spec/41_pulse_decoder.md R170), lines standing in the receive queue
(spec/42_uart_session_framer.md R105, R203, R207) and a sequence of polls (spec/43_button_debouncer.md R251). -/

namespace Sys2Proof.Machine

/-! ## The invariant -/

/-- No RXP step is due: applying the due steps changes nothing (R202, R310). -/
def State.Pumped (s : State) : Prop :=
  rxRun s.cfg.uart s.nowMs s.rx s.env.arrivals = (s.rx, s.env.arrivals)

/-- The status codes of R301: "Codes 0x09 to 0xFE are never written". -/
def legalStatus (b : Byte) : Prop := b.toNat ≤ 0x08 ∨ b = 0xFF

/-- What every step keeps. -/
structure State.Inv (s : State) : Prop where
  /-- between HOST's actions no operation runs (R6, R22) -/
  idle : s.busy = false
  /-- every buffer is in canonical form -/
  wf : s.txbuf.wf = true ∧ s.rxbuf.wf = true ∧ s.str0.wf = true ∧ s.str1.wf = true ∧ s.linebuf.wf = true
  /-- no buffer holds a byte past its capacity (R23) -/
  caps : s.txbuf.below bufCap = true ∧ s.rxbuf.below bufCap = true ∧ s.str0.below bufCap = true ∧
    s.str1.below bufCap = true ∧ s.linebuf.below s.cfg.uart.lineMax.val = true
  /-- a line is no longer than LINE_MAX (R23) -/
  line : s.linelen.toNat ≤ s.cfg.uart.lineMax.val
  /-- "on return, SDA is Released and SCL is High" (R26); DLINE is an input (R27, D16) -/
  pins : s.pins = ⟨.released, .high, .inputPullup⟩
  /-- a legal status code (R301) -/
  status : legalStatus s.rsp.status
  /-- the receive side within its capacities, no terminator in RX.acc (R28, R202) -/
  rxCap : s.rx.acc.length ≤ s.cfg.uart.rxAccCap ∧ s.rx.q.length ≤ s.cfg.uart.rxQCap ∧
    ∀ b ∈ s.rx.acc, isTerminator b = false
  /-- READING is valid exactly when a frame has been read, and is as old as that read (R27) -/
  reading : s.reading.valid = s.dht.haveRead ∧ s.reading.validSinceMs = s.dht.lastOkMs
  /-- the socket is open only while attached (R213, R216) -/
  session : s.session.socketOpen = true → s.session.attached = true
  /-- Idle means released, Pressed means pressed (R252) -/
  btn : (s.btn.phase = .idle → s.btn.debouncedLevel = false) ∧ (s.btn.phase = .pressed → s.btn.debouncedLevel = true)
  /-- "the fan duty", 0 to 100 (R30) -/
  duty : s.motor.dutyPercent.toNat ≤ 100
  /-- every timestamp lies in the past (R15, R320) -/
  stamps : s.rx.lastMs ≤ s.nowMs ∧ s.dht.lastOkMs ≤ s.nowMs ∧ s.btn.pressStartMs ≤ s.nowMs ∧
    s.btn.rawSinceMs ≤ s.nowMs ∧ s.alarm.lastTempBeepMs ≤ s.nowMs ∧ s.alarm.lastHumidityBeepMs ≤ s.nowMs ∧
    s.alarm.lastBothBeepMs ≤ s.nowMs

/-! ## The wire as an analyser sees it (R101, R102) -/

/-- A symbol on the I2C bus as far as the block drives it: a START (SDA falls while SCL is high), a STOP (SDA
rises while SCL is high), or a rise of SCL with the level SDA is driven to (`true` is released). -/
inductive WireSymbol where
  | start
  | stop
  | bit (released : Bool)
  deriving DecidableEq, Repr

/-- The drive registers after an event (R25). -/
def pinsAfter (p : Pins) : Event → Pins
  | .sdaRel => { p with sda := .released }
  | .sdaLow => { p with sda := .driveLow }
  | .sclHigh => { p with scl := .high }
  | .sclLow => { p with scl := .low }
  | .dlInput => { p with dline := .inputPullup }
  | .dlLow => { p with dline := .driveLow }
  | .sampleSda _ => p
  | .sampleScl _ => p
  | .sampleDl _ => p
  | .dlPhase _ _ => p
  | .tx _ => p
  | .delay _ _ => p
  | .sampleBtn _ => p

/-- The symbol one event puts on the bus. -/
def wireSymbol (p : Pins) : Event → List WireSymbol
  | .sdaLow => if p.scl = .high ∧ p.sda = .released then [.start] else []
  | .sdaRel => if p.scl = .high ∧ p.sda = .driveLow then [.stop] else []
  | .sclHigh => if p.scl = .low then [.bit (decide (p.sda = .released))] else []
  | .sclLow => []
  | .dlInput => []
  | .dlLow => []
  | .sampleSda _ => []
  | .sampleScl _ => []
  | .sampleDl _ => []
  | .dlPhase _ _ => []
  | .tx _ => []
  | .delay _ _ => []
  | .sampleBtn _ => []

/-- The symbols a list of events puts on the bus, from given drive registers on. -/
def wireSymbols : Pins → List Event → List WireSymbol
  | _, [] => []
  | p, e :: rest => wireSymbol p e ++ wireSymbols (pinsAfter p e) rest

/-- A byte's eight bits, bit 7 first (R63). -/
def msbFirst (v : Byte) : List Bool :=
  [v.getLsbD 7, v.getLsbD 6, v.getLsbD 5, v.getLsbD 4, v.getLsbD 3, v.getLsbD 2, v.getLsbD 1, v.getLsbD 0]

/-- The nine clocks of a byte the block sends: the bits, then SDA released for the acknowledgement (R101). -/
def sentFrame (v : Byte) : List WireSymbol := ((msbFirst v) ++ [true]).map .bit

/-- The nine clocks of a byte the block receives: SDA released for the bits, then the block's own
acknowledgement, low to request more, released after the last byte (R101). -/
def receivedFrame (last : Bool) : List WireSymbol := (List.replicate 8 true ++ [last]).map .bit

/-- The frames of `n` received bytes, the last of them unacknowledged. -/
def receivedFrames : Nat → List WireSymbol
  | 0 => []
  | k + 1 => receivedFrame (k == 0) ++ receivedFrames k

/-- The end of a transaction: SCL rises with SDA low, then the STOP (R102). -/
def stopSymbols : List WireSymbol := [.bit false, .stop]

/-- The duration of one clock pulse (R133). -/
def I2cConfig.pulse (c : I2cConfig) : Nat := c.su + c.hi1 + c.hi2 + c.lo

/-- The duration of an operation that issues START and STOP around `n9` clock pulses (R147). -/
def I2cConfig.transaction (c : I2cConfig) (n9 : Nat) : Nat :=
  c.settle + (c.sta + c.lo) + n9 * I2cConfig.pulse c + (c.su + c.sto + c.buf)

/-! ## A device's answers -/

/-- The number of 1 bits of a byte: the samples taken with SDA released while it is written (R134, R137). -/
def ones (v : Byte) : Nat := (msbFirst v).count true

/-- The answers left after the bytes have been written and each acknowledged (answer 0); `none` when some byte is
not acknowledged or the answers run out. -/
def afterAcked : Bytes → List Level → Option (List Level)
  | [], l => some l
  | v :: vs, l =>
    match l.drop (ones v) with
    | false :: rest => afterAcked vs rest
    | true :: _ => none
    | [] => none

/-- The answers left after one byte has been written and not acknowledged (answer 1). -/
def afterNacked (v : Byte) (l : List Level) : Option (List Level) :=
  match l.drop (ones v) with
  | true :: rest => some rest
  | false :: _ => none
  | [] => none

/-- The answers with which a device sends bytes: eight bits each, bit 7 first; after the last byte the sample on
the acknowledgement clock consumes one more answer (R138). -/
def deviceSends (bs : Bytes) (ackSample : Level) : List Level := bs.flatMap msbFirst ++ [ackSample]

/-! ## Waveforms -/

/-- The waveform from time `t` on whose phases have the given durations, the levels alternating from `b` on. -/
def phaseWave (t : Nat) (b : Level) : List Nat → List (Nat × Level)
  | [] => []
  | d :: ds => (t + d, b) :: phaseWave (t + d) (!b) ds

/-- The phase durations of 40 bits: low then high for each. -/
def bitPhases (bits : List (Nat × Nat)) : List Nat := bits.flatMap fun b => [b.1, b.2]

/-- The time from the call at which DHT_READ_FRAME begins to measure: health wait, start low and release (R172,
R173). -/
def State.lead (s : State) : Nat := s.cfg.dht.healthUs + s.cfg.dht.startLowUs + s.cfg.dht.releaseUs

/-- The rate limiter's condition (R171), its spacing in integer arithmetic as R13 asks. -/
def State.tooSoon (s : State) : Bool :=
  decide (s.t / 1000 < s.cfg.dht.warmupMs) ||
    (s.dht.haveRead && decide (((s.t / 1000 : Nat) : Int) - (s.dht.lastOkMs : Int) < (s.cfg.dht.spacingMs : Int)))

/-! ## Lines in the receive queue -/

/-- Terminator class: `B(0x0D)`, `B(0x0A)` or `IDLE_EOL` (R203). -/
def RxItem.ends (x : RxItem) : Prop := x = .byte 0x0D ∨ x = .byte 0x0A ∨ x = .idleEol

/-- A line as it stands in RX.q (R105): terminators left over from the line before, the bytes, and the item that
ends it. -/
structure QueuedLine where
  lead : List RxItem
  text : Bytes
  stop : RxItem
  deriving DecidableEq, Repr

/-- The items of a queued line. -/
def QueuedLine.items (l : QueuedLine) : List RxItem := l.lead ++ l.text.map .byte ++ [l.stop]

/-- The items of several queued lines. -/
def queuedItems (ls : List QueuedLine) : List RxItem := ls.flatMap QueuedLine.items

/-- A queued line is one: its leading items and its last one are of terminator class, its text is not empty and
holds no carriage return and no line feed (R105, R203). -/
structure QueuedLine.IsLine (l : QueuedLine) : Prop where
  lead : ∀ x ∈ l.lead, x.ends
  text : l.text ≠ []
  content : ∀ b ∈ l.text, b ≠ 0x0D ∧ b ≠ 0x0A
  stop : l.stop.ends

/-- A line that fits LINEBUF whole (R23). -/
def QueuedLine.Fits (c : UartConfig) (l : QueuedLine) : Prop := l.IsLine ∧ l.text.length ≤ c.lineMax.val

/-- The status a reply line decides (R207, R208, R308, R309): the expected substring first, then the structured
marker unless it is empty, then the generic one. -/
def Decides (c : UartConfig) (expected line : Bytes) (code : Byte) : Prop :=
  (contains line expected = true ∧ code = 0x00) ∨
  (contains line expected = false ∧ c.errCodeMarker ≠ [] ∧ contains line c.errCodeMarker = true ∧ code = 0x07) ∨
  (contains line expected = false ∧ (c.errCodeMarker = [] ∨ contains line c.errCodeMarker = false) ∧
    contains line c.errGeneric = true ∧ code = 0x08)

/-- "any other line is ignored" (R207). -/
def Ignored (c : UartConfig) (expected line : Bytes) : Prop := ∀ code, ¬ Decides c expected line code

/-- The byte strings transmitted in a list of events, in order. -/
def transmitted : List Event → List Bytes
  | [] => []
  | .tx bs :: rest => bs :: transmitted rest
  | _ :: rest => transmitted rest

/-! ## Sub-blocks (R2) -/

/-- The five sub-blocks (R2). -/
inductive SubBlock where
  | i2c
  | dht
  | uart
  | btn
  | duty
  deriving DecidableEq, Repr

/-- The sub-block an operation belongs to (R3). -/
def subBlock : Instr → SubBlock
  | .i2cWrite _ _ => .i2c
  | .i2cRead _ _ => .i2c
  | .i2cProbe _ => .i2c
  | .i2cBusIdle => .i2c
  | .dhtReadFrame _ => .dht
  | .uartReadLine _ _ => .uart
  | .uartSendCommand _ => .uart
  | .uartInitSession _ => .uart
  | .uartSendLine => .uart
  | .btnPoll => .btn
  | .dutyAuto _ => .duty
  | .alarmUpdate _ _ => .duty
  | .motorUpdate _ _ _ => .duty

/-- A byte of an operand buffer (R23). -/
def State.operandByte (s : State) : OperandBuf → Nat → Byte
  | .txbuf, i => Memory.read s.txbuf i
  | .str0, i => Memory.read s.str0 i
  | .str1, i => Memory.read s.str1 i

/-! ## Alarm updates -/

/-- The alarms after a sequence of updates, each a humidity, a temperature and the millisecond it is made at, with
the beep each requests (R280). -/
def Alarm.updates (c : DutyConfig) : List (Int × Int × Nat) → Alarm → List (Nat × Beep) × Alarm
  | [], a => ([], a)
  | (h, t, now) :: rest, a =>
    let r := a.update c h t now
    let more := Alarm.updates c rest r.2
    ((now, r.1) :: more.1, more.2)

/-! ## Polls -/

/-- The button after a sequence of polls, each a sample and the millisecond it is taken at (R253). -/
def Btn.polls (c : BtnConfig) : List (Level × Nat) → Btn → List BtnEvent × Btn
  | [], b => ([], b)
  | (p, now) :: rest, b =>
    let r := b.poll c p now
    let more := Btn.polls c rest r.2
    (r.1 :: more.1, more.2)

/-- Times that do not decrease. -/
def Rising (l : List Nat) : Prop := l.Pairwise (· ≤ ·)

end Sys2Proof.Machine
end

