-- ==== Sys2Proof/Certificates/Slice0/Obligations.lean ====
section
/-! DEFINITION. The statements for the provers. They are over every configuration (spec/70_reset_and_hazards.md R362) and
every environment (spec/93_implementation_defined.md U4), both held by the state. -/

section

open Sys2Proof Sys2Proof.Machine

/-! ## The command word -/

/-- V70: words written out from the formats of R92 to R96 decode to their commands. -/
def Obligations.SpecWordsDecode : Prop :=
  decode 0x01230001 = .ok (.i2cWrite 0x23 1) ∧ decode 0x017F00FF = .ok (.i2cWrite 0x7F 255) ∧
  decode 0x02230002 = .ok (.i2cRead 0x23 2) ∧ decode 0x03500000 = .ok (.i2cProbe 0x50) ∧
  decode 0x04000000 = .ok .i2cBusIdle ∧ decode 0x100003E8 = .ok (.dhtReadFrame 1000) ∧
  decode 0x20100064 = .ok (.uartReadLine 16 100) ∧ decode 0x210003E8 = .ok (.uartSendCommand 1000) ∧
  decode 0x22002329 = .ok (.uartInitSession 9001) ∧ decode 0x23000000 = .ok .uartSendLine ∧
  decode 0x30000000 = .ok .btnPoll ∧ decode 0x40000021 = .ok (.dutyAuto 33) ∧
  decode 0x4000FFFB = .ok (.dutyAuto 0xFFFB) ∧ decode 0x41320024 = .ok (.alarmUpdate 50 36) ∧
  decode 0x42800021 = .ok (.motorUpdate true .noEvent 33) ∧
  decode 0x42820021 = .ok (.motorUpdate true .longPress 33) ∧
  decode 0x42000000 = .ok (.motorUpdate false .noEvent 0)

/-- V71: words with an unassigned opcode or a non-zero unused bit select no row (R90, R110). -/
def Obligations.SpecWordsRejected : Prop :=
  decode 0x00000000 = .error .unassignedOpcode ∧ decode 0x05000000 = .error .unassignedOpcode ∧
  decode 0x11000000 = .error .unassignedOpcode ∧ decode 0x24000000 = .error .unassignedOpcode ∧
  decode 0x31000000 = .error .unassignedOpcode ∧ decode 0x43000000 = .error .unassignedOpcode ∧
  decode 0xFF000000 = .error .unassignedOpcode ∧ decode 0x01A30001 = .error .unusedBitSet ∧
  decode 0x01230101 = .error .unusedBitSet ∧ decode 0x03230001 = .error .unusedBitSet ∧
  decode 0x04000001 = .error .unusedBitSet ∧ decode 0x23000001 = .error .unusedBitSet ∧
  decode 0x30010000 = .error .unusedBitSet ∧ decode 0x10010000 = .error .unusedBitSet ∧
  decode 0x42040000 = .error .unusedBitSet

/-- R91, the opcode map: the decoder, which follows the formats field by field, gives a row's operation to exactly
the words `w` with `w & mask = match`; a word no row of the map selects is refused. -/
def Obligations.RowSelectedByMask : Prop :=
  ∀ w : Word,
    ((∃ a n, decode w = .ok (.i2cWrite a n)) ↔ w &&& 0xFF80FF00 = 0x01000000) ∧
    ((∃ a n, decode w = .ok (.i2cRead a n)) ↔ w &&& 0xFF80FF00 = 0x02000000) ∧
    ((∃ a, decode w = .ok (.i2cProbe a)) ↔ w &&& 0xFF80FFFF = 0x03000000) ∧
    (decode w = .ok .i2cBusIdle ↔ w &&& 0xFFFFFFFF = 0x04000000) ∧
    ((∃ v, decode w = .ok (.dhtReadFrame v)) ↔ w &&& 0xFFFF0000 = 0x10000000) ∧
    ((∃ a v, decode w = .ok (.uartReadLine a v)) ↔ w &&& 0xFF000000 = 0x20000000) ∧
    ((∃ v, decode w = .ok (.uartSendCommand v)) ↔ w &&& 0xFFFF0000 = 0x21000000) ∧
    ((∃ v, decode w = .ok (.uartInitSession v)) ↔ w &&& 0xFFFF0000 = 0x22000000) ∧
    (decode w = .ok .uartSendLine ↔ w &&& 0xFFFFFFFF = 0x23000000) ∧
    (decode w = .ok .btnPoll ↔ w &&& 0xFFFFFFFF = 0x30000000) ∧
    ((∃ v, decode w = .ok (.dutyAuto v)) ↔ w &&& 0xFFFF0000 = 0x40000000) ∧
    ((∃ a v, decode w = .ok (.alarmUpdate a v)) ↔ w &&& 0xFF000000 = 0x41000000) ∧
    ((∃ r e v, decode w = .ok (.motorUpdate r e v)) ↔ w &&& 0xFF7C0000 = 0x42000000) ∧
    ((∀ r ∈ opcodeRows, w &&& r.2 ≠ r.1) → ∀ (s : State) (rest : List HostAct), s.host = .command w :: rest →
      ∃ t, step s = .next t ∧ t.rsp = ⟨0xFF, 0, 0, 0⟩ ∧ t.busy = s.busy ∧ t.trace = s.trace)

/-- R93 to R96: every operand is the slice of the word its format names. -/
def Obligations.OperandsAreBitSlices : Prop :=
  ∀ w : Word,
    (∀ a n, decode w = .ok (.i2cWrite a n) → a = w.extractLsb' 16 7 ∧ n = w.extractLsb' 0 8) ∧
    (∀ a n, decode w = .ok (.i2cRead a n) → a = w.extractLsb' 16 7 ∧ n = w.extractLsb' 0 8) ∧
    (∀ a, decode w = .ok (.i2cProbe a) → a = w.extractLsb' 16 7) ∧
    (∀ v, decode w = .ok (.dhtReadFrame v) → v = w.extractLsb' 0 16) ∧
    (∀ a v, decode w = .ok (.uartReadLine a v) → a = w.extractLsb' 16 8 ∧ v = w.extractLsb' 0 16) ∧
    (∀ v, decode w = .ok (.uartSendCommand v) → v = w.extractLsb' 0 16) ∧
    (∀ v, decode w = .ok (.uartInitSession v) → v = w.extractLsb' 0 16) ∧
    (∀ v, decode w = .ok (.dutyAuto v) → v = w.extractLsb' 0 16) ∧
    (∀ a v, decode w = .ok (.alarmUpdate a v) → a = w.extractLsb' 16 8 ∧ v = w.extractLsb' 0 16) ∧
    (∀ r e v, decode w = .ok (.motorUpdate r e v) →
      r = w.getLsbD 23 ∧ v = w.extractLsb' 0 16 ∧
      (e = .noEvent ↔ w.extractLsb' 16 2 = (0 : BitVec 2)) ∧ (e = .shortPress ↔ w.extractLsb' 16 2 = (1 : BitVec 2)) ∧
      (e = .longPress ↔ w.extractLsb' 16 2 = (2 : BitVec 2)) ∧ (e = .reserved3 ↔ w.extractLsb' 16 2 = (3 : BitVec 2)))

/-- Every command, with every value of every operand, decodes from its own word. -/
def Obligations.DecodeEncode : Prop := ∀ i : Instr, decode (encode i) = .ok i

/-- Every word that decodes is the word of its command: no two words have one meaning (R90: unused bits are 0). -/
def Obligations.EncodeDecode : Prop := ∀ (w : Word) (i : Instr), decode w = .ok i → encode i = w

/-! ## The command port -/

/-- A step runs the command HOST writes: what stands around `exec` is that the action is taken from HOST's list, the
model's own counter moves, and CMD takes the word while `busy` = 0. The second part says the same of the words a
test places with `withFetchWord`. How a step is cut is assumption 4. -/
def Obligations.StepRunsDecodedCommand : Prop :=
  (∀ (s : State) (w : Word) (rest : List HostAct) (i : Instr), s.host = .command w :: rest → decode w = .ok i →
    step s = exec i { s with
      host := rest
      cmd := if s.busy then s.cmd else w
      env := { s.env with draws := s.env.draws + 1 } }) ∧
  (∀ (s : State) (nbits w : Nat) (i : Instr), decodeTableWord nbits w = some i →
    step (s.withFetchWord nbits w) = exec i { s with
      cmd := if s.busy then s.cmd else BitVec.ofNat 32 (w % 2 ^ nbits)
      env := { s.env with draws := s.env.draws + 1 } })

/-- A word that selects no row is answered ILLEGAL_COMMAND and changes nothing but RSP (R110); that HOST's write of the
word leaves it in CMD, and that the model's counter moves, is the model's choice (assumptions 2 and 6). -/
def Obligations.StepRefusesUndecodedWord : Prop :=
  ∀ (s : State) (w : Word) (rest : List HostAct) (e : DecodeError),
    s.host = .command w :: rest → decode w = .error e →
    step s = .next { s with
      host := rest
      cmd := if s.busy then s.cmd else w
      env := { s.env with draws := s.env.draws + 1 }
      rsp := ⟨0xFF, 0, 0, 0⟩ }

/-- R97: the four checks, each of which refuses the command (R110: RSP is written, nothing else changes), and "There
is no other check": every other command is carried out and answered with another status. -/
def Obligations.CommandRefusedExactly : Prop :=
  ∀ (i : Instr) (s : State),
    let refused : Prop :=
      s.busy = true ∨ (∃ a, i = .i2cRead a 0) ∨
      (∃ m v, i = .uartReadLine m v ∧ (m = 0 ∨ s.cfg.uart.lineMax.val < m.toNat)) ∨
      (∃ r v, i = .motorUpdate r .reserved3 v)
    (refused → exec i s = .next { s with rsp := ⟨0xFF, 0, 0, 0⟩ }) ∧
    (¬ refused → ∃ t, exec i s = .next t ∧ t.busy = false ∧ t.rsp.status ≠ 0xFF)

/-- No step stops the machine ("no operation blocks indefinitely"; R314: the model has no halted state) and the time
never goes back (R15, R320). The rest is the model's choice: that a refused command, too, answers a next state
(assumption 6), that the parameters are a constant part of the state (assumption 1), and that one trace, to which
every step appends, runs from reset on (assumption 5; R25 gives a list of events per operation). -/
def Obligations.StepAnswersAndTimeAdvances : Prop :=
  ∀ s : State, ∃ t evs, step s = .next t ∧ t.cfg = s.cfg ∧ s.t ≤ t.t ∧ t.trace = s.trace ++ evs

/-- HOST writes one byte of an operand buffer: it lands while `busy` = 0 below the capacity 255 (R23) and has no effect
while `busy` = 1 (R76). HOST writes STR0LEN or STR1LEN: the value lands while `busy` = 0 and has no effect while
`busy` = 1 (R23, U12). HOST waits: T moves by exactly the microseconds it lets pass (R320 (d)), and the RXP steps due by
then are applied (R202, R354 (6)). Nothing else of the block changes. That a byte written at or past the capacity has
no effect (assumption 21) and that the model's counter moves (assumption 2) is the model's choice. -/
def Obligations.HostWritesAndWaits : Prop :=
  (∀ (s : State) (b : OperandBuf) (i : Nat) (v : Byte) (rest : List HostAct),
    s.txbuf.wf = true → s.str0.wf = true → s.str1.wf = true → s.host = .writeByte b i v :: rest →
    ∃ t, step s = .next t ∧
      (∀ b' j, t.operandByte b' j =
        if s.busy = false ∧ i < 255 ∧ b' = b ∧ j = i then v else s.operandByte b' j) ∧
      t = { s with
        host := rest
        env := { s.env with draws := s.env.draws + 1 }
        txbuf := t.txbuf
        str0 := t.str0
        str1 := t.str1 }) ∧
  (∀ (s : State) (r : LengthReg) (n : Byte) (rest : List HostAct), s.host = .writeLength r n :: rest →
    step s = .next { s with
      host := rest
      env := { s.env with draws := s.env.draws + 1 }
      str0len := if s.busy = false ∧ r = .str0len then n else s.str0len
      str1len := if s.busy = false ∧ r = .str1len then n else s.str1len }) ∧
  (∀ (s : State) (us : Nat) (rest : List HostAct), s.host = .wait us :: rest →
    ∃ t, step s = .next t ∧
      (t.rx, t.env.arrivals) = rxRun s.cfg.uart ((s.t + us) / 1000) s.rx s.env.arrivals ∧
      t = { s with
        host := rest
        t := s.t + us
        rx := t.rx
        env := { s.env with draws := s.env.draws + 1, arrivals := t.env.arrivals } })

/-! ## Reset and invariants -/

/-- R35, R340: the state after reset, for every configuration, environment and host program. -/
def Obligations.ResetValues : Prop :=
  ∀ (c : Config) (e : Env) (h : List HostAct),
    let s := State.resetWith c e h
    s.cmd = 0 ∧ s.rsp = ⟨0, 0, 0, 0⟩ ∧ s.busy = false ∧ s.t = 0 ∧ s.trace = [] ∧
    (∀ b i, s.operandByte b i = 0) ∧ (∀ i, Memory.read s.rxbuf i = 0 ∧ Memory.read s.linebuf i = 0) ∧
    s.rxlen = 0 ∧ s.linelen = 0 ∧ s.str0len = 0 ∧ s.str1len = 0 ∧
    s.pins.sda = .released ∧ s.pins.scl = .high ∧ s.pins.dline = .inputPullup ∧
    s.dht.haveRead = false ∧ s.dht.lastOkMs = 0 ∧
    s.reading.valid = false ∧ s.reading.temperatureCelsius = 0 ∧ s.reading.humidityPercent = 0 ∧
    s.reading.validSinceMs = 0 ∧ s.session.attached = false ∧ s.session.socketOpen = false ∧
    s.rx.acc = [] ∧ s.rx.q = [] ∧ s.rx.lastMs = 0 ∧
    s.btn.phase = .idle ∧ s.btn.debouncedLevel = false ∧ s.btn.rawPrev = false ∧ s.btn.pressStartMs = 0 ∧
    s.btn.rawSinceMs = 0 ∧ s.motor.mode = .auto ∧ s.motor.manualOn = false ∧ s.motor.dutyPercent = 0 ∧
    s.alarm.temperatureAbnormal = false ∧ s.alarm.humidityAbnormal = false ∧
    s.alarm.tempBeeped = false ∧ s.alarm.humBeeped = false ∧ s.alarm.bothBeeped = false ∧
    s.alarm.lastTempBeepMs = 0 ∧ s.alarm.lastHumidityBeepMs = 0 ∧ s.alarm.lastBothBeepMs = 0

/-- The invariant holds after reset, whatever the configuration, the environment and the host program; the reset
environment and program are the model's choice (assumption 3). -/
def Obligations.InvariantAtReset : Prop :=
  ∀ (c : Config) (e : Env) (h : List HostAct), (State.resetWith c e h).Inv

/-- Every step keeps the invariant: the buffers in form and within their capacities (R23), both I2C lines released
and DLINE an input between commands (R26, R178), a legal status code (R301), the receive side within its capacities
(R28), the session, button, motor and reading records consistent (R27, R28, R30, R252), no timestamp ahead of the
time. -/
def Obligations.InvariantKept : Prop := ∀ s t : State, s.Inv → step s = .next t → t.Inv

/-- A step leaves no receive step undone: where every RXP step due has been applied before it, every RXP step due is
applied after it (R202, R311, R354 (6)). -/
def Obligations.ReceiverKeptCurrent : Prop := ∀ s t : State, s.Pumped → step s = .next t → t.Pumped

/-- Ownership and frames (R23, R27 to R32): an operation of one sub-block changes nothing of another's, of the operand
buffers or of what HOST holds. What stays possible beside the sub-block's own state is RSP, the trace, the time and
the receive side, which RXP moves at all times (R354 (6)) and which, but for a UART operation, ends exactly as RXP
leaves it at the later time. All flags are 0 after reset (R32). -/
def Obligations.OnlyOwnerWrites : Prop :=
  (∀ (i : Instr) (s t : State), exec i s = .next t →
    t.busy = s.busy ∧
    (subBlock i = .uart ∨ t = { s with rsp := ⟨0xFF, 0, 0, 0⟩ } ∨
      (t.rx, t.env.arrivals) = rxRun s.cfg.uart t.nowMs s.rx s.env.arrivals) ∧
    match subBlock i with
    | .i2c => ∃ answers draws arrivals,
        t = { s with
          rsp := t.rsp, trace := t.trace, t := t.t, rx := t.rx
          env := { s.env with lineAnswers := answers, draws := draws, arrivals := arrivals }
          pins := { s.pins with sda := t.pins.sda, scl := t.pins.scl }
          rxbuf := t.rxbuf, rxlen := t.rxlen } ∧
        ((∃ a n, i = .i2cRead a n ∧ ∀ k, n.toNat ≤ k → s.rxbuf.wf = true →
            Memory.read t.rxbuf k = Memory.read s.rxbuf k) ∨
          t.rxbuf = s.rxbuf ∧ t.rxlen = s.rxlen)
    | .dht => ∃ arrivals,
        t = { s with
          rsp := t.rsp, trace := t.trace, t := t.t, rx := t.rx
          env := { s.env with arrivals := arrivals }
          pins := { s.pins with dline := t.pins.dline }
          dht := t.dht, reading := t.reading }
    | .uart => ∃ arrivals,
        t = { s with
          rsp := t.rsp, trace := t.trace, t := t.t, rx := t.rx
          env := { s.env with arrivals := arrivals }
          session := t.session, linebuf := t.linebuf, linelen := t.linelen } ∧
        ((∃ p, i = .uartInitSession p) ∨ t.session = s.session) ∧
        ((∀ m v, i ≠ .uartReadLine m v) ∨ t.trace = s.trace) ∧
        (∀ k, s.cfg.uart.lineMax.val ≤ k → s.linebuf.wf = true →
          Memory.read t.linebuf k = Memory.read s.linebuf k)
    | .btn => ∃ answers draws arrivals,
        t = { s with
          rsp := t.rsp, trace := t.trace, rx := t.rx
          env := { s.env with btnAnswers := answers, draws := draws, arrivals := arrivals }
          btn := t.btn }
    | .duty => ∃ arrivals,
        t = { s with
          rsp := t.rsp, rx := t.rx, env := { s.env with arrivals := arrivals }
          motor := t.motor, alarm := t.alarm } ∧
        ((∃ r e v, i = .motorUpdate r e v) ∨ t.motor = s.motor) ∧
        ((∃ h v, i = .alarmUpdate h v) ∨ t.alarm = s.alarm)) ∧
  (∀ (c : Config) (e : Env) (h : List HostAct),
    let s := State.resetWith c e h
    s.busy = false ∧ s.dht.haveRead = false ∧ s.reading.valid = false ∧ s.session = ⟨false, false⟩ ∧
    s.btn.debouncedLevel = false ∧ s.btn.rawPrev = false ∧ s.motor.manualOn = false ∧
    s.alarm.temperatureAbnormal = false ∧ s.alarm.humidityAbnormal = false ∧
    s.alarm.tempBeeped = false ∧ s.alarm.humBeeped = false ∧ s.alarm.bothBeeped = false)

/-! ## The receive producer -/

/-- R202: the two RXP steps and their order. An arrival of a terminator commits RX.acc and the terminator; any other
byte joins RX.acc; the idle commit, due `T_IDLE_COMMIT_MS` after the last byte and not before, commits RX.acc and
IDLE_EOL, whatever is still to arrive later; an arrival at the very time the commit is due comes first and puts it
off; and what does not fit RX.acc or RX.q is dropped from its end. -/
def Obligations.ReceiveProducerSteps : Prop :=
  ∀ (c : UartConfig) (rx : Rx), rx.acc.length ≤ c.rxAccCap → rx.q.length ≤ c.rxQCap →
    (∀ (now t : Nat) (b : Byte), rx.acc = [] ∨ t ≤ rx.lastMs + c.tIdleCommitMs → t ≤ now → b = 0x0D ∨ b = 0x0A →
      rxRun c now rx [(t, b)] =
        (⟨[], t, (rx.q ++ rx.acc.map RxItem.byte ++ [RxItem.byte b]).take c.rxQCap⟩, [])) ∧
    (∀ (now t : Nat) (b : Byte), rx.acc = [] ∨ t ≤ rx.lastMs + c.tIdleCommitMs → t ≤ now →
      now < t + c.tIdleCommitMs → b ≠ 0x0D → b ≠ 0x0A →
      rxRun c now rx [(t, b)] = (⟨(rx.acc ++ [b]).take c.rxAccCap, t, rx.q⟩, [])) ∧
    (∀ (now : Nat) (later : List Arrival), (∀ a ∈ later, now < a.1) → rx.acc ≠ [] → rx.lastMs + c.tIdleCommitMs ≤ now →
      rxRun c now rx later =
        (⟨[], rx.lastMs, (rx.q ++ rx.acc.map RxItem.byte ++ [RxItem.idleEol]).take c.rxQCap⟩, later)) ∧
    (∀ (now : Nat) (later : List Arrival), (∀ a ∈ later, now < a.1) →
      rx.acc = [] ∨ now < rx.lastMs + c.tIdleCommitMs → rxRun c now rx later = (rx, later)) ∧
    (∀ (n1 n2 : Nat) (arrivals : List Arrival), n1 ≤ n2 →
      rxRun c n2 (rxRun c n1 rx arrivals).1 (rxRun c n1 rx arrivals).2 = rxRun c n2 rx arrivals)

/-! ## I2C -/

/-- R133, CLOCK_PULSE: its events in order, one sample of SDA, SCL left Low, SDA unchanged. That the sample is 0 and
consumes no answer while SDA is driven low is PRESUMED (assumption 18): the spec marks it as general knowledge and
lets a model consume an answer there (G5). -/
def Obligations.ClockPulseEvents : Prop :=
  ∀ s : State, ∃ b,
    (clockPulse s).1 = b ∧
    (clockPulse s).2.trace = s.trace ++
      [.delay s.cfg.i2c.su .us, .sclHigh, .delay s.cfg.i2c.hi1 .us, .sampleSda b, .delay s.cfg.i2c.hi2 .us, .sclLow,
        .delay s.cfg.i2c.lo .us] ∧
    (clockPulse s).2.pins = { s.pins with scl := .low } ∧
    (s.pins.sda = .driveLow → b = false ∧ (clockPulse s).2.env.lineAnswers = s.env.lineAnswers) ∧
    (∀ rest, s.pins.sda = .released → s.env.lineAnswers = b :: rest → (clockPulse s).2.env.lineAnswers = rest) ∧
    (∀ x rest, s.pins.sda = .released → s.env.lineAnswers = x :: rest → b = x)

/-- R132, R144: I2C_BUS_IDLE. -/
def Obligations.BusIdleExact : Prop :=
  ∀ (s : State) (d c : Level) (rest : List Level), s.busy = false → s.env.lineAnswers = d :: c :: rest →
    ∃ t, exec .i2cBusIdle s = .next t ∧
      t.rsp = ⟨0x00, 0, (if c then 2 else 0) + (if d then 1 else 0), if d = true ∧ c = true then 1 else 0⟩ ∧
      t.trace = s.trace ++
        [.sdaRel, .sclHigh, .delay s.cfg.i2c.settle .us, .sampleSda d, .sampleScl c] ∧
      t.pins = { s.pins with sda := .released, scl := .high } ∧
      t.t = s.t + s.cfg.i2c.settle ∧ t.env.lineAnswers = rest

/-- R143: I2C_PROBE, for every answer to the idle check and, on an idle bus, to the address byte. Which answers are
consumed (none by a sample with SDA driven low) is PRESUMED (assumption 18). -/
def Obligations.ProbeOutcome : Prop :=
  ∀ (s : State) (a : BitVec 7) (d c : Level) (l : List Level),
    s.busy = false → s.pins.sda = .released → s.pins.scl = .high → s.env.lineAnswers = d :: c :: l →
    ∃ t evs, exec (.i2cProbe a) s = .next t ∧ t.trace = s.trace ++ evs ∧ t.pins = s.pins ∧
      ((d && c) = false →
        t.rsp = ⟨0x00, 3, 0, 0⟩ ∧ wireSymbols s.pins evs = [] ∧ t.env.lineAnswers = l ∧ t.t = s.t + s.cfg.i2c.settle) ∧
      ((d && c) = true → ∀ rest, afterAcked [addressByte a .write] l = some rest →
        t.rsp = ⟨0x00, 0, 0, 1⟩ ∧
        wireSymbols s.pins evs = .start :: sentFrame (addressByte a .write) ++ stopSymbols ∧
        t.env.lineAnswers = rest ∧ t.t = s.t + I2cConfig.transaction s.cfg.i2c 9) ∧
      ((d && c) = true → ∀ rest, afterNacked (addressByte a .write) l = some rest →
        t.rsp = ⟨0x00, 1, 0, 0⟩ ∧
        wireSymbols s.pins evs = .start :: sentFrame (addressByte a .write) ++ stopSymbols ∧
        t.env.lineAnswers = rest ∧ t.t = s.t + I2cConfig.transaction s.cfg.i2c 9)

/-- R141, R140, R302: I2C_WRITE, for every answer to the idle check and every point at which a byte is first not
acknowledged, or none: the response, what goes on the wire (R100 to R102), the time. Which answers are consumed (none
by a sample with SDA driven low) is PRESUMED (assumption 18). -/
def Obligations.I2cWriteOutcome : Prop :=
  ∀ (s : State) (a : BitVec 7) (n : Byte) (d c : Level) (l : List Level),
    s.busy = false → s.pins.sda = .released → s.pins.scl = .high → s.env.lineAnswers = d :: c :: l →
    ∃ t evs, exec (.i2cWrite a n) s = .next t ∧ t.trace = s.trace ++ evs ∧ t.pins = s.pins ∧
      ((d && c) = false →
        t.rsp = ⟨0x01, 3, 0, 0⟩ ∧ wireSymbols s.pins evs = [] ∧ t.env.lineAnswers = l ∧ t.t = s.t + s.cfg.i2c.settle) ∧
      ((d && c) = true → ∀ rest, afterNacked (addressByte a .write) l = some rest →
        t.rsp = ⟨0x01, 1, 0, 0⟩ ∧
        wireSymbols s.pins evs = .start :: sentFrame (addressByte a .write) ++ stopSymbols ∧
        t.env.lineAnswers = rest ∧ t.t = s.t + I2cConfig.transaction s.cfg.i2c 9) ∧
      ((d && c) = true → ∀ (k : Nat) (mid rest : List Level), k < n.toNat →
        afterAcked (addressByte a .write :: (List.range k).map (Memory.read s.txbuf)) l = some mid →
        afterNacked (Memory.read s.txbuf k) mid = some rest →
        t.rsp = ⟨0x01, 2, BitVec.ofNat 8 k, 0⟩ ∧
        wireSymbols s.pins evs = .start ::
          (addressByte a .write :: (List.range (k + 1)).map (Memory.read s.txbuf)).flatMap sentFrame ++ stopSymbols ∧
        t.env.lineAnswers = rest ∧ t.t = s.t + I2cConfig.transaction s.cfg.i2c (9 * (k + 2))) ∧
      ((d && c) = true → ∀ rest,
        afterAcked (addressByte a .write :: (List.range n.toNat).map (Memory.read s.txbuf)) l = some rest →
        t.rsp = ⟨0x00, 0, n, 0⟩ ∧
        wireSymbols s.pins evs = .start ::
          (addressByte a .write :: (List.range n.toNat).map (Memory.read s.txbuf)).flatMap sentFrame ++ stopSymbols ∧
        t.env.lineAnswers = rest ∧ t.t = s.t + I2cConfig.transaction s.cfg.i2c (9 * (n.toNat + 1)))

/-- R142, R302: I2C_READ with 1 to 255 bytes: a bus that is not idle, an address that is not acknowledged (RXLEN is
0, RXBUF unwritten), and a device that sends: the bytes HOST then reads, the block's own acknowledgements on the
wire (low but after the last byte), the time. Which answers are consumed (none by a sample with SDA driven low, so
none on a low acknowledgement clock) is PRESUMED (assumption 18); that RXBUF keeps its bytes at or beyond n is the
model's choice (assumption 14). -/
def Obligations.I2cReadOutcome : Prop :=
  ∀ (s : State) (a : BitVec 7) (n : Byte) (d c : Level) (l : List Level),
    s.busy = false → s.pins.sda = .released → s.pins.scl = .high → s.env.lineAnswers = d :: c :: l → n ≠ 0 →
    s.rxbuf.wf = true →
    ∃ t evs, exec (.i2cRead a n) s = .next t ∧ t.trace = s.trace ++ evs ∧ t.pins = s.pins ∧
      ((d && c) = false →
        t.rsp = ⟨0x01, 3, 0, 0⟩ ∧ t.rxlen = 0 ∧ t.rxbuf = s.rxbuf ∧ wireSymbols s.pins evs = [] ∧
        t.env.lineAnswers = l ∧ t.t = s.t + s.cfg.i2c.settle) ∧
      ((d && c) = true → ∀ rest, afterNacked (addressByte a .read) l = some rest →
        t.rsp = ⟨0x01, 1, 0, 0⟩ ∧ t.rxlen = 0 ∧ t.rxbuf = s.rxbuf ∧
        wireSymbols s.pins evs = .start :: sentFrame (addressByte a .read) ++ stopSymbols ∧
        t.env.lineAnswers = rest ∧ t.t = s.t + I2cConfig.transaction s.cfg.i2c 9) ∧
      ((d && c) = true → ∀ (bs : Bytes) (ack : Level) (mid rest : List Level), bs.length = n.toNat →
        afterAcked [addressByte a .read] l = some mid → mid = deviceSends bs ack ++ rest →
        t.rsp = ⟨0x00, 0, 0, n.zeroExtend 16⟩ ∧ t.rxlen = n ∧
        (∀ (k : Nat) (h : k < bs.length), t.hostReadRxbuf k = bs[k]) ∧
        (∀ k, n.toNat ≤ k → Memory.read t.rxbuf k = Memory.read s.rxbuf k) ∧
        wireSymbols s.pins evs = .start ::
          sentFrame (addressByte a .read) ++ receivedFrames n.toNat ++ stopSymbols ∧
        t.env.lineAnswers = rest ∧ t.t = s.t + I2cConfig.transaction s.cfg.i2c (9 * (n.toNat + 1)))

/-- R26, R342: whatever the bus answers, every I2C operation that is accepted returns with SDA Released and SCL High,
and leaves DLINE alone; on a read whose address is acknowledged nothing can fail any more (R142). -/
def Obligations.I2cReturnsReleased : Prop :=
  ∀ (i : Instr) (s : State), subBlock i = .i2c → i.wf s.cfg = true → s.busy = false →
    ∃ t, exec i s = .next t ∧ t.pins = { s.pins with sda := .released, scl := .high } ∧
      (∀ a n, i = .i2cRead a n →
        (t.rsp = ⟨0x00, 0, 0, n.zeroExtend 16⟩ ∧ t.rxlen = n) ∨
        ((t.rsp = ⟨0x01, 1, 0, 0⟩ ∨ t.rsp = ⟨0x01, 3, 0, 0⟩) ∧ t.rxlen = 0 ∧ t.rxbuf = s.rxbuf))

/-- R102, R145, R146: whatever the bus answers, an I2C operation puts nothing on the wire, or one START, then rises
of SCL only, SDA changing only while SCL is low between them, then one STOP: no retry, no repeated START. -/
def Obligations.I2cWireDiscipline : Prop :=
  ∀ (i : Instr) (s : State), subBlock i = .i2c → i.wf s.cfg = true → s.busy = false →
    s.pins.sda = .released → s.pins.scl = .high →
    ∃ t evs, exec i s = .next t ∧ t.trace = s.trace ++ evs ∧
      (wireSymbols s.pins evs = [] ∨
        ∃ (n9 : Nat) (bits : List Bool), bits.length = n9 ∧
          wireSymbols s.pins evs = .start :: (bits.map .bit ++ stopSymbols) ∧
          t.t = s.t + I2cConfig.transaction s.cfg.i2c n9)

/-- R147: the response of an I2C operation is a function of its operands, TXBUF and the bus's answers: two states that
agree on these give one response, whatever their I2C delays, their times and everything else. -/
def Obligations.I2cResponseIgnoresTime : Prop :=
  ∀ (i : Instr) (s s' : State), subBlock i = .i2c → s.busy = false → s'.busy = false → s.txbuf = s'.txbuf →
    s.env.lineAnswers = s'.env.lineAnswers → s.env.draws = s'.env.draws →
    ∃ t t', exec i s = .next t ∧ exec i s' = .next t' ∧ t.rsp = t'.rsp ∧
      (∀ a n, i = .i2cRead a n → n ≠ 0 → s.rxbuf.wf = true → s'.rxbuf.wf = true → t.rsp.status = 0x00 →
        ∀ k, k < n.toNat → Memory.read t.rxbuf k = Memory.read t'.rxbuf k)

/-! ## DHT -/

/-- R171, R306: DHT_READ_FRAME called too soon answers DEVICE_BUSY and changes nothing: no event, no time; only the
receive steps due are applied. -/
def Obligations.DhtTooSoonBusy : Prop :=
  ∀ (s : State) (tmo : Half), s.busy = false → s.tooSoon = true →
    exec (.dhtReadFrame tmo) s = .next { s.pump with rsp := ⟨0x05, 0, 0, 0⟩ }

/-- R172, R303: a line read low at the health check ends the read there: no start signal. -/
def Obligations.DhtLineHeldLow : Prop :=
  ∀ (s : State) (tmo : Half), s.busy = false → s.tooSoon = false →
    waveLevel s.env.wave (s.t + s.cfg.dht.healthUs) = false →
    ∃ t, exec (.dhtReadFrame tmo) s = .next t ∧ t.rsp = ⟨0x02, 0, 0, 0⟩ ∧
      t.trace = s.trace ++ [.dlInput, .delay s.cfg.dht.healthUs .us, .sampleDl false] ∧
      t.pins = { s.pins with dline := .inputPullup } ∧ t.t = s.t + s.cfg.dht.healthUs ∧
      t.reading = s.reading ∧ t.dht = s.dht

/-- R174: one phase measurement, its four outcomes in terms of the waveform, with the time at which each ends and
the event it emits. -/
def Obligations.PhaseMeasurement : Prop :=
  ∀ (s : State) (level : Level) (tmo minDur : Nat), s.pins.dline = .inputPullup →
    let w := waveLevel s.env.wave
    let m := measurePhase level tmo minDur s
    m.2.trace = s.trace ++ [.dlPhase level m.1] ∧ m.2.pins = s.pins ∧
    ((∀ t, s.t ≤ t → t < s.t + tmo → w t ≠ level) → m.1 = .waitTimedOut ∧ m.2.t = s.t + tmo) ∧
    (∀ ta, s.t ≤ ta → ta < s.t + tmo → w ta = level → (∀ t, s.t ≤ t → t < ta → w t ≠ level) →
      ((∀ t, ta < t → t ≤ ta + tmo → w t = level) → m.1 = .holdTimedOut ∧ m.2.t = ta + tmo) ∧
      (∀ tb, ta < tb → tb ≤ ta + tmo → w tb ≠ level → (∀ t, ta < t → t < tb → w t = level) →
        m.2.t = tb ∧
        (tb - ta < minDur → m.1 = .tooShort (tb - ta)) ∧ (minDur ≤ tb - ta → m.1 = .held (tb - ta))))

/-- A frame (R103, R104, R175, R177, R181, R182, R178): a line that is high until `r + w`, low for `rl`, high for
`rh`, then low and high for each of forty bits, then low. Where every phase is long enough and within the timeout the
five bytes are those of the high phases against the threshold, and the response, READING and the rate limiter are
those of the checksum test; the trace and the end time are the waveform's. -/
def Obligations.DhtFrameDecoded : Prop :=
  ∀ (s : State) (tmo : Half) (w rl rh tail : Nat) (bits : List (Nat × Nat)) (hum humF tmp tmpF chk : Byte)
    (later : List (Nat × Level)),
    s.busy = false → s.tooSoon = false →
    s.env.wave = phaseWave (s.t + s.lead) true (w :: rl :: rh :: bitPhases bits ++ [tail]) ++ later →
    s.cfg.dht.healthUs < s.lead + w → w < tmo.toNat →
    1 ≤ rl → s.cfg.dht.minRespUs ≤ rl → rl ≤ tmo.toNat → 1 ≤ rh → s.cfg.dht.minRespUs ≤ rh → rh ≤ tmo.toNat →
    (∀ b ∈ bits, 1 ≤ b.1 ∧ s.cfg.dht.minBitLowUs ≤ b.1 ∧ b.1 ≤ tmo.toNat ∧ 1 ≤ b.2 ∧ b.2 ≤ tmo.toNat) → 1 ≤ tail →
    bits.map (fun b => decide (s.cfg.dht.bitThreshUs < b.2)) = [hum, humF, tmp, tmpF, chk].flatMap msbFirst →
    ∃ t, exec (.dhtReadFrame tmo) s = .next t ∧
      t.t = s.t + s.lead + w + rl + rh + (bitPhases bits).sum ∧
      t.trace = s.trace ++
        [.dlInput, .delay s.cfg.dht.healthUs .us, .sampleDl true, .dlLow, .delay s.cfg.dht.startLowUs .us, .dlInput,
          .delay s.cfg.dht.releaseUs .us, .dlPhase false (.held rl), .dlPhase true (.held rh)] ++
        bits.flatMap (fun b => [.dlPhase false (.held b.1), .dlPhase true (.held b.2)]) ∧
      t.pins = { s.pins with dline := .inputPullup } ∧
      (chk.toNat = (hum.toNat + humF.toNat + tmp.toNat + tmpF.toNat) % 256 →
        t.rsp = ⟨0x00, 0, 0, hum ++ tmp⟩ ∧ t.reading = ⟨true, tmp, hum, t.t / 1000⟩ ∧ t.dht = ⟨true, t.t / 1000⟩) ∧
      (chk.toNat ≠ (hum.toNat + humF.toNat + tmp.toNat + tmpF.toNat) % 256 →
        t.rsp = ⟨0x04, 0, 0, 0⟩ ∧ t.reading = s.reading ∧ t.dht = s.dht)

/-- R176, R177, R304: after `k` good bits a low phase that is too short, or longer than the timeout, ends the read with
step 3 and bit `k`; a high phase longer than the timeout ends it with step 4 and bit `k`. Nothing of the partial
frame is kept. -/
def Obligations.DhtPayloadFailure : Prop :=
  ∀ (s : State) (tmo : Half) (w rl rh low high : Nat) (bits : List (Nat × Nat)) (later : List (Nat × Level)),
    s.busy = false → s.tooSoon = false →
    s.env.wave =
      phaseWave (s.t + s.lead) true (w :: rl :: rh :: bitPhases bits ++ [low, high]) ++ later →
    s.cfg.dht.healthUs < s.lead + w → w < tmo.toNat →
    1 ≤ rl → s.cfg.dht.minRespUs ≤ rl → rl ≤ tmo.toNat → 1 ≤ rh → s.cfg.dht.minRespUs ≤ rh → rh ≤ tmo.toNat →
    (∀ b ∈ bits, 1 ≤ b.1 ∧ s.cfg.dht.minBitLowUs ≤ b.1 ∧ b.1 ≤ tmo.toNat ∧ 1 ≤ b.2 ∧ b.2 ≤ tmo.toNat) →
    bits.length < 40 → 1 ≤ low → 1 ≤ high → low < s.cfg.dht.minBitLowUs ∨ tmo.toNat < low ∨ tmo.toNat < high →
    ∃ t, exec (.dhtReadFrame tmo) s = .next t ∧ t.reading = s.reading ∧ t.dht = s.dht ∧
      t.pins = { s.pins with dline := .inputPullup } ∧
      (low < s.cfg.dht.minBitLowUs ∨ tmo.toNat < low → t.rsp = ⟨0x03, 3, BitVec.ofNat 8 bits.length, 0⟩) ∧
      (s.cfg.dht.minBitLowUs ≤ low → low ≤ tmo.toNat → tmo.toNat < high → t.rsp = ⟨0x03, 4, BitVec.ofNat 8 bits.length, 0⟩)

/-- R175, R304: a sensor that does not pull the line low within the timeout, or holds it low for too short a time or
longer than the timeout, gives PROTOCOL_TIMEOUT step 1; a response high phase that is too short or longer than the
timeout gives step 2. Nothing of READING or the rate limiter changes. -/
def Obligations.DhtNoResponse : Prop :=
  ∀ (s : State) (tmo : Half), s.busy = false → s.tooSoon = false →
    waveLevel s.env.wave (s.t + s.cfg.dht.healthUs) = true →
    ((∀ u, s.t + s.lead ≤ u → u < s.t + s.lead + tmo.toNat → waveLevel s.env.wave u = true) →
      ∃ t, exec (.dhtReadFrame tmo) s = .next t ∧ t.rsp = ⟨0x03, 1, 0, 0⟩ ∧ t.reading = s.reading ∧ t.dht = s.dht ∧
        t.t = s.t + s.lead + tmo.toNat ∧
        t.trace = s.trace ++
          [.dlInput, .delay s.cfg.dht.healthUs .us, .sampleDl true, .dlLow, .delay s.cfg.dht.startLowUs .us, .dlInput,
            .delay s.cfg.dht.releaseUs .us, .dlPhase false .waitTimedOut]) ∧
    (∀ (w rl rh tail : Nat) (later : List (Nat × Level)),
      s.env.wave = phaseWave (s.t + s.lead) true [w, rl, rh, tail] ++ later → w < tmo.toNat →
      1 ≤ rl → 1 ≤ rh → 1 ≤ tail →
      rl < s.cfg.dht.minRespUs ∨ tmo.toNat < rl ∨ rh < s.cfg.dht.minRespUs ∨ tmo.toNat < rh →
      ∃ t, exec (.dhtReadFrame tmo) s = .next t ∧ t.reading = s.reading ∧ t.dht = s.dht ∧
        (rl < s.cfg.dht.minRespUs ∨ tmo.toNat < rl → t.rsp = ⟨0x03, 1, 0, 0⟩) ∧
        (s.cfg.dht.minRespUs ≤ rl → rl ≤ tmo.toNat → rh < s.cfg.dht.minRespUs ∨ tmo.toNat < rh → t.rsp = ⟨0x03, 2, 0, 0⟩))

/-- R27, R178, R312: whatever the line does, DHT_READ_FRAME ends in one of five statuses; READING and the rate
limiter are written on OK only, both at once, and the value returned is theirs. -/
def Obligations.DhtOutcomeAndReading : Prop :=
  ∀ (s : State) (tmo : Half), s.busy = false →
    ∃ t, exec (.dhtReadFrame tmo) s = .next t ∧
      ((t.rsp.status = 0x00 ∧ t.rsp.aux = 0 ∧ t.rsp.aux2 = 0 ∧
          t.reading = ⟨true, t.rsp.value.extractLsb' 0 8, t.rsp.value.extractLsb' 8 8, t.t / 1000⟩ ∧
          t.dht = ⟨true, t.t / 1000⟩) ∨
        (t.reading = s.reading ∧ t.dht = s.dht ∧ t.rsp.value = 0 ∧
          ((t.rsp.status = 0x02 ∨ t.rsp.status = 0x04 ∨ t.rsp.status = 0x05) ∧ t.rsp.aux = 0 ∧ t.rsp.aux2 = 0 ∨
            t.rsp.status = 0x03 ∧
              ((t.rsp.aux = 1 ∨ t.rsp.aux = 2) ∧ t.rsp.aux2 = 0 ∨
                (t.rsp.aux = 3 ∨ t.rsp.aux = 4) ∧ t.rsp.aux2.toNat < 40))))

/-- S7, R350: a second DHT_READ_FRAME less than the spacing after one that returned OK answers DEVICE_BUSY without
touching the line, in every state in which only other operations, time and HOST have been at work since. -/
def Obligations.DhtSecondReadBusy : Prop :=
  ∀ (s t u : State) (tmo tmo' : Half), s.busy = false → exec (.dhtReadFrame tmo) s = .next t → t.rsp.status = 0x00 →
    u.busy = false → u.cfg = t.cfg → u.dht = t.dht → u.t / 1000 < t.t / 1000 + u.cfg.dht.spacingMs →
    exec (.dhtReadFrame tmo') u = .next { u.pump with rsp := ⟨0x05, 0, 0, 0⟩ }

/-- R185: the longest run of DHT_READ_FRAME (the spec derives the bound itself, spec/41_pulse_decoder.md section 4). -/
def Obligations.DhtBounded : Prop :=
  ∀ (s t : State) (tmo : Half), exec (.dhtReadFrame tmo) s = .next t →
    t.t ≤ s.t + s.cfg.dht.healthUs + s.cfg.dht.startLowUs + s.cfg.dht.releaseUs + 82 * 2 * tmo.toNat

/-! ## UART -/

/-- R204, R205: UART_READ_LINE with a whole line in RX.q takes it at once: leading terminators skipped, the first
`maxLen` bytes stored, the rest dropped, the terminator removed and not stored, what follows left in RX.q; nothing
is transmitted, no time passes, no byte of LINEBUF beyond the line changes. -/
def Obligations.ReadLineFromQueue : Prop :=
  ∀ (s : State) (maxLen : Byte) (timeout : Half) (l : QueuedLine) (rest : List RxItem),
    s.busy = false → s.linebuf.wf = true → maxLen ≠ 0 → maxLen.toNat ≤ s.cfg.uart.lineMax.val → timeout ≠ 0 →
    l.IsLine → s.pump.rx.q = l.items ++ rest →
    ∃ t, exec (.uartReadLine maxLen timeout) s = .next t ∧
      t.rsp = ⟨0x00, 0, 0, BitVec.ofNat 16 (min l.text.length maxLen.toNat)⟩ ∧
      t.linelen.toNat = min l.text.length maxLen.toNat ∧
      (∀ (k : Nat) (h : k < l.text.length), k < maxLen.toNat → t.hostReadLinebuf k = l.text[k]) ∧
      (∀ k, min l.text.length maxLen.toNat ≤ k → Memory.read t.linebuf k = Memory.read s.linebuf k) ∧
      t.rx = { s.pump.rx with q := rest } ∧ t.t = s.t ∧ t.trace = s.trace ∧ t.session = s.session

/-- R204: UART_READ_LINE with nothing but terminators in RX.q and no arrival before the deadline: all are removed and
0 is returned at the deadline, whatever arrives at that very millisecond (R311); with data bytes after them and no
item that ends their line, those bytes (the first `maxLen` of them) are returned as a line at the deadline; with
timeout 0 nothing is removed and no time passes. The microseconds of T after the wait, the start of its millisecond,
are the model's choice (assumption 11). -/
def Obligations.ReadLineTimesOut : Prop :=
  ∀ (s : State) (maxLen : Byte) (timeout : Half),
    s.busy = false → maxLen ≠ 0 → maxLen.toNat ≤ s.cfg.uart.lineMax.val →
    (timeout = 0 → exec (.uartReadLine maxLen timeout) s =
      .next { s.pump with rsp := ⟨0x00, 0, 0, 0⟩, linelen := 0 }) ∧
    (timeout ≠ 0 → (∀ x ∈ s.pump.rx.q, x.ends) → s.pump.rx.acc = [] →
      (∀ a ∈ s.pump.env.arrivals, s.t / 1000 + timeout.toNat ≤ a.1) →
      ∃ t, exec (.uartReadLine maxLen timeout) s = .next t ∧ t.rsp = ⟨0x00, 0, 0, 0⟩ ∧ t.linelen = 0 ∧
        t.linebuf = s.linebuf ∧ t.t = 1000 * (s.t / 1000 + timeout.toNat) ∧ t.trace = s.trace ∧
        (t.rx, t.env.arrivals) =
          rxRun s.cfg.uart (s.t / 1000 + timeout.toNat) { s.pump.rx with q := [] } s.pump.env.arrivals) ∧
    (∀ (lead : List RxItem) (text : Bytes), timeout ≠ 0 → s.linebuf.wf = true → (∀ x ∈ lead, x.ends) →
      (∀ b ∈ text, b ≠ 0x0D ∧ b ≠ 0x0A) → s.pump.rx.q = lead ++ text.map .byte → s.pump.rx.acc = [] →
      (∀ a ∈ s.pump.env.arrivals, s.t / 1000 + timeout.toNat ≤ a.1) →
      ∃ t, exec (.uartReadLine maxLen timeout) s = .next t ∧
        t.rsp = ⟨0x00, 0, 0, BitVec.ofNat 16 (min text.length maxLen.toNat)⟩ ∧
        t.linelen.toNat = min text.length maxLen.toNat ∧
        (∀ (k : Nat) (h : k < text.length), k < maxLen.toNat → t.hostReadLinebuf k = text[k]) ∧
        (∀ k, min text.length maxLen.toNat ≤ k → Memory.read t.linebuf k = Memory.read s.linebuf k) ∧
        t.t = 1000 * (s.t / 1000 + timeout.toNat) ∧ t.trace = s.trace ∧
        (t.rx, t.env.arrivals) =
          rxRun s.cfg.uart (s.t / 1000 + timeout.toNat) { s.pump.rx with q := [] } s.pump.env.arrivals)

/-- R204: "It returns 0 only when the timeout elapses with no data byte read." With a positive timeout the deadline has
been reached, in every environment; the model's bound on the items read never ends a read early. -/
def Obligations.ReadLineZeroOnlyAtDeadline : Prop :=
  ∀ (s t : State) (maxLen : Byte) (timeout : Half), s.busy = false → maxLen ≠ 0 →
    maxLen.toNat ≤ s.cfg.uart.lineMax.val → exec (.uartReadLine maxLen timeout) s = .next t → t.rsp.value = 0 →
    s.t / 1000 + timeout.toNat ≤ t.t / 1000

/-- R207, R208, R210: UART_SEND_COMMAND with the reply lines in RX.q: lines that decide nothing are passed over, the
first that decides gives the status; LINEBUF holds it, what follows stays in RX.q, no time passes; STR0 and CMD_TERM
are all that is transmitted. -/
def Obligations.SendCommandMatched : Prop :=
  ∀ (s : State) (timeout : Half) (ignored : List QueuedLine) (l : QueuedLine) (rest : List RxItem) (code : Byte),
    s.busy = false → s.linebuf.wf = true → timeout ≠ 0 →
    (∀ x ∈ ignored, x.Fits s.cfg.uart ∧ Ignored s.cfg.uart s.str1Bytes x.text) →
    l.Fits s.cfg.uart → Decides s.cfg.uart s.str1Bytes l.text code →
    s.pump.rx.q = queuedItems ignored ++ l.items ++ rest →
    ∃ t, exec (.uartSendCommand timeout) s = .next t ∧ t.rsp = ⟨code, 0, 0, 0⟩ ∧
      t.trace = s.trace ++ [.tx (s.str0Bytes ++ s.cfg.uart.cmdTerm)] ∧
      t.linelen.toNat = l.text.length ∧ (∀ (k : Nat) (h : k < l.text.length), t.hostReadLinebuf k = l.text[k]) ∧
      t.rx = { s.pump.rx with q := rest } ∧ t.t = s.t ∧ t.session = s.session

/-- R200, R202, R204, R207: a reply line that arrives at a later millisecond, before the deadline, with nothing
received earlier: the command is answered at that millisecond. The microseconds of T after the wait, the start of
its millisecond, are the model's choice (assumption 11). -/
def Obligations.SendCommandLaterReply : Prop :=
  ∀ (s : State) (timeout : Half) (reply : Bytes) (stop : Byte) (m : Nat) (later : List Arrival) (code : Byte),
    s.busy = false → s.linebuf.wf = true → s.pump.rx.q = [] → s.pump.rx.acc = [] →
    s.pump.env.arrivals = reply.map (fun b => (m, b)) ++ (m, stop) :: later →
    s.t / 1000 < m → m < s.t / 1000 + timeout.toNat →
    reply ≠ [] → (∀ b ∈ reply, b ≠ 0x0D ∧ b ≠ 0x0A) → stop = 0x0D ∨ stop = 0x0A →
    reply.length ≤ s.cfg.uart.lineMax.val → reply.length ≤ s.cfg.uart.rxAccCap → reply.length < s.cfg.uart.rxQCap →
    Decides s.cfg.uart s.str1Bytes reply code →
    ∃ t, exec (.uartSendCommand timeout) s = .next t ∧ t.rsp = ⟨code, 0, 0, 0⟩ ∧ t.t = 1000 * m ∧
      t.trace = s.trace ++ [.tx (s.str0Bytes ++ s.cfg.uart.cmdTerm)] ∧
      t.linelen.toNat = reply.length ∧ (∀ (k : Nat) (h : k < reply.length), t.hostReadLinebuf k = reply[k])

/-- R210: with timeout 0 the command is transmitted and the result is PROTOCOL_TIMEOUT without reading. -/
def Obligations.SendCommandTimeoutZero : Prop :=
  ∀ s : State, s.busy = false →
    exec (.uartSendCommand 0) s = .next { s.pump with
      rsp := ⟨0x03, 0, 0, 0⟩
      trace := s.trace ++ [.tx (s.str0Bytes ++ s.cfg.uart.cmdTerm)] }

/-- R207, R304 (b): UART_SEND_COMMAND answers one of four statuses, PROTOCOL_TIMEOUT only when the overall timeout has
expired, the others only on the line LINEBUF then holds (R308, R309); in every environment. -/
def Obligations.SendCommandOutcome : Prop :=
  ∀ (s : State) (timeout : Half), s.busy = false → s.linebuf.wf = true →
    ∃ t, exec (.uartSendCommand timeout) s = .next t ∧ t.rsp.aux = 0 ∧ t.rsp.aux2 = 0 ∧ t.rsp.value = 0 ∧
      ((t.rsp.status = 0x03 ∧ s.t / 1000 + timeout.toNat ≤ t.t / 1000) ∨
        (Decides s.cfg.uart s.str1Bytes ((List.range t.linelen.toNat).map t.hostReadLinebuf) t.rsp.status ∧
          t.linelen ≠ 0))

/-- R204, R210, R222: no UART operation outlasts its deadlines (the spec derives the two sums itself,
spec/42_uart_session_framer.md section 5). -/
def Obligations.UartBounded : Prop :=
  ∀ s t : State,
    (∀ m v, exec (.uartReadLine m v) s = .next t → t.nowMs ≤ s.nowMs + v.toNat) ∧
    (∀ v, exec (.uartSendCommand v) s = .next t → t.nowMs ≤ s.nowMs + v.toNat) ∧
    (∀ p, exec (.uartInitSession p) s = .next t →
      t.nowMs ≤ s.nowMs + (1 + s.cfg.uart.handshakeRetries) * s.cfg.uart.tCmdMs + s.cfg.uart.tCmdMs +
        s.cfg.uart.tAttachMs + s.cfg.uart.tCmdMs + s.cfg.uart.diagCmds.length * s.cfg.uart.tCmdMs +
        s.cfg.uart.tCmdMs + s.cfg.uart.tCmdMs + s.cfg.uart.tSockWaitMs) ∧
    (exec .uartSendLine s = .next t → t.nowMs ≤ s.nowMs + s.cfg.uart.tPromptMs + s.cfg.uart.tSendAckMs)

/-- R216, R219, V41: UART_INIT_SESSION when every step succeeds, the replies standing in RX.q (R211: nothing flushes
them): exactly the commands of the sequence, in order, each with CMD_TERM; the results of the diagnostic queries and of
the stale-socket close do not matter; both session flags end set and the value is 3. -/
def Obligations.InitAllStepsOk : Prop :=
  ∀ (s : State) (port : Half) (hs ff att apn : QueuedLine) (diag : List QueuedLine) (cl op ev : QueuedLine)
    (rest : List RxItem),
    s.busy = false → s.linebuf.wf = true → 0 < s.cfg.uart.tCmdMs → 0 < s.cfg.uart.tAttachMs →
    0 < s.cfg.uart.tSockWaitMs →
    (∀ l ∈ [hs, ff, att, apn] ++ diag ++ [cl, op, ev], l.Fits s.cfg.uart) →
    (∀ l ∈ [hs, ff, att, apn, op], contains l.text s.cfg.uart.expOk = true) →
    diag.length = s.cfg.uart.diagCmds.length →
    (∀ l ∈ diag ++ [cl], ∃ code, Decides s.cfg.uart s.cfg.uart.expOk l.text code) →
    contains ev.text s.cfg.uart.expSockOpened = true →
    s.pump.rx.q = queuedItems ([hs, ff, att, apn] ++ diag ++ [cl, op, ev]) ++ rest →
    ∃ t, exec (.uartInitSession port) s = .next t ∧ t.rsp = ⟨0x00, 0, 0, 3⟩ ∧ t.session = ⟨true, true⟩ ∧
      t.trace = s.trace ++
        ([s.cfg.uart.cmdHandshake, s.cfg.uart.cmdFullFunc, s.cfg.uart.cmdAttach,
            composeSetApn s.cfg.uart s.str0Bytes] ++ s.cfg.uart.diagCmds ++
          [s.cfg.uart.cmdSockClose, composeSockOpen s.cfg.uart s.str1Bytes port.toNat]).map
            (fun text => Event.tx (text ++ s.cfg.uart.cmdTerm)) ∧
      t.t = s.t ∧ t.rx = { s.pump.rx with q := rest } ∧
      t.linelen.toNat = ev.text.length ∧ (∀ (k : Nat) (h : k < ev.text.length), t.hostReadLinebuf k = ev.text[k])

/-- S6, R213, R216: a set-APN step answered by an error line ends the initialization with phase code 4, the step's
status and the flags attached = 1, socketOpen = 0; no further command is transmitted, the socket-open not attempted. -/
def Obligations.InitStopsAtSetApn : Prop :=
  ∀ (s : State) (port : Half) (hs ff att apn : QueuedLine) (rest : List RxItem) (code : Byte),
    s.busy = false → s.linebuf.wf = true → 0 < s.cfg.uart.tCmdMs → 0 < s.cfg.uart.tAttachMs →
    (∀ l ∈ [hs, ff, att, apn], l.Fits s.cfg.uart) →
    (∀ l ∈ [hs, ff, att], contains l.text s.cfg.uart.expOk = true) →
    Decides s.cfg.uart s.cfg.uart.expOk apn.text code → code ≠ 0x00 →
    s.pump.rx.q = queuedItems [hs, ff, att, apn] ++ rest →
    ∃ t, exec (.uartInitSession port) s = .next t ∧ t.rsp = ⟨0x06, 4, code, 1⟩ ∧ t.session = ⟨true, false⟩ ∧
      t.trace = s.trace ++
        [s.cfg.uart.cmdHandshake, s.cfg.uart.cmdFullFunc, s.cfg.uart.cmdAttach,
          composeSetApn s.cfg.uart s.str0Bytes].map (fun text => Event.tx (text ++ s.cfg.uart.cmdTerm)) ∧
      t.t = s.t ∧ t.rx = { s.pump.rx with q := rest }

/-- R214: the handshake is attempted 1 + HANDSHAKE_RETRIES times and no more when every attempt fails, the command
transmitted again each time; the step fails with the status of the last attempt (R215: phase 1), and nothing else is
transmitted. First for attempts that fail in any way at all, given by their outcomes as `sendCommand` gives them (its
own statements are those of UART_SEND_COMMAND); then for attempts each ended by an error line that stands in RX.q,
after lines that decide nothing; then for attempts that all time out, lines that decide nothing among them. -/
def Obligations.InitHandshakeExhausted : Prop :=
  (∀ (s : State) (port : Half) (u : Nat → State), s.busy = false →
    let attempt := fun k => sendCommand s.cfg.uart.cmdHandshake s.cfg.uart.expOk s.cfg.uart.tCmdMs (u k)
    u 0 = { s.pump with busy := true, session := ⟨false, false⟩ } →
    (∀ k ≤ s.cfg.uart.handshakeRetries, (attempt k).1 ≠ .ok ∧ u (k + 1) = (attempt k).2) →
    exec (.uartInitSession port) s = .next { u (s.cfg.uart.handshakeRetries + 1) with
      rsp := ⟨0x06, 1, (attempt s.cfg.uart.handshakeRetries).1.code, 0⟩
      busy := false
      session := ⟨false, false⟩
      trace := s.trace ++
        List.replicate (1 + s.cfg.uart.handshakeRetries) (.tx (s.cfg.uart.cmdHandshake ++ s.cfg.uart.cmdTerm)) }) ∧
  (∀ (s : State) (port : Half) (errs : List (List QueuedLine × QueuedLine)) (last : List QueuedLine × QueuedLine)
    (rest : List RxItem) (code : Byte),
    s.busy = false → s.linebuf.wf = true → 0 < s.cfg.uart.tCmdMs → errs.length = s.cfg.uart.handshakeRetries →
    (∀ a ∈ errs ++ [last], (∀ x ∈ a.1, x.Fits s.cfg.uart ∧ Ignored s.cfg.uart s.cfg.uart.expOk x.text) ∧
      a.2.Fits s.cfg.uart ∧ ∃ c, c ≠ 0x00 ∧ Decides s.cfg.uart s.cfg.uart.expOk a.2.text c) →
    Decides s.cfg.uart s.cfg.uart.expOk last.2.text code →
    s.pump.rx.q = (errs ++ [last]).flatMap (fun a => queuedItems a.1 ++ a.2.items) ++ rest →
    ∃ t, exec (.uartInitSession port) s = .next t ∧ t.rsp = ⟨0x06, 1, code, 0⟩ ∧ t.session = ⟨false, false⟩ ∧
      t.trace = s.trace ++
        List.replicate (1 + s.cfg.uart.handshakeRetries) (.tx (s.cfg.uart.cmdHandshake ++ s.cfg.uart.cmdTerm)) ∧
      t.t = s.t ∧ t.rx = { s.pump.rx with q := rest }) ∧
  (∀ (s : State) (port : Half) (ignored : List QueuedLine) (ends : List RxItem),
    let total := (1 + s.cfg.uart.handshakeRetries) * s.cfg.uart.tCmdMs
    s.busy = false → s.linebuf.wf = true →
    (∀ x ∈ ignored, x.Fits s.cfg.uart ∧ Ignored s.cfg.uart s.cfg.uart.expOk x.text) → (∀ x ∈ ends, x.ends) →
    s.pump.rx.q = queuedItems ignored ++ ends → s.pump.rx.acc = [] →
    (∀ a ∈ s.pump.env.arrivals, s.t / 1000 + total ≤ a.1) →
    ∃ t, exec (.uartInitSession port) s = .next t ∧ t.rsp = ⟨0x06, 1, 0x03, 0⟩ ∧ t.session = ⟨false, false⟩ ∧
      t.trace = s.trace ++
        List.replicate (1 + s.cfg.uart.handshakeRetries) (.tx (s.cfg.uart.cmdHandshake ++ s.cfg.uart.cmdTerm)) ∧
      t.t / 1000 = s.t / 1000 + total)

/-- R213, R215, R216, R307: whatever the modem does, UART_INIT_SESSION ends in OK with both flags set, or in
SESSION_PHASE_FAILURE with phase 1 to 6, the failed step's status, and the flags of the progress made: attached from
phase 4 on, socketOpen never. What is transmitted is the handshake, once to 1 + HANDSHAKE_RETRIES times (as often as
allowed where it fails), then the commands of the sequence in order up to the failing step, each once, and nothing
else: "After a failure no further command is transmitted"; the socket-opened wait transmits nothing. -/
def Obligations.InitOutcome : Prop :=
  ∀ (s : State) (port : Half), s.busy = false →
    let c := s.cfg.uart
    let sequence := [c.cmdFullFunc, c.cmdAttach, composeSetApn c s.str0Bytes] ++ c.diagCmds ++
      [c.cmdSockClose, composeSockOpen c s.str1Bytes port.toNat]
    ∃ t attempts, exec (.uartInitSession port) s = .next t ∧
      1 ≤ attempts ∧ attempts ≤ 1 + c.handshakeRetries ∧ (t.rsp.aux = 1 → attempts = 1 + c.handshakeRetries) ∧
      t.trace = s.trace ++
        (List.replicate attempts c.cmdHandshake ++
          (if t.rsp.aux = 1 then []
            else if t.rsp.aux = 2 then [c.cmdFullFunc]
            else if t.rsp.aux = 3 then [c.cmdFullFunc, c.cmdAttach]
            else if t.rsp.aux = 4 then [c.cmdFullFunc, c.cmdAttach, composeSetApn c s.str0Bytes]
            else sequence)).map (fun text => Event.tx (text ++ c.cmdTerm)) ∧
      ((t.rsp = ⟨0x00, 0, 0, 3⟩ ∧ t.session = ⟨true, true⟩) ∨
        (t.rsp.status = 0x06 ∧ 1 ≤ t.rsp.aux.toNat ∧ t.rsp.aux.toNat ≤ 6 ∧
          (t.rsp.aux2 = 0x03 ∨ t.rsp.aux2 = 0x07 ∨ t.rsp.aux2 = 0x08) ∧
          t.session = ⟨decide (4 ≤ t.rsp.aux.toNat), false⟩ ∧
          t.rsp.value = if 4 ≤ t.rsp.aux.toNat then 1 else 0))

/-- R107, R209, R220: UART_SEND_LINE with the prompt and the reply in RX.q: every item before the prompt is discarded,
the prepare command and then the payload with the end-of-data byte are transmitted and nothing else, and the line
that decides gives OK or phase 8 with its status. Then with a prompt that arrives while the operation waits, alone or
with bytes after it, and, as no terminator follows, is seen only at its idle commit, T_IDLE_COMMIT_MS later (R202,
R354 (3)): the payload is transmitted then, so that the wait for the acknowledgement has its whole timeout from that millisecond on, whether a
reply line comes within it or not. The value is N, cut to the 16 bits of RSP.value for an N above 65535, which is the
model's choice (assumption 15); SESSION is not touched. -/
def Obligations.SendLineOutcome : Prop :=
  (∀ (s : State) (junk : List RxItem) (ignored : List QueuedLine) (l : QueuedLine) (rest : List RxItem) (code : Byte),
    s.busy = false → s.linebuf.wf = true → 0 < s.cfg.uart.tPromptMs → 0 < s.cfg.uart.tSendAckMs →
    (∀ x ∈ junk, x ≠ .byte s.cfg.uart.promptChar) →
    (∀ x ∈ ignored, x.Fits s.cfg.uart ∧ Ignored s.cfg.uart s.cfg.uart.expSendAck x.text) →
    l.Fits s.cfg.uart → Decides s.cfg.uart s.cfg.uart.expSendAck l.text code →
    s.pump.rx.q = junk ++ .byte s.cfg.uart.promptChar :: (queuedItems ignored ++ l.items ++ rest) →
    let n := s.str0len.toNat + s.cfg.uart.payloadTerm.length
    ∃ t, exec .uartSendLine s = .next t ∧
      t.rsp = (if code = 0x00 then ⟨0x00, 0, 0, BitVec.ofNat 16 n⟩ else ⟨0x06, 8, code, BitVec.ofNat 16 n⟩) ∧
      t.trace = s.trace ++
        [.tx (composeSendPrep s.cfg.uart n ++ s.cfg.uart.cmdTerm),
          .tx (s.str0Bytes ++ s.cfg.uart.payloadTerm ++ [s.cfg.uart.eodByte])] ∧
      t.t = s.t ∧ t.session = s.session ∧ t.rx = { s.pump.rx with q := rest }) ∧
  (∀ (s : State) (m : Nat) (more : Bytes) (later : List Arrival),
    let c := s.cfg.uart
    let seen := m + c.tIdleCommitMs
    let n := s.str0len.toNat + c.payloadTerm.length
    s.busy = false → s.linebuf.wf = true → (∀ x ∈ s.pump.rx.q, x ≠ .byte c.promptChar) → s.pump.rx.acc = [] →
    s.pump.env.arrivals = (m, c.promptChar) :: more.map (fun b => (m, b)) ++ later → (∀ a ∈ later, seen < a.1) →
    s.t / 1000 < m → seen < s.t / 1000 + c.tPromptMs →
    (∀ b ∈ c.promptChar :: more, b ≠ 0x0D ∧ b ≠ 0x0A) → (more ≠ [] → Ignored c c.expSendAck more) →
    more.length ≤ c.lineMax.val → more.length < c.rxAccCap → more.length + 1 < c.rxQCap →
    ∃ t, exec .uartSendLine s = .next t ∧ t.session = s.session ∧
      t.trace = s.trace ++
        [.tx (composeSendPrep c n ++ c.cmdTerm), .tx (s.str0Bytes ++ c.payloadTerm ++ [c.eodByte])] ∧
      ((∀ a ∈ later, seen + c.tSendAckMs ≤ a.1) →
        t.rsp = ⟨0x06, 8, 0x03, BitVec.ofNat 16 n⟩ ∧ t.t / 1000 = seen + c.tSendAckMs) ∧
      (∀ (reply : Bytes) (stop : Byte) (m2 : Nat) (rest : List Arrival) (code : Byte),
        later = reply.map (fun b => (m2, b)) ++ (m2, stop) :: rest → m2 < seen + c.tSendAckMs →
        reply ≠ [] → (∀ b ∈ reply, b ≠ 0x0D ∧ b ≠ 0x0A) → stop = 0x0D ∨ stop = 0x0A →
        reply.length ≤ c.lineMax.val → reply.length ≤ c.rxAccCap → reply.length < c.rxQCap →
        Decides c c.expSendAck reply code →
        t.rsp = (if code = 0x00 then ⟨0x00, 0, 0, BitVec.ofNat 16 n⟩ else ⟨0x06, 8, code, BitVec.ofNat 16 n⟩) ∧
        t.t / 1000 = m2))

/-- R209, R220, V46: when the prompt does not come before the deadline, phase 7 is reported then and the payload is
not transmitted, whatever else stands in RX.q and RX.acc or arrives (an error line among it): nothing received or
arriving before the deadline is the prompt character. The value is N, cut to the 16 bits of RSP.value for an N above
65535, which is the model's choice (assumption 15). -/
def Obligations.SendLineNoPrompt : Prop :=
  ∀ s : State, s.busy = false → (∀ x ∈ s.pump.rx.q, x ≠ .byte s.cfg.uart.promptChar) →
    (∀ b ∈ s.pump.rx.acc, b ≠ s.cfg.uart.promptChar) →
    (∀ a ∈ s.pump.env.arrivals, a.1 < s.t / 1000 + s.cfg.uart.tPromptMs → a.2 ≠ s.cfg.uart.promptChar) →
    let n := s.str0len.toNat + s.cfg.uart.payloadTerm.length
    ∃ t, exec .uartSendLine s = .next t ∧ t.rsp = ⟨0x06, 7, 0x03, BitVec.ofNat 16 n⟩ ∧
      t.trace = s.trace ++ [.tx (composeSendPrep s.cfg.uart n ++ s.cfg.uart.cmdTerm)] ∧
      t.t / 1000 = s.t / 1000 + s.cfg.uart.tPromptMs ∧ t.session = s.session ∧ t.linebuf = s.linebuf ∧
      t.linelen = s.linelen

/-- R106, R212: a numeral is digits only, has no leading zero but for zero itself, and reads as its number; a composed
command text is its template with every slot replaced, byte for byte and nothing added, cut to its first
CMD_TEXT_CAP bytes. -/
def Obligations.NumeralAndComposedText : Prop :=
  (∀ n : Nat,
    decimal n ≠ [] ∧ (∀ d ∈ decimal n, 0x30 ≤ d.toNat ∧ d.toNat ≤ 0x39) ∧
    (decimal n).foldl (fun v d => v * 10 + (d.toNat - 0x30)) 0 = n ∧
    (n ≠ 0 → (decimal n).head? ≠ some 0x30) ∧ decimal 0 = [0x30]) ∧
  (∀ (c : UartConfig) (apn host : Bytes) (port n : Nat),
    let apnText := (c.cmdSetApn.map fun | .text bs => bs | .slot .apn => apn).flatten
    let openText := (c.cmdSockOpen.map fun | .text bs => bs | .slot .host => host | .slot .port => decimal port).flatten
    let prepText := (c.cmdSendPrep.map fun | .text bs => bs | .slot .n => decimal n).flatten
    ∀ k : Nat,
      (composeSetApn c apn)[k]? = (if k < c.cmdTextCap then apnText[k]? else none) ∧
      (composeSockOpen c host port)[k]? = (if k < c.cmdTextCap then openText[k]? else none) ∧
      (composeSendPrep c n)[k]? = (if k < c.cmdTextCap then prepText[k]? else none))

/-! ## BTN -/

/-- R251 to R253: BTN_POLL takes one sample, debounces it, then runs the event machine on the accepted level; the
response reports the phase, the level and the event; intervals are integer differences. -/
def Obligations.ButtonPollExact : Prop :=
  ∀ (s : State) (p : Level) (rest : List Level), s.busy = false → s.env.btnAnswers = p :: rest →
    let now := s.t / 1000
    let settled : Prop := (s.cfg.btn.settleMs : Int) ≤ (now : Int) - (s.btn.rawSinceMs : Int)
    let held : Prop := (s.cfg.btn.longMs : Int) ≤ (now : Int) - (s.btn.pressStartMs : Int)
    ∃ t ev, exec .btnPoll s = .next t ∧
      t = { s.pump with
        rsp := t.rsp
        trace := s.trace ++ [.sampleBtn p]
        env := { s.pump.env with btnAnswers := rest }
        btn := t.btn } ∧
      t.btn.rawPrev = p ∧ t.btn.rawSinceMs = (if p = s.btn.rawPrev then s.btn.rawSinceMs else now) ∧
      (p = s.btn.rawPrev ∧ settled → t.btn.debouncedLevel = p) ∧
      (¬ (p = s.btn.rawPrev ∧ settled) → t.btn.debouncedLevel = s.btn.debouncedLevel) ∧
      (s.btn.phase = .idle → ev = 0 ∧
        (t.btn.debouncedLevel = true → t.btn.phase = .pressed ∧ t.btn.pressStartMs = now) ∧
        (t.btn.debouncedLevel = false → t.btn.phase = .idle ∧ t.btn.pressStartMs = s.btn.pressStartMs)) ∧
      (s.btn.phase ≠ .idle → t.btn.pressStartMs = s.btn.pressStartMs) ∧
      (s.btn.phase = .pressed → held → t.btn.phase = .longReported ∧ ev = 2) ∧
      (s.btn.phase = .pressed → ¬ held → t.btn.debouncedLevel = false → t.btn.phase = .idle ∧ ev = 1) ∧
      (s.btn.phase = .pressed → ¬ held → t.btn.debouncedLevel = true → t.btn.phase = .pressed ∧ ev = 0) ∧
      (s.btn.phase = .longReported → ev = 0 ∧
        t.btn.phase = if t.btn.debouncedLevel then .longReported else .idle) ∧
      t.rsp = ⟨0x00, (match t.btn.phase with | .idle => 0 | .pressed => 1 | .longReported => 2),
        if t.btn.debouncedLevel then 1 else 0, ev⟩

/-- S3, R251: a raw signal bouncing within less than the settle time never changes the accepted level, in however
many polls it is seen. -/
def Obligations.BounceIgnored : Prop :=
  ∀ (c : BtnConfig) (b : Btn) (polls : List (Level × Nat)) (t0 : Nat), b.rawPrev = b.debouncedLevel →
    (∀ x ∈ polls, t0 ≤ x.2 ∧ x.2 < t0 + c.settleMs) →
    (Btn.polls c polls b).2.debouncedLevel = b.debouncedLevel

/-- S3, R251: a clean transition is accepted at the first poll at least the settle time after the poll that first saw
it, at no earlier poll, and stays accepted. -/
def Obligations.CleanTransitionAccepted : Prop :=
  ∀ (c : BtnConfig) (b : Btn) (x : Level) (t0 : Nat) (times : List Nat),
    b.rawPrev = b.debouncedLevel → x ≠ b.debouncedLevel →
    ((Btn.polls c ((x, t0) :: times.map fun u => (x, u)) b).2.debouncedLevel = x ↔
      ∃ u ∈ times, t0 + c.settleMs ≤ u)

/-- S4, R252, R253: a press held past the long-press threshold gives exactly one LongPress and no ShortPress, whatever
the times of the polls, through the hold and through the release after it. -/
def Obligations.HoldGivesOneLongPress : Prop :=
  ∀ (c : BtnConfig) (b : Btn) (t0 ta tl : Nat) (before mid after release : List Nat),
    b.phase = .idle → b.debouncedLevel = false → b.rawPrev = false →
    Rising (t0 :: before ++ ta :: mid ++ tl :: after ++ release) →
    (∀ u ∈ before, u < t0 + c.settleMs) → t0 + c.settleMs ≤ ta → ta + c.longMs ≤ tl →
    let events := (Btn.polls c (((t0 :: before ++ ta :: mid ++ tl :: after).map fun u => (true, u)) ++
      release.map fun u => (false, u)) b).1
    events.count .longPress = 1 ∧ events.count .shortPress = 0

/-- R252, R253: a press accepted and released before the long-press threshold gives exactly one ShortPress and no
LongPress, at the poll that accepts the release. -/
def Obligations.ShortPressOnce : Prop :=
  ∀ (c : BtnConfig) (b : Btn) (t0 ta r0 tr : Nat) (before mid between after : List Nat),
    b.phase = .idle → b.debouncedLevel = false → b.rawPrev = false →
    Rising (t0 :: before ++ ta :: mid ++ r0 :: between ++ tr :: after) →
    (∀ u ∈ before, u < t0 + c.settleMs) → t0 + c.settleMs ≤ ta →
    (∀ u ∈ between, u < r0 + c.settleMs) → r0 + c.settleMs ≤ tr → tr < ta + c.longMs →
    let pressed := (t0 :: before ++ ta :: mid).map fun u => (true, u)
    let released := (r0 :: between).map fun u => (false, u)
    let events := (Btn.polls c (pressed ++ released ++ (tr :: after).map fun u => (false, u)) b).1
    events.count .longPress = 0 ∧ events.count .shortPress = 1 ∧
      events[(pressed ++ released).length]? = some .shortPress

/-! ## DUTY -/

/-- R270: DUTY_AUTO, with floor division on the ramp; the operand is signed (R94); only RSP is written. -/
def Obligations.AutoDutyExact : Prop :=
  ∀ (s : State) (v : Half), s.busy = false →
    let t : Int := v.toInt
    let low := s.cfg.duty.tLow
    let high := s.cfg.duty.tHigh
    let ramp : Int := (s.cfg.duty.rampMin.val : Int)
    ∃ p : Nat, p ≤ 100 ∧ exec (.dutyAuto v) s = .next { s.pump with rsp := ⟨0x00, 0, 0, BitVec.ofNat 16 p⟩ } ∧
      (t ≤ low → p = 0) ∧ (low < t → high ≤ t → p = 100) ∧
      (low < t → t < high →
        (p : Int) = ramp + (100 - ramp) * (t - low) / (high - low) ∧
        (high - low) * ((p : Int) - ramp) ≤ (100 - ramp) * (t - low) ∧
        (100 - ramp) * (t - low) < (high - low) * ((p : Int) - ramp + 1))

/-- R270: the auto duty is monotonic in the temperature and is a percentage, under every configuration. -/
def Obligations.AutoDutyMonotone : Prop :=
  ∀ (c : DutyConfig) (t u : Int), t ≤ u → autoDuty c t ≤ autoDuty c u ∧ autoDuty c u ≤ 100

/-- R275, R276: MOTOR_UPDATE under the event mapping of R275's pseudocode; what the mapping is, is a configuration
table (U19), and every other mapping gives the duty of R276 for the mode and the request it leaves. -/
def Obligations.MotorUpdateExact : Prop :=
  ∀ (s : State) (rv : Bool) (ev : EventArg) (v : Half), s.busy = false → ev ≠ .reserved3 →
    ∃ t, exec (.motorUpdate rv ev v) s = .next t ∧
      t = { s.pump with rsp := t.rsp, motor := t.motor } ∧
      (t.motor.mode = .manual → t.motor.manualOn = true → t.motor.dutyPercent.toNat = s.cfg.duty.manualOnDuty.val) ∧
      (t.motor.mode = .manual → t.motor.manualOn = false → t.motor.dutyPercent.toNat = 0) ∧
      (t.motor.mode = .auto → rv = false → t.motor.dutyPercent.toNat = 0) ∧
      (t.motor.mode = .auto → rv = true → t.motor.dutyPercent.toNat = autoDuty s.cfg.duty v.toInt) ∧
      t.rsp = ⟨0x00, (if t.motor.manualOn then 2 else 0) + (if t.motor.mode = .manual then 1 else 0), 0,
        BitVec.ofNat 16 t.motor.dutyPercent.toNat⟩ ∧
      (ev = .noEvent → t.motor.mode = s.motor.mode ∧ t.motor.manualOn = s.motor.manualOn) ∧
      (s.cfg.duty.motorMap = .r275 →
        (ev = .longPress → t.motor.mode ≠ s.motor.mode ∧ t.motor.manualOn = s.motor.manualOn) ∧
        (ev = .shortPress → t.motor.mode = s.motor.mode ∧
          t.motor.manualOn = if s.motor.mode = .manual then !s.motor.manualOn else s.motor.manualOn))

/-- R280, R281, R283: ALARM_UPDATE: each flag by its hysteresis, then at most one beep request, of the pattern the two
flags select, when that pattern never beeped or its cooldown has elapsed; its time and its bit are then written, and
no other pattern's. -/
def Obligations.AlarmUpdateExact : Prop :=
  ∀ (s : State) (h : Byte) (v : Half), s.busy = false →
    let c := s.cfg.duty
    let now := s.t / 1000
    let ready : Bool → Nat → Prop := fun beeped last =>
      beeped = false ∨ (c.cooldownMs : Int) ≤ (now : Int) - (last : Int)
    ∃ t, exec (.alarmUpdate h v) s = .next t ∧ t = { s.pump with rsp := t.rsp, alarm := t.alarm } ∧
      (t.alarm.temperatureAbnormal = true ↔
        (s.alarm.temperatureAbnormal = false ∧ c.alTHigh < v.toInt) ∨
        (s.alarm.temperatureAbnormal = true ∧ c.alTHigh - c.alTHyst ≤ v.toInt)) ∧
      (t.alarm.humidityAbnormal = true ↔
        (s.alarm.humidityAbnormal = false ∧ c.alHHigh < (h.toNat : Int)) ∨
        (s.alarm.humidityAbnormal = true ∧ c.alHHigh - c.alHHyst ≤ (h.toNat : Int))) ∧
      t.rsp.status = 0x00 ∧ t.rsp.aux2 = 0 ∧
      t.rsp.value = (if t.alarm.humidityAbnormal then 2 else 0) + (if t.alarm.temperatureAbnormal then 1 else 0) ∧
      (t.rsp.aux = 3 ↔ t.alarm.temperatureAbnormal = true ∧ t.alarm.humidityAbnormal = true ∧
        ready s.alarm.bothBeeped s.alarm.lastBothBeepMs) ∧
      (t.rsp.aux = 1 ↔ t.alarm.temperatureAbnormal = true ∧ t.alarm.humidityAbnormal = false ∧
        ready s.alarm.tempBeeped s.alarm.lastTempBeepMs) ∧
      (t.rsp.aux = 2 ↔ t.alarm.temperatureAbnormal = false ∧ t.alarm.humidityAbnormal = true ∧
        ready s.alarm.humBeeped s.alarm.lastHumidityBeepMs) ∧
      (t.rsp.aux = 0 ∨ t.rsp.aux = 1 ∨ t.rsp.aux = 2 ∨ t.rsp.aux = 3) ∧
      t.alarm.lastBothBeepMs = (if t.rsp.aux = 3 then now else s.alarm.lastBothBeepMs) ∧
      t.alarm.lastTempBeepMs = (if t.rsp.aux = 1 then now else s.alarm.lastTempBeepMs) ∧
      t.alarm.lastHumidityBeepMs = (if t.rsp.aux = 2 then now else s.alarm.lastHumidityBeepMs) ∧
      t.alarm.bothBeeped = (s.alarm.bothBeeped || decide (t.rsp.aux = 3)) ∧
      t.alarm.tempBeeped = (s.alarm.tempBeeped || decide (t.rsp.aux = 1)) ∧
      t.alarm.humBeeped = (s.alarm.humBeeped || decide (t.rsp.aux = 2))

/-- R283: over any sequence of readings, two requests of one beep pattern are at least the cooldown apart: "repeated
qualifying conditions do not re-trigger more often than the cooldown interval". -/
def Obligations.BeepCooldown : Prop :=
  ∀ (c : DutyConfig) (readings : List (Int × Int × Nat)) (a : Alarm),
    ((Alarm.updates c readings a).1).Pairwise fun x y => x.2 = y.2 → x.2 ≠ .none → x.1 + c.cooldownMs ≤ y.1

/-! ## What the statements above take from the operands -/

/-- R13: `contains(h, n)` is true exactly when some slice h[i..i+len(n)) with i + len(n) <= len(h) equals n byte for
byte, so for every h when n is empty; every reply is matched by it (R207). R100: the address byte is addr7 * 2 + rw,
rw = 0 for a write and 1 for a read. R23, R62: the byte-string operands are TXBUF[0..n), STR0[0..STR0LEN) and
STR1[0..STR1LEN). -/
def Obligations.SubstringAndOperandBytes : Prop :=
  (∀ h n : Bytes,
    (contains h n = true ↔ ∃ i, i + n.length ≤ h.length ∧ (h.drop i).take n.length = n) ∧ contains h [] = true) ∧
  (∀ a : BitVec 7, (addressByte a .write).toNat = a.toNat * 2 + 0 ∧ (addressByte a .read).toNat = a.toNat * 2 + 1) ∧
  (∀ (s : State) (n : Byte) (k : Nat),
    (s.txBytes n)[k]? = (if k < n.toNat then some (Memory.read s.txbuf k) else none) ∧
    s.str0Bytes[k]? = (if k < s.str0len.toNat then some (Memory.read s.str0 k) else none) ∧
    s.str1Bytes[k]? = (if k < s.str1len.toNat then some (Memory.read s.str1 k) else none))

end
end

