-- ==== Sys2Proof/Laws/Decode.lean ====
section
/-! SUPPORT. The decoder's laws: what the fields of an assembled word are, and everything `decode` can answer
(`decode_ok`). -/

namespace Sys2Proof

theorem assemble_toNat {opcode a b : Nat} (ho : opcode < 256) (ha : a < 256) (hb : b < 65536) :
    (assemble opcode a b).toNat = opcode * 2 ^ 24 + a * 2 ^ 16 + b := by
  unfold assemble
  rw [BitVec.toNat_ofNat]
  omega

/-- The fields of an assembled word. -/
theorem field_assemble {opcode a b : Nat} (ho : opcode < 256) (ha : a < 256) (hb : b < 65536) :
    field (assemble opcode a b) 24 8 = opcode ∧ field (assemble opcode a b) 16 8 = a ∧
    field (assemble opcode a b) 0 16 = b ∧ field (assemble opcode a b) 23 1 = a / 128 ∧
    field (assemble opcode a b) 16 7 = a % 128 ∧ field (assemble opcode a b) 16 2 = a % 4 ∧
    field (assemble opcode a b) 18 5 = a / 4 % 32 ∧ field (assemble opcode a b) 8 8 = b / 256 ∧
    field (assemble opcode a b) 0 8 = b % 256 ∧ field (assemble opcode a b) 0 24 = a * 65536 + b := by
  simp only [field, assemble_toNat ho ha hb]
  omega

theorem whenZero_ok {unused : List Nat} {i j : Instr} (h : whenZero unused i = .ok j) :
    (∀ u ∈ unused, u = 0) ∧ j = i := by
  unfold whenZero at h
  split at h
  · rename_i hu
    simp only [List.all_eq_true, beq_iff_eq] at hu
    cases h
    exact ⟨hu, rfl⟩
  · cases h

theorem whenZero_of_zero {unused : List Nat} (i : Instr) (h : ∀ u ∈ unused, u = 0) : whenZero unused i = .ok i := by
  unfold whenZero
  rw [if_pos (by simpa only [List.all_eq_true, beq_iff_eq] using h)]

/-- Everything `decode` can answer but a refusal: the opcode, the fields its format leaves unused, all 0, and the
operands. -/
theorem decode_ok {w : Word} {i : Instr} (h : decode w = .ok i) :
    (field w 24 8 = 0x01 ∧ field w 23 1 = 0 ∧ field w 8 8 = 0 ∧ i = .i2cWrite (addrField w) (countField w)) ∨
    (field w 24 8 = 0x02 ∧ field w 23 1 = 0 ∧ field w 8 8 = 0 ∧ i = .i2cRead (addrField w) (countField w)) ∨
    (field w 24 8 = 0x03 ∧ field w 23 1 = 0 ∧ field w 0 16 = 0 ∧ i = .i2cProbe (addrField w)) ∨
    (field w 24 8 = 0x04 ∧ field w 0 24 = 0 ∧ i = .i2cBusIdle) ∨
    (field w 24 8 = 0x10 ∧ field w 16 8 = 0 ∧ i = .dhtReadFrame (v16Field w)) ∨
    (field w 24 8 = 0x20 ∧ i = .uartReadLine (a8Field w) (v16Field w)) ∨
    (field w 24 8 = 0x21 ∧ field w 16 8 = 0 ∧ i = .uartSendCommand (v16Field w)) ∨
    (field w 24 8 = 0x22 ∧ field w 16 8 = 0 ∧ i = .uartInitSession (v16Field w)) ∨
    (field w 24 8 = 0x23 ∧ field w 0 24 = 0 ∧ i = .uartSendLine) ∨
    (field w 24 8 = 0x30 ∧ field w 0 24 = 0 ∧ i = .btnPoll) ∨
    (field w 24 8 = 0x40 ∧ field w 16 8 = 0 ∧ i = .dutyAuto (v16Field w)) ∨
    (field w 24 8 = 0x41 ∧ i = .alarmUpdate (a8Field w) (v16Field w)) ∨
    (field w 24 8 = 0x42 ∧ field w 18 5 = 0 ∧
      i = .motorUpdate (decide (field w 23 1 = 1)) (eventOfField (field w 16 2)) (v16Field w)) := by
  unfold decode at h
  simp only at h
  by_cases ho : field w 24 8 = 0x01
  · rw [if_pos ho] at h
    have hz := whenZero_ok h
    exact .inl ⟨ho, hz.1 _ (by simp), hz.1 _ (by simp), hz.2⟩
  rw [if_neg ho] at h
  clear ho
  by_cases ho : field w 24 8 = 0x02
  · rw [if_pos ho] at h
    have hz := whenZero_ok h
    exact .inr (.inl ⟨ho, hz.1 _ (by simp), hz.1 _ (by simp), hz.2⟩)
  rw [if_neg ho] at h
  clear ho
  by_cases ho : field w 24 8 = 0x03
  · rw [if_pos ho] at h
    have hz := whenZero_ok h
    exact .inr (.inr (.inl ⟨ho, hz.1 _ (by simp), hz.1 _ (by simp), hz.2⟩))
  rw [if_neg ho] at h
  clear ho
  by_cases ho : field w 24 8 = 0x04
  · rw [if_pos ho] at h
    have hz := whenZero_ok h
    exact .inr (.inr (.inr (.inl ⟨ho, hz.1 _ (by simp), hz.2⟩)))
  rw [if_neg ho] at h
  clear ho
  by_cases ho : field w 24 8 = 0x10
  · rw [if_pos ho] at h
    have hz := whenZero_ok h
    exact .inr (.inr (.inr (.inr (.inl ⟨ho, hz.1 _ (by simp), hz.2⟩))))
  rw [if_neg ho] at h
  clear ho
  by_cases ho : field w 24 8 = 0x20
  · rw [if_pos ho] at h
    have hz := whenZero_ok h
    exact .inr (.inr (.inr (.inr (.inr (.inl ⟨ho, hz.2⟩)))))
  rw [if_neg ho] at h
  clear ho
  by_cases ho : field w 24 8 = 0x21
  · rw [if_pos ho] at h
    have hz := whenZero_ok h
    exact .inr (.inr (.inr (.inr (.inr (.inr (.inl ⟨ho, hz.1 _ (by simp), hz.2⟩))))))
  rw [if_neg ho] at h
  clear ho
  by_cases ho : field w 24 8 = 0x22
  · rw [if_pos ho] at h
    have hz := whenZero_ok h
    exact .inr (.inr (.inr (.inr (.inr (.inr (.inr (.inl ⟨ho, hz.1 _ (by simp), hz.2⟩)))))))
  rw [if_neg ho] at h
  clear ho
  by_cases ho : field w 24 8 = 0x23
  · rw [if_pos ho] at h
    have hz := whenZero_ok h
    exact .inr (.inr (.inr (.inr (.inr (.inr (.inr (.inr (.inl ⟨ho, hz.1 _ (by simp), hz.2⟩))))))))
  rw [if_neg ho] at h
  clear ho
  by_cases ho : field w 24 8 = 0x30
  · rw [if_pos ho] at h
    have hz := whenZero_ok h
    exact .inr (.inr (.inr (.inr (.inr (.inr (.inr (.inr (.inr (.inl ⟨ho, hz.1 _ (by simp), hz.2⟩)))))))))
  rw [if_neg ho] at h
  clear ho
  by_cases ho : field w 24 8 = 0x40
  · rw [if_pos ho] at h
    have hz := whenZero_ok h
    exact .inr (.inr (.inr (.inr (.inr (.inr (.inr (.inr (.inr (.inr (.inl ⟨ho, hz.1 _ (by simp), hz.2⟩))))))))))
  rw [if_neg ho] at h
  clear ho
  by_cases ho : field w 24 8 = 0x41
  · rw [if_pos ho] at h
    have hz := whenZero_ok h
    exact .inr (.inr (.inr (.inr (.inr (.inr (.inr (.inr (.inr (.inr (.inr (.inl ⟨ho, hz.2⟩)))))))))))
  rw [if_neg ho] at h
  clear ho
  by_cases ho : field w 24 8 = 0x42
  · rw [if_pos ho] at h
    have hz := whenZero_ok h
    exact .inr (.inr (.inr (.inr (.inr (.inr (.inr (.inr (.inr (.inr (.inr (.inr (⟨ho, hz.1 _ (by simp), hz.2⟩))))))))))))
  rw [if_neg ho] at h
  clear ho
  cases h

/-- The other way: a word with a row's opcode and zeros in the unused fields decodes to that row. -/
theorem decode_of_fields (w : Word) :
    (field w 24 8 = 0x01 → field w 23 1 = 0 → field w 8 8 = 0 →
      decode w = .ok (.i2cWrite (addrField w) (countField w))) ∧
    (field w 24 8 = 0x02 → field w 23 1 = 0 → field w 8 8 = 0 →
      decode w = .ok (.i2cRead (addrField w) (countField w))) ∧
    (field w 24 8 = 0x03 → field w 23 1 = 0 → field w 0 16 = 0 → decode w = .ok (.i2cProbe (addrField w))) ∧
    (field w 24 8 = 0x04 → field w 0 24 = 0 → decode w = .ok .i2cBusIdle) ∧
    (field w 24 8 = 0x10 → field w 16 8 = 0 → decode w = .ok (.dhtReadFrame (v16Field w))) ∧
    (field w 24 8 = 0x20 → decode w = .ok (.uartReadLine (a8Field w) (v16Field w))) ∧
    (field w 24 8 = 0x21 → field w 16 8 = 0 → decode w = .ok (.uartSendCommand (v16Field w))) ∧
    (field w 24 8 = 0x22 → field w 16 8 = 0 → decode w = .ok (.uartInitSession (v16Field w))) ∧
    (field w 24 8 = 0x23 → field w 0 24 = 0 → decode w = .ok .uartSendLine) ∧
    (field w 24 8 = 0x30 → field w 0 24 = 0 → decode w = .ok .btnPoll) ∧
    (field w 24 8 = 0x40 → field w 16 8 = 0 → decode w = .ok (.dutyAuto (v16Field w))) ∧
    (field w 24 8 = 0x41 → decode w = .ok (.alarmUpdate (a8Field w) (v16Field w))) ∧
    (field w 24 8 = 0x42 → field w 18 5 = 0 → decode w = .ok
      (.motorUpdate (decide (field w 23 1 = 1)) (eventOfField (field w 16 2)) (v16Field w))) := by
  refine ⟨?_, ?_, ?_, ?_, ?_, ?_, ?_, ?_, ?_, ?_, ?_, ?_, ?_⟩ <;> intro h <;> intros <;>
    (unfold decode
     simp only [h]
     simp [whenZero, *])

/-! ## The fixed bits of an assembled word (R91) -/

theorem assemble_eq_append {o a b : Nat} (ho : o < 256) (ha : a < 256) (hb : b < 65536) :
    assemble o a b = BitVec.ofNat 8 o ++ BitVec.ofNat 8 a ++ BitVec.ofNat 16 b := by
  apply BitVec.eq_of_toNat_eq
  rw [assemble_toNat ho ha hb]
  simp only [BitVec.toNat_append, BitVec.toNat_ofNat]
  rw [Nat.mod_eq_of_lt (by omega : o < 2 ^ 8), Nat.mod_eq_of_lt (by omega : a < 2 ^ 8),
    Nat.mod_eq_of_lt (by omega : b < 2 ^ 16), ← Nat.shiftLeft_add_eq_or_of_lt (by omega : a < 2 ^ 8),
    ← Nat.shiftLeft_add_eq_or_of_lt (by omega : b < 2 ^ 16)]
  simp only [Nat.shiftLeft_eq]
  omega

/-- Masking an assembled word with its row's mask leaves the opcode when the operands are 0 under the mask. -/
theorem assemble_and {o a b : Nat} (ho : o < 256) (ha : a < 256) (hb : b < 65536) (am : BitVec 8) (bm : BitVec 16)
    (h1 : BitVec.ofNat 8 a &&& am = 0) (h2 : BitVec.ofNat 16 b &&& bm = 0) :
    assemble o a b &&& ((0xFF : BitVec 8) ++ am ++ bm) = BitVec.ofNat 8 o ++ (0 : BitVec 8) ++ (0 : BitVec 16) := by
  rw [assemble_eq_append ho ha hb, BitVec.and_append, BitVec.and_append, h1, h2]
  congr 2
  exact BitVec.and_allOnes

theorem and_mask_addr (a : BitVec 7) : BitVec.ofNat 8 a.toNat &&& 0x80 = 0 := by revert a; decide
theorem and_mask_count (n : Byte) : BitVec.ofNat 16 n.toNat &&& 0xFF00 = 0 := by revert n; decide
theorem and_mask_none {w : Nat} (v : BitVec w) : v &&& 0 = 0 := BitVec.and_zero

end Sys2Proof
end

