-- ==== Sys2Proof/Laws/State.lean ====
section
/-! SUPPORT. One lemma for each field of the state and each update: what the update leaves in the field. All true by
rfl and tagged simp, so that no later proof unfolds a record update. -/

namespace Sys2Proof.Machine

/-! ## State.respond -/

@[simp] theorem State.respond_cfg (s : State) (r : Rsp) :
    (s.respond r).cfg = s.cfg := rfl

@[simp] theorem State.respond_cmd (s : State) (r : Rsp) :
    (s.respond r).cmd = s.cmd := rfl

@[simp] theorem State.respond_rsp (s : State) (r : Rsp) :
    (s.respond r).rsp = r := rfl

@[simp] theorem State.respond_busy (s : State) (r : Rsp) :
    (s.respond r).busy = false := rfl

@[simp] theorem State.respond_txbuf (s : State) (r : Rsp) :
    (s.respond r).txbuf = s.txbuf := rfl

@[simp] theorem State.respond_rxbuf (s : State) (r : Rsp) :
    (s.respond r).rxbuf = s.rxbuf := rfl

@[simp] theorem State.respond_rxlen (s : State) (r : Rsp) :
    (s.respond r).rxlen = s.rxlen := rfl

@[simp] theorem State.respond_str0 (s : State) (r : Rsp) :
    (s.respond r).str0 = s.str0 := rfl

@[simp] theorem State.respond_str0len (s : State) (r : Rsp) :
    (s.respond r).str0len = s.str0len := rfl

@[simp] theorem State.respond_str1 (s : State) (r : Rsp) :
    (s.respond r).str1 = s.str1 := rfl

@[simp] theorem State.respond_str1len (s : State) (r : Rsp) :
    (s.respond r).str1len = s.str1len := rfl

@[simp] theorem State.respond_linebuf (s : State) (r : Rsp) :
    (s.respond r).linebuf = s.linebuf := rfl

@[simp] theorem State.respond_linelen (s : State) (r : Rsp) :
    (s.respond r).linelen = s.linelen := rfl

@[simp] theorem State.respond_pins (s : State) (r : Rsp) :
    (s.respond r).pins = s.pins := rfl

@[simp] theorem State.respond_trace (s : State) (r : Rsp) :
    (s.respond r).trace = s.trace := rfl

@[simp] theorem State.respond_t (s : State) (r : Rsp) :
    (s.respond r).t = s.t := rfl

@[simp] theorem State.respond_dht (s : State) (r : Rsp) :
    (s.respond r).dht = s.dht := rfl

@[simp] theorem State.respond_reading (s : State) (r : Rsp) :
    (s.respond r).reading = s.reading := rfl

@[simp] theorem State.respond_session (s : State) (r : Rsp) :
    (s.respond r).session = s.session := rfl

@[simp] theorem State.respond_rx (s : State) (r : Rsp) :
    (s.respond r).rx = s.rx := rfl

@[simp] theorem State.respond_btn (s : State) (r : Rsp) :
    (s.respond r).btn = s.btn := rfl

@[simp] theorem State.respond_motor (s : State) (r : Rsp) :
    (s.respond r).motor = s.motor := rfl

@[simp] theorem State.respond_alarm (s : State) (r : Rsp) :
    (s.respond r).alarm = s.alarm := rfl

@[simp] theorem State.respond_env (s : State) (r : Rsp) :
    (s.respond r).env = s.env := rfl

@[simp] theorem State.respond_host (s : State) (r : Rsp) :
    (s.respond r).host = s.host := rfl

/-! ## State.refuse -/

@[simp] theorem State.refuse_cfg (s : State) :
    s.refuse.cfg = s.cfg := rfl

@[simp] theorem State.refuse_cmd (s : State) :
    s.refuse.cmd = s.cmd := rfl

@[simp] theorem State.refuse_rsp (s : State) :
    s.refuse.rsp = response .illegalCommand 0 0 0 := rfl

@[simp] theorem State.refuse_busy (s : State) :
    s.refuse.busy = s.busy := rfl

@[simp] theorem State.refuse_txbuf (s : State) :
    s.refuse.txbuf = s.txbuf := rfl

@[simp] theorem State.refuse_rxbuf (s : State) :
    s.refuse.rxbuf = s.rxbuf := rfl

@[simp] theorem State.refuse_rxlen (s : State) :
    s.refuse.rxlen = s.rxlen := rfl

@[simp] theorem State.refuse_str0 (s : State) :
    s.refuse.str0 = s.str0 := rfl

@[simp] theorem State.refuse_str0len (s : State) :
    s.refuse.str0len = s.str0len := rfl

@[simp] theorem State.refuse_str1 (s : State) :
    s.refuse.str1 = s.str1 := rfl

@[simp] theorem State.refuse_str1len (s : State) :
    s.refuse.str1len = s.str1len := rfl

@[simp] theorem State.refuse_linebuf (s : State) :
    s.refuse.linebuf = s.linebuf := rfl

@[simp] theorem State.refuse_linelen (s : State) :
    s.refuse.linelen = s.linelen := rfl

@[simp] theorem State.refuse_pins (s : State) :
    s.refuse.pins = s.pins := rfl

@[simp] theorem State.refuse_trace (s : State) :
    s.refuse.trace = s.trace := rfl

@[simp] theorem State.refuse_t (s : State) :
    s.refuse.t = s.t := rfl

@[simp] theorem State.refuse_dht (s : State) :
    s.refuse.dht = s.dht := rfl

@[simp] theorem State.refuse_reading (s : State) :
    s.refuse.reading = s.reading := rfl

@[simp] theorem State.refuse_session (s : State) :
    s.refuse.session = s.session := rfl

@[simp] theorem State.refuse_rx (s : State) :
    s.refuse.rx = s.rx := rfl

@[simp] theorem State.refuse_btn (s : State) :
    s.refuse.btn = s.btn := rfl

@[simp] theorem State.refuse_motor (s : State) :
    s.refuse.motor = s.motor := rfl

@[simp] theorem State.refuse_alarm (s : State) :
    s.refuse.alarm = s.alarm := rfl

@[simp] theorem State.refuse_env (s : State) :
    s.refuse.env = s.env := rfl

@[simp] theorem State.refuse_host (s : State) :
    s.refuse.host = s.host := rfl

/-! ## State.setRxlen -/

@[simp] theorem State.setRxlen_cfg (s : State) (n : Byte) :
    (s.setRxlen n).cfg = s.cfg := rfl

@[simp] theorem State.setRxlen_cmd (s : State) (n : Byte) :
    (s.setRxlen n).cmd = s.cmd := rfl

@[simp] theorem State.setRxlen_rsp (s : State) (n : Byte) :
    (s.setRxlen n).rsp = s.rsp := rfl

@[simp] theorem State.setRxlen_busy (s : State) (n : Byte) :
    (s.setRxlen n).busy = s.busy := rfl

@[simp] theorem State.setRxlen_txbuf (s : State) (n : Byte) :
    (s.setRxlen n).txbuf = s.txbuf := rfl

@[simp] theorem State.setRxlen_rxbuf (s : State) (n : Byte) :
    (s.setRxlen n).rxbuf = s.rxbuf := rfl

@[simp] theorem State.setRxlen_rxlen (s : State) (n : Byte) :
    (s.setRxlen n).rxlen = n := rfl

@[simp] theorem State.setRxlen_str0 (s : State) (n : Byte) :
    (s.setRxlen n).str0 = s.str0 := rfl

@[simp] theorem State.setRxlen_str0len (s : State) (n : Byte) :
    (s.setRxlen n).str0len = s.str0len := rfl

@[simp] theorem State.setRxlen_str1 (s : State) (n : Byte) :
    (s.setRxlen n).str1 = s.str1 := rfl

@[simp] theorem State.setRxlen_str1len (s : State) (n : Byte) :
    (s.setRxlen n).str1len = s.str1len := rfl

@[simp] theorem State.setRxlen_linebuf (s : State) (n : Byte) :
    (s.setRxlen n).linebuf = s.linebuf := rfl

@[simp] theorem State.setRxlen_linelen (s : State) (n : Byte) :
    (s.setRxlen n).linelen = s.linelen := rfl

@[simp] theorem State.setRxlen_pins (s : State) (n : Byte) :
    (s.setRxlen n).pins = s.pins := rfl

@[simp] theorem State.setRxlen_trace (s : State) (n : Byte) :
    (s.setRxlen n).trace = s.trace := rfl

@[simp] theorem State.setRxlen_t (s : State) (n : Byte) :
    (s.setRxlen n).t = s.t := rfl

@[simp] theorem State.setRxlen_dht (s : State) (n : Byte) :
    (s.setRxlen n).dht = s.dht := rfl

@[simp] theorem State.setRxlen_reading (s : State) (n : Byte) :
    (s.setRxlen n).reading = s.reading := rfl

@[simp] theorem State.setRxlen_session (s : State) (n : Byte) :
    (s.setRxlen n).session = s.session := rfl

@[simp] theorem State.setRxlen_rx (s : State) (n : Byte) :
    (s.setRxlen n).rx = s.rx := rfl

@[simp] theorem State.setRxlen_btn (s : State) (n : Byte) :
    (s.setRxlen n).btn = s.btn := rfl

@[simp] theorem State.setRxlen_motor (s : State) (n : Byte) :
    (s.setRxlen n).motor = s.motor := rfl

@[simp] theorem State.setRxlen_alarm (s : State) (n : Byte) :
    (s.setRxlen n).alarm = s.alarm := rfl

@[simp] theorem State.setRxlen_env (s : State) (n : Byte) :
    (s.setRxlen n).env = s.env := rfl

@[simp] theorem State.setRxlen_host (s : State) (n : Byte) :
    (s.setRxlen n).host = s.host := rfl

/-! ## State.setLinelen -/

@[simp] theorem State.setLinelen_cfg (s : State) (n : Nat) :
    (s.setLinelen n).cfg = s.cfg := rfl

@[simp] theorem State.setLinelen_cmd (s : State) (n : Nat) :
    (s.setLinelen n).cmd = s.cmd := rfl

@[simp] theorem State.setLinelen_rsp (s : State) (n : Nat) :
    (s.setLinelen n).rsp = s.rsp := rfl

@[simp] theorem State.setLinelen_busy (s : State) (n : Nat) :
    (s.setLinelen n).busy = s.busy := rfl

@[simp] theorem State.setLinelen_txbuf (s : State) (n : Nat) :
    (s.setLinelen n).txbuf = s.txbuf := rfl

@[simp] theorem State.setLinelen_rxbuf (s : State) (n : Nat) :
    (s.setLinelen n).rxbuf = s.rxbuf := rfl

@[simp] theorem State.setLinelen_rxlen (s : State) (n : Nat) :
    (s.setLinelen n).rxlen = s.rxlen := rfl

@[simp] theorem State.setLinelen_str0 (s : State) (n : Nat) :
    (s.setLinelen n).str0 = s.str0 := rfl

@[simp] theorem State.setLinelen_str0len (s : State) (n : Nat) :
    (s.setLinelen n).str0len = s.str0len := rfl

@[simp] theorem State.setLinelen_str1 (s : State) (n : Nat) :
    (s.setLinelen n).str1 = s.str1 := rfl

@[simp] theorem State.setLinelen_str1len (s : State) (n : Nat) :
    (s.setLinelen n).str1len = s.str1len := rfl

@[simp] theorem State.setLinelen_linebuf (s : State) (n : Nat) :
    (s.setLinelen n).linebuf = s.linebuf := rfl

@[simp] theorem State.setLinelen_linelen (s : State) (n : Nat) :
    (s.setLinelen n).linelen = BitVec.ofNat 8 n := rfl

@[simp] theorem State.setLinelen_pins (s : State) (n : Nat) :
    (s.setLinelen n).pins = s.pins := rfl

@[simp] theorem State.setLinelen_trace (s : State) (n : Nat) :
    (s.setLinelen n).trace = s.trace := rfl

@[simp] theorem State.setLinelen_t (s : State) (n : Nat) :
    (s.setLinelen n).t = s.t := rfl

@[simp] theorem State.setLinelen_dht (s : State) (n : Nat) :
    (s.setLinelen n).dht = s.dht := rfl

@[simp] theorem State.setLinelen_reading (s : State) (n : Nat) :
    (s.setLinelen n).reading = s.reading := rfl

@[simp] theorem State.setLinelen_session (s : State) (n : Nat) :
    (s.setLinelen n).session = s.session := rfl

@[simp] theorem State.setLinelen_rx (s : State) (n : Nat) :
    (s.setLinelen n).rx = s.rx := rfl

@[simp] theorem State.setLinelen_btn (s : State) (n : Nat) :
    (s.setLinelen n).btn = s.btn := rfl

@[simp] theorem State.setLinelen_motor (s : State) (n : Nat) :
    (s.setLinelen n).motor = s.motor := rfl

@[simp] theorem State.setLinelen_alarm (s : State) (n : Nat) :
    (s.setLinelen n).alarm = s.alarm := rfl

@[simp] theorem State.setLinelen_env (s : State) (n : Nat) :
    (s.setLinelen n).env = s.env := rfl

@[simp] theorem State.setLinelen_host (s : State) (n : Nat) :
    (s.setLinelen n).host = s.host := rfl

/-! ## State.writeLine -/

@[simp] theorem State.writeLine_cfg (s : State) (n : Nat) (b : Byte) :
    (s.writeLine n b).cfg = s.cfg := rfl

@[simp] theorem State.writeLine_cmd (s : State) (n : Nat) (b : Byte) :
    (s.writeLine n b).cmd = s.cmd := rfl

@[simp] theorem State.writeLine_rsp (s : State) (n : Nat) (b : Byte) :
    (s.writeLine n b).rsp = s.rsp := rfl

@[simp] theorem State.writeLine_busy (s : State) (n : Nat) (b : Byte) :
    (s.writeLine n b).busy = s.busy := rfl

@[simp] theorem State.writeLine_txbuf (s : State) (n : Nat) (b : Byte) :
    (s.writeLine n b).txbuf = s.txbuf := rfl

@[simp] theorem State.writeLine_rxbuf (s : State) (n : Nat) (b : Byte) :
    (s.writeLine n b).rxbuf = s.rxbuf := rfl

@[simp] theorem State.writeLine_rxlen (s : State) (n : Nat) (b : Byte) :
    (s.writeLine n b).rxlen = s.rxlen := rfl

@[simp] theorem State.writeLine_str0 (s : State) (n : Nat) (b : Byte) :
    (s.writeLine n b).str0 = s.str0 := rfl

@[simp] theorem State.writeLine_str0len (s : State) (n : Nat) (b : Byte) :
    (s.writeLine n b).str0len = s.str0len := rfl

@[simp] theorem State.writeLine_str1 (s : State) (n : Nat) (b : Byte) :
    (s.writeLine n b).str1 = s.str1 := rfl

@[simp] theorem State.writeLine_str1len (s : State) (n : Nat) (b : Byte) :
    (s.writeLine n b).str1len = s.str1len := rfl

@[simp] theorem State.writeLine_linebuf (s : State) (n : Nat) (b : Byte) :
    (s.writeLine n b).linebuf = Memory.write s.linebuf n b := rfl

@[simp] theorem State.writeLine_linelen (s : State) (n : Nat) (b : Byte) :
    (s.writeLine n b).linelen = s.linelen := rfl

@[simp] theorem State.writeLine_pins (s : State) (n : Nat) (b : Byte) :
    (s.writeLine n b).pins = s.pins := rfl

@[simp] theorem State.writeLine_trace (s : State) (n : Nat) (b : Byte) :
    (s.writeLine n b).trace = s.trace := rfl

@[simp] theorem State.writeLine_t (s : State) (n : Nat) (b : Byte) :
    (s.writeLine n b).t = s.t := rfl

@[simp] theorem State.writeLine_dht (s : State) (n : Nat) (b : Byte) :
    (s.writeLine n b).dht = s.dht := rfl

@[simp] theorem State.writeLine_reading (s : State) (n : Nat) (b : Byte) :
    (s.writeLine n b).reading = s.reading := rfl

@[simp] theorem State.writeLine_session (s : State) (n : Nat) (b : Byte) :
    (s.writeLine n b).session = s.session := rfl

@[simp] theorem State.writeLine_rx (s : State) (n : Nat) (b : Byte) :
    (s.writeLine n b).rx = s.rx := rfl

@[simp] theorem State.writeLine_btn (s : State) (n : Nat) (b : Byte) :
    (s.writeLine n b).btn = s.btn := rfl

@[simp] theorem State.writeLine_motor (s : State) (n : Nat) (b : Byte) :
    (s.writeLine n b).motor = s.motor := rfl

@[simp] theorem State.writeLine_alarm (s : State) (n : Nat) (b : Byte) :
    (s.writeLine n b).alarm = s.alarm := rfl

@[simp] theorem State.writeLine_env (s : State) (n : Nat) (b : Byte) :
    (s.writeLine n b).env = s.env := rfl

@[simp] theorem State.writeLine_host (s : State) (n : Nat) (b : Byte) :
    (s.writeLine n b).host = s.host := rfl

/-! ## State.clearSession -/

@[simp] theorem State.clearSession_cfg (s : State) :
    s.clearSession.cfg = s.cfg := rfl

@[simp] theorem State.clearSession_cmd (s : State) :
    s.clearSession.cmd = s.cmd := rfl

@[simp] theorem State.clearSession_rsp (s : State) :
    s.clearSession.rsp = s.rsp := rfl

@[simp] theorem State.clearSession_busy (s : State) :
    s.clearSession.busy = s.busy := rfl

@[simp] theorem State.clearSession_txbuf (s : State) :
    s.clearSession.txbuf = s.txbuf := rfl

@[simp] theorem State.clearSession_rxbuf (s : State) :
    s.clearSession.rxbuf = s.rxbuf := rfl

@[simp] theorem State.clearSession_rxlen (s : State) :
    s.clearSession.rxlen = s.rxlen := rfl

@[simp] theorem State.clearSession_str0 (s : State) :
    s.clearSession.str0 = s.str0 := rfl

@[simp] theorem State.clearSession_str0len (s : State) :
    s.clearSession.str0len = s.str0len := rfl

@[simp] theorem State.clearSession_str1 (s : State) :
    s.clearSession.str1 = s.str1 := rfl

@[simp] theorem State.clearSession_str1len (s : State) :
    s.clearSession.str1len = s.str1len := rfl

@[simp] theorem State.clearSession_linebuf (s : State) :
    s.clearSession.linebuf = s.linebuf := rfl

@[simp] theorem State.clearSession_linelen (s : State) :
    s.clearSession.linelen = s.linelen := rfl

@[simp] theorem State.clearSession_pins (s : State) :
    s.clearSession.pins = s.pins := rfl

@[simp] theorem State.clearSession_trace (s : State) :
    s.clearSession.trace = s.trace := rfl

@[simp] theorem State.clearSession_t (s : State) :
    s.clearSession.t = s.t := rfl

@[simp] theorem State.clearSession_dht (s : State) :
    s.clearSession.dht = s.dht := rfl

@[simp] theorem State.clearSession_reading (s : State) :
    s.clearSession.reading = s.reading := rfl

@[simp] theorem State.clearSession_session (s : State) :
    s.clearSession.session = ⟨false, false⟩ := rfl

@[simp] theorem State.clearSession_rx (s : State) :
    s.clearSession.rx = s.rx := rfl

@[simp] theorem State.clearSession_btn (s : State) :
    s.clearSession.btn = s.btn := rfl

@[simp] theorem State.clearSession_motor (s : State) :
    s.clearSession.motor = s.motor := rfl

@[simp] theorem State.clearSession_alarm (s : State) :
    s.clearSession.alarm = s.alarm := rfl

@[simp] theorem State.clearSession_env (s : State) :
    s.clearSession.env = s.env := rfl

@[simp] theorem State.clearSession_host (s : State) :
    s.clearSession.host = s.host := rfl

/-! ## State.setAttached -/

@[simp] theorem State.setAttached_cfg (s : State) :
    s.setAttached.cfg = s.cfg := rfl

@[simp] theorem State.setAttached_cmd (s : State) :
    s.setAttached.cmd = s.cmd := rfl

@[simp] theorem State.setAttached_rsp (s : State) :
    s.setAttached.rsp = s.rsp := rfl

@[simp] theorem State.setAttached_busy (s : State) :
    s.setAttached.busy = s.busy := rfl

@[simp] theorem State.setAttached_txbuf (s : State) :
    s.setAttached.txbuf = s.txbuf := rfl

@[simp] theorem State.setAttached_rxbuf (s : State) :
    s.setAttached.rxbuf = s.rxbuf := rfl

@[simp] theorem State.setAttached_rxlen (s : State) :
    s.setAttached.rxlen = s.rxlen := rfl

@[simp] theorem State.setAttached_str0 (s : State) :
    s.setAttached.str0 = s.str0 := rfl

@[simp] theorem State.setAttached_str0len (s : State) :
    s.setAttached.str0len = s.str0len := rfl

@[simp] theorem State.setAttached_str1 (s : State) :
    s.setAttached.str1 = s.str1 := rfl

@[simp] theorem State.setAttached_str1len (s : State) :
    s.setAttached.str1len = s.str1len := rfl

@[simp] theorem State.setAttached_linebuf (s : State) :
    s.setAttached.linebuf = s.linebuf := rfl

@[simp] theorem State.setAttached_linelen (s : State) :
    s.setAttached.linelen = s.linelen := rfl

@[simp] theorem State.setAttached_pins (s : State) :
    s.setAttached.pins = s.pins := rfl

@[simp] theorem State.setAttached_trace (s : State) :
    s.setAttached.trace = s.trace := rfl

@[simp] theorem State.setAttached_t (s : State) :
    s.setAttached.t = s.t := rfl

@[simp] theorem State.setAttached_dht (s : State) :
    s.setAttached.dht = s.dht := rfl

@[simp] theorem State.setAttached_reading (s : State) :
    s.setAttached.reading = s.reading := rfl

@[simp] theorem State.setAttached_session (s : State) :
    s.setAttached.session = ⟨true, s.session.socketOpen⟩ := rfl

@[simp] theorem State.setAttached_rx (s : State) :
    s.setAttached.rx = s.rx := rfl

@[simp] theorem State.setAttached_btn (s : State) :
    s.setAttached.btn = s.btn := rfl

@[simp] theorem State.setAttached_motor (s : State) :
    s.setAttached.motor = s.motor := rfl

@[simp] theorem State.setAttached_alarm (s : State) :
    s.setAttached.alarm = s.alarm := rfl

@[simp] theorem State.setAttached_env (s : State) :
    s.setAttached.env = s.env := rfl

@[simp] theorem State.setAttached_host (s : State) :
    s.setAttached.host = s.host := rfl

/-! ## State.setSocketOpen -/

@[simp] theorem State.setSocketOpen_cfg (s : State) :
    s.setSocketOpen.cfg = s.cfg := rfl

@[simp] theorem State.setSocketOpen_cmd (s : State) :
    s.setSocketOpen.cmd = s.cmd := rfl

@[simp] theorem State.setSocketOpen_rsp (s : State) :
    s.setSocketOpen.rsp = s.rsp := rfl

@[simp] theorem State.setSocketOpen_busy (s : State) :
    s.setSocketOpen.busy = s.busy := rfl

@[simp] theorem State.setSocketOpen_txbuf (s : State) :
    s.setSocketOpen.txbuf = s.txbuf := rfl

@[simp] theorem State.setSocketOpen_rxbuf (s : State) :
    s.setSocketOpen.rxbuf = s.rxbuf := rfl

@[simp] theorem State.setSocketOpen_rxlen (s : State) :
    s.setSocketOpen.rxlen = s.rxlen := rfl

@[simp] theorem State.setSocketOpen_str0 (s : State) :
    s.setSocketOpen.str0 = s.str0 := rfl

@[simp] theorem State.setSocketOpen_str0len (s : State) :
    s.setSocketOpen.str0len = s.str0len := rfl

@[simp] theorem State.setSocketOpen_str1 (s : State) :
    s.setSocketOpen.str1 = s.str1 := rfl

@[simp] theorem State.setSocketOpen_str1len (s : State) :
    s.setSocketOpen.str1len = s.str1len := rfl

@[simp] theorem State.setSocketOpen_linebuf (s : State) :
    s.setSocketOpen.linebuf = s.linebuf := rfl

@[simp] theorem State.setSocketOpen_linelen (s : State) :
    s.setSocketOpen.linelen = s.linelen := rfl

@[simp] theorem State.setSocketOpen_pins (s : State) :
    s.setSocketOpen.pins = s.pins := rfl

@[simp] theorem State.setSocketOpen_trace (s : State) :
    s.setSocketOpen.trace = s.trace := rfl

@[simp] theorem State.setSocketOpen_t (s : State) :
    s.setSocketOpen.t = s.t := rfl

@[simp] theorem State.setSocketOpen_dht (s : State) :
    s.setSocketOpen.dht = s.dht := rfl

@[simp] theorem State.setSocketOpen_reading (s : State) :
    s.setSocketOpen.reading = s.reading := rfl

@[simp] theorem State.setSocketOpen_session (s : State) :
    s.setSocketOpen.session = ⟨s.session.attached, true⟩ := rfl

@[simp] theorem State.setSocketOpen_rx (s : State) :
    s.setSocketOpen.rx = s.rx := rfl

@[simp] theorem State.setSocketOpen_btn (s : State) :
    s.setSocketOpen.btn = s.btn := rfl

@[simp] theorem State.setSocketOpen_motor (s : State) :
    s.setSocketOpen.motor = s.motor := rfl

@[simp] theorem State.setSocketOpen_alarm (s : State) :
    s.setSocketOpen.alarm = s.alarm := rfl

@[simp] theorem State.setSocketOpen_env (s : State) :
    s.setSocketOpen.env = s.env := rfl

@[simp] theorem State.setSocketOpen_host (s : State) :
    s.setSocketOpen.host = s.host := rfl

/-! ## State.recordReading -/

@[simp] theorem State.recordReading_cfg (s : State) (h c : Byte) :
    (s.recordReading h c).cfg = s.cfg := rfl

@[simp] theorem State.recordReading_cmd (s : State) (h c : Byte) :
    (s.recordReading h c).cmd = s.cmd := rfl

@[simp] theorem State.recordReading_rsp (s : State) (h c : Byte) :
    (s.recordReading h c).rsp = s.rsp := rfl

@[simp] theorem State.recordReading_busy (s : State) (h c : Byte) :
    (s.recordReading h c).busy = s.busy := rfl

@[simp] theorem State.recordReading_txbuf (s : State) (h c : Byte) :
    (s.recordReading h c).txbuf = s.txbuf := rfl

@[simp] theorem State.recordReading_rxbuf (s : State) (h c : Byte) :
    (s.recordReading h c).rxbuf = s.rxbuf := rfl

@[simp] theorem State.recordReading_rxlen (s : State) (h c : Byte) :
    (s.recordReading h c).rxlen = s.rxlen := rfl

@[simp] theorem State.recordReading_str0 (s : State) (h c : Byte) :
    (s.recordReading h c).str0 = s.str0 := rfl

@[simp] theorem State.recordReading_str0len (s : State) (h c : Byte) :
    (s.recordReading h c).str0len = s.str0len := rfl

@[simp] theorem State.recordReading_str1 (s : State) (h c : Byte) :
    (s.recordReading h c).str1 = s.str1 := rfl

@[simp] theorem State.recordReading_str1len (s : State) (h c : Byte) :
    (s.recordReading h c).str1len = s.str1len := rfl

@[simp] theorem State.recordReading_linebuf (s : State) (h c : Byte) :
    (s.recordReading h c).linebuf = s.linebuf := rfl

@[simp] theorem State.recordReading_linelen (s : State) (h c : Byte) :
    (s.recordReading h c).linelen = s.linelen := rfl

@[simp] theorem State.recordReading_pins (s : State) (h c : Byte) :
    (s.recordReading h c).pins = s.pins := rfl

@[simp] theorem State.recordReading_trace (s : State) (h c : Byte) :
    (s.recordReading h c).trace = s.trace := rfl

@[simp] theorem State.recordReading_t (s : State) (h c : Byte) :
    (s.recordReading h c).t = s.t := rfl

@[simp] theorem State.recordReading_dht (s : State) (h c : Byte) :
    (s.recordReading h c).dht = ⟨true, s.nowMs⟩ := rfl

@[simp] theorem State.recordReading_reading (s : State) (h c : Byte) :
    (s.recordReading h c).reading = ⟨true, c, h, s.nowMs⟩ := rfl

@[simp] theorem State.recordReading_session (s : State) (h c : Byte) :
    (s.recordReading h c).session = s.session := rfl

@[simp] theorem State.recordReading_rx (s : State) (h c : Byte) :
    (s.recordReading h c).rx = s.rx := rfl

@[simp] theorem State.recordReading_btn (s : State) (h c : Byte) :
    (s.recordReading h c).btn = s.btn := rfl

@[simp] theorem State.recordReading_motor (s : State) (h c : Byte) :
    (s.recordReading h c).motor = s.motor := rfl

@[simp] theorem State.recordReading_alarm (s : State) (h c : Byte) :
    (s.recordReading h c).alarm = s.alarm := rfl

@[simp] theorem State.recordReading_env (s : State) (h c : Byte) :
    (s.recordReading h c).env = s.env := rfl

@[simp] theorem State.recordReading_host (s : State) (h c : Byte) :
    (s.recordReading h c).host = s.host := rfl

/-! ## State.pump -/

@[simp] theorem State.pump_cfg (s : State) :
    s.pump.cfg = s.cfg := rfl

@[simp] theorem State.pump_cmd (s : State) :
    s.pump.cmd = s.cmd := rfl

@[simp] theorem State.pump_rsp (s : State) :
    s.pump.rsp = s.rsp := rfl

@[simp] theorem State.pump_busy (s : State) :
    s.pump.busy = s.busy := rfl

@[simp] theorem State.pump_txbuf (s : State) :
    s.pump.txbuf = s.txbuf := rfl

@[simp] theorem State.pump_rxbuf (s : State) :
    s.pump.rxbuf = s.rxbuf := rfl

@[simp] theorem State.pump_rxlen (s : State) :
    s.pump.rxlen = s.rxlen := rfl

@[simp] theorem State.pump_str0 (s : State) :
    s.pump.str0 = s.str0 := rfl

@[simp] theorem State.pump_str0len (s : State) :
    s.pump.str0len = s.str0len := rfl

@[simp] theorem State.pump_str1 (s : State) :
    s.pump.str1 = s.str1 := rfl

@[simp] theorem State.pump_str1len (s : State) :
    s.pump.str1len = s.str1len := rfl

@[simp] theorem State.pump_linebuf (s : State) :
    s.pump.linebuf = s.linebuf := rfl

@[simp] theorem State.pump_linelen (s : State) :
    s.pump.linelen = s.linelen := rfl

@[simp] theorem State.pump_pins (s : State) :
    s.pump.pins = s.pins := rfl

@[simp] theorem State.pump_trace (s : State) :
    s.pump.trace = s.trace := rfl

@[simp] theorem State.pump_t (s : State) :
    s.pump.t = s.t := rfl

@[simp] theorem State.pump_dht (s : State) :
    s.pump.dht = s.dht := rfl

@[simp] theorem State.pump_reading (s : State) :
    s.pump.reading = s.reading := rfl

@[simp] theorem State.pump_session (s : State) :
    s.pump.session = s.session := rfl

@[simp] theorem State.pump_btn (s : State) :
    s.pump.btn = s.btn := rfl

@[simp] theorem State.pump_motor (s : State) :
    s.pump.motor = s.motor := rfl

@[simp] theorem State.pump_alarm (s : State) :
    s.pump.alarm = s.alarm := rfl

@[simp] theorem State.pump_host (s : State) :
    s.pump.host = s.host := rfl

/-! ## State.setTime -/

@[simp] theorem State.setTime_cfg (s : State) (x : Nat) :
    (s.setTime x).cfg = s.cfg := rfl

@[simp] theorem State.setTime_cmd (s : State) (x : Nat) :
    (s.setTime x).cmd = s.cmd := rfl

@[simp] theorem State.setTime_rsp (s : State) (x : Nat) :
    (s.setTime x).rsp = s.rsp := rfl

@[simp] theorem State.setTime_busy (s : State) (x : Nat) :
    (s.setTime x).busy = s.busy := rfl

@[simp] theorem State.setTime_txbuf (s : State) (x : Nat) :
    (s.setTime x).txbuf = s.txbuf := rfl

@[simp] theorem State.setTime_rxbuf (s : State) (x : Nat) :
    (s.setTime x).rxbuf = s.rxbuf := rfl

@[simp] theorem State.setTime_rxlen (s : State) (x : Nat) :
    (s.setTime x).rxlen = s.rxlen := rfl

@[simp] theorem State.setTime_str0 (s : State) (x : Nat) :
    (s.setTime x).str0 = s.str0 := rfl

@[simp] theorem State.setTime_str0len (s : State) (x : Nat) :
    (s.setTime x).str0len = s.str0len := rfl

@[simp] theorem State.setTime_str1 (s : State) (x : Nat) :
    (s.setTime x).str1 = s.str1 := rfl

@[simp] theorem State.setTime_str1len (s : State) (x : Nat) :
    (s.setTime x).str1len = s.str1len := rfl

@[simp] theorem State.setTime_linebuf (s : State) (x : Nat) :
    (s.setTime x).linebuf = s.linebuf := rfl

@[simp] theorem State.setTime_linelen (s : State) (x : Nat) :
    (s.setTime x).linelen = s.linelen := rfl

@[simp] theorem State.setTime_pins (s : State) (x : Nat) :
    (s.setTime x).pins = s.pins := rfl

@[simp] theorem State.setTime_trace (s : State) (x : Nat) :
    (s.setTime x).trace = s.trace := rfl

@[simp] theorem State.setTime_t (s : State) (x : Nat) :
    (s.setTime x).t = x := rfl

@[simp] theorem State.setTime_dht (s : State) (x : Nat) :
    (s.setTime x).dht = s.dht := rfl

@[simp] theorem State.setTime_reading (s : State) (x : Nat) :
    (s.setTime x).reading = s.reading := rfl

@[simp] theorem State.setTime_session (s : State) (x : Nat) :
    (s.setTime x).session = s.session := rfl

@[simp] theorem State.setTime_btn (s : State) (x : Nat) :
    (s.setTime x).btn = s.btn := rfl

@[simp] theorem State.setTime_motor (s : State) (x : Nat) :
    (s.setTime x).motor = s.motor := rfl

@[simp] theorem State.setTime_alarm (s : State) (x : Nat) :
    (s.setTime x).alarm = s.alarm := rfl

@[simp] theorem State.setTime_host (s : State) (x : Nat) :
    (s.setTime x).host = s.host := rfl

/-! ## State.accept -/

@[simp] theorem State.accept_cfg (s : State) :
    s.accept.cfg = s.cfg := rfl

@[simp] theorem State.accept_cmd (s : State) :
    s.accept.cmd = s.cmd := rfl

@[simp] theorem State.accept_rsp (s : State) :
    s.accept.rsp = s.rsp := rfl

@[simp] theorem State.accept_busy (s : State) :
    s.accept.busy = true := rfl

@[simp] theorem State.accept_txbuf (s : State) :
    s.accept.txbuf = s.txbuf := rfl

@[simp] theorem State.accept_rxbuf (s : State) :
    s.accept.rxbuf = s.rxbuf := rfl

@[simp] theorem State.accept_rxlen (s : State) :
    s.accept.rxlen = s.rxlen := rfl

@[simp] theorem State.accept_str0 (s : State) :
    s.accept.str0 = s.str0 := rfl

@[simp] theorem State.accept_str0len (s : State) :
    s.accept.str0len = s.str0len := rfl

@[simp] theorem State.accept_str1 (s : State) :
    s.accept.str1 = s.str1 := rfl

@[simp] theorem State.accept_str1len (s : State) :
    s.accept.str1len = s.str1len := rfl

@[simp] theorem State.accept_linebuf (s : State) :
    s.accept.linebuf = s.linebuf := rfl

@[simp] theorem State.accept_linelen (s : State) :
    s.accept.linelen = s.linelen := rfl

@[simp] theorem State.accept_pins (s : State) :
    s.accept.pins = s.pins := rfl

@[simp] theorem State.accept_trace (s : State) :
    s.accept.trace = s.trace := rfl

@[simp] theorem State.accept_t (s : State) :
    s.accept.t = s.t := rfl

@[simp] theorem State.accept_dht (s : State) :
    s.accept.dht = s.dht := rfl

@[simp] theorem State.accept_reading (s : State) :
    s.accept.reading = s.reading := rfl

@[simp] theorem State.accept_session (s : State) :
    s.accept.session = s.session := rfl

@[simp] theorem State.accept_btn (s : State) :
    s.accept.btn = s.btn := rfl

@[simp] theorem State.accept_motor (s : State) :
    s.accept.motor = s.motor := rfl

@[simp] theorem State.accept_alarm (s : State) :
    s.accept.alarm = s.alarm := rfl

@[simp] theorem State.accept_host (s : State) :
    s.accept.host = s.host := rfl

/-! ## The receive side after RXP has run -/

@[simp] theorem State.pump_rx (s : State) :
    s.pump.rx = (rxRun s.cfg.uart s.nowMs s.rx s.env.arrivals).1 := rfl

@[simp] theorem State.pump_env (s : State) :
    s.pump.env = { s.env with arrivals := (rxRun s.cfg.uart s.nowMs s.rx s.env.arrivals).2 } := rfl

@[simp] theorem State.setTime_rx (s : State) (x : Nat) :
    (s.setTime x).rx = (rxRun s.cfg.uart (x / 1000) s.rx s.env.arrivals).1 := rfl

@[simp] theorem State.setTime_env (s : State) (x : Nat) :
    (s.setTime x).env = { s.env with arrivals := (rxRun s.cfg.uart (x / 1000) s.rx s.env.arrivals).2 } := rfl

@[simp] theorem State.accept_rx (s : State) :
    s.accept.rx = (rxRun s.cfg.uart s.nowMs s.rx s.env.arrivals).1 := rfl

@[simp] theorem State.accept_env (s : State) :
    s.accept.env = { s.env with arrivals := (rxRun s.cfg.uart s.nowMs s.rx s.env.arrivals).2 } := rfl

/-! ## State.emit: an event writes its pin or the time, and the trace -/

@[simp] theorem State.emit_cfg (s : State) (e : Event) : (s.emit e).cfg = s.cfg := by
  cases e <;> rfl

@[simp] theorem State.emit_cmd (s : State) (e : Event) : (s.emit e).cmd = s.cmd := by
  cases e <;> rfl

@[simp] theorem State.emit_rsp (s : State) (e : Event) : (s.emit e).rsp = s.rsp := by
  cases e <;> rfl

@[simp] theorem State.emit_busy (s : State) (e : Event) : (s.emit e).busy = s.busy := by
  cases e <;> rfl

@[simp] theorem State.emit_txbuf (s : State) (e : Event) : (s.emit e).txbuf = s.txbuf := by
  cases e <;> rfl

@[simp] theorem State.emit_rxbuf (s : State) (e : Event) : (s.emit e).rxbuf = s.rxbuf := by
  cases e <;> rfl

@[simp] theorem State.emit_rxlen (s : State) (e : Event) : (s.emit e).rxlen = s.rxlen := by
  cases e <;> rfl

@[simp] theorem State.emit_str0 (s : State) (e : Event) : (s.emit e).str0 = s.str0 := by
  cases e <;> rfl

@[simp] theorem State.emit_str0len (s : State) (e : Event) : (s.emit e).str0len = s.str0len := by
  cases e <;> rfl

@[simp] theorem State.emit_str1 (s : State) (e : Event) : (s.emit e).str1 = s.str1 := by
  cases e <;> rfl

@[simp] theorem State.emit_str1len (s : State) (e : Event) : (s.emit e).str1len = s.str1len := by
  cases e <;> rfl

@[simp] theorem State.emit_linebuf (s : State) (e : Event) : (s.emit e).linebuf = s.linebuf := by
  cases e <;> rfl

@[simp] theorem State.emit_linelen (s : State) (e : Event) : (s.emit e).linelen = s.linelen := by
  cases e <;> rfl

@[simp] theorem State.emit_dht (s : State) (e : Event) : (s.emit e).dht = s.dht := by
  cases e <;> rfl

@[simp] theorem State.emit_reading (s : State) (e : Event) : (s.emit e).reading = s.reading := by
  cases e <;> rfl

@[simp] theorem State.emit_session (s : State) (e : Event) : (s.emit e).session = s.session := by
  cases e <;> rfl

@[simp] theorem State.emit_btn (s : State) (e : Event) : (s.emit e).btn = s.btn := by
  cases e <;> rfl

@[simp] theorem State.emit_motor (s : State) (e : Event) : (s.emit e).motor = s.motor := by
  cases e <;> rfl

@[simp] theorem State.emit_alarm (s : State) (e : Event) : (s.emit e).alarm = s.alarm := by
  cases e <;> rfl

@[simp] theorem State.emit_host (s : State) (e : Event) : (s.emit e).host = s.host := by
  cases e <;> rfl

@[simp] theorem State.emit_trace (s : State) (e : Event) : (s.emit e).trace = s.trace ++ [e] := by
  cases e <;> rfl

end Sys2Proof.Machine
end

