-- ==== Sys2Proof/Laws/Receive.lean ====
section
/-! SUPPORT. The laws of the receive producer: what each of its steps keeps, the order in which due steps are applied
(running to one time and then to a later one is running to the later one), and when RX.q first fills. -/

namespace Sys2Proof.Machine

/-! ## One append, commit, arrival -/

@[simp] theorem Rx.append_acc (c : UartConfig) (x : RxItem) (rx : Rx) : (rx.append c x).acc = rx.acc := by
  unfold Rx.append; split <;> rfl

@[simp] theorem Rx.append_lastMs (c : UartConfig) (x : RxItem) (rx : Rx) : (rx.append c x).lastMs = rx.lastMs := by
  unfold Rx.append; split <;> rfl

theorem Rx.append_q_room (c : UartConfig) (x : RxItem) (rx : Rx) (h : rx.q.length < c.rxQCap) :
    (rx.append c x).q = rx.q ++ [x] := by
  simp [Rx.append, h]

theorem Rx.append_q_length (c : UartConfig) (x : RxItem) (rx : Rx) :
    rx.q.length ≤ (rx.append c x).q.length ∧ (rx.append c x).q.length ≤ rx.q.length + 1 ∧
      (rx.q.length ≤ c.rxQCap → (rx.append c x).q.length ≤ c.rxQCap) := by
  unfold Rx.append
  split
  · simp only [List.length_append, List.length_cons, List.length_nil]
    omega
  · exact ⟨le_refl _, Nat.le_succ _, id⟩

/-- Appending bytes one by one. -/
theorem Rx.appendAll_spec (c : UartConfig) (bs : Bytes) (rx : Rx) :
    let r := bs.foldl (fun r b => r.append c (.byte b)) rx
    r.acc = rx.acc ∧ r.lastMs = rx.lastMs ∧ rx.q.length ≤ r.q.length ∧ r.q.length ≤ rx.q.length + bs.length ∧
      (rx.q.length ≤ c.rxQCap → r.q.length ≤ c.rxQCap) := by
  induction bs generalizing rx with
  | nil => simp
  | cons b rest ih =>
    have h1 := Rx.append_q_length c (.byte b) rx
    have h2 := ih (rx.append c (.byte b))
    simp only [List.foldl_cons, List.length_cons] at h2 ⊢
    refine ⟨by simpa using h2.1, by simpa using h2.2.1, by omega, by omega, fun h => h2.2.2.2.2 (h1.2.2 h)⟩

theorem Rx.appendAll_room (c : UartConfig) (bs : Bytes) (rx : Rx) (h : rx.q.length + bs.length ≤ c.rxQCap) :
    (bs.foldl (fun r b => r.append c (.byte b)) rx).q = rx.q ++ bs.map .byte := by
  induction bs generalizing rx with
  | nil => simp
  | cons b rest ih =>
    simp only [List.length_cons] at h
    have hq := Rx.append_q_room c (.byte b) rx (by omega)
    simp only [List.foldl_cons]
    rw [ih _ (by rw [hq]; simp; omega), hq]
    simp

/-- A commit empties RX.acc, keeps RX.last_ms, and lengthens RX.q within its capacity. -/
theorem Rx.commit_spec (c : UartConfig) (x : RxItem) (rx : Rx) :
    (rx.commit c x).acc = [] ∧ (rx.commit c x).lastMs = rx.lastMs ∧
      rx.q.length ≤ (rx.commit c x).q.length ∧
      (rx.commit c x).q.length ≤ rx.q.length + rx.acc.length + 1 ∧
      (rx.q.length ≤ c.rxQCap → (rx.commit c x).q.length ≤ c.rxQCap) := by
  have h1 := Rx.appendAll_spec c rx.acc rx
  have h2 := Rx.append_q_length c x (rx.acc.foldl (fun r b => r.append c (.byte b)) rx)
  simp only [Rx.commit] at *
  refine ⟨trivial, by simpa using h1.2.1, by omega, by omega, fun h => h2.2.2 (h1.2.2.2.2 h)⟩

/-- A commit with room moves the whole line: "A commit makes all bytes of the line visible at once, in order" (R74). -/
theorem Rx.commit_room (c : UartConfig) (x : RxItem) (rx : Rx)
    (h : rx.q.length + rx.acc.length < c.rxQCap) :
    rx.commit c x = { acc := [], lastMs := rx.lastMs, q := rx.q ++ rx.acc.map .byte ++ [x] } := by
  have h1 := Rx.appendAll_spec c rx.acc rx
  have h2 := Rx.appendAll_room c rx.acc rx (by omega)
  have h3 := Rx.append_q_room c x (rx.acc.foldl (fun r b => r.append c (.byte b)) rx)
    (by rw [h2]; simp; omega)
  simp only [Rx.commit]
  rw [h3, h2]
  simp [h1.2.1]

theorem Rx.idleBefore_of_not_due (c : UartConfig) (limit : Nat) (rx : Rx)
    (h : ∀ d, rx.idleDue c = some d → limit ≤ d) : rx.idleBefore c limit = rx := by
  unfold Rx.idleBefore
  cases hd : rx.idleDue c with
  | none => rfl
  | some d =>
    have := h d hd
    have hlt : ¬ d < limit := by omega
    simp [hlt]

theorem Rx.idleBefore_of_due (c : UartConfig) (limit d : Nat) (rx : Rx)
    (hd : rx.idleDue c = some d) (h : d < limit) : rx.idleBefore c limit = rx.commit c .idleEol := by
  unfold Rx.idleBefore
  simp [hd, h]

theorem Rx.idleDue_of_acc_nil (c : UartConfig) (rx : Rx) (h : rx.acc = []) : rx.idleDue c = none := by
  simp [Rx.idleDue, h]

theorem Rx.idleDue_commit (c : UartConfig) (x : RxItem) (rx : Rx) : (rx.commit c x).idleDue c = none :=
  Rx.idleDue_of_acc_nil c _ (Rx.commit_spec c x rx).1

/-- An idle commit before a time and again before a later one. -/
theorem Rx.idleBefore_idleBefore (c : UartConfig) (l1 l2 : Nat) (h : l1 ≤ l2) (rx : Rx) :
    (rx.idleBefore c l1).idleBefore c l2 = rx.idleBefore c l2 := by
  cases hd : rx.idleDue c with
  | none =>
    rw [Rx.idleBefore_of_not_due c l1 rx (by simp [hd])]
  | some d =>
    by_cases h1 : d < l1
    · rw [Rx.idleBefore_of_due c l1 d rx hd h1, Rx.idleBefore_of_due c l2 d rx hd (by omega)]
      exact Rx.idleBefore_of_not_due c l2 _ (by simp [Rx.idleDue_commit])
    · rw [Rx.idleBefore_of_not_due c l1 rx (by intro d' hd'; rw [hd] at hd'; cases hd'; omega)]

/-! ## Running RXP to a time -/

/-- Running to `n1` and then to `n2` is running to `n2`: no RXP step is lost or applied twice however the time
advances (R202). -/
theorem rxRun_rxRun (c : UartConfig) (n1 n2 : Nat) (h : n1 ≤ n2) (arr : List Arrival) (rx : Rx) :
    rxRun c n2 (rxRun c n1 rx arr).1 (rxRun c n1 rx arr).2 = rxRun c n2 rx arr := by
  induction arr generalizing rx with
  | nil =>
    simp only [rxRun]
    rw [Rx.idleBefore_idleBefore c _ _ (by omega)]
  | cons a rest ih =>
    obtain ⟨t, b⟩ := a
    by_cases h1 : t ≤ n1
    · have h2 : t ≤ n2 := by omega
      simp only [rxRun, h1, h2, if_true]
      exact ih _
    · by_cases h2 : t ≤ n2
      · simp only [rxRun, h1, h2, if_true, if_false]
        rw [Rx.idleBefore_idleBefore c _ _ (by omega)]
      · simp only [rxRun, h1, h2, if_false]
        rw [Rx.idleBefore_idleBefore c _ _ (by omega)]

/-- What every step of RXP keeps, packaged once: a property of RX that commits and arrivals keep is kept by any
run. -/
theorem rxRun_induct (c : UartConfig) (now : Nat) (P : Rx → Prop)
    (hcommit : ∀ rx, P rx → P (rx.commit c .idleEol))
    (harrive : ∀ rx t b, t ≤ now → P rx → P (rx.arrive c t b))
    (arr : List Arrival) (rx : Rx) (h : P rx) : P (rxRun c now rx arr).1 := by
  have hidle : ∀ l rx, P rx → P (rx.idleBefore c l) := by
    intro l rx h
    unfold Rx.idleBefore
    split
    · split
      · exact hcommit rx h
      · exact h
    · exact h
  induction arr generalizing rx with
  | nil => exact hidle _ _ h
  | cons a rest ih =>
    obtain ⟨t, b⟩ := a
    simp only [rxRun]
    split
    · rename_i ht
      exact ih _ (harrive _ _ _ ht (hidle _ _ h))
    · exact hidle _ _ h

/-- RX within its capacities, no terminator in RX.acc (R28, R202). -/
def RxWithin (c : UartConfig) (rx : Rx) : Prop :=
  rx.acc.length ≤ c.rxAccCap ∧ rx.q.length ≤ c.rxQCap ∧ ∀ b ∈ rx.acc, isTerminator b = false

theorem Rx.commit_within (c : UartConfig) (x : RxItem) (rx : Rx) (h : RxWithin c rx) :
    RxWithin c (rx.commit c x) := by
  have hs := Rx.commit_spec c x rx
  refine ⟨?_, hs.2.2.2.2 h.2.1, ?_⟩
  · rw [hs.1]; simp
  · rw [hs.1]; simp

theorem Rx.arrive_within (c : UartConfig) (t : Nat) (b : Byte) (rx : Rx) (h : RxWithin c rx) :
    RxWithin c (rx.arrive c t b) := by
  unfold Rx.arrive
  simp only
  split
  · exact Rx.commit_within c _ _ ⟨h.1, h.2.1, h.2.2⟩
  · rename_i hb
    split
    · rename_i hlen
      refine ⟨?_, h.2.1, ?_⟩
      · simp only [List.length_append, List.length_cons, List.length_nil]
        exact hlen
      · intro x hx
        simp only [List.mem_append, List.mem_singleton] at hx
        rcases hx with hx | rfl
        · exact h.2.2 x hx
        · simpa using hb
    · exact ⟨h.1, h.2.1, h.2.2⟩

theorem rxRun_within (c : UartConfig) (now : Nat) (arr : List Arrival) (rx : Rx) (h : RxWithin c rx) :
    RxWithin c (rxRun c now rx arr).1 :=
  rxRun_induct c now (RxWithin c) (fun rx h => Rx.commit_within c _ rx h)
    (fun rx t b _ h => Rx.arrive_within c t b rx h) arr rx h

theorem Rx.arrive_lastMs (c : UartConfig) (t : Nat) (b : Byte) (rx : Rx) : (rx.arrive c t b).lastMs = t := by
  unfold Rx.arrive
  simp only
  split
  · exact (Rx.commit_spec c _ _).2.1
  · split <;> rfl

theorem rxRun_lastMs_le (c : UartConfig) (now : Nat) (arr : List Arrival) (rx : Rx) (h : rx.lastMs ≤ now) :
    (rxRun c now rx arr).1.lastMs ≤ now :=
  rxRun_induct c now (fun rx => rx.lastMs ≤ now)
    (fun rx h => by rw [(Rx.commit_spec c _ rx).2.1]; exact h)
    (fun rx t b ht _ => by rw [Rx.arrive_lastMs]; exact ht) arr rx h

/-! ## The number of items still to come -/

theorem Rx.commit_items (c : UartConfig) (x : RxItem) (rx : Rx) (arr : List Arrival) (h : rx.acc ≠ []) :
    rxItems (rx.commit c x) arr ≤ rxItems rx arr := by
  have hs := Rx.commit_spec c x rx
  have hne : rx.acc.isEmpty = false := by simpa using h
  simp only [rxItems, hs.1, hne, List.length_nil, List.isEmpty_nil, if_true]
  simp only [Bool.false_eq_true, if_false]
  omega

theorem Rx.idleBefore_items (c : UartConfig) (l : Nat) (rx : Rx) (arr : List Arrival) :
    rxItems (rx.idleBefore c l) arr ≤ rxItems rx arr := by
  unfold Rx.idleBefore
  cases hd : rx.idleDue c with
  | none => exact le_refl _
  | some d =>
    simp only
    split
    · refine Rx.commit_items c _ rx arr ?_
      intro hnil
      simp [Rx.idleDue, hnil] at hd
    · exact le_refl _

theorem Rx.arrive_items (c : UartConfig) (t : Nat) (b : Byte) (rx : Rx) (rest : List Arrival) :
    rxItems (rx.arrive c t b) rest ≤ rxItems rx ((t, b) :: rest) := by
  unfold Rx.arrive
  simp only
  split
  · have hs := Rx.commit_spec c (.byte b) { rx with lastMs := t }
    simp only [rxItems, hs.1, List.length_nil, List.isEmpty_nil, if_true, List.length_cons]
    have := hs.2.2.2.1
    simp only at this
    omega
  · split
    · have hne : (rx.acc ++ [b]).isEmpty = false := by simp
      simp only [rxItems, List.length_append, List.length_cons, List.length_nil, hne, Bool.false_eq_true, if_false]
      split <;> omega
    · simp only [rxItems, List.length_cons]
      omega

theorem rxRun_items (c : UartConfig) (now : Nat) (arr : List Arrival) (rx : Rx) :
    rxItems (rxRun c now rx arr).1 (rxRun c now rx arr).2 ≤ rxItems rx arr := by
  induction arr generalizing rx with
  | nil => exact Rx.idleBefore_items c _ rx []
  | cons a rest ih =>
    obtain ⟨t, b⟩ := a
    simp only [rxRun]
    split
    · refine le_trans (ih _) (le_trans (Rx.arrive_items c t b _ rest) (Rx.idleBefore_items c t rx _))
    · exact Rx.idleBefore_items c _ rx _

/-! ## The wait for an item -/

theorem Rx.idleBefore_q_length (c : UartConfig) (l : Nat) (rx : Rx) :
    rx.q.length ≤ (rx.idleBefore c l).q.length := by
  unfold Rx.idleBefore
  split
  · split
    · exact (Rx.commit_spec c _ rx).2.2.1
    · exact le_refl _
  · exact le_refl _

theorem Rx.arrive_q_length (c : UartConfig) (t : Nat) (b : Byte) (rx : Rx) :
    rx.q.length ≤ (rx.arrive c t b).q.length := by
  unfold Rx.arrive
  simp only
  split
  · exact (Rx.commit_spec c _ { rx with lastMs := t }).2.2.1
  · split <;> exact le_refl _

/-- RXP never removes an item. -/
theorem rxRun_q_length (c : UartConfig) (now : Nat) (arr : List Arrival) (rx : Rx) :
    rx.q.length ≤ (rxRun c now rx arr).1.q.length := by
  induction arr generalizing rx with
  | nil => exact Rx.idleBefore_q_length c _ rx
  | cons a rest ih =>
    obtain ⟨t, b⟩ := a
    simp only [rxRun]
    split
    · exact le_trans (Rx.idleBefore_q_length c t rx) (le_trans (Rx.arrive_q_length c t b _) (ih _))
    · exact Rx.idleBefore_q_length c _ rx

theorem wakeAt_le (c : UartConfig) (dl : Nat) (arr : List Arrival) (rx : Rx) : wakeAt c dl rx arr ≤ dl := by
  induction arr generalizing rx with
  | nil =>
    simp only [wakeAt]
    split
    · split
      · exact le_refl _
      · exact Nat.min_le_right _ _
    · exact le_refl _
  | cons a rest ih =>
    obtain ⟨t, b⟩ := a
    simp only [wakeAt]
    split
    · split
      · exact le_refl _
      · rename_i h
        split
        · exact Nat.max_le.mpr ⟨by omega, ih _⟩
        · omega
    · exact Nat.min_le_right _ _

/-- Before the wake time RX.q stays empty. -/
theorem wakeAt_before (c : UartConfig) (dl k : Nat) (arr : List Arrival) (rx : Rx) (hq : rx.q = [])
    (hk : k < wakeAt c dl rx arr) : (rxRun c k rx arr).1.q = [] := by
  induction arr generalizing rx with
  | nil =>
    simp only [rxRun]
    simp only [wakeAt] at hk
    cases hd : rx.idleDue c with
    | none => rw [Rx.idleBefore_of_not_due c _ rx (by simp [hd])]; exact hq
    | some d =>
      simp only [hd] at hk
      by_cases hdk : d < k + 1
      · rw [Rx.idleBefore_of_due c _ d rx hd hdk]
        split at hk
        · rename_i he
          simpa using he
        · omega
      · rw [Rx.idleBefore_of_not_due c _ rx (by intro d' h'; rw [hd] at h'; cases h'; omega)]
        exact hq
  | cons a rest ih =>
    obtain ⟨t, b⟩ := a
    simp only [wakeAt] at hk
    simp only [rxRun]
    by_cases hr : (rx.idleBefore c t).q.isEmpty = true
    · rw [if_pos hr] at hk
      by_cases ht : t ≤ k
      · simp only [ht, if_true]
        have hdl : ¬ dl ≤ t := by
          intro hle
          rw [if_pos hle] at hk
          omega
        rw [if_neg hdl] at hk
        by_cases ha : ((rx.idleBefore c t).arrive c t b).q.isEmpty = true
        · rw [if_pos ha] at hk
          refine ih _ (by simpa using ha) ?_
          omega
        · rw [if_neg ha] at hk
          omega
      · simp only [ht, if_false]
        have h1 : (rx.idleBefore c (k + 1)).q.length ≤ (rx.idleBefore c t).q.length := by
          rw [← Rx.idleBefore_idleBefore c (k + 1) t (by omega) rx]
          exact Rx.idleBefore_q_length c t _
        have h2 : (rx.idleBefore c t).q.length = 0 := by simpa using hr
        exact List.eq_nil_of_length_eq_zero (by omega)
    · rw [if_neg hr] at hk
      have hdue : ∃ d, rx.idleDue c = some d ∧ d < t ∧ d = rx.lastMs + c.tIdleCommitMs := by
        cases hd : rx.idleDue c with
        | none =>
          rw [Rx.idleBefore_of_not_due c t rx (by simp [hd])] at hr
          simp [hq] at hr
        | some d =>
          refine ⟨d, rfl, ?_, ?_⟩
          · by_contra hlt
            rw [Rx.idleBefore_of_not_due c t rx
              (by intro d' h'; rw [hd] at h'; cases h'; omega)] at hr
            simp [hq] at hr
          · simp only [Rx.idleDue] at hd
            split at hd
            · simp at hd
            · simpa using hd.symm
      obtain ⟨d, hd, hdt, hdv⟩ := hdue
      have hkt : ¬ t ≤ k := by omega
      simp only [hkt, if_false]
      rw [Rx.idleBefore_of_not_due c _ rx (by intro d' h'; rw [hd] at h'; cases h'; omega)]
      exact hq

/-- At a wake time short of the deadline RX.q is not empty. -/
theorem wakeAt_at (c : UartConfig) (dl k : Nat) (arr : List Arrival) (rx : Rx)
    (hw : wakeAt c dl rx arr < dl) (hk : wakeAt c dl rx arr ≤ k) :
    (rxRun c k rx arr).1.q ≠ [] := by
  induction arr generalizing rx with
  | nil =>
    simp only [rxRun]
    simp only [wakeAt] at hw hk
    cases hd : rx.idleDue c with
    | none => simp [hd] at hw
    | some d =>
      simp only [hd] at hw hk
      split at hw
      · omega
      · rename_i he
        rw [if_neg he] at hk
        rw [Rx.idleBefore_of_due c _ d rx hd (by omega)]
        simpa using he
  | cons a rest ih =>
    obtain ⟨t, b⟩ := a
    simp only [wakeAt] at hw hk
    simp only [rxRun]
    by_cases hr : (rx.idleBefore c t).q.isEmpty = true
    · rw [if_pos hr] at hw hk
      by_cases hdl : dl ≤ t
      · rw [if_pos hdl] at hw
        omega
      · rw [if_neg hdl] at hw hk
        by_cases ha : ((rx.idleBefore c t).arrive c t b).q.isEmpty = true
        · rw [if_pos ha] at hw hk
          have ht : t ≤ k := by omega
          simp only [ht, if_true]
          exact ih _ (by omega) (by omega)
        · rw [if_neg ha] at hw hk
          simp only [hk, if_true]
          intro hnil
          have := rxRun_q_length c k rest ((rx.idleBefore c t).arrive c t b)
          rw [hnil] at this
          simp only [List.length_nil, Nat.le_zero_eq, List.length_eq_zero_iff] at this
          simp [this] at ha
    · rw [if_neg hr] at hw hk
      by_cases ht : t ≤ k
      · simp only [ht, if_true]
        intro hnil
        have h1 := rxRun_q_length c k rest ((rx.idleBefore c t).arrive c t b)
        have h2 := Rx.arrive_q_length c t b (rx.idleBefore c t)
        rw [hnil] at h1
        simp only [List.length_nil, Nat.le_zero_eq] at h1
        have h3 : (rx.idleBefore c t).q.length = 0 := by omega
        simp only [List.length_eq_zero_iff] at h3
        simp [h3] at hr
      · simp only [ht, if_false]
        cases hd : rx.idleDue c with
        | none =>
          rw [Rx.idleBefore_of_not_due c t rx (by simp [hd])] at hr
          rw [Rx.idleBefore_of_not_due c _ rx (by simp [hd])]
          simpa using hr
        | some d =>
          have hdv : d = rx.lastMs + c.tIdleCommitMs := by
            simp only [Rx.idleDue] at hd
            split at hd
            · simp at hd
            · simpa using hd.symm
          rw [Rx.idleBefore_of_due c _ d rx hd (by omega)]
          by_cases hdt : d < t
          · rw [Rx.idleBefore_of_due c t d rx hd hdt] at hr
            simpa using hr
          · rw [Rx.idleBefore_of_not_due c t rx
              (by intro d' h'; rw [hd] at h'; cases h'; omega)] at hr
            intro hnil
            have := (Rx.commit_spec c .idleEol rx).2.2.1
            rw [hnil] at this
            simp only [List.length_nil, Nat.le_zero_eq, List.length_eq_zero_iff] at this
            simp [this] at hr

/-! ## A byte that does not come -/

/-- A byte that stands neither in RX.acc nor in RX.q. -/
def RxLacks (b : Byte) (rx : Rx) : Prop := (∀ x ∈ rx.acc, x ≠ b) ∧ ∀ x ∈ rx.q, x ≠ .byte b

theorem Rx.append_lacks (c : UartConfig) {b : Byte} {x : RxItem} {rx : Rx} (h : RxLacks b rx) (hx : x ≠ .byte b) :
    RxLacks b (rx.append c x) := by
  unfold Rx.append
  split
  · refine ⟨h.1, fun y hy => ?_⟩
    rcases List.mem_append.mp hy with hy | hy
    · exact h.2 y hy
    · rwa [List.mem_singleton.mp hy]
  · exact h

theorem Rx.commit_lacks (c : UartConfig) {b : Byte} {x : RxItem} {rx : Rx} (h : RxLacks b rx) (hx : x ≠ .byte b) :
    RxLacks b (rx.commit c x) := by
  have all : ∀ (bs : Bytes) (r : Rx), (∀ y ∈ bs, y ≠ b) → RxLacks b r →
      RxLacks b (bs.foldl (fun r y => r.append c (.byte y)) r) := by
    intro bs
    induction bs with
    | nil => exact fun r _ hr => hr
    | cons y ys ih =>
      exact fun r hy hr => ih _ (fun z hz => hy z (by simp [hz]))
        (Rx.append_lacks c hr fun e => hy y (by simp) (RxItem.byte.inj e))
  have := Rx.append_lacks c (all rx.acc rx h.1 h) hx
  exact ⟨by simp [Rx.commit], this.2⟩

theorem Rx.idleBefore_lacks (c : UartConfig) (l : Nat) {b : Byte} {rx : Rx} (h : RxLacks b rx) :
    RxLacks b (rx.idleBefore c l) := by
  unfold Rx.idleBefore
  split
  · split
    · exact Rx.commit_lacks c h (by simp)
    · exact h
  · exact h

theorem Rx.arrive_lacks (c : UartConfig) (t : Nat) {b y : Byte} {rx : Rx} (h : RxLacks b rx) (hy : y ≠ b) :
    RxLacks b (rx.arrive c t y) := by
  have h' : RxLacks b { rx with lastMs := t } := h
  unfold Rx.arrive
  simp only
  split
  · exact Rx.commit_lacks c h' fun e => hy (RxItem.byte.inj e)
  · split
    · refine ⟨fun z hz => ?_, h.2⟩
      rcases List.mem_append.mp hz with hz | hz
      · exact h.1 z hz
      · rwa [List.mem_singleton.mp hz]
    · exact h'

/-- A byte that no arrival before `dl` brings is not received before `dl` (R202, R209). -/
theorem rxRun_lacks (c : UartConfig) {now dl : Nat} {b : Byte} (hn : now < dl) (arr : List Arrival) (rx : Rx)
    (h : RxLacks b rx) (ha : ∀ a ∈ arr, a.1 < dl → a.2 ≠ b) :
    RxLacks b (rxRun c now rx arr).1 ∧ ∀ a ∈ (rxRun c now rx arr).2, a.1 < dl → a.2 ≠ b := by
  induction arr generalizing rx with
  | nil => exact ⟨Rx.idleBefore_lacks c _ h, by simp [rxRun]⟩
  | cons a rest ih =>
    obtain ⟨t, y⟩ := a
    simp only [rxRun]
    split
    · rename_i ht
      exact ih _ (Rx.arrive_lacks c t (Rx.idleBefore_lacks c _ h) (ha (t, y) (by simp) (by simp only; omega)))
        fun a hm => ha a (by simp [hm])
    · exact ⟨Rx.idleBefore_lacks c _ h, ha⟩

/-! ## What a wait for an item sees -/

/-- With nothing received and nothing arriving before the deadline, the wait ends at the deadline. -/
theorem wakeAt_quiet (c : UartConfig) (dl : Nat) (rx : Rx) (arr : List Arrival) (hq : rx.q = []) (ha : rx.acc = [])
    (h : ∀ a ∈ arr, dl ≤ a.1) : wakeAt c dl rx arr = dl := by
  have hd := Rx.idleDue_of_acc_nil c rx ha
  cases arr with
  | nil => simp [wakeAt, hd]
  | cons a rest =>
    obtain ⟨t, b⟩ := a
    have ht : dl ≤ t := h (t, b) (by simp)
    simp [wakeAt, Rx.idleBefore_of_not_due c t rx (by simp [hd]), hq, ht]

theorem isTerminator_content {b : Byte} (h : b ≠ 0x0D ∧ b ≠ 0x0A) : isTerminator b = false := by
  have h1 : (b == 0x0D) = false := by simpa using h.1
  have h2 : (b == 0x0A) = false := by simpa using h.2
  simp only [isTerminator, h1, h2, Bool.or_self]

theorem isTerminator_stop {b : Byte} (h : b = 0x0D ∨ b = 0x0A) : isTerminator b = true := by
  rcases h with rfl | rfl <;> rfl

/-- No idle commit is due before `t`. -/
def Rx.NotDue (c : UartConfig) (t : Nat) (rx : Rx) : Prop := rx.acc = [] ∨ t ≤ rx.lastMs + c.tIdleCommitMs

theorem Rx.NotDue.idleBefore {c : UartConfig} {t : Nat} {rx : Rx} (h : rx.NotDue c t) : rx.idleBefore c t = rx := by
  apply Rx.idleBefore_of_not_due
  intro d hd
  simp only [Rx.idleDue] at hd
  split at hd
  · simp at hd
  · rename_i hne
    simp only [Option.some.injEq] at hd
    rcases h with h | h
    · simp [h] at hne
    · omega

theorem Rx.arrive_content {c : UartConfig} {t : Nat} {b : Byte} {rx : Rx} (hb : b ≠ 0x0D ∧ b ≠ 0x0A)
    (hl : rx.acc.length < c.rxAccCap) : rx.arrive c t b = ⟨rx.acc ++ [b], t, rx.q⟩ := by
  simp [Rx.arrive, isTerminator_content hb, hl]

theorem Rx.arrive_stop {c : UartConfig} {t : Nat} {b : Byte} {rx : Rx} (hb : b = 0x0D ∨ b = 0x0A)
    (hl : rx.q.length + rx.acc.length < c.rxQCap) :
    rx.arrive c t b = ⟨[], t, rx.q ++ rx.acc.map .byte ++ [.byte b]⟩ := by
  simp only [Rx.arrive, isTerminator_stop hb, if_true]
  exact Rx.commit_room c (.byte b) { rx with lastMs := t } hl

/-- Bytes of one millisecond that end no line join RX.acc (R202). -/
theorem rxRun_bytes (c : UartConfig) (now m : Nat) (hm : m ≤ now) (bs : Bytes) (later : List Arrival) (rx : Rx)
    (hd : rx.NotDue c m) (hb : ∀ b ∈ bs, b ≠ 0x0D ∧ b ≠ 0x0A) (hl : rx.acc.length + bs.length ≤ c.rxAccCap)
    (hne : bs ≠ []) :
    rxRun c now rx (bs.map (fun b => (m, b)) ++ later) = rxRun c now ⟨rx.acc ++ bs, m, rx.q⟩ later := by
  induction bs generalizing rx with
  | nil => exact absurd rfl hne
  | cons b bs ih =>
    simp only [List.length_cons] at hl
    simp only [List.map_cons, List.cons_append, rxRun, hm, if_true]
    rw [hd.idleBefore, Rx.arrive_content (hb b (by simp)) (by omega)]
    by_cases hbs : bs = []
    · subst hbs; simp
    · rw [ih ⟨rx.acc ++ [b], m, rx.q⟩ (.inr (by simp only; omega)) (fun x hx => hb x (by simp [hx]))
        (by simp only [List.length_append, List.length_cons, List.length_nil]; omega) hbs]
      simp

theorem wakeAt_bytes (c : UartConfig) (dl m : Nat) (hm : m < dl) (bs : Bytes) (later : List Arrival) (rx : Rx)
    (hq : rx.q = []) (hd : rx.NotDue c m) (hb : ∀ b ∈ bs, b ≠ 0x0D ∧ b ≠ 0x0A)
    (hl : rx.acc.length + bs.length ≤ c.rxAccCap) (hne : bs ≠ []) :
    wakeAt c dl rx (bs.map (fun b => (m, b)) ++ later) = max m (wakeAt c dl ⟨rx.acc ++ bs, m, []⟩ later) := by
  induction bs generalizing rx with
  | nil => exact absurd rfl hne
  | cons b bs ih =>
    simp only [List.length_cons] at hl
    simp only [List.map_cons, List.cons_append, wakeAt]
    rw [hd.idleBefore, Rx.arrive_content (hb b (by simp)) (by omega)]
    have hdl : ¬ dl ≤ m := by omega
    simp only [hq, List.isEmpty_nil, if_true, hdl, if_false]
    by_cases hbs : bs = []
    · subst hbs; simp
    · rw [ih ⟨rx.acc ++ [b], m, []⟩ rfl (.inr (by simp only; omega)) (fun x hx => hb x (by simp [hx]))
        (by simp only [List.length_append, List.length_cons, List.length_nil]; omega) hbs]
      simp only [List.append_assoc, List.cons_append, List.nil_append]
      omega

/-- A line that arrives in one millisecond before the deadline ends the wait then (R204). -/
theorem wakeAt_line (c : UartConfig) (dl m : Nat) (hm : m < dl) (bs : Bytes) (stop : Byte) (later : List Arrival)
    (rx : Rx) (hq : rx.q = []) (ha : rx.acc = []) (hb : ∀ b ∈ bs, b ≠ 0x0D ∧ b ≠ 0x0A)
    (hs : stop = 0x0D ∨ stop = 0x0A) (hl : bs.length ≤ c.rxAccCap) (hl' : bs.length < c.rxQCap) :
    wakeAt c dl rx (bs.map (fun b => (m, b)) ++ (m, stop) :: later) = m := by
  have hdl : ¬ dl ≤ m := by omega
  have one : ∀ r : Rx, r.q = [] → r.NotDue c m → r.acc.length < c.rxQCap → wakeAt c dl r ((m, stop) :: later) = m := by
    intro r h1 h2 h3
    simp only [wakeAt]
    rw [h2.idleBefore, Rx.arrive_stop hs (by rw [h1]; simpa using h3)]
    simp [h1, hdl]
  by_cases hbs : bs = []
  · subst hbs
    exact one rx hq (.inl ha) (by rw [ha]; simpa using hl')
  · rw [wakeAt_bytes c dl m hm bs _ rx hq (.inl ha) hb (by rw [ha]; simpa using hl) hbs,
      one ⟨rx.acc ++ bs, m, []⟩ rfl (.inr (by simp only; omega)) (by rw [ha]; simpa using hl')]
    exact Nat.max_self m

theorem Rx.append_prefix (c : UartConfig) (x : RxItem) (rx : Rx) : rx.q <+: (rx.append c x).q := by
  unfold Rx.append
  split
  · exact List.prefix_append _ _
  · exact List.prefix_rfl

theorem Rx.commit_prefix (c : UartConfig) (x : RxItem) (rx : Rx) : rx.q <+: (rx.commit c x).q := by
  have all : ∀ (bs : Bytes) (r : Rx), r.q <+: (bs.foldl (fun r b => r.append c (.byte b)) r).q := by
    intro bs
    induction bs with
    | nil => exact fun r => List.prefix_rfl
    | cons b bs ih => exact fun r => (Rx.append_prefix c _ r).trans (ih _)
  exact (all rx.acc rx).trans (Rx.append_prefix c x _)

theorem Rx.arrive_prefix (c : UartConfig) (t : Nat) (b : Byte) (rx : Rx) : rx.q <+: (rx.arrive c t b).q := by
  unfold Rx.arrive
  simp only
  split
  · exact Rx.commit_prefix c (.byte b) { rx with lastMs := t }
  · split <;> exact List.prefix_rfl

/-- RXP only appends to RX.q (R73, R202). -/
theorem rxRun_prefix (c : UartConfig) (now : Nat) (arr : List Arrival) (rx : Rx) :
    rx.q <+: (rxRun c now rx arr).1.q :=
  rxRun_induct c now (fun r => rx.q <+: r.q) (fun r h => h.trans (Rx.commit_prefix c _ r))
    (fun r t b _ h => h.trans (Rx.arrive_prefix c t b r)) arr rx List.prefix_rfl

/-- Such a line then stands in RX.q, behind what stood there, with what the rest of that millisecond brings after it. -/
theorem rxRun_line (c : UartConfig) (m : Nat) (bs : Bytes) (stop : Byte) (later : List Arrival) (rx : Rx)
    (hq : rx.q = []) (ha : rx.acc = []) (hb : ∀ b ∈ bs, b ≠ 0x0D ∧ b ≠ 0x0A)
    (hs : stop = 0x0D ∨ stop = 0x0A) (hl : bs.length ≤ c.rxAccCap) (hl' : bs.length < c.rxQCap) :
    ∃ rest, (rxRun c m rx (bs.map (fun b => (m, b)) ++ (m, stop) :: later)).1.q =
      bs.map .byte ++ .byte stop :: rest := by
  have one : ∀ r : Rx, r.q = [] → r.NotDue c m → r.acc.length < c.rxQCap →
      ∃ rest, (rxRun c m r ((m, stop) :: later)).1.q = r.acc.map .byte ++ .byte stop :: rest := by
    intro r h1 h2 h3
    simp only [rxRun, le_refl, if_true]
    rw [h2.idleBefore, Rx.arrive_stop hs (by rw [h1]; simpa using h3)]
    obtain ⟨more, hmore⟩ := rxRun_prefix c m later ⟨[], m, r.q ++ r.acc.map .byte ++ [.byte stop]⟩
    exact ⟨more, by rw [← hmore]; simp [h1]⟩
  by_cases hbs : bs = []
  · subst hbs
    have := one rx hq (.inl ha) (by rw [ha]; simpa using hl')
    rw [ha] at this
    exact this
  · rw [rxRun_bytes c m m (le_refl m) bs _ rx (.inl ha) hb (by rw [ha]; simpa using hl) hbs]
    have := one ⟨rx.acc ++ bs, m, rx.q⟩ hq (.inr (by simp only; omega)) (by rw [ha]; simpa using hl')
    rw [ha] at this ⊢
    exact this

/-- Bytes that end no line, before the deadline and with nothing after them, end the wait at their idle commit
(R202, R209). -/
theorem wakeAt_idle (c : UartConfig) (dl : Nat) (later : List Arrival) (rx : Rx) (hq : rx.q = []) (ha : rx.acc ≠ [])
    (hcap : rx.acc.length < c.rxQCap) (h : ∀ a ∈ later, rx.lastMs + c.tIdleCommitMs < a.1) :
    wakeAt c dl rx later = min (rx.lastMs + c.tIdleCommitMs) dl := by
  have hd : rx.idleDue c = some (rx.lastMs + c.tIdleCommitMs) := by simp [Rx.idleDue, ha]
  have hc := Rx.commit_room c .idleEol rx (by rw [hq]; simpa using hcap)
  cases later with
  | nil => simp [wakeAt, hd, hc]
  | cons a rest =>
    obtain ⟨t, b⟩ := a
    have ht : rx.lastMs + c.tIdleCommitMs < t := h (t, b) (by simp)
    simp only [wakeAt]
    rw [Rx.idleBefore_of_due c t _ rx hd ht, hc]
    simp

end Sys2Proof.Machine
end

