-- ==== Sys2Proof/Laws/Wires.lean ====
section
/-! SUPPORT. What an event, an answer and the passage of time can do, said once: everything but the pins, the trace, the
time, the receive side and the environment's inputs stays; the time does not go back; the receive side ends as
RXP leaves it at the later time. Every I2C and DHT micro-operation is a chain of these. -/

namespace Sys2Proof.Machine

/-- `s'` is `s` after events, answers and time. -/
structure OnWires (s s' : State) : Prop where
  frame : ∃ pins trace t rx env, s' = { s with pins := pins, trace := trace, t := t, rx := rx, env := env }
  mono : s.t ≤ s'.t
  future : ∀ n, s'.nowMs ≤ n →
    rxRun s.cfg.uart n s'.rx s'.env.arrivals = rxRun s.cfg.uart n s.rx s.env.arrivals
  pumped : s.Pumped → s'.Pumped
  trace : ∃ evs, s'.trace = s.trace ++ evs

theorem State.nowMs_mono {s s' : State} (h : s.t ≤ s'.t) : s.nowMs ≤ s'.nowMs := Nat.div_le_div_right h

namespace OnWires

variable {s s' s'' : State}

theorem refl (s : State) : OnWires s s :=
  ⟨⟨_, _, _, _, _, rfl⟩, le_refl _, fun _ _ => rfl, id, ⟨[], by simp⟩⟩

theorem trans (h : OnWires s s') (h' : OnWires s' s'') : OnWires s s'' := by
  obtain ⟨⟨p, tr, t, rx, env, hf⟩, hm, hfut, hp, evs, htr⟩ := h
  obtain ⟨⟨p', tr', t', rx', env', hf'⟩, hm', hfut', hp', evs', htr'⟩ := h'
  have hcfg : s'.cfg = s.cfg := by rw [hf]
  refine ⟨⟨p', tr', t', rx', env', ?_⟩, le_trans hm hm', ?_, fun h => hp' (hp h), ⟨evs ++ evs', ?_⟩⟩
  · rw [hf', hf]
  · intro n hn
    rw [← hcfg, hfut' n hn, hcfg]
    exact hfut n (le_trans (State.nowMs_mono hm') hn)
  · rw [htr', htr, List.append_assoc]

theorem cfg_eq (h : OnWires s s') : s'.cfg = s.cfg := by obtain ⟨_, _, _, _, _, hf⟩ := h.frame; rw [hf]
theorem cmd_eq (h : OnWires s s') : s'.cmd = s.cmd := by obtain ⟨_, _, _, _, _, hf⟩ := h.frame; rw [hf]
theorem rsp_eq (h : OnWires s s') : s'.rsp = s.rsp := by obtain ⟨_, _, _, _, _, hf⟩ := h.frame; rw [hf]
theorem busy_eq (h : OnWires s s') : s'.busy = s.busy := by obtain ⟨_, _, _, _, _, hf⟩ := h.frame; rw [hf]
theorem txbuf_eq (h : OnWires s s') : s'.txbuf = s.txbuf := by obtain ⟨_, _, _, _, _, hf⟩ := h.frame; rw [hf]
theorem rxbuf_eq (h : OnWires s s') : s'.rxbuf = s.rxbuf := by obtain ⟨_, _, _, _, _, hf⟩ := h.frame; rw [hf]
theorem rxlen_eq (h : OnWires s s') : s'.rxlen = s.rxlen := by obtain ⟨_, _, _, _, _, hf⟩ := h.frame; rw [hf]
theorem str0_eq (h : OnWires s s') : s'.str0 = s.str0 := by obtain ⟨_, _, _, _, _, hf⟩ := h.frame; rw [hf]
theorem str0len_eq (h : OnWires s s') : s'.str0len = s.str0len := by
  obtain ⟨_, _, _, _, _, hf⟩ := h.frame; rw [hf]
theorem str1_eq (h : OnWires s s') : s'.str1 = s.str1 := by obtain ⟨_, _, _, _, _, hf⟩ := h.frame; rw [hf]
theorem str1len_eq (h : OnWires s s') : s'.str1len = s.str1len := by
  obtain ⟨_, _, _, _, _, hf⟩ := h.frame; rw [hf]
theorem linebuf_eq (h : OnWires s s') : s'.linebuf = s.linebuf := by
  obtain ⟨_, _, _, _, _, hf⟩ := h.frame; rw [hf]
theorem linelen_eq (h : OnWires s s') : s'.linelen = s.linelen := by
  obtain ⟨_, _, _, _, _, hf⟩ := h.frame; rw [hf]
theorem dht_eq (h : OnWires s s') : s'.dht = s.dht := by obtain ⟨_, _, _, _, _, hf⟩ := h.frame; rw [hf]
theorem reading_eq (h : OnWires s s') : s'.reading = s.reading := by
  obtain ⟨_, _, _, _, _, hf⟩ := h.frame; rw [hf]
theorem session_eq (h : OnWires s s') : s'.session = s.session := by
  obtain ⟨_, _, _, _, _, hf⟩ := h.frame; rw [hf]
theorem btn_eq (h : OnWires s s') : s'.btn = s.btn := by obtain ⟨_, _, _, _, _, hf⟩ := h.frame; rw [hf]
theorem motor_eq (h : OnWires s s') : s'.motor = s.motor := by obtain ⟨_, _, _, _, _, hf⟩ := h.frame; rw [hf]
theorem alarm_eq (h : OnWires s s') : s'.alarm = s.alarm := by obtain ⟨_, _, _, _, _, hf⟩ := h.frame; rw [hf]
theorem host_eq (h : OnWires s s') : s'.host = s.host := by obtain ⟨_, _, _, _, _, hf⟩ := h.frame; rw [hf]

/-- Where the later state is pumped, its receive side is what RXP makes of the earlier one. -/
theorem rx_eq (h : OnWires s s') (hp : s'.Pumped) :
    (s'.rx, s'.env.arrivals) = rxRun s.cfg.uart s'.nowMs s.rx s.env.arrivals := by
  have h1 := h.future s'.nowMs (le_refl _)
  rw [State.Pumped, h.cfg_eq] at hp
  rw [← h1, hp]

/-- The receive side stays within its capacities. -/
theorem within (h : OnWires s s') (hp : s.Pumped) (hr : RxWithin s.cfg.uart s.rx) :
    RxWithin s.cfg.uart s'.rx := by
  have h1 := h.rx_eq (h.pumped hp)
  have h2 := congrArg Prod.fst h1
  simp only at h2
  rw [h2]
  exact rxRun_within _ _ _ _ hr

end OnWires

theorem State.pump_pumped (s : State) : s.pump.Pumped := by
  have := rxRun_rxRun s.cfg.uart s.nowMs s.nowMs (le_refl _) s.env.arrivals s.rx
  exact this

theorem State.pump_of_pumped {s : State} (h : s.Pumped) : s.pump = s := by
  unfold State.pump
  unfold State.Pumped at h
  rw [h]

theorem State.setTime_pumped (s : State) (x : Nat) : (s.setTime x).Pumped :=
  State.pump_pumped { s with t := x }

theorem State.accept_pumped (s : State) : s.accept.Pumped := State.pump_pumped { s with busy := true }

theorem State.setTime_onWires (s : State) (x : Nat) (h : s.t ≤ x) : OnWires s (s.setTime x) where
  frame := ⟨_, _, _, _, _, rfl⟩
  mono := h
  future := fun n hn => rxRun_rxRun s.cfg.uart (x / 1000) n hn s.env.arrivals s.rx
  pumped := fun _ => State.setTime_pumped s x
  trace := ⟨[], (List.append_nil _).symm⟩

theorem State.emit_pumped {s : State} (e : Event) (h : s.Pumped) : (s.emit e).Pumped := by
  cases e
  case delay n u => exact State.setTime_pumped s _
  all_goals exact h

theorem State.emit_onWires (s : State) (e : Event) : OnWires s (s.emit e) := by
  cases e
  case delay n u =>
    have h1 := State.setTime_onWires s (s.t + u.toUs n) (Nat.le_add_right _ _)
    exact ⟨⟨_, _, _, _, _, rfl⟩, h1.mono, h1.future, h1.pumped, ⟨[.delay n u], rfl⟩⟩
  all_goals
    exact ⟨⟨_, _, _, _, _, rfl⟩, le_refl _, fun _ _ => rfl, id, ⟨_, rfl⟩⟩

theorem State.delayUs_onWires (s : State) (n : Nat) : OnWires s (s.delayUs n) := State.emit_onWires s _

theorem State.drawLine_onWires (s : State) : OnWires s s.drawLine.2 := by
  unfold State.drawLine
  cases s.env.lineAnswers with
  | nil => exact ⟨⟨_, _, _, _, _, rfl⟩, le_refl _, fun _ _ => rfl, id, ⟨[], by simp⟩⟩
  | cons b rest => exact ⟨⟨_, _, _, _, _, rfl⟩, le_refl _, fun _ _ => rfl, id, ⟨[], by simp⟩⟩

theorem State.drawBtn_onWires (s : State) : OnWires s s.drawBtn.2 := by
  unfold State.drawBtn
  cases s.env.btnAnswers with
  | nil => exact ⟨⟨_, _, _, _, _, rfl⟩, le_refl _, fun _ _ => rfl, id, ⟨[], by simp⟩⟩
  | cons b rest => exact ⟨⟨_, _, _, _, _, rfl⟩, le_refl _, fun _ _ => rfl, id, ⟨[], by simp⟩⟩

theorem State.sampleSda_onWires (s : State) : OnWires s s.sampleSda.2 := by
  unfold State.sampleSda
  cases s.pins.sda with
  | driveLow => exact State.emit_onWires s _
  | released => exact (State.drawLine_onWires s).trans (State.emit_onWires _ _)

theorem State.sampleScl_onWires (s : State) : OnWires s s.sampleScl.2 :=
  (State.drawLine_onWires s).trans (State.emit_onWires _ _)

theorem State.sampleBtn_onWires (s : State) : OnWires s s.sampleBtn.2 :=
  (State.drawBtn_onWires s).trans (State.emit_onWires _ _)

theorem State.sampleDl_onWires (s : State) : OnWires s s.sampleDl.2 := State.emit_onWires s _

/-- `accept` sets `busy` and applies what is due, nothing else. -/
theorem State.accept_eq (s : State) : s.accept =
    { s with busy := true, rx := s.accept.rx, env := { s.env with arrivals := s.accept.env.arrivals } } := rfl

theorem State.accept_rxRun (s : State) :
    (s.accept.rx, s.accept.env.arrivals) = rxRun s.cfg.uart s.nowMs s.rx s.env.arrivals := rfl

/-- What an operation leaves on the receive side, from the state before it was accepted. -/
theorem OnWires.rx_from_accept {s s' : State} (h : OnWires s.accept s') :
    (s'.rx, s'.env.arrivals) = rxRun s.cfg.uart s'.nowMs s.rx s.env.arrivals := by
  have h1 := h.rx_eq (h.pumped (State.accept_pumped s))
  rw [h1]
  exact rxRun_rxRun s.cfg.uart s.nowMs _ (State.nowMs_mono h.mono) s.env.arrivals s.rx

/-! ## Running an operation -/

/-- A command that is refused (R110). -/
theorem runOp_refused (valid : Bool) (op : State → Rsp × State) (s : State)
    (h : s.busy = true ∨ valid = false) : runOp valid op s = .next s.refuse := by
  unfold runOp
  rcases h with h | h <;> simp [h]

/-- A command that is accepted runs its operation to the response. -/
theorem runOp_accepted (op : State → Rsp × State) (s : State) (h : s.busy = false) :
    runOp true op s = .next ((op s.accept).2.respond (op s.accept).1) := by
  simp [runOp, h]

/-- Everything `runOp` can do. -/
theorem runOp_cases (valid : Bool) (op : State → Rsp × State) (s : State) :
    ((s.busy = true ∨ valid = false) ∧ runOp valid op s = .next s.refuse) ∨
    (s.busy = false ∧ valid = true ∧ runOp valid op s = .next ((op s.accept).2.respond (op s.accept).1)) := by
  cases hb : s.busy
  · cases valid
    · exact .inl ⟨.inr rfl, runOp_refused _ _ _ (.inr rfl)⟩
    · exact .inr ⟨rfl, rfl, runOp_accepted _ _ hb⟩
  · exact .inl ⟨.inl rfl, runOp_refused _ _ _ (.inl hb)⟩

end Sys2Proof.Machine
end

