-- ==== Sys2Proof/Laws/Dht.lean ====
section
/-! SUPPORT. Phase measurement (spec/41_pulse_decoder.md R174) against a waveform, the payload it yields (R177), and what
DHT_READ_FRAME can do (R178). -/

namespace Sys2Proof.Machine

/-! ## The first time -/

theorem firstTime_none {p : Nat → Bool} {fuel t : Nat} (h : ∀ u, t ≤ u → u < t + fuel → p u = false) :
    firstTime p fuel t = none := by
  induction fuel generalizing t with
  | zero => rfl
  | succ n ih =>
    rw [firstTime, h t (by omega) (by omega)]
    exact ih fun u h1 h2 => h u (by omega) (by omega)

theorem firstTime_some {p : Nat → Bool} {fuel t a : Nat} (h1 : t ≤ a) (h2 : a < t + fuel) (h3 : p a = true)
    (h : ∀ u, t ≤ u → u < a → p u = false) : firstTime p fuel t = some a := by
  induction fuel generalizing t with
  | zero => omega
  | succ n ih =>
    rw [firstTime]
    rcases Nat.lt_or_ge t a with hlt | hge
    · rw [h t (by omega) hlt]
      exact ih (by omega) (by omega) fun u h4 h5 => h u (by omega) h5
    · obtain rfl : t = a := by omega
      rw [h3]
      rfl

theorem firstTime_bound {p : Nat → Bool} {fuel t a : Nat} (h : firstTime p fuel t = some a) :
    t ≤ a ∧ a < t + fuel := by
  induction fuel generalizing t with
  | zero => simp [firstTime] at h
  | succ n ih =>
    rw [firstTime] at h
    split at h
    · simp only [Option.some.injEq] at h
      omega
    · have := ih h
      omega

/-! ## One measurement -/

/-- Everything a measurement can do: it watches, time passes, and one event is emitted. -/
theorem measurePhase_cases (level : Level) (tmo minDur : Nat) (s : State) :
    ∃ x, s.t ≤ x ∧ x ≤ s.t + 2 * tmo ∧
      (measurePhase level tmo minDur s).2 =
        (s.setTime x).emit (.dlPhase level (measurePhase level tmo minDur s).1) := by
  unfold measurePhase
  split
  · exact ⟨s.t + tmo, by omega, by omega, rfl⟩
  · rename_i ta hta
    have h1 := firstTime_bound hta
    split
    · exact ⟨ta + tmo, by omega, by omega, rfl⟩
    · rename_i tb htb
      have h2 := firstTime_bound htb
      exact ⟨tb, by omega, by omega, rfl⟩

theorem measurePhase_onWires (level : Level) (tmo minDur : Nat) (s : State) :
    OnWires s (measurePhase level tmo minDur s).2 := by
  obtain ⟨x, h1, _, he⟩ := measurePhase_cases level tmo minDur s
  rw [he]
  exact (State.setTime_onWires s x h1).trans (State.emit_onWires _ _)

theorem measurePhase_frame (level : Level) (tmo minDur : Nat) (s : State) :
    (measurePhase level tmo minDur s).2.pins = s.pins ∧
    (measurePhase level tmo minDur s).2.env.wave = s.env.wave ∧
    (measurePhase level tmo minDur s).2.trace =
      s.trace ++ [.dlPhase level (measurePhase level tmo minDur s).1] ∧
    (measurePhase level tmo minDur s).2.t ≤ s.t + 2 * tmo := by
  obtain ⟨x, h1, h2, he⟩ := measurePhase_cases level tmo minDur s
  rw [he]
  exact ⟨rfl, rfl, by simp, h2⟩

theorem State.dlineLevel_input {s : State} (h : s.pins.dline = .inputPullup) (t : Nat) :
    s.dlineLevel t = waveLevel s.env.wave t := by
  unfold State.dlineLevel
  rw [h]

/-- A measurement that finds the level from `ta` to `tb` (R174). -/
theorem measurePhase_found {s : State} {level : Level} {tmo minDur ta tb : Nat} (hd : s.pins.dline = .inputPullup)
    (h1 : s.t ≤ ta) (h2 : ta < s.t + tmo) (h3 : ta < tb) (h4 : tb ≤ ta + tmo)
    (hw : ∀ u, s.t ≤ u → u < ta → waveLevel s.env.wave u ≠ level)
    (hh : ∀ u, ta ≤ u → u < tb → waveLevel s.env.wave u = level) (he : waveLevel s.env.wave tb ≠ level) :
    (measurePhase level tmo minDur s).1 = (if tb - ta < minDur then .tooShort (tb - ta) else .held (tb - ta)) ∧
      (measurePhase level tmo minDur s).2.t = tb := by
  have e1 : firstTime (fun t => s.dlineLevel t == level) tmo s.t = some ta := by
    refine firstTime_some h1 h2 ?_ ?_
    · rw [State.dlineLevel_input hd, hh ta (le_refl _) h3]
      exact beq_self_eq_true level
    · intro u h5 h6
      rw [State.dlineLevel_input hd]
      exact beq_eq_false_iff_ne.mpr (hw u h5 h6)
  have e2 : firstTime (fun t => s.dlineLevel t != level) tmo (ta + 1) = some tb := by
    refine firstTime_some (by omega) (by omega) ?_ ?_
    · rw [State.dlineLevel_input hd]
      exact bne_iff_ne.mpr he
    · intro u h5 h6
      rw [State.dlineLevel_input hd, hh u (by omega) h6]
      exact bne_self_eq_false level
  unfold measurePhase
  rw [e1]
  simp only
  rw [e2]
  exact ⟨rfl, rfl⟩

/-- A measurement whose level does not end (R174). -/
theorem measurePhase_stuck {s : State} {level : Level} {tmo minDur ta : Nat} (hd : s.pins.dline = .inputPullup)
    (h1 : s.t ≤ ta) (h2 : ta < s.t + tmo) (hw : ∀ u, s.t ≤ u → u < ta → waveLevel s.env.wave u ≠ level)
    (hh : ∀ u, ta ≤ u → u ≤ ta + tmo → waveLevel s.env.wave u = level) :
    (measurePhase level tmo minDur s).1 = .holdTimedOut ∧ (measurePhase level tmo minDur s).2.t = ta + tmo := by
  have e1 : firstTime (fun t => s.dlineLevel t == level) tmo s.t = some ta := by
    refine firstTime_some h1 h2 ?_ ?_
    · rw [State.dlineLevel_input hd, hh ta (le_refl _) (by omega)]
      exact beq_self_eq_true level
    · intro u h5 h6
      rw [State.dlineLevel_input hd]
      exact beq_eq_false_iff_ne.mpr (hw u h5 h6)
  have e2 : firstTime (fun t => s.dlineLevel t != level) tmo (ta + 1) = none := by
    refine firstTime_none fun u h5 h6 => ?_
    rw [State.dlineLevel_input hd, hh u (by omega) (by omega)]
    exact bne_self_eq_false level
  unfold measurePhase
  rw [e1]
  simp only
  rw [e2]
  exact ⟨rfl, rfl⟩

/-- A measurement whose level never comes (R174). -/
theorem measurePhase_absent {s : State} {level : Level} {tmo minDur : Nat} (hd : s.pins.dline = .inputPullup)
    (hw : ∀ u, s.t ≤ u → u < s.t + tmo → waveLevel s.env.wave u ≠ level) :
    (measurePhase level tmo minDur s).1 = .waitTimedOut ∧ (measurePhase level tmo minDur s).2.t = s.t + tmo := by
  have e1 : firstTime (fun t => s.dlineLevel t == level) tmo s.t = none := by
    refine firstTime_none fun u h5 h6 => ?_
    rw [State.dlineLevel_input hd]
    exact beq_eq_false_iff_ne.mpr (hw u h5 h6)
  unfold measurePhase
  rw [e1]
  exact ⟨rfl, rfl⟩

/-! ## A waveform given by its phases -/

theorem waveLevel_phaseWave (t d : Nat) (b : Level) (ds : List Nat) (later : List (Nat × Level)) (u : Nat) :
    waveLevel (phaseWave t b (d :: ds) ++ later) u =
      if u < t + d then b else waveLevel (phaseWave (t + d) (!b) ds ++ later) u := rfl

/-- From its time on, a state sees a line of alternating phases that starts at that time. -/
structure Sees (s : State) (b : Level) (ds : List Nat) (later : List (Nat × Level)) : Prop where
  input : s.pins.dline = .inputPullup
  wave : ∀ u, s.t ≤ u → waveLevel s.env.wave u = waveLevel (phaseWave s.t b ds ++ later) u

/-- Time passing within the first phase's end drops it. -/
theorem Sees.next {s s' : State} {b : Level} {d : Nat} {ds : List Nat} {later : List (Nat × Level)}
    (h : Sees s b (d :: ds) later) (hp : s'.pins = s.pins) (hw : s'.env.wave = s.env.wave) (ht : s'.t = s.t + d) :
    Sees s' (!b) ds later := by
  refine ⟨by rw [hp]; exact h.input, fun u hu => ?_⟩
  rw [hw, h.wave u (by omega), waveLevel_phaseWave, if_neg (by omega), ht]

/-- The line at the beginning of a phase of its own level. -/
theorem Sees.held {s : State} {b : Level} {d e tmo minDur : Nat} {ds : List Nat} {later : List (Nat × Level)}
    (h : Sees s b (d :: e :: ds) later) (h1 : 1 ≤ d) (h2 : d ≤ tmo) (h3 : 1 ≤ e) :
    (measurePhase b tmo minDur s).1 = (if d < minDur then .tooShort d else .held d) ∧
      (measurePhase b tmo minDur s).2.t = s.t + d ∧ Sees (measurePhase b tmo minDur s).2 (!b) (e :: ds) later := by
  have hf := measurePhase_found (s := s) (level := b) (tmo := tmo) (minDur := minDur) (ta := s.t) (tb := s.t + d)
    h.input (le_refl _) (by omega) (by omega) (by omega) (fun u h5 h6 => absurd h6 (by omega))
    (fun u h5 h6 => by rw [h.wave u h5, waveLevel_phaseWave, if_pos h6])
    (by
      rw [h.wave _ (by omega), waveLevel_phaseWave, if_neg (by omega), waveLevel_phaseWave, if_pos (by omega)]
      cases b <;> simp)
  rw [show s.t + d - s.t = d by omega] at hf
  have hfr := measurePhase_frame b tmo minDur s
  exact ⟨hf.1, hf.2, h.next hfr.1 hfr.2.1 hf.2⟩

/-- The line in a phase of the other level. -/
theorem Sees.awaited {s : State} {b : Level} {w d e tmo minDur : Nat} {ds : List Nat} {later : List (Nat × Level)}
    (h : Sees s (!b) (w :: d :: e :: ds) later) (hw : w < tmo) (h1 : 1 ≤ d) (h2 : d ≤ tmo) (h3 : 1 ≤ e) :
    (measurePhase b tmo minDur s).1 = (if d < minDur then .tooShort d else .held d) ∧
      (measurePhase b tmo minDur s).2.t = s.t + w + d ∧
      Sees (measurePhase b tmo minDur s).2 (!b) (e :: ds) later := by
  have hf := measurePhase_found (s := s) (level := b) (tmo := tmo) (minDur := minDur) (ta := s.t + w)
    (tb := s.t + w + d) h.input (by omega) (by omega) (by omega) (by omega)
    (fun u h5 h6 => by
      rw [h.wave u h5, waveLevel_phaseWave, if_pos h6]
      cases b <;> simp)
    (fun u h5 h6 => by
      rw [h.wave u (by omega), waveLevel_phaseWave, if_neg (by omega), waveLevel_phaseWave, if_pos h6]
      simp)
    (by
      rw [h.wave _ (by omega), waveLevel_phaseWave, if_neg (by omega), waveLevel_phaseWave, if_neg (by omega),
        waveLevel_phaseWave, if_pos (by omega)]
      cases b <;> simp)
  rw [show s.t + w + d - (s.t + w) = d by omega] at hf
  have hfr := measurePhase_frame b tmo minDur s
  refine ⟨hf.1, hf.2, ⟨by rw [hfr.1]; exact h.input, fun u hu => ?_⟩⟩
  rw [hf.2] at hu
  rw [hfr.2.1, h.wave u (by omega), waveLevel_phaseWave, if_neg (by omega), waveLevel_phaseWave, if_neg (by omega),
    hf.2]
  simp

/-- A phase longer than the timeout. -/
theorem Sees.tooLong {s : State} {b : Level} {d tmo minDur : Nat} {ds : List Nat} {later : List (Nat × Level)}
    (h : Sees s b (d :: ds) later) (h1 : 1 ≤ tmo) (h2 : tmo < d) :
    (measurePhase b tmo minDur s).1 = .holdTimedOut :=
  (measurePhase_stuck (s := s) (level := b) (tmo := tmo) (minDur := minDur) (ta := s.t) h.input (le_refl _)
    (by omega) (fun u h5 h6 => absurd h6 (by omega))
    (fun u h5 h6 => by rw [h.wave u h5, waveLevel_phaseWave, if_pos (by omega)])).1

/-! ## The payload -/

theorem readPayload_onWires (tmo left i : Nat) (got : List Level) (s : State) :
    OnWires s (readPayload tmo left i got s).2 := by
  induction left generalizing i got s with
  | zero => exact OnWires.refl s
  | succ left ih =>
    unfold readPayload
    simp only
    split
    · exact measurePhase_onWires _ _ _ _
    · split
      · exact (measurePhase_onWires _ _ _ _).trans (measurePhase_onWires _ _ _ _)
      · exact ((measurePhase_onWires _ _ _ _).trans (measurePhase_onWires _ _ _ _)).trans (ih _ _ _)

/-- What the payload changes: no drive register, and at most two timeouts for each phase pass. -/
theorem readPayload_frame (tmo left i : Nat) (got : List Level) (s : State) :
    (readPayload tmo left i got s).2.pins = s.pins ∧
      (readPayload tmo left i got s).2.t ≤ s.t + left * (4 * tmo) := by
  induction left generalizing i got s with
  | zero => exact ⟨rfl, by simp [readPayload]⟩
  | succ left ih =>
    have h1 := measurePhase_frame false tmo s.cfg.dht.minBitLowUs s
    have h2 := measurePhase_frame true tmo 0 (measurePhase false tmo s.cfg.dht.minBitLowUs s).2
    have hb : (left + 1) * (4 * tmo) = left * (4 * tmo) + 4 * tmo := by ring
    unfold readPayload
    simp only
    split
    · exact ⟨h1.1, by simp only; omega⟩
    · split
      · exact ⟨h2.1.trans h1.1, by simp only; omega⟩
      · have h3 := ih (i + 1) (got ++ [decide (s.cfg.dht.bitThreshUs < ‹Nat›)])
          (measurePhase true tmo 0 (measurePhase false tmo s.cfg.dht.minBitLowUs s).2).2
        exact ⟨h3.1.trans (h2.1.trans h1.1), by omega⟩

/-- How the payload can end (R176, R177). -/
theorem readPayload_result (tmo left i : Nat) (got : List Level) (s : State) :
    (∃ bs, (readPayload tmo left i got s).1 = .bits bs ∧ bs.length = got.length + left) ∨
    (∃ step k, (readPayload tmo left i got s).1 = .failed step k ∧ (step = .bitLow ∨ step = .bitHigh) ∧
      k < i + left) := by
  induction left generalizing i got s with
  | zero => exact .inl ⟨got, rfl, rfl⟩
  | succ left ih =>
    unfold readPayload
    simp only
    split
    · exact .inr ⟨_, i, rfl, .inl rfl, by omega⟩
    · split
      · exact .inr ⟨_, i, rfl, .inr rfl, by omega⟩
      · rcases ih (i + 1) (got ++ [decide (s.cfg.dht.bitThreshUs < ‹Nat›)])
          (measurePhase true tmo 0 (measurePhase false tmo s.cfg.dht.minBitLowUs s).2).2 with
          ⟨bs, h1, h2⟩ | ⟨st, k, h1, h2, h3⟩
        · exact .inl ⟨bs, h1, by rw [h2]; simp; omega⟩
        · exact .inr ⟨st, k, h1, h2, by omega⟩

/-- A bit whose phases are long enough and within the timeout (R177). -/
def GoodBit (c : DhtConfig) (tmo : Nat) (b : Nat × Nat) : Prop :=
  1 ≤ b.1 ∧ c.minBitLowUs ≤ b.1 ∧ b.1 ≤ tmo ∧ 1 ≤ b.2 ∧ b.2 ≤ tmo

/-- One good bit (R104, R177). -/
theorem readPayload_bit {s : State} {tmo left i : Nat} {got : List Level} {b : Nat × Nat} {e : Nat} {ds : List Nat}
    {later : List (Nat × Level)} (h : Sees s false (b.1 :: b.2 :: e :: ds) later) (hb : GoodBit s.cfg.dht tmo b)
    (he : 1 ≤ e) :
    ∃ s', readPayload tmo (left + 1) i got s =
        readPayload tmo left (i + 1) (got ++ [decide (s.cfg.dht.bitThreshUs < b.2)]) s' ∧
      Sees s' false (e :: ds) later ∧ OnWires s s' ∧ s'.t = s.t + b.1 + b.2 ∧ s'.pins = s.pins ∧
      s'.trace = s.trace ++ [.dlPhase false (.held b.1), .dlPhase true (.held b.2)] := by
  obtain ⟨h1, h2, h3, h4, h5⟩ := hb
  have hl := h.held (tmo := tmo) (minDur := s.cfg.dht.minBitLowUs) h1 h3 h4
  rw [if_neg (by omega)] at hl
  obtain ⟨l1, l2, l3⟩ := hl
  have hh := l3.held (tmo := tmo) (minDur := 0) h4 h5 he
  rw [if_neg (by omega)] at hh
  obtain ⟨g1, g2, g3⟩ := hh
  have f1 := measurePhase_frame false tmo s.cfg.dht.minBitLowUs s
  have f2 := measurePhase_frame true tmo 0 (measurePhase false tmo s.cfg.dht.minBitLowUs s).2
  refine ⟨(measurePhase true tmo 0 (measurePhase false tmo s.cfg.dht.minBitLowUs s).2).2, ?_, g3,
    (measurePhase_onWires _ _ _ _).trans (measurePhase_onWires _ _ _ _), ?_, f2.1.trans f1.1, ?_⟩
  · rw [readPayload]
    simp only [l1, PhaseOutcome.heldDur?]
    simp only [Bool.not_false] at g1
    simp only [g1]
  · simp only [Bool.not_false] at g2
    rw [g2, l2]
  · simp only [Bool.not_false] at g1
    rw [f2.2.2.1, f1.2.2.1, l1, g1]
    simp

/-- Good bits in a row: each adds its level, its two events and its two durations (R104, R177). -/
theorem readPayload_good {tmo left e : Nat} {ds : List Nat} {later : List (Nat × Level)} (bits : List (Nat × Nat))
    (i : Nat) (got : List Level) (s : State) (h : Sees s false (bitPhases bits ++ e :: ds) later)
    (hb : ∀ b ∈ bits, GoodBit s.cfg.dht tmo b) (he : 1 ≤ e) :
    ∃ s', readPayload tmo (bits.length + left) i got s =
        readPayload tmo left (i + bits.length)
          (got ++ bits.map fun b => decide (s.cfg.dht.bitThreshUs < b.2)) s' ∧
      Sees s' false (e :: ds) later ∧ OnWires s s' ∧ s'.t = s.t + (bitPhases bits).sum ∧ s'.pins = s.pins ∧
      s'.trace = s.trace ++
        bits.flatMap fun b => [.dlPhase false (.held b.1), .dlPhase true (.held b.2)] := by
  induction bits generalizing i got s with
  | nil => exact ⟨s, by simp, h, OnWires.refl s, by simp [bitPhases], rfl, by simp⟩
  | cons b rest ih =>
    have hsplit : bitPhases (b :: rest) = b.1 :: b.2 :: bitPhases rest := rfl
    rw [hsplit] at h
    obtain ⟨e', ds', hd, he'⟩ : ∃ e' ds', bitPhases rest ++ e :: ds = e' :: ds' ∧ 1 ≤ e' := by
      cases rest with
      | nil => exact ⟨e, ds, rfl, he⟩
      | cons c cs => exact ⟨c.1, c.2 :: (bitPhases cs ++ e :: ds), rfl, (hb c (by simp)).1⟩
    rw [List.cons_append, List.cons_append, hd] at h
    obtain ⟨s1, e1, e2, e3, e4, e5, e6⟩ := readPayload_bit (left := rest.length + left) (i := i) (got := got) h
      (hb b (by simp)) he'
    have hcfg := e3.cfg_eq
    rw [← hd] at e2
    obtain ⟨s2, f1, f2, f3, f4, f5, f6⟩ := ih (i + 1) (got ++ [decide (s.cfg.dht.bitThreshUs < b.2)]) s1 e2
      (fun c hc => by rw [hcfg]; exact hb c (by simp [hc]))
    refine ⟨s2, ?_, f2, e3.trans f3, ?_, f5.trans e5, ?_⟩
    · rw [List.length_cons, show rest.length + 1 + left = rest.length + left + 1 by omega, e1, f1, hcfg,
        show i + 1 + rest.length = i + (rest.length + 1) by omega]
      simp
    · rw [f4, e4, hsplit]
      simp
      omega
    · rw [f6, e6]
      simp

/-! ## The operation's parts -/

theorem lineHealth_onWires (s : State) : OnWires s (lineHealth s).2 := by
  unfold lineHealth
  exact ((State.emit_onWires _ _).trans (State.delayUs_onWires _ _)).trans (State.sampleDl_onWires _)

/-- The line-health check (R172). -/
theorem lineHealth_spec (s : State) :
    (lineHealth s).1 = waveLevel s.env.wave (s.t + s.cfg.dht.healthUs) ∧
    (lineHealth s).2.t = s.t + s.cfg.dht.healthUs ∧ (lineHealth s).2.env.wave = s.env.wave ∧
    (lineHealth s).2.pins = { s.pins with dline := .inputPullup } ∧
    (lineHealth s).2.trace =
      s.trace ++ [.dlInput, .delay s.cfg.dht.healthUs .us, .sampleDl (lineHealth s).1] := by
  refine ⟨?_, ?_, ?_, ?_, ?_⟩
  · rfl
  · rfl
  · rfl
  · rfl
  · simp [lineHealth, State.sampleDl, State.delayUs]

theorem startSignal_onWires (s : State) : OnWires s (startSignal s) := by
  unfold startSignal
  exact (((State.emit_onWires _ _).trans (State.delayUs_onWires _ _)).trans (State.emit_onWires _ _)).trans
    (State.delayUs_onWires _ _)

/-- The start signal (R173). -/
theorem startSignal_spec (s : State) :
    (startSignal s).t = s.t + s.cfg.dht.startLowUs + s.cfg.dht.releaseUs ∧
    (startSignal s).env.wave = s.env.wave ∧ (startSignal s).pins = { s.pins with dline := .inputPullup } ∧
    (startSignal s).trace = s.trace ++
      [.dlLow, .delay s.cfg.dht.startLowUs .us, .dlInput, .delay s.cfg.dht.releaseUs .us] := by
  refine ⟨?_, ?_, ?_, ?_⟩
  · rfl
  · rfl
  · rfl
  · simp [startSignal, State.delayUs]

/-- Where the measurement of a frame begins (R172, R173, R178). -/
def State.measuring (s : State) : State := startSignal (lineHealth s).2

theorem State.measuring_spec (s : State) :
    s.measuring.t = s.t + s.lead ∧ s.measuring.env.wave = s.env.wave ∧ s.measuring.cfg = s.cfg ∧
    s.measuring.pins = { s.pins with dline := .inputPullup } ∧
    s.measuring.trace = s.trace ++
      [.dlInput, .delay s.cfg.dht.healthUs .us, .sampleDl (lineHealth s).1, .dlLow,
        .delay s.cfg.dht.startLowUs .us, .dlInput, .delay s.cfg.dht.releaseUs .us] ∧
    OnWires s s.measuring := by
  have h1 := lineHealth_spec s
  have h2 := startSignal_spec (lineHealth s).2
  have hc := (lineHealth_onWires s).cfg_eq
  have hon := (lineHealth_onWires s).trans (startSignal_onWires (lineHealth s).2)
  rw [hc] at h2
  refine ⟨?_, h2.2.1.trans h1.2.2.1, hon.cfg_eq, ?_, ?_, hon⟩
  · show (startSignal (lineHealth s).2).t = _
    rw [h2.1, h1.2.1]
    simp only [State.lead]
    omega
  · show (startSignal (lineHealth s).2).pins = _
    rw [h2.2.2.1, h1.2.2.2.1]
  · show (startSignal (lineHealth s).2).trace = _
    rw [h2.2.2.2, h1.2.2.2.2]
    simp

/-- The rate limiter's test is the difference of R171. -/
theorem State.rateLimited_eq (s : State) : s.rateLimited = s.tooSoon := by
  unfold State.rateLimited State.tooSoon State.nowMs
  congr 2
  rw [decide_eq_decide]
  omega

theorem Sees.measuring {s : State} {ds : List Nat} {later : List (Nat × Level)}
    (hw : s.env.wave = phaseWave (s.t + s.lead) true ds ++ later) : Sees s.measuring true ds later := by
  have h := s.measuring_spec
  refine ⟨by rw [h.2.2.2.1], fun u hu => ?_⟩
  rw [h.2.1, hw, h.1]

theorem lineHealth_high {s : State} {w : Nat} {ds : List Nat} {later : List (Nat × Level)}
    (hw : s.env.wave = phaseWave (s.t + s.lead) true (w :: ds) ++ later) (h : s.cfg.dht.healthUs < s.lead + w) :
    (lineHealth s).1 = true := by
  rw [(lineHealth_spec s).1, hw, waveLevel_phaseWave, if_pos (by omega)]

/-- A line that is healthy and answers the start signal as R175 asks: what is left is the payload (R178). -/
theorem dhtReadFrameOp_response {s : State} {tmo w rl rh e : Nat} {ds : List Nat} {later : List (Nat × Level)}
    (hw : s.env.wave = phaseWave (s.t + s.lead) true (w :: rl :: rh :: e :: ds) ++ later)
    (h0 : s.cfg.dht.healthUs < s.lead + w) (hr : s.rateLimited = false) (h1 : w < tmo) (h2 : 1 ≤ rl)
    (h3 : s.cfg.dht.minRespUs ≤ rl) (h4 : rl ≤ tmo) (h5 : 1 ≤ rh) (h6 : s.cfg.dht.minRespUs ≤ rh)
    (h7 : rh ≤ tmo) (he : 1 ≤ e) :
    ∃ s', dhtReadFrameOp tmo s =
        (match (readPayload tmo 40 0 [] s').1 with
          | .failed step i =>
            (response .protocolTimeout step.code (BitVec.ofNat 8 i) 0, (readPayload tmo 40 0 [] s').2)
          | .bits bits => finishFrame bits (readPayload tmo 40 0 [] s').2) ∧
      Sees s' false (e :: ds) later ∧ OnWires s s' ∧ s'.t = s.t + s.lead + w + rl + rh ∧
      s'.pins = { s.pins with dline := .inputPullup } ∧
      s'.trace = s.trace ++
        [.dlInput, .delay s.cfg.dht.healthUs .us, .sampleDl true, .dlLow, .delay s.cfg.dht.startLowUs .us, .dlInput,
          .delay s.cfg.dht.releaseUs .us, .dlPhase false (.held rl), .dlPhase true (.held rh)] := by
  have hm := s.measuring_spec
  have hh := lineHealth_high hw h0
  have hl := (Sees.measuring hw).awaited (b := false) (tmo := tmo) (minDur := s.cfg.dht.minRespUs) h1 h2 h4 h5
  rw [if_neg (by omega)] at hl
  obtain ⟨l1, l2, l3⟩ := hl
  have hg := l3.held (b := true) (tmo := tmo) (minDur := s.cfg.dht.minRespUs) h5 h7 he
  rw [if_neg (by omega)] at hg
  obtain ⟨g1, g2, g3⟩ := hg
  have f1 := measurePhase_frame false tmo s.cfg.dht.minRespUs s.measuring
  have f2 := measurePhase_frame true tmo s.cfg.dht.minRespUs
    (measurePhase false tmo s.cfg.dht.minRespUs s.measuring).2
  refine ⟨_, ?_, g3, hm.2.2.2.2.2.trans ((measurePhase_onWires _ _ _ _).trans (measurePhase_onWires _ _ _ _)),
    ?_, ?_, ?_⟩
  · simp only [dhtReadFrameOp, hr, hh]
    simp only [State.measuring] at l1 g1
    simp only [Bool.false_eq_true, if_false, Bool.not_true, l1, PhaseOutcome.heldDur?, g1]
    rfl
  · rw [g2, l2, hm.1]
  · rw [f2.1, f1.1, hm.2.2.2.1]
  · rw [f2.2.2.1, f1.2.2.1, hm.2.2.2.2.1, l1, g1, hh]
    simp

/-- The five bytes of a frame of forty bits (R64, R103). -/
theorem frameByte_spec (hum humF tmp tmpF chk : Byte) :
    let bits := [hum, humF, tmp, tmpF, chk].flatMap msbFirst
    frameByte bits 0 = hum ∧ frameByte bits 1 = humF ∧ frameByte bits 2 = tmp ∧ frameByte bits 3 = tmpF ∧
      frameByte bits 4 = chk := by
  have key : ∀ v : Byte, bitsToByte (msbFirst v) = v := by decide
  exact ⟨key hum, key humF, key tmp, key tmpF, key chk⟩

end Sys2Proof.Machine
end

