-- ==== Sys2Proof/Laws/Memory.lean ====
section
/-! SUPPORT. The laws of the byte buffers: a read after a write, and every write keeps the canonical form. -/

namespace Sys2Proof.Machine

theorem Memory.wfFrom_mono {lo lo' : Nat} (h : lo' ≤ lo) {m : Memory} (hm : m.wfFrom lo = true) :
    m.wfFrom lo' = true := by
  cases m with
  | nil => rfl
  | cons c rest =>
    obtain ⟨k, v⟩ := c
    simp only [Memory.wfFrom, Bool.and_eq_true, decide_eq_true_eq] at hm ⊢
    exact ⟨⟨by omega, hm.1.2⟩, hm.2⟩

/-- Below the first listed index everything is unlisted. -/
theorem Memory.read_below {m : Memory} {lo i : Nat} (hm : m.wfFrom lo = true) (h : i < lo) :
    m.read i = Memory.unlisted := by
  induction m generalizing lo with
  | nil => rfl
  | cons c rest ih =>
    obtain ⟨k, v⟩ := c
    simp only [Memory.wfFrom, Bool.and_eq_true, decide_eq_true_eq] at hm
    have hk : k ≠ i := by omega
    simp only [Memory.read, hk, if_false]
    exact ih hm.2 (by omega)

theorem Memory.write_wfFrom {m : Memory} {lo i : Nat} (v : Byte) (hm : m.wfFrom lo = true) (h : lo ≤ i) :
    (m.write i v).wfFrom lo = true := by
  induction m generalizing lo with
  | nil =>
    simp only [Memory.write]
    split
    · rfl
    · rename_i hv
      simp [Memory.wfFrom, h, hv]
  | cons c rest ih =>
    obtain ⟨k, w⟩ := c
    have hm' := hm
    simp only [Memory.wfFrom, Bool.and_eq_true, decide_eq_true_eq] at hm'
    simp only [Memory.write]
    split
    · split
      · exact hm
      · rename_i hik hv
        have : Memory.wfFrom (k + 1) rest = true := hm'.2
        simp only [Memory.wfFrom, Bool.and_eq_true, decide_eq_true_eq]
        exact ⟨⟨h, hv⟩, ⟨by omega, hm'.1.2⟩, this⟩
    · split
      · split
        · exact Memory.wfFrom_mono (by omega) hm'.2
        · rename_i hv
          subst_vars
          simp only [Memory.wfFrom, Bool.and_eq_true, decide_eq_true_eq]
          exact ⟨⟨h, hv⟩, hm'.2⟩
      · simp only [Memory.wfFrom, Bool.and_eq_true, decide_eq_true_eq]
        exact ⟨⟨hm'.1.1, hm'.1.2⟩, ih hm'.2 (by omega)⟩

/-- Every write keeps the canonical form. -/
theorem Memory.write_wf {m : Memory} (i : Nat) (v : Byte) (hm : m.wf = true) : (m.write i v).wf = true :=
  Memory.write_wfFrom v hm (Nat.zero_le i)

/-- A write below the capacity keeps every index below it. -/
theorem Memory.write_below {m : Memory} {cap i : Nat} (v : Byte) (hm : m.below cap = true) (h : i < cap) :
    (m.write i v).below cap = true := by
  induction m with
  | nil =>
    simp only [Memory.write]
    split <;> simp [Memory.below, h]
  | cons c rest ih =>
    obtain ⟨k, w⟩ := c
    have hc : k < cap ∧ Memory.below cap rest = true := by
      simpa only [Memory.below, List.all_cons, Bool.and_eq_true, decide_eq_true_eq] using hm
    have hcons : ∀ (a : Nat) (x : Byte) (l : Memory), a < cap → Memory.below cap l = true →
        Memory.below cap ((a, x) :: l) = true := by
      intro a x l ha hl
      simp only [Memory.below, List.all_cons, Bool.and_eq_true, decide_eq_true_eq]
      exact ⟨ha, hl⟩
    simp only [Memory.write]
    split
    · split
      · exact hm
      · exact hcons _ _ _ h hm
    · split
      · split
        · exact hc.2
        · exact hcons _ _ _ h hc.2
      · exact hcons _ _ _ hc.1 (ih hc.2)

/-- Read after write. -/
theorem Memory.read_write {m : Memory} (i j : Nat) (v : Byte) (hm : m.wf = true) :
    (m.write i v).read j = if j = i then v else m.read j := by
  have key : ∀ (m : Memory) (lo : Nat), m.wfFrom lo = true →
      (m.write i v).read j = if j = i then v else m.read j := by
    intro m
    induction m with
    | nil =>
      intro lo _
      simp only [Memory.write]
      split
      · rename_i hv
        split <;> simp_all [Memory.read]
      · by_cases hji : j = i
        · simp [Memory.read, hji]
        · simp [Memory.read, hji, Ne.symm hji]
    | cons c rest ih =>
      intro lo hm
      obtain ⟨k, w⟩ := c
      have hm' := hm
      simp only [Memory.wfFrom, Bool.and_eq_true, decide_eq_true_eq] at hm'
      simp only [Memory.write]
      split
      · rename_i hik
        split
        · rename_i hv
          by_cases hji : j = i
          · subst hji
            rw [if_pos rfl, hv]
            have hall : Memory.wfFrom k ((k, w) :: rest) = true := by
              simp only [Memory.wfFrom, Bool.and_eq_true, decide_eq_true_eq]
              exact ⟨⟨le_refl k, hm'.1.2⟩, hm'.2⟩
            exact Memory.read_below hall hik
          · simp [hji]
        · by_cases hji : j = i
          · simp [Memory.read, hji]
          · simp [Memory.read, hji, Ne.symm hji]
      · split
        · rename_i hki
          split
          · rename_i hv
            by_cases hji : j = i
            · subst hji
              rw [if_pos rfl, hv]
              exact Memory.read_below hm'.2 (by omega)
            · have : k ≠ j := by omega
              simp [Memory.read, hji, this]
          · by_cases hji : j = i
            · simp [Memory.read, hji]
            · have : k ≠ j := by omega
              simp [Memory.read, hji, this, Ne.symm hji]
        · rename_i hki
          by_cases hkj : k = j
          · have : j ≠ i := by omega
            simp [Memory.read, hkj, this]
          · simp only [Memory.read, hkj, if_false]
            exact ih (k + 1) hm'.2
  exact key m 0 hm

@[simp] theorem Memory.read_write_same {m : Memory} (i : Nat) (v : Byte) (hm : m.wf = true) :
    (m.write i v).read i = v := by
  simp [Memory.read_write i i v hm]

theorem Memory.read_write_other {m : Memory} {i j : Nat} (v : Byte) (hm : m.wf = true) (h : j ≠ i) :
    (m.write i v).read j = m.read j := by
  simp [Memory.read_write i j v hm, h]

/-- Memories of equal readings are equal data. -/
theorem Memory.eq_of_read {m m' : Memory} (hm : m.wf = true) (hm' : m'.wf = true)
    (h : ∀ i, m.read i = m'.read i) : m = m' := by
  have key : ∀ (m m' : Memory) (lo : Nat), m.wfFrom lo = true → m'.wfFrom lo = true →
      (∀ i, m.read i = m'.read i) → m = m' := by
    intro m
    induction m with
    | nil =>
      intro m' lo _ hm' h
      cases m' with
      | nil => rfl
      | cons c rest =>
        obtain ⟨k, v⟩ := c
        simp only [Memory.wfFrom, Bool.and_eq_true, decide_eq_true_eq] at hm'
        have := h k
        simp only [Memory.read, if_true] at this
        exact absurd this.symm hm'.1.2
    | cons c rest ih =>
      intro m' lo hm hm' h
      obtain ⟨k, v⟩ := c
      have hw := hm
      simp only [Memory.wfFrom, Bool.and_eq_true, decide_eq_true_eq] at hw
      cases m' with
      | nil =>
        have := h k
        simp only [Memory.read, if_true] at this
        exact absurd this hw.1.2
      | cons c' rest' =>
        obtain ⟨k', v'⟩ := c'
        have hw' := hm'
        simp only [Memory.wfFrom, Bool.and_eq_true, decide_eq_true_eq] at hw'
        have hkk : k = k' := by
          rcases Nat.lt_trichotomy k k' with hlt | heq | hgt
          · have h1 := h k
            have hall : Memory.wfFrom k' ((k', v') :: rest') = true := by
              simp only [Memory.wfFrom, Bool.and_eq_true, decide_eq_true_eq]
              exact ⟨⟨le_refl k', hw'.1.2⟩, hw'.2⟩
            rw [Memory.read_below hall hlt] at h1
            simp only [Memory.read, if_true] at h1
            exact absurd h1 hw.1.2
          · exact heq
          · have h1 := h k'
            have hall : Memory.wfFrom k ((k, v) :: rest) = true := by
              simp only [Memory.wfFrom, Bool.and_eq_true, decide_eq_true_eq]
              exact ⟨⟨le_refl k, hw.1.2⟩, hw.2⟩
            rw [Memory.read_below hall hgt] at h1
            simp only [Memory.read, if_true] at h1
            exact absurd h1.symm hw'.1.2
        subst hkk
        have hv := h k
        simp only [Memory.read, if_true] at hv
        subst hv
        have hrest : rest = rest' := by
          refine ih rest' (k + 1) hw.2 hw'.2 ?_
          intro i
          by_cases hki : k = i
          · subst hki
            rw [Memory.read_below hw.2 (by omega), Memory.read_below hw'.2 (by omega)]
          · have := h i
            simpa [Memory.read, hki] using this
        rw [hrest]
  exact key m m' 0 hm hm' h

/-- Store bytes from index `k` on. -/
def Memory.writeAll (m : Memory) (k : Nat) : Bytes → Memory
  | [] => m
  | v :: vs => Memory.writeAll (m.write k v) (k + 1) vs

theorem Memory.writeAll_wf {m : Memory} (k : Nat) (bs : Bytes) (h : m.wf = true) : (m.writeAll k bs).wf = true := by
  induction bs generalizing m k with
  | nil => exact h
  | cons v vs ih => exact ih _ (Memory.write_wf k v h)

theorem Memory.read_writeAll {m : Memory} (k i : Nat) (bs : Bytes) (h : m.wf = true) :
    (m.writeAll k bs).read i = if k ≤ i ∧ i < k + bs.length then bs.getD (i - k) 0 else m.read i := by
  induction bs generalizing m k with
  | nil =>
    have : ¬ (k ≤ i ∧ i < k + 0) := by omega
    simp [Memory.writeAll]
  | cons v vs ih =>
    simp only [Memory.writeAll]
    rw [ih (k + 1) (Memory.write_wf k v h), Memory.read_write k i v h]
    simp only [List.length_cons]
    by_cases hik : i = k
    · subst hik
      have h1 : ¬ (i + 1 ≤ i ∧ i < i + 1 + vs.length) := by omega
      have h2 : i ≤ i ∧ i < i + (vs.length + 1) := by omega
      simp
    · by_cases h1 : k + 1 ≤ i ∧ i < k + 1 + vs.length
      · have h2 : k ≤ i ∧ i < k + (vs.length + 1) := by omega
        rw [if_pos h1, if_pos h2]
        obtain ⟨j, hj⟩ : ∃ j, i - k = j + 1 := ⟨i - k - 1, by omega⟩
        have hj' : i - (k + 1) = j := by omega
        rw [hj, hj', List.getD_cons_succ]
      · have h2 : ¬ (k ≤ i ∧ i < k + (vs.length + 1)) := by omega
        rw [if_neg h1, if_neg h2, if_neg hik]

/-- The first bytes after storing a string at index 0 are the string. -/
theorem Memory.prefixBytes_writeAll {m : Memory} (bs : Bytes) (h : m.wf = true) :
    (m.writeAll 0 bs).prefixBytes bs.length = bs := by
  apply List.ext_getElem
  · simp [Memory.prefixBytes]
  · intro i h1 h2
    have h3 : i < bs.length := h2
    simp [Memory.prefixBytes, Memory.read_writeAll 0 i bs h, h3]

theorem Memory.writeAll_below {m : Memory} {cap : Nat} (k : Nat) (bs : Bytes) (h : m.below cap = true)
    (hk : k + bs.length ≤ cap) : (m.writeAll k bs).below cap = true := by
  induction bs generalizing m k with
  | nil => exact h
  | cons v vs ih =>
    simp only [List.length_cons] at hk
    exact ih _ (Memory.write_below v h (by omega)) (by omega)

theorem Memory.prefixBytes_length (m : Memory) (n : Nat) : (m.prefixBytes n).length = n := by
  simp [Memory.prefixBytes]

theorem Memory.prefixBytes_get (m : Memory) (n k : Nat) (h : k < n) :
    (m.prefixBytes n)[k]? = some (m.read k) := by
  simp [Memory.prefixBytes, h]

end Sys2Proof.Machine
end

