-- ==== Sys2Proof/Laws/Exec.lean ====
section
/-! SUPPORT. `exec` of each command: the body it runs when the command is accepted, the refusal otherwise. -/

namespace Sys2Proof.Machine

/-- The body of an instruction (R141 to R144, R178, R205, R210, R216, R220, R253, R270, R275, R280). -/
def Instr.body (i : Instr) (s : State) : Rsp × State :=
  match i with
  | .i2cWrite addr7 n => i2cWriteOp addr7 n s
  | .i2cRead addr7 n => i2cReadOp addr7 n s
  | .i2cProbe addr7 => i2cProbeOp addr7 s
  | .i2cBusIdle => i2cBusIdleOp s
  | .dhtReadFrame tmo => dhtReadFrameOp tmo.toNat s
  | .uartReadLine maxLen timeout => uartReadLineOp maxLen.toNat timeout.toNat s
  | .uartSendCommand timeout => uartSendCommandOp timeout.toNat s
  | .uartInitSession port => uartInitSessionOp port.toNat s
  | .uartSendLine => uartSendLineOp s
  | .btnPoll => btnPollOp s
  | .dutyAuto tempC => dutyAutoOp (sext16 tempC) s
  | .alarmUpdate humidity tempC => alarmUpdateOp (zext8 humidity) (sext16 tempC) s
  | .motorUpdate rv ev tempC => motorUpdateOp rv ev (sext16 tempC) s

/-- Every command is `runOp` of its body. -/
theorem exec_eq_runOp (i : Instr) (s : State) : exec i s = runOp (i.wf s.cfg) (Instr.body i) s := by
  cases i <;> rfl

/-- A command that is accepted runs its body to the response. -/
theorem exec_accepted {i : Instr} {s : State} (hb : s.busy = false) (hw : i.wf s.cfg = true) :
    exec i s = .next ((Instr.body i s.accept).2.respond (Instr.body i s.accept).1) := by
  rw [exec_eq_runOp, hw, runOp_accepted _ _ hb]

/-- A command that is refused changes RSP only (R110). -/
theorem exec_refused {i : Instr} {s : State} (h : s.busy = true ∨ i.wf s.cfg = false) :
    exec i s = .next s.refuse := by
  rw [exec_eq_runOp, runOp_refused _ _ _ h]

/-- Everything `exec` can do. -/
theorem exec_cases (i : Instr) (s : State) :
    ((s.busy = true ∨ i.wf s.cfg = false) ∧ exec i s = .next s.refuse) ∨
    (s.busy = false ∧ i.wf s.cfg = true ∧
      exec i s = .next ((Instr.body i s.accept).2.respond (Instr.body i s.accept).1)) := by
  rw [exec_eq_runOp]
  exact runOp_cases _ _ _

theorem State.accept_eq_pump (s : State) : s.accept = { s.pump with busy := true } := rfl

/-- Accepting a command and answering it, in a state that is not busy, moves what is due and RSP. -/
theorem State.accept_respond {s : State} (hb : s.busy = false) (r : Rsp) :
    s.accept.respond r = { s.pump with rsp := r } := by
  have h : s.pump.busy = false := hb
  simp only [State.respond, State.accept_eq_pump]
  rw [← h]

theorem toNat_pos_of_ne {n : Nat} {v : BitVec n} (h : v ≠ 0) : 0 < v.toNat := by
  rcases Nat.eq_zero_or_pos v.toNat with h' | h'
  · exact absurd (BitVec.eq_of_toNat_eq (by simpa using h')) h
  · exact h'

/-- `sext_16` is the two's-complement value (R13). -/
theorem sext16_eq_toInt (v : Half) : sext16 v = v.toInt := by
  unfold sext16
  rw [BitVec.toInt_eq_toNat_cond]
  split <;> split <;> omega

/-- What HOST reads of a line that LINELEN covers. -/
theorem State.hostReadLinebuf_of_prefix {t : State} {bs : Bytes} (h1 : t.linelen.toNat = bs.length)
    (h2 : t.linebuf.prefixBytes bs.length = bs) (k : Nat) (hk : k < bs.length) : t.hostReadLinebuf k = bs[k] := by
  unfold State.hostReadLinebuf
  rw [if_pos (by omega)]
  have := Memory.prefixBytes_get t.linebuf bs.length k hk
  rw [h2, List.getElem?_eq_getElem hk] at this
  simpa using this.symm

end Sys2Proof.Machine
end

