-- ==== Sys2Proof/Laws/I2c.lean ====
section
/-! SUPPORT. The laws of the I2C micro-operations: what each puts on the bus (`Wire`), the time it takes, the drive
registers it leaves, the answers it consumes and what it returns. -/

namespace Sys2Proof.Machine

/-! ## What a chain of events puts on the bus -/

theorem wireSymbols_append (p : Pins) (a b : List Event) :
    wireSymbols p (a ++ b) = wireSymbols p a ++ wireSymbols (a.foldl pinsAfter p) b := by
  induction a generalizing p with
  | nil => rfl
  | cons e rest ih => simp [wireSymbols, ih]

/-- `s'` is `s` after events that put `syms` on the bus and take `dt` microseconds. -/
structure Wire (s s' : State) (syms : List WireSymbol) (dt : Nat) : Prop where
  on : OnWires s s'
  events : ∃ evs, s'.trace = s.trace ++ evs ∧ wireSymbols s.pins evs = syms ∧ s'.pins = evs.foldl pinsAfter s.pins
  time : s'.t = s.t + dt

theorem Wire.refl (s : State) : Wire s s [] 0 := ⟨OnWires.refl s, ⟨[], by simp, rfl, rfl⟩, rfl⟩

theorem Wire.trans {s s' s'' : State} {x y : List WireSymbol} {d d' : Nat}
    (h : Wire s s' x d) (h' : Wire s' s'' y d') : Wire s s'' (x ++ y) (d + d') := by
  obtain ⟨evs, ht, hs, hp⟩ := h.events
  obtain ⟨evs', ht', hs', hp'⟩ := h'.events
  refine ⟨h.on.trans h'.on, ⟨evs ++ evs', ?_, ?_, ?_⟩, ?_⟩
  · rw [ht', ht, List.append_assoc]
  · rw [wireSymbols_append, hs, ← hp, hs']
  · rw [hp', hp, List.foldl_append]
  · rw [h'.time, h.time]; omega

theorem Wire.cast {s s' : State} {x y : List WireSymbol} {d d' : Nat} (h : Wire s s' x d)
    (hx : x = y) (hd : d = d') : Wire s s' y d' := hx ▸ hd ▸ h

theorem State.emit_pins (s : State) (e : Event) : (s.emit e).pins = pinsAfter s.pins e := by
  cases e <;> rfl

/-- The time an event takes. -/
def eventTime : Event → Nat
  | .delay n u => u.toUs n
  | .sdaRel => 0
  | .sdaLow => 0
  | .sclHigh => 0
  | .sclLow => 0
  | .sampleSda _ => 0
  | .sampleScl _ => 0
  | .dlInput => 0
  | .dlLow => 0
  | .sampleDl _ => 0
  | .dlPhase _ _ => 0
  | .tx _ => 0
  | .sampleBtn _ => 0

theorem State.emit_t (s : State) (e : Event) : (s.emit e).t = s.t + eventTime e := by
  cases e <;> rfl

theorem State.emit_wire (s : State) (e : Event) : Wire s (s.emit e) (wireSymbol s.pins e) (eventTime e) :=
  ⟨State.emit_onWires s e, ⟨[e], by simp, by simp [wireSymbols], by simp [State.emit_pins]⟩, State.emit_t s e⟩

theorem State.delayUs_wire (s : State) (n : Nat) : Wire s (s.delayUs n) [] n := State.emit_wire s _

@[simp] theorem State.delayUs_pins (s : State) (n : Nat) : (s.delayUs n).pins = s.pins := State.emit_pins s _

@[simp] theorem State.delayUs_cfg (s : State) (n : Nat) : (s.delayUs n).cfg = s.cfg := State.emit_cfg s _

@[simp] theorem State.emit_lineAnswers (s : State) (e : Event) :
    (s.emit e).env.lineAnswers = s.env.lineAnswers := by
  cases e <;> rfl

@[simp] theorem State.emit_draws (s : State) (e : Event) : (s.emit e).env.draws = s.env.draws := by
  cases e <;> rfl

@[simp] theorem State.delayUs_lineAnswers (s : State) (n : Nat) :
    (s.delayUs n).env.lineAnswers = s.env.lineAnswers := State.emit_lineAnswers s _

@[simp] theorem State.delayUs_draws (s : State) (n : Nat) : (s.delayUs n).env.draws = s.env.draws :=
  State.emit_draws s _

theorem State.drawLine_wire (s : State) : Wire s s.drawLine.2 [] 0 := by
  refine ⟨State.drawLine_onWires s, ⟨[], ?_, rfl, ?_⟩, ?_⟩ <;>
    (unfold State.drawLine; cases s.env.lineAnswers <;> simp)

@[simp] theorem State.drawLine_pins (s : State) : s.drawLine.2.pins = s.pins := by
  unfold State.drawLine; cases s.env.lineAnswers <;> rfl

@[simp] theorem State.drawLine_cfg (s : State) : s.drawLine.2.cfg = s.cfg := by
  unfold State.drawLine; cases s.env.lineAnswers <;> rfl

theorem State.drawLine_cons {s : State} {b : Level} {rest : List Level} (h : s.env.lineAnswers = b :: rest) :
    s.drawLine.1 = b ∧ s.drawLine.2.env.lineAnswers = rest := by
  unfold State.drawLine; rw [h]; exact ⟨rfl, rfl⟩

/-! ## Samples -/

theorem State.sampleSda_wire (s : State) : Wire s s.sampleSda.2 [] 0 := by
  unfold State.sampleSda
  cases s.pins.sda with
  | driveLow => exact State.emit_wire s _
  | released => exact (State.drawLine_wire s).trans (State.emit_wire _ _)

@[simp] theorem State.sampleSda_pins (s : State) : s.sampleSda.2.pins = s.pins := by
  unfold State.sampleSda
  cases s.pins.sda <;> simp [State.emit_pins, pinsAfter]

@[simp] theorem State.sampleSda_cfg (s : State) : s.sampleSda.2.cfg = s.cfg := (State.sampleSda_onWires s).cfg_eq

theorem State.sampleSda_low {s : State} (h : s.pins.sda = .driveLow) :
    s.sampleSda.1 = false ∧ s.sampleSda.2.env.lineAnswers = s.env.lineAnswers := by
  unfold State.sampleSda; rw [h]; exact ⟨rfl, by simp⟩

theorem State.sampleSda_released {s : State} {b : Level} {rest : List Level} (h : s.pins.sda = .released)
    (hl : s.env.lineAnswers = b :: rest) :
    s.sampleSda.1 = b ∧ s.sampleSda.2.env.lineAnswers = rest := by
  have hd := State.drawLine_cons hl
  unfold State.sampleSda; rw [h]; exact ⟨hd.1, by simpa using hd.2⟩

theorem State.sampleScl_wire (s : State) : Wire s s.sampleScl.2 [] 0 :=
  (State.drawLine_wire s).trans (State.emit_wire _ _)

@[simp] theorem State.sampleScl_pins (s : State) : s.sampleScl.2.pins = s.pins := by
  simp [State.sampleScl, State.emit_pins, pinsAfter]

theorem State.sampleScl_cons {s : State} {b : Level} {rest : List Level} (hl : s.env.lineAnswers = b :: rest) :
    s.sampleScl.1 = b ∧ s.sampleScl.2.env.lineAnswers = rest := by
  have hd := State.drawLine_cons hl
  exact ⟨hd.1, by simpa [State.sampleScl] using hd.2⟩

/-! ## The idle check and START -/

/-- The drive registers between operations: both I2C lines released (R26). -/
def Pins.idleFrom (p : Pins) : Pins := { p with sda := .released, scl := .high }

/-- The idle check leaves both lines released whatever it reads, and puts nothing on an idle bus (R132). -/
theorem idleCheck_wire (s : State) (hp : s.pins = s.pins.idleFrom) :
    Wire s (idleCheck s).2 [] s.cfg.i2c.settle := by
  have h1 := State.emit_wire s .sdaRel
  have h2 := State.emit_wire (s.emit .sdaRel) .sclHigh
  have h3 := State.delayUs_wire ((s.emit .sdaRel).emit .sclHigh) s.cfg.i2c.settle
  have h4 := State.sampleSda_wire (((s.emit .sdaRel).emit .sclHigh).delayUs s.cfg.i2c.settle)
  have h5 := State.sampleScl_wire (((s.emit .sdaRel).emit .sclHigh).delayUs s.cfg.i2c.settle).sampleSda.2
  have hsda : s.pins.sda = .released := by rw [hp]; rfl
  have hscl : s.pins.scl = .high := by rw [hp]; rfl
  refine ((((h1.trans h2).trans h3).trans h4).trans h5).cast ?_ ?_
  · simp [wireSymbol, State.emit_pins, pinsAfter, hsda, hscl]
  · simp [eventTime]

theorem idleCheck_onWires (s : State) : OnWires s (idleCheck s).2 := by
  unfold idleCheck
  exact (((State.emit_onWires _ _).trans (State.emit_onWires _ _)).trans (State.delayUs_onWires _ _)).trans
    ((State.sampleSda_onWires _).trans (State.sampleScl_onWires _))

theorem idleCheck_pins (s : State) : (idleCheck s).2.pins = s.pins.idleFrom := by
  simp [idleCheck, State.emit_pins, pinsAfter, Pins.idleFrom]

theorem idleCheck_answers {s : State} {d c : Level} {rest : List Level}
    (h : s.env.lineAnswers = d :: c :: rest) :
    (idleCheck s).1 = (d, c) ∧ (idleCheck s).2.env.lineAnswers = rest := by
  have h1 := State.sampleSda_released (s := ((s.emit .sdaRel).emit .sclHigh).delayUs s.cfg.i2c.settle)
    (b := d) (rest := c :: rest) (by simp [State.emit_pins, pinsAfter]) (by simpa using h)
  have h2 := State.sampleScl_cons h1.2
  refine ⟨?_, h2.2⟩
  simp only [idleCheck]
  rw [h1.1, h2.1]

theorem start_onWires (s : State) : OnWires s (start s).2 := by
  unfold start
  simp only
  split
  · exact (idleCheck_onWires s).trans ((((State.emit_onWires _ _).trans (State.delayUs_onWires _ _)).trans
      (State.emit_onWires _ _)).trans (State.delayUs_onWires _ _))
  · exact idleCheck_onWires s

/-- START on a bus that answers idle (R135). -/
theorem start_ok {s : State} {rest : List Level} (hp : s.pins = s.pins.idleFrom)
    (h : s.env.lineAnswers = true :: true :: rest) :
    (start s).1 = true ∧ (start s).2.env.lineAnswers = rest ∧
      (start s).2.pins = { s.pins with sda := .driveLow, scl := .low } ∧
      Wire s (start s).2 [.start] (s.cfg.i2c.settle + (s.cfg.i2c.sta + s.cfg.i2c.lo)) := by
  have ha := idleCheck_answers h
  have hs : start s = (true, ((((idleCheck s).2.emit .sdaLow).delayUs s.cfg.i2c.sta).emit .sclLow).delayUs
      s.cfg.i2c.lo) := by
    unfold start
    simp [ha.1]
  rw [hs]
  refine ⟨rfl, by simpa using ha.2, by simp [State.emit_pins, pinsAfter, idleCheck_pins, Pins.idleFrom], ?_⟩
  have h1 := idleCheck_wire s hp
  have h2 := State.emit_wire (idleCheck s).2 .sdaLow
  have h3 := State.delayUs_wire ((idleCheck s).2.emit .sdaLow) s.cfg.i2c.sta
  have h4 := State.emit_wire (((idleCheck s).2.emit .sdaLow).delayUs s.cfg.i2c.sta) .sclLow
  have h5 := State.delayUs_wire ((((idleCheck s).2.emit .sdaLow).delayUs s.cfg.i2c.sta).emit .sclLow) s.cfg.i2c.lo
  refine ((((h1.trans h2).trans h3).trans h4).trans h5).cast ?_ ?_
  · simp [wireSymbol, idleCheck_pins, Pins.idleFrom]
  · simp [eventTime]; omega

/-- START on a bus that is not idle: no event but the idle check's (R135). -/
theorem start_notIdle {s : State} {d c : Level} {rest : List Level}
    (h : s.env.lineAnswers = d :: c :: rest) (hdc : (d && c) = false) :
    start s = (false, (idleCheck s).2) := by
  have ha := idleCheck_answers h
  unfold start
  simp [ha.1, hdc]

/-- The two ways START can end. -/
theorem start_cases (s : State) :
    (start s = (false, (idleCheck s).2)) ∨
    (start s = (true, ((((idleCheck s).2.emit .sdaLow).delayUs s.cfg.i2c.sta).emit .sclLow).delayUs s.cfg.i2c.lo)) := by
  unfold start
  simp only
  split
  · exact .inr rfl
  · exact .inl rfl

theorem start_true_wire {s : State} (hp : s.pins = s.pins.idleFrom) (h : (start s).1 = true) :
    (start s).2.pins = { s.pins with sda := .driveLow, scl := .low } ∧
      Wire s (start s).2 [.start] (s.cfg.i2c.settle + (s.cfg.i2c.sta + s.cfg.i2c.lo)) := by
  rcases start_cases s with hs | hs
  · rw [hs] at h; simp at h
  · rw [hs]
    refine ⟨by simp [State.emit_pins, pinsAfter, idleCheck_pins, Pins.idleFrom], ?_⟩
    have h1 := idleCheck_wire s hp
    have h2 := State.emit_wire (idleCheck s).2 .sdaLow
    have h3 := State.delayUs_wire ((idleCheck s).2.emit .sdaLow) s.cfg.i2c.sta
    have h4 := State.emit_wire (((idleCheck s).2.emit .sdaLow).delayUs s.cfg.i2c.sta) .sclLow
    have h5 := State.delayUs_wire ((((idleCheck s).2.emit .sdaLow).delayUs s.cfg.i2c.sta).emit .sclLow)
      s.cfg.i2c.lo
    refine ((((h1.trans h2).trans h3).trans h4).trans h5).cast ?_ ?_
    · simp [wireSymbol, idleCheck_pins, Pins.idleFrom]
    · simp [eventTime]; omega

/-! ## One clock pulse -/

theorem clockPulse_onWires (s : State) : OnWires s (clockPulse s).2 := by
  unfold clockPulse
  exact ((((State.delayUs_onWires _ _).trans (State.emit_onWires _ _)).trans (State.delayUs_onWires _ _)).trans
    (State.sampleSda_onWires _)).trans (((State.delayUs_onWires _ _).trans (State.emit_onWires _ _)).trans
      (State.delayUs_onWires _ _))

/-- CLOCK_PULSE leaves SCL Low and SDA unchanged (R133). -/
theorem clockPulse_pins (s : State) : (clockPulse s).2.pins = { s.pins with scl := .low } := by
  simp [clockPulse, State.emit_pins, pinsAfter]

/-- One clock: SCL rises once, with the level SDA has (R133). -/
theorem clockPulse_wire (s : State) (hp : s.pins.scl = .low) :
    Wire s (clockPulse s).2 [.bit (decide (s.pins.sda = .released))] (I2cConfig.pulse s.cfg.i2c) := by
  have h1 := State.delayUs_wire s s.cfg.i2c.su
  have h2 := State.emit_wire (s.delayUs s.cfg.i2c.su) .sclHigh
  have h3 := State.delayUs_wire ((s.delayUs s.cfg.i2c.su).emit .sclHigh) s.cfg.i2c.hi1
  have h4 := State.sampleSda_wire (((s.delayUs s.cfg.i2c.su).emit .sclHigh).delayUs s.cfg.i2c.hi1)
  have h5 := State.delayUs_wire (((s.delayUs s.cfg.i2c.su).emit .sclHigh).delayUs s.cfg.i2c.hi1).sampleSda.2
    s.cfg.i2c.hi2
  have h6 := State.emit_wire
    ((((s.delayUs s.cfg.i2c.su).emit .sclHigh).delayUs s.cfg.i2c.hi1).sampleSda.2.delayUs s.cfg.i2c.hi2) .sclLow
  have h7 := State.delayUs_wire
    (((((s.delayUs s.cfg.i2c.su).emit .sclHigh).delayUs s.cfg.i2c.hi1).sampleSda.2.delayUs s.cfg.i2c.hi2).emit
      .sclLow) s.cfg.i2c.lo
  refine ((((((h1.trans h2).trans h3).trans h4).trans h5).trans h6).trans h7).cast ?_ ?_
  · simp [wireSymbol, hp]
  · simp [eventTime, I2cConfig.pulse]

/-- The sample of a clock pulse. -/
theorem clockPulse_fst (s : State) : (clockPulse s).1 =
    (((s.delayUs s.cfg.i2c.su).emit .sclHigh).delayUs s.cfg.i2c.hi1).sampleSda.1 := by
  simp only [clockPulse]

theorem clockPulse_lineAnswers (s : State) : (clockPulse s).2.env.lineAnswers =
    (((s.delayUs s.cfg.i2c.su).emit .sclHigh).delayUs s.cfg.i2c.hi1).sampleSda.2.env.lineAnswers := by
  simp [clockPulse]

theorem clockPulse_low {s : State} (h : s.pins.sda = .driveLow) :
    (clockPulse s).1 = false ∧ (clockPulse s).2.env.lineAnswers = s.env.lineAnswers := by
  have h1 := State.sampleSda_low (s := ((s.delayUs s.cfg.i2c.su).emit .sclHigh).delayUs s.cfg.i2c.hi1)
    (by simp [State.emit_pins, pinsAfter, h])
  rw [clockPulse_fst, clockPulse_lineAnswers, h1.1, h1.2]
  exact ⟨rfl, by simp⟩

theorem clockPulse_released {s : State} {b : Level} {rest : List Level} (h : s.pins.sda = .released)
    (hl : s.env.lineAnswers = b :: rest) :
    (clockPulse s).1 = b ∧ (clockPulse s).2.env.lineAnswers = rest := by
  have h1 := State.sampleSda_released (s := ((s.delayUs s.cfg.i2c.su).emit .sclHigh).delayUs s.cfg.i2c.hi1)
    (b := b) (rest := rest) (by simp [State.emit_pins, pinsAfter, h]) (by simpa using hl)
  rw [clockPulse_fst, clockPulse_lineAnswers]
  exact h1

/-! ## Driving a bit -/

theorem driveBit_onWires (b : Level) (s : State) : OnWires s (driveBit b s) := State.emit_onWires s _

theorem driveBit_pins (b : Level) (s : State) :
    (driveBit b s).pins = { s.pins with sda := if b then .released else .driveLow } := by
  cases b <;> simp [driveBit, State.emit_pins, pinsAfter]

theorem driveBit_wire (b : Level) (s : State) (hp : s.pins.scl = .low) : Wire s (driveBit b s) [] 0 := by
  cases b
  · refine (State.emit_wire s .sdaLow).cast ?_ rfl
    simp [wireSymbol, hp]
  · refine (State.emit_wire s .sdaRel).cast ?_ rfl
    simp [wireSymbol, hp]

theorem driveBit_answers (b : Level) (s : State) : (driveBit b s).env.lineAnswers = s.env.lineAnswers :=
  State.emit_lineAnswers s _

theorem release_wire {s : State} (hp : s.pins.scl = .low) : Wire s (s.emit .sdaRel) [] 0 :=
  driveBit_wire true s hp

/-- A driven bit and its clock: SCL rises with the bit on SDA. -/
theorem driveClock_wire (b : Level) (s : State) (hp : s.pins.scl = .low) :
    Wire s (clockPulse (driveBit b s)).2 [.bit b] (I2cConfig.pulse s.cfg.i2c) := by
  have h1 := driveBit_wire b s hp
  have h2 := clockPulse_wire (driveBit b s) (by rw [driveBit_pins]; exact hp)
  refine (h1.trans h2).cast ?_ ?_
  · rw [driveBit_pins]; cases b <;> simp
  · rw [h1.on.cfg_eq]; simp

/-! ## WRITE_BYTE -/

theorem writeBits_onWires (v : Byte) (k : Nat) (s : State) : OnWires s (writeBits v k s) := by
  induction k generalizing s with
  | zero => exact OnWires.refl s
  | succ k ih => exact ((driveBit_onWires _ s).trans (clockPulse_onWires _)).trans (ih _)

/-- The bits `k-1` down to 0 of a byte. -/
def bitsDown (v : Byte) : Nat → List Bool
  | 0 => []
  | k + 1 => v.getLsbD k :: bitsDown v k

theorem bitsDown_eight (v : Byte) : bitsDown v 8 = msbFirst v := rfl

theorem writeBits_scl (v : Byte) (k : Nat) (s : State) (hp : s.pins.scl = .low) :
    (writeBits v k s).pins.scl = .low := by
  induction k generalizing s with
  | zero => exact hp
  | succ k ih => exact ih _ (by rw [clockPulse_pins])

theorem writeBits_dline (v : Byte) (k : Nat) (s : State) : (writeBits v k s).pins.dline = s.pins.dline := by
  induction k generalizing s with
  | zero => rfl
  | succ k ih =>
    unfold writeBits
    rw [ih, clockPulse_pins, driveBit_pins]

theorem writeBits_wire (v : Byte) (k : Nat) (s : State) (hp : s.pins.scl = .low) :
    Wire s (writeBits v k s) ((bitsDown v k).map .bit) (k * I2cConfig.pulse s.cfg.i2c) := by
  induction k generalizing s with
  | zero => exact (Wire.refl s).cast rfl (by simp)
  | succ k ih =>
    have h1 := driveClock_wire (v.getLsbD k) s hp
    have h2 := ih (clockPulse (driveBit (v.getLsbD k) s)).2 (by rw [clockPulse_pins])
    refine (h1.trans h2).cast rfl ?_
    rw [h1.on.cfg_eq]
    simp [Nat.succ_mul, Nat.add_comm]

/-- Each 1 bit consumes one answer, each 0 bit none (R134). -/
theorem writeBits_answers (v : Byte) (k : Nat) (s : State) (l : List Level)
    (hl : s.env.lineAnswers = l) (hlen : (bitsDown v k).count true ≤ l.length) :
    (writeBits v k s).env.lineAnswers = l.drop ((bitsDown v k).count true) := by
  induction k generalizing s l with
  | zero => simpa [bitsDown, writeBits] using hl
  | succ k ih =>
    unfold writeBits
    cases hb : v.getLsbD k with
    | false =>
      have hc := clockPulse_low (s := driveBit false s) (by rw [driveBit_pins]; rfl)
      have hcount : (bitsDown v (k + 1)).count true = (bitsDown v k).count true := by
        simp [bitsDown, hb]
      rw [hcount] at hlen ⊢
      exact ih _ l (by rw [hc.2, driveBit_answers]; exact hl) hlen
    | true =>
      have hcount : (bitsDown v (k + 1)).count true = (bitsDown v k).count true + 1 := by
        simp [bitsDown, hb]
      rw [hcount] at hlen ⊢
      cases l with
      | nil => simp at hlen
      | cons a rest =>
        have hc := clockPulse_released (s := driveBit true s) (b := a) (rest := rest)
          (by rw [driveBit_pins]; rfl) (by rw [driveBit_answers]; exact hl)
        rw [ih _ rest hc.2 (by simpa using hlen)]
        simp

theorem writeByte_onWires (v : Byte) (s : State) : OnWires s (writeByte v s).2 :=
  (writeBits_onWires v 8 s).trans ((State.emit_onWires _ _).trans (clockPulse_onWires _))

/-- WRITE_BYTE leaves SCL Low and SDA Released (R137). -/
theorem writeByte_pins (v : Byte) (s : State) :
    (writeByte v s).2.pins = { s.pins with sda := .released, scl := .low } := by
  unfold writeByte
  simp only
  rw [clockPulse_pins, State.emit_pins]
  simp [pinsAfter, writeBits_dline]

/-- WRITE_BYTE puts the byte on the bus, bit 7 first, and a released acknowledgement clock (R101, R137). -/
theorem writeByte_wire (v : Byte) (s : State) (hp : s.pins.scl = .low) :
    Wire s (writeByte v s).2 (sentFrame v) (9 * I2cConfig.pulse s.cfg.i2c) := by
  have h1 := writeBits_wire v 8 s hp
  have h2 := driveClock_wire true (writeBits v 8 s) (writeBits_scl v 8 s hp)
  refine (h1.trans h2).cast ?_ ?_
  · simp [sentFrame, bitsDown_eight]
  · rw [h1.on.cfg_eq]; omega

/-- The acknowledgement is the answer after the 1 bits' answers: 0 is acknowledged (R137). -/
theorem writeByte_answers {v : Byte} {s : State} {a : Level} {rest : List Level}
    (h : s.env.lineAnswers.drop (ones v) = a :: rest) :
    (writeByte v s).1 = !a ∧ (writeByte v s).2.env.lineAnswers = rest := by
  have hlen : (bitsDown v 8).count true ≤ s.env.lineAnswers.length := by
    rw [bitsDown_eight]
    have := congrArg List.length h
    simp only [List.length_drop, List.length_cons, ones] at this
    omega
  have h1 := writeBits_answers v 8 s _ rfl hlen
  have h2 := clockPulse_released (s := (writeBits v 8 s).emit .sdaRel) (b := a) (rest := rest)
    (by simp [State.emit_pins, pinsAfter])
    (by rw [State.emit_lineAnswers, h1, bitsDown_eight]; exact h)
  refine ⟨?_, h2.2⟩
  simp only [writeByte]
  rw [h2.1]

/-! ## STOP -/

theorem stop_onWires (s : State) : OnWires s (stop s) := by
  unfold stop
  exact (((((State.emit_onWires _ _).trans (State.delayUs_onWires _ _)).trans (State.emit_onWires _ _)).trans
    (State.delayUs_onWires _ _)).trans (State.emit_onWires _ _)).trans (State.delayUs_onWires _ _)

/-- STOP leaves both lines released (R136). -/
theorem stop_pins (s : State) : (stop s).pins = s.pins.idleFrom := by
  simp [stop, State.emit_pins, pinsAfter, Pins.idleFrom]

theorem stop_wire (s : State) (hp : s.pins.scl = .low) :
    Wire s (stop s) stopSymbols (s.cfg.i2c.su + s.cfg.i2c.sto + s.cfg.i2c.buf) := by
  have h1 := State.emit_wire s .sdaLow
  have h2 := State.delayUs_wire (s.emit .sdaLow) s.cfg.i2c.su
  have h3 := State.emit_wire ((s.emit .sdaLow).delayUs s.cfg.i2c.su) .sclHigh
  have h4 := State.delayUs_wire (((s.emit .sdaLow).delayUs s.cfg.i2c.su).emit .sclHigh) s.cfg.i2c.sto
  have h5 := State.emit_wire ((((s.emit .sdaLow).delayUs s.cfg.i2c.su).emit .sclHigh).delayUs s.cfg.i2c.sto) .sdaRel
  have h6 := State.delayUs_wire
    (((((s.emit .sdaLow).delayUs s.cfg.i2c.su).emit .sclHigh).delayUs s.cfg.i2c.sto).emit .sdaRel) s.cfg.i2c.buf
  refine (((((h1.trans h2).trans h3).trans h4).trans h5).trans h6).cast ?_ ?_
  · simp [wireSymbol, hp, State.emit_pins, pinsAfter, stopSymbols]
  · simp [eventTime]

theorem stop_answers (s : State) : (stop s).env.lineAnswers = s.env.lineAnswers := by
  simp [stop]

/-! ## Sending and receiving data -/

theorem sendData_onWires (bs : Bytes) (k : Nat) (s : State) : OnWires s (sendData bs k s).2 := by
  induction bs generalizing k s with
  | nil => exact OnWires.refl s
  | cons v rest ih =>
    unfold sendData
    simp only
    split
    · exact (writeByte_onWires v s).trans (ih _ _)
    · exact writeByte_onWires v s

theorem sendData_scl (bs : Bytes) (k : Nat) (s : State) (hp : s.pins.scl = .low) :
    (sendData bs k s).2.pins.scl = .low := by
  induction bs generalizing k s with
  | nil => exact hp
  | cons v rest ih =>
    unfold sendData
    simp only
    split
    · exact ih _ _ (by rw [writeByte_pins])
    · rw [writeByte_pins]

theorem sendData_dline (bs : Bytes) (k : Nat) (s : State) : (sendData bs k s).2.pins.dline = s.pins.dline := by
  induction bs generalizing k s with
  | nil => rfl
  | cons v rest ih =>
    unfold sendData
    simp only
    split
    · rw [ih, writeByte_pins]
    · rw [writeByte_pins]

/-- Data bytes that are all acknowledged (R141). -/
theorem sendData_acked (bs : Bytes) (k : Nat) (s : State) (l rest : List Level) (hp : s.pins.scl = .low)
    (hl : s.env.lineAnswers = l) (h : afterAcked bs l = some rest) :
    (sendData bs k s).1 = none ∧ (sendData bs k s).2.env.lineAnswers = rest ∧
      Wire s (sendData bs k s).2 (bs.flatMap sentFrame) (9 * bs.length * I2cConfig.pulse s.cfg.i2c) := by
  induction bs generalizing k s l with
  | nil =>
    simp only [afterAcked, Option.some.injEq] at h
    exact ⟨rfl, by simpa [sendData, h] using hl, (Wire.refl s).cast rfl (by simp)⟩
  | cons v vs ih =>
    simp only [afterAcked] at h
    split at h
    · rename_i l' hdrop
      have ha := writeByte_answers (v := v) (s := s) (a := false) (rest := l') (by rw [hl]; exact hdrop)
      have hw := writeByte_wire v s hp
      have hi := ih (k + 1) (writeByte v s).2 l' (by rw [writeByte_pins]) ha.2 h
      have hs : sendData (v :: vs) k s = sendData vs (k + 1) (writeByte v s).2 := by
        simp [sendData, ha.1]
      rw [hs]
      refine ⟨hi.1, hi.2.1, (hw.trans hi.2.2).cast (by simp) ?_⟩
      rw [hw.on.cfg_eq, List.length_cons]
      ring
    · simp at h
    · simp at h

/-- Data bytes of which the last sent is not acknowledged: its index, and no later byte is sent (R140, R141). -/
theorem sendData_nacked (pre : Bytes) (v : Byte) (post : Bytes) (k : Nat) (s : State) (l l' rest : List Level)
    (hp : s.pins.scl = .low) (hl : s.env.lineAnswers = l) (h : afterAcked pre l = some l')
    (hn : afterNacked v l' = some rest) :
    (sendData (pre ++ v :: post) k s).1 = some (k + pre.length) ∧
      (sendData (pre ++ v :: post) k s).2.env.lineAnswers = rest ∧
      Wire s (sendData (pre ++ v :: post) k s).2 ((pre ++ [v]).flatMap sentFrame)
        (9 * (pre.length + 1) * I2cConfig.pulse s.cfg.i2c) := by
  induction pre generalizing k s l with
  | nil =>
    simp only [afterAcked, Option.some.injEq] at h
    subst h
    simp only [afterNacked] at hn
    split at hn
    · rename_i r hdrop
      have ha := writeByte_answers (v := v) (s := s) (a := true) (rest := r) (by rw [hl]; exact hdrop)
      have hw := writeByte_wire v s hp
      have hs : sendData ([] ++ v :: post) k s = (some k, (writeByte v s).2) := by
        simp [sendData, ha.1]
      rw [hs]
      simp only [Option.some.injEq] at hn
      exact ⟨rfl, by rw [ha.2, hn], hw.cast (by simp) (by simp)⟩
    · simp at hn
    · simp at hn
  | cons u us ih =>
    simp only [afterAcked] at h
    split at h
    · rename_i l1 hdrop
      have ha := writeByte_answers (v := u) (s := s) (a := false) (rest := l1) (by rw [hl]; exact hdrop)
      have hw := writeByte_wire u s hp
      have hi := ih (k + 1) (writeByte u s).2 l1 (by rw [writeByte_pins]) ha.2 h
      have hs : sendData (u :: us ++ v :: post) k s = sendData (us ++ v :: post) (k + 1) (writeByte u s).2 := by
        simp [sendData, ha.1]
      rw [hs]
      refine ⟨by rw [hi.1]; simp; omega, hi.2.1, (hw.trans hi.2.2).cast (by simp) ?_⟩
      rw [hw.on.cfg_eq, List.length_cons]
      ring
    · simp at h
    · simp at h

theorem readBits_onWires (k : Nat) (s : State) : OnWires s (readBits k s).2 := by
  induction k generalizing s with
  | zero => exact OnWires.refl s
  | succ k ih => exact (clockPulse_onWires s).trans (ih _)

theorem readBits_pins (k : Nat) (s : State) (hp : s.pins.scl = .low) : (readBits k s).2.pins = s.pins := by
  induction k generalizing s with
  | zero => rfl
  | succ k ih =>
    have h1 : (clockPulse s).2.pins = s.pins := by rw [clockPulse_pins, ← hp]
    unfold readBits
    simp only
    rw [ih _ (by rw [h1]; exact hp), h1]

theorem readBits_wire (k : Nat) (s : State) (hp : s.pins.scl = .low) (hs : s.pins.sda = .released) :
    Wire s (readBits k s).2 (List.replicate k (.bit true)) (k * I2cConfig.pulse s.cfg.i2c) := by
  induction k generalizing s with
  | zero => exact (Wire.refl s).cast rfl (by simp)
  | succ k ih =>
    have h1 := clockPulse_wire s hp
    have h2 := ih (clockPulse s).2 (by rw [clockPulse_pins]) (by rw [clockPulse_pins]; exact hs)
    refine (h1.trans h2).cast ?_ ?_
    · simp [hs, List.replicate_succ]
    · rw [h1.on.cfg_eq]; simp [Nat.succ_mul, Nat.add_comm]

/-- The bits read are the answers, in arrival order (R138). -/
theorem readBits_answers (bits rest : List Level) (s : State) (hs : s.pins.sda = .released)
    (hl : s.env.lineAnswers = bits ++ rest) :
    (readBits bits.length s).1 = bits ∧ (readBits bits.length s).2.env.lineAnswers = rest := by
  induction bits generalizing s with
  | nil => exact ⟨rfl, by simpa [readBits] using hl⟩
  | cons b bs ih =>
    have h1 := clockPulse_released (s := s) (b := b) (rest := bs ++ rest) hs (by simpa using hl)
    have h2 := ih (clockPulse s).2 (by rw [clockPulse_pins]; exact hs) h1.2
    simp only [List.length_cons, readBits]
    exact ⟨by rw [h1.1, h2.1], h2.2⟩

theorem readByte_onWires (last : Bool) (s : State) : OnWires s (readByte last s).2 := by
  unfold readByte
  exact (State.emit_onWires _ _).trans ((readBits_onWires 8 _).trans ((driveBit_onWires _ _).trans
    ((clockPulse_onWires _).trans (State.emit_onWires _ _))))

theorem readByte_pins (last : Bool) (s : State) (hp : s.pins.scl = .low) :
    (readByte last s).2.pins = { s.pins with sda := .released } := by
  have hb := readBits_pins 8 (s.emit .sdaRel) (by rw [State.emit_pins]; exact hp)
  unfold readByte
  simp only
  rw [State.emit_pins, clockPulse_pins, driveBit_pins, hb, State.emit_pins]
  simp [pinsAfter, ← hp]

/-- READ_BYTE puts eight released clocks on the bus and the block's own acknowledgement (R101, R138). -/
theorem readByte_wire (last : Bool) (s : State) (hp : s.pins.scl = .low) :
    Wire s (readByte last s).2 (receivedFrame last) (9 * I2cConfig.pulse s.cfg.i2c) := by
  have h1 := release_wire hp
  have hp1 : (s.emit .sdaRel).pins.scl = .low := by rw [State.emit_pins]; exact hp
  have h2 := readBits_wire 8 (s.emit .sdaRel) hp1 (by simp [State.emit_pins, pinsAfter])
  have hp2 : (readBits 8 (s.emit .sdaRel)).2.pins.scl = .low := by rw [readBits_pins 8 _ hp1]; exact hp1
  have h3 := driveClock_wire last (readBits 8 (s.emit .sdaRel)).2 hp2
  have h4 := release_wire (s := (clockPulse (driveBit last (readBits 8 (s.emit .sdaRel)).2)).2)
    (by rw [clockPulse_pins])
  refine (((h1.trans h2).trans h3).trans h4).cast ?_ ?_
  · simp [receivedFrame]
  · rw [(h1.trans h2).on.cfg_eq, h1.on.cfg_eq]; omega

theorem bitsToByte_msbFirst (v : Byte) : bitsToByte (msbFirst v) = v := by
  revert v; decide

theorem readByte_last {s : State} {v : Byte} {ack : Level} {rest : List Level}
    (hp : s.pins.scl = .low) (hl : s.env.lineAnswers = msbFirst v ++ ack :: rest) :
    (readByte true s).1 = v ∧ (readByte true s).2.env.lineAnswers = rest := by
  have hp1 : (s.emit .sdaRel).pins.scl = .low := by rw [State.emit_pins]; exact hp
  have h1 := readBits_answers (msbFirst v) (ack :: rest) (s.emit .sdaRel)
    (by simp [State.emit_pins, pinsAfter]) (by simpa using hl)
  have h2 := clockPulse_released (s := driveBit true (readBits 8 (s.emit .sdaRel)).2) (b := ack) (rest := rest)
    (by rw [driveBit_pins]; rfl) (by rw [driveBit_answers]; exact h1.2)
  unfold readByte
  refine ⟨?_, by simpa using h2.2⟩
  have : (readBits 8 (s.emit .sdaRel)).1 = msbFirst v := h1.1
  simp only
  rw [this, bitsToByte_msbFirst]

theorem readByte_more {s : State} {v : Byte} {rest : List Level}
    (hp : s.pins.scl = .low) (hl : s.env.lineAnswers = msbFirst v ++ rest) :
    (readByte false s).1 = v ∧ (readByte false s).2.env.lineAnswers = rest := by
  have hp1 : (s.emit .sdaRel).pins.scl = .low := by rw [State.emit_pins]; exact hp
  have h1 := readBits_answers (msbFirst v) rest (s.emit .sdaRel)
    (by simp [State.emit_pins, pinsAfter]) (by simpa using hl)
  have h2 := clockPulse_low (s := driveBit false (readBits 8 (s.emit .sdaRel)).2) (by rw [driveBit_pins]; rfl)
  unfold readByte
  have h3 : (readBits 8 (s.emit .sdaRel)).2.env.lineAnswers = rest := h1.2
  refine ⟨?_, by simp [h2.2, driveBit_answers, h3]⟩
  have : (readBits 8 (s.emit .sdaRel)).1 = msbFirst v := h1.1
  simp only
  rw [this, bitsToByte_msbFirst]

end Sys2Proof.Machine
end

