-- ==== Sys2Proof/Laws/I2cOps.lean ====
section
/-! SUPPORT. The laws of the four I2C operations: what each leaves unchanged, the lines it leaves released, what a read
stores, and that a response does not depend on any delay (R147). -/

namespace Sys2Proof.Machine

/-! ## Reading into RXBUF -/

theorem OnWires.setRxbuf {s s' : State} (h : OnWires s s') (m : Memory) :
    OnWires { s with rxbuf := m } { s' with rxbuf := m } := by
  obtain ⟨⟨p, tr, t, rx, env, hf⟩, hm, hfut, hp, htr⟩ := h
  exact ⟨⟨p, tr, t, rx, env, by rw [hf]⟩, hm, hfut, hp, htr⟩

theorem Wire.setRxbuf {s s' : State} {x : List WireSymbol} {d : Nat} (h : Wire s s' x d) (m : Memory) :
    Wire { s with rxbuf := m } { s' with rxbuf := m } x d :=
  ⟨h.on.setRxbuf m, h.events, h.time⟩

/-- Reading changes nothing but what is on the wires, and RXBUF. -/
theorem readData_onWires (n k : Nat) (s : State) :
    OnWires { s with rxbuf := (readData n k s).rxbuf } (readData n k s) := by
  induction n generalizing k s with
  | zero => exact OnWires.refl s
  | succ n ih =>
    have h1 := (readByte_onWires (n == 0) s).setRxbuf (readData (n + 1) k s).rxbuf
    have h2 := ih (k + 1) { (readByte (n == 0) s).2 with
      rxbuf := Memory.write (readByte (n == 0) s).2.rxbuf k (readByte (n == 0) s).1 }
    exact h1.trans h2

theorem readData_pins (n k : Nat) (s : State) (hp : s.pins.scl = .low) :
    (readData n k s).pins.scl = .low ∧ (readData n k s).pins.dline = s.pins.dline := by
  induction n generalizing k s with
  | zero => exact ⟨hp, rfl⟩
  | succ n ih =>
    have h := readByte_pins (n == 0) s hp
    have h2 := ih (k + 1) { (readByte (n == 0) s).2 with
      rxbuf := Memory.write (readByte (n == 0) s).2.rxbuf k (readByte (n == 0) s).1 } (by
        show (readByte (n == 0) s).2.pins.scl = .low
        rw [h]; exact hp)
    refine ⟨h2.1, h2.2.trans ?_⟩
    show (readByte (n == 0) s).2.pins.dline = s.pins.dline
    rw [h]

/-- The frames a read puts on the bus and the time they take, whatever the device answers (R138). -/
theorem readData_wire (n k : Nat) (s : State) (hp : s.pins.scl = .low) :
    Wire { s with rxbuf := (readData n k s).rxbuf } (readData n k s) (receivedFrames n)
      (9 * n * I2cConfig.pulse s.cfg.i2c) := by
  induction n generalizing k s with
  | zero => exact (Wire.refl s).cast rfl (by simp)
  | succ n ih =>
    have hw := readByte_wire (n == 0) s hp
    have hpin := readByte_pins (n == 0) s hp
    have h1 := hw.setRxbuf (readData (n + 1) k s).rxbuf
    have h2 := ih (k + 1) { (readByte (n == 0) s).2 with
      rxbuf := Memory.write (readByte (n == 0) s).2.rxbuf k (readByte (n == 0) s).1 } (by
        show (readByte (n == 0) s).2.pins.scl = .low
        rw [hpin]; exact hp)
    refine (h1.trans h2).cast rfl ?_
    show _ + 9 * n * I2cConfig.pulse (readByte (n == 0) s).2.cfg.i2c = _
    rw [hw.on.cfg_eq]
    ring

/-- A device that sends bytes: they are stored in arrival order (R63, R142). -/
theorem readData_answers (bs : Bytes) (ack : Level) (rest : List Level) (k : Nat) (s : State)
    (hp : s.pins.scl = .low) (hne : bs ≠ []) (hl : s.env.lineAnswers = deviceSends bs ack ++ rest) :
    (readData bs.length k s).rxbuf = s.rxbuf.writeAll k bs ∧
      (readData bs.length k s).env.lineAnswers = rest := by
  induction bs generalizing k s with
  | nil => exact absurd rfl hne
  | cons v vs ih =>
    have hpin : ∀ last, (readByte last s).2.pins.scl = .low := by
      intro last; rw [readByte_pins last s hp]; exact hp
    cases vs with
    | nil =>
      have h1 := readByte_last (s := s) (v := v) (ack := ack) (rest := rest) hp
        (by rw [hl]; simp [deviceSends])
      simp only [List.length_cons, List.length_nil, Nat.zero_add, readData, beq_self_eq_true, Memory.writeAll]
      rw [h1.1, (readByte_onWires true s).rxbuf_eq]
      exact ⟨rfl, h1.2⟩
    | cons u us =>
      have h1 := readByte_more (s := s) (v := v) (rest := deviceSends (u :: us) ack ++ rest) hp
        (by rw [hl]; simp [deviceSends])
      have hlast : ((u :: us).length == 0) = false := rfl
      have hs : readData (v :: u :: us).length k s = readData (u :: us).length (k + 1)
          { (readByte false s).2 with rxbuf := Memory.write (readByte false s).2.rxbuf k (readByte false s).1 } := by
        rw [List.length_cons, readData, hlast]
      have h2 := ih (k + 1) { (readByte false s).2 with
        rxbuf := Memory.write (readByte false s).2.rxbuf k (readByte false s).1 } (hpin false) (by simp) h1.2
      rw [hs]
      refine ⟨?_, h2.2⟩
      rw [h2.1]
      simp only [Memory.writeAll]
      rw [h1.1, (readByte_onWires false s).rxbuf_eq]

/-- A read stores nothing outside its indexes (R142). -/
theorem readData_wf (n k : Nat) (s : State) (h : s.rxbuf.wf = true) : (readData n k s).rxbuf.wf = true := by
  induction n generalizing k s with
  | zero => exact h
  | succ n ih =>
    refine ih (k + 1) _ ?_
    exact Memory.write_wf _ _ (by rw [(readByte_onWires _ s).rxbuf_eq]; exact h)

theorem readData_below (n k cap : Nat) (s : State) (h : s.rxbuf.below cap = true) (hk : k + n ≤ cap) :
    (readData n k s).rxbuf.below cap = true := by
  induction n generalizing k s with
  | zero => exact h
  | succ n ih =>
    refine ih (k + 1) _ ?_ (by omega)
    exact Memory.write_below _ (by rw [(readByte_onWires _ s).rxbuf_eq]; exact h) (by omega)

theorem readData_read_outside (n k i : Nat) (s : State) (h : s.rxbuf.wf = true) (hi : i < k ∨ k + n ≤ i) :
    (readData n k s).rxbuf.read i = s.rxbuf.read i := by
  induction n generalizing k s with
  | zero => rfl
  | succ n ih =>
    have hb := (readByte_onWires (n == 0) s).rxbuf_eq
    have := ih (k + 1) { (readByte (n == 0) s).2 with
      rxbuf := Memory.write (readByte (n == 0) s).2.rxbuf k (readByte (n == 0) s).1 }
      (Memory.write_wf _ _ (by rw [hb]; exact h)) (by omega)
    refine this.trans ?_
    show Memory.read (Memory.write (readByte (n == 0) s).2.rxbuf k (readByte (n == 0) s).1) i = _
    rw [hb, Memory.read_write_other _ h (by omega)]

/-! ## The operations' frames -/

theorem i2cBusIdleOp_onWires (s : State) : OnWires s (i2cBusIdleOp s).2 := idleCheck_onWires s

theorem i2cBusIdleOp_pins (s : State) : (i2cBusIdleOp s).2.pins = s.pins.idleFrom := idleCheck_pins s

theorem i2cProbeOp_onWires (a : BitVec 7) (s : State) : OnWires s (i2cProbeOp a s).2 := by
  unfold i2cProbeOp
  simp only
  split
  · exact start_onWires s
  · split
    · exact ((start_onWires s).trans (writeByte_onWires _ _)).trans (stop_onWires _)
    · exact ((start_onWires s).trans (writeByte_onWires _ _)).trans (stop_onWires _)

theorem start_dline (s : State) : (start s).2.pins.dline = s.pins.dline := by
  rcases start_cases s with h | h <;>
    (rw [h]; simp [State.emit_pins, pinsAfter, idleCheck_pins, Pins.idleFrom])

theorem start_false_pins {s : State} (h : (!(start s).1) = true) : (start s).2.pins = s.pins.idleFrom := by
  rcases start_cases s with hs | hs
  · rw [hs]; exact idleCheck_pins s
  · rw [hs] at h; simp at h

theorem stop_writeByte_pins (v : Byte) (s s0 : State) (h : s.pins.dline = s0.pins.dline) :
    (stop (writeByte v s).2).pins = s0.pins.idleFrom := by
  rw [stop_pins, writeByte_pins]
  simp [Pins.idleFrom, h]

theorem i2cProbeOp_pins (a : BitVec 7) (s : State) : (i2cProbeOp a s).2.pins = s.pins.idleFrom := by
  unfold i2cProbeOp
  simp only
  split
  · rename_i h; exact start_false_pins h
  · split <;> exact stop_writeByte_pins _ _ s (start_dline s)

theorem i2cWriteOp_onWires (a : BitVec 7) (n : Byte) (s : State) : OnWires s (i2cWriteOp a n s).2 := by
  unfold i2cWriteOp
  simp only
  split
  · exact start_onWires s
  · split
    · exact ((start_onWires s).trans (writeByte_onWires _ _)).trans (stop_onWires _)
    · split <;>
        exact (((start_onWires s).trans (writeByte_onWires _ _)).trans (sendData_onWires _ _ _)).trans (stop_onWires _)

theorem i2cWriteOp_pins (a : BitVec 7) (n : Byte) (s : State) : (i2cWriteOp a n s).2.pins = s.pins.idleFrom := by
  unfold i2cWriteOp
  simp only
  split
  · rename_i h; exact start_false_pins h
  · split
    · exact stop_writeByte_pins _ _ s (start_dline s)
    · split <;>
        (rw [stop_pins]
         simp [Pins.idleFrom, sendData_dline, writeByte_pins, start_dline])

/-- A read changes what is on the wires, RXBUF and RXLEN. -/
theorem OnWires.setRxlen {s s' : State} (h : OnWires s s') (n : Byte) : OnWires (s.setRxlen n) (s'.setRxlen n) := by
  obtain ⟨⟨p, tr, t, rx, env, hf⟩, hm, hfut, hp, htr⟩ := h
  exact ⟨⟨p, tr, t, rx, env, by rw [hf]; rfl⟩, hm, hfut, hp, htr⟩

theorem i2cReadOp_onWires (a : BitVec 7) (n : Byte) (s : State) :
    OnWires { s with rxbuf := (i2cReadOp a n s).2.rxbuf, rxlen := (i2cReadOp a n s).2.rxlen }
      (i2cReadOp a n s).2 := by
  unfold i2cReadOp
  simp only
  split
  · have h := (start_onWires s).setRxlen 0
    have hb : ((start s).2.setRxlen 0).rxbuf = s.rxbuf := (start_onWires s).rxbuf_eq
    simp only [hb]
    exact h
  · split
    · have h0 := ((start_onWires s).trans (writeByte_onWires (addressByte a .read) _)).trans (stop_onWires _)
      have h := h0.setRxlen 0
      have hb := h0.rxbuf_eq
      simp only [State.setRxlen_rxbuf, hb]
      exact h
    · have h1 := (start_onWires s).trans (writeByte_onWires (addressByte a .read) _)
      have h2 := (readData_onWires n.toNat 0 (writeByte (addressByte a .read) (start s).2).2).trans (stop_onWires _)
      have h3 := ((h1.setRxbuf _).trans h2).setRxlen n
      have hb := (stop_onWires (readData n.toNat 0 (writeByte (addressByte a .read) (start s).2).2)).rxbuf_eq
      simp only [State.setRxlen_rxbuf, hb]
      exact h3

theorem i2cReadOp_pins (a : BitVec 7) (n : Byte) (s : State) : (i2cReadOp a n s).2.pins = s.pins.idleFrom := by
  unfold i2cReadOp
  simp only
  split
  · rename_i h; simpa using start_false_pins h
  · split
    · rw [State.setRxlen_pins]; exact stop_writeByte_pins _ _ s (start_dline s)
    · rw [State.setRxlen_pins, stop_pins]
      have h := readData_pins n.toNat 0 (writeByte (addressByte a .read) (start s).2).2
        (by rw [writeByte_pins])
      simp [Pins.idleFrom, h.2, writeByte_pins, start_dline]

/-- A response is legal, and RXBUF stays in form. -/
theorem i2cReadOp_rxbuf_wf (a : BitVec 7) (n : Byte) (s : State) (h : s.rxbuf.wf = true) :
    (i2cReadOp a n s).2.rxbuf.wf = true := by
  unfold i2cReadOp
  simp only
  have h1 := (start_onWires s).trans (writeByte_onWires (addressByte a .read) _)
  split
  · rw [State.setRxlen_rxbuf, (start_onWires s).rxbuf_eq]; exact h
  · split
    · rw [State.setRxlen_rxbuf, (stop_onWires _).rxbuf_eq, h1.rxbuf_eq]; exact h
    · rw [State.setRxlen_rxbuf, (stop_onWires _).rxbuf_eq]
      exact readData_wf _ _ _ (by rw [h1.rxbuf_eq]; exact h)

theorem i2cReadOp_rxbuf_below (a : BitVec 7) (n : Byte) (s : State) (h : s.rxbuf.below bufCap = true) :
    (i2cReadOp a n s).2.rxbuf.below bufCap = true := by
  unfold i2cReadOp
  simp only
  have h1 := (start_onWires s).trans (writeByte_onWires (addressByte a .read) _)
  split
  · rw [State.setRxlen_rxbuf, (start_onWires s).rxbuf_eq]; exact h
  · split
    · rw [State.setRxlen_rxbuf, (stop_onWires _).rxbuf_eq, h1.rxbuf_eq]; exact h
    · rw [State.setRxlen_rxbuf, (stop_onWires _).rxbuf_eq]
      refine readData_below _ _ _ _ (by rw [h1.rxbuf_eq]; exact h) ?_
      have := n.isLt
      simp only [bufCap]
      omega

/-! ## The address byte -/

theorem afterAcked_one {v : Byte} {l rest : List Level} (h : afterAcked [v] l = some rest) :
    l.drop (ones v) = false :: rest := by
  simp only [afterAcked] at h
  split at h
  · injection h with h; subst h; assumption
  · simp at h
  · simp at h

theorem afterNacked_one {v : Byte} {l rest : List Level} (h : afterNacked v l = some rest) :
    l.drop (ones v) = true :: rest := by
  simp only [afterNacked] at h
  split at h
  · injection h with h; subst h; assumption
  · simp at h
  · simp at h

theorem afterAcked_cons {v : Byte} {vs : Bytes} {l rest : List Level} (h : afterAcked (v :: vs) l = some rest) :
    ∃ m, afterAcked [v] l = some m ∧ afterAcked vs m = some rest := by
  simp only [afterAcked] at h ⊢
  split at h
  · exact ⟨_, rfl, h⟩
  · simp at h
  · simp at h

/-- START and an address byte that is acknowledged (R135, R137, R139). -/
theorem address_acked {s : State} {v : Byte} {l rest : List Level} (hp : s.pins = s.pins.idleFrom)
    (hl : s.env.lineAnswers = true :: true :: l) (h : afterAcked [v] l = some rest) :
    (start s).1 = true ∧ (writeByte v (start s).2).1 = true ∧
      (writeByte v (start s).2).2.env.lineAnswers = rest ∧ (writeByte v (start s).2).2.pins.scl = .low ∧
      Wire s (writeByte v (start s).2).2 (.start :: sentFrame v)
        (s.cfg.i2c.settle + (s.cfg.i2c.sta + s.cfg.i2c.lo) + 9 * I2cConfig.pulse s.cfg.i2c) := by
  obtain ⟨s1, s2, s3, s4⟩ := start_ok hp hl
  have hw := writeByte_wire v (start s).2 (by rw [s3])
  have ha := writeByte_answers (v := v) (s := (start s).2) (a := false) (rest := rest)
    (by rw [s2]; exact afterAcked_one h)
  exact ⟨s1, ha.1, ha.2, by rw [writeByte_pins], (s4.trans hw).cast rfl (by rw [s4.on.cfg_eq])⟩

/-- START and an address byte that is not acknowledged (R135, R137, R139). -/
theorem address_nacked {s : State} {v : Byte} {l rest : List Level} (hp : s.pins = s.pins.idleFrom)
    (hl : s.env.lineAnswers = true :: true :: l) (h : afterNacked v l = some rest) :
    (start s).1 = true ∧ (writeByte v (start s).2).1 = false ∧
      (writeByte v (start s).2).2.env.lineAnswers = rest ∧ (writeByte v (start s).2).2.pins.scl = .low ∧
      Wire s (writeByte v (start s).2).2 (.start :: sentFrame v)
        (s.cfg.i2c.settle + (s.cfg.i2c.sta + s.cfg.i2c.lo) + 9 * I2cConfig.pulse s.cfg.i2c) := by
  obtain ⟨s1, s2, s3, s4⟩ := start_ok hp hl
  have hw := writeByte_wire v (start s).2 (by rw [s3])
  have ha := writeByte_answers (v := v) (s := (start s).2) (a := true) (rest := rest)
    (by rw [s2]; exact afterNacked_one h)
  exact ⟨s1, ha.1, ha.2, by rw [writeByte_pins], (s4.trans hw).cast rfl (by rw [s4.on.cfg_eq])⟩

/-- A transaction ended by STOP (R136). -/
theorem Wire.stopped {s s' : State} {x : List WireSymbol} {d : Nat} (h : Wire s s' x d) (hp : s'.pins.scl = .low) :
    Wire s (stop s') (x ++ stopSymbols) (d + (s.cfg.i2c.su + s.cfg.i2c.sto + s.cfg.i2c.buf)) :=
  (h.trans (stop_wire s' hp)).cast rfl (by rw [h.on.cfg_eq])

/-- What a command's answer says of its trace, its wire, the answers left and the time. -/
theorem Wire.answered {s s' : State} {x : List WireSymbol} {d : Nat} (h : Wire s.accept s' x d) (r : Rsp) :
    ∃ evs, (s'.respond r).trace = s.trace ++ evs ∧ wireSymbols s.pins evs = x ∧ (s'.respond r).t = s.t + d := by
  obtain ⟨evs, h1, h2, _⟩ := h.events
  exact ⟨evs, h1, h2, h.time⟩

/-! ## Responses do not depend on time (R147) -/

/-- Two states an I2C operation cannot tell apart: the same operands in TXBUF, the same answers to come, SDA driven
alike; the delays, the time and everything else may differ. -/
structure SameBus (s s' : State) : Prop where
  sda : s.pins.sda = s'.pins.sda
  answers : s.env.lineAnswers = s'.env.lineAnswers
  draws : s.env.draws = s'.env.draws
  txbuf : s.txbuf = s'.txbuf

namespace SameBus

variable {s s' : State}

theorem emit (h : SameBus s s') (e : Event) : SameBus (s.emit e) (s'.emit e) := by
  refine ⟨?_, ?_, ?_, ?_⟩
  · rw [State.emit_pins, State.emit_pins]
    cases e <;> first | rfl | exact h.sda
  · simpa using h.answers
  · simpa using h.draws
  · simpa using h.txbuf

theorem delay (h : SameBus s s') (n n' : Nat) : SameBus (s.delayUs n) (s'.delayUs n') := by
  refine ⟨?_, ?_, ?_, ?_⟩
  · simpa using h.sda
  · simpa using h.answers
  · simpa using h.draws
  · simpa [State.delayUs] using h.txbuf

theorem drawLine (h : SameBus s s') : s.drawLine.1 = s'.drawLine.1 ∧ SameBus s.drawLine.2 s'.drawLine.2 := by
  unfold State.drawLine
  rw [← h.answers]
  cases hl : s.env.lineAnswers with
  | nil =>
    simp only
    rw [h.draws]
    exact ⟨rfl, h.sda, by simpa [hl] using h.answers, by simp, h.txbuf⟩
  | cons b rest => exact ⟨rfl, h.sda, rfl, h.draws, h.txbuf⟩

theorem sampleSda (h : SameBus s s') : s.sampleSda.1 = s'.sampleSda.1 ∧ SameBus s.sampleSda.2 s'.sampleSda.2 := by
  unfold State.sampleSda
  rw [← h.sda]
  cases s.pins.sda with
  | driveLow => exact ⟨rfl, h.emit _⟩
  | released =>
    have hd := h.drawLine
    refine ⟨hd.1, ?_⟩
    simp only
    rw [hd.1]
    exact hd.2.emit _

theorem sampleScl (h : SameBus s s') : s.sampleScl.1 = s'.sampleScl.1 ∧ SameBus s.sampleScl.2 s'.sampleScl.2 := by
  have hd := h.drawLine
  refine ⟨hd.1, ?_⟩
  unfold State.sampleScl
  simp only
  rw [hd.1]
  exact hd.2.emit _

theorem idleCheck (h : SameBus s s') :
    (idleCheck s).1 = (Machine.idleCheck s').1 ∧ SameBus (Machine.idleCheck s).2 (Machine.idleCheck s').2 := by
  have h1 := (((h.emit .sdaRel).emit .sclHigh).delay s.cfg.i2c.settle s'.cfg.i2c.settle).sampleSda
  have h2 := h1.2.sampleScl
  exact ⟨Prod.ext h1.1 h2.1, h2.2⟩

theorem clockPulse (h : SameBus s s') :
    (clockPulse s).1 = (Machine.clockPulse s').1 ∧ SameBus (Machine.clockPulse s).2 (Machine.clockPulse s').2 := by
  have h1 := (((h.delay s.cfg.i2c.su s'.cfg.i2c.su).emit .sclHigh).delay s.cfg.i2c.hi1 s'.cfg.i2c.hi1).sampleSda
  refine ⟨?_, ?_⟩
  · rw [clockPulse_fst, clockPulse_fst]; exact h1.1
  · exact ((h1.2.delay _ _).emit .sclLow).delay _ _

theorem start (h : SameBus s s') :
    (start s).1 = (Machine.start s').1 ∧ SameBus (Machine.start s).2 (Machine.start s').2 := by
  have h1 := h.idleCheck
  unfold Machine.start
  simp only
  rw [← h1.1]
  split
  · exact ⟨rfl, (((h1.2.emit .sdaLow).delay _ _).emit .sclLow).delay _ _⟩
  · exact ⟨rfl, h1.2⟩

theorem stop (h : SameBus s s') : SameBus (Machine.stop s) (Machine.stop s') :=
  (((((h.emit .sdaLow).delay _ _).emit .sclHigh).delay _ _).emit .sdaRel).delay _ _

theorem writeBits (h : SameBus s s') (v : Byte) (k : Nat) :
    SameBus (Machine.writeBits v k s) (Machine.writeBits v k s') := by
  induction k generalizing s s' with
  | zero => exact h
  | succ k ih => exact ih (h.emit _).clockPulse.2

theorem writeByte (h : SameBus s s') (v : Byte) :
    (writeByte v s).1 = (Machine.writeByte v s').1 ∧ SameBus (Machine.writeByte v s).2 (Machine.writeByte v s').2 := by
  have h1 := ((h.writeBits v 8).emit .sdaRel).clockPulse
  unfold Machine.writeByte
  exact ⟨by simp only [h1.1], h1.2⟩

theorem sendData (h : SameBus s s') (bs : Bytes) (k : Nat) :
    (sendData bs k s).1 = (Machine.sendData bs k s').1 ∧
      SameBus (Machine.sendData bs k s).2 (Machine.sendData bs k s').2 := by
  induction bs generalizing k s s' with
  | nil => exact ⟨rfl, h⟩
  | cons v vs ih =>
    have h1 := h.writeByte v
    unfold Machine.sendData
    simp only
    rw [← h1.1]
    split
    · exact ih h1.2 _
    · exact ⟨rfl, h1.2⟩

end SameBus

end Sys2Proof.Machine
end

