-- ==== Sys2Proof/Laws/PerInstr.lean ====
section
/-! SUPPORT. Per constructor: the word an instruction is encoded in carries its row's fixed bits (spec/30_encoding.md
R91). -/

namespace Sys2Proof.Laws.EncodeSelectsRow

/-- "A word w selects the row when `w & mask = match`" (R91). -/
def Statement (i : Instr) : Prop := encode i &&& (opcodeMap i).2 = (opcodeMap i).1

theorem i2cWrite (addr7 : BitVec 7) (n : Byte) : Statement (.i2cWrite addr7 n) :=
  assemble_and (o := 0x01) (by decide) (by have := addr7.isLt; omega) (by have := n.isLt; omega) 0x80 0xFF00
    (and_mask_addr addr7) (and_mask_count n)

theorem i2cRead (addr7 : BitVec 7) (n : Byte) : Statement (.i2cRead addr7 n) :=
  assemble_and (o := 0x02) (by decide) (by have := addr7.isLt; omega) (by have := n.isLt; omega) 0x80 0xFF00
    (and_mask_addr addr7) (and_mask_count n)

theorem i2cProbe (addr7 : BitVec 7) : Statement (.i2cProbe addr7) :=
  assemble_and (o := 0x03) (by decide) (by have := addr7.isLt; omega) (by decide) 0x80 0xFFFF
    (and_mask_addr addr7) (by decide)

theorem i2cBusIdle : Statement .i2cBusIdle := by
  unfold Statement
  decide

theorem dhtReadFrame (tmo : Half) : Statement (.dhtReadFrame tmo) :=
  assemble_and (o := 0x10) (by decide) (by decide) tmo.isLt 0xFF 0
    (by decide) (and_mask_none _)

theorem uartReadLine (maxLen : Byte) (timeout : Half) : Statement (.uartReadLine maxLen timeout) :=
  assemble_and (o := 0x20) (by decide) maxLen.isLt timeout.isLt 0 0
    (and_mask_none _) (and_mask_none _)

theorem uartSendCommand (timeout : Half) : Statement (.uartSendCommand timeout) :=
  assemble_and (o := 0x21) (by decide) (by decide) timeout.isLt 0xFF 0
    (by decide) (and_mask_none _)

theorem uartInitSession (port : Half) : Statement (.uartInitSession port) :=
  assemble_and (o := 0x22) (by decide) (by decide) port.isLt 0xFF 0
    (by decide) (and_mask_none _)

theorem uartSendLine : Statement .uartSendLine := by
  unfold Statement
  decide

theorem btnPoll : Statement .btnPoll := by
  unfold Statement
  decide

theorem dutyAuto (tempC : Half) : Statement (.dutyAuto tempC) :=
  assemble_and (o := 0x40) (by decide) (by decide) tempC.isLt 0xFF 0
    (by decide) (and_mask_none _)

theorem alarmUpdate (humidity : Byte) (tempC : Half) : Statement (.alarmUpdate humidity tempC) :=
  assemble_and (o := 0x41) (by decide) humidity.isLt tempC.isLt 0 0
    (and_mask_none _) (and_mask_none _)

theorem motorUpdate (rv : Bool) (ev : EventArg) (tempC : Half) : Statement (.motorUpdate rv ev tempC) :=
  assemble_and (o := 0x42) (by decide) (by cases rv <;> cases ev <;> decide) tempC.isLt 0x7C 0
    (by cases rv <;> cases ev <;> decide) (and_mask_none _)

end Sys2Proof.Laws.EncodeSelectsRow
end

