-- ==== Sys2Proof/Laws/Uart.lean ====
section
/-! SUPPORT. What the UART procedures can do, said once (`OnLine`): only the trace, the time, the receive side and the
line buffer move; the time ends by the deadline; no item is invented; and where a procedure ends without an item or a
line, the deadline has been reached. Then what `readLine` makes of a line that stands in RX.q. -/

namespace Sys2Proof.Machine

/-! ## The frame of every UART procedure -/

/-- `s'` is `s` after time, receive steps, removals of items, line writes and transmissions. -/
structure OnLine (s s' : State) : Prop where
  frame : ∃ trace t rx arrivals linebuf linelen, s' = { s with
    trace := trace, t := t, rx := rx, env := { s.env with arrivals := arrivals }, linebuf := linebuf
    linelen := linelen }
  mono : s.t ≤ s'.t
  pumped : s.Pumped → s'.Pumped
  within : RxWithin s.cfg.uart s.rx → RxWithin s.cfg.uart s'.rx
  stamp : s.rx.lastMs ≤ s.nowMs → s'.rx.lastMs ≤ s'.nowMs
  budget : s'.rxBudget ≤ s.rxBudget
  wf : s.linebuf.wf = true → s'.linebuf.wf = true
  below : s.linebuf.below s.cfg.uart.lineMax.val = true → s'.linebuf.below s.cfg.uart.lineMax.val = true
  line : s.linelen.toNat ≤ s.cfg.uart.lineMax.val → s'.linelen.toNat ≤ s.cfg.uart.lineMax.val
  outside : s.linebuf.wf = true → ∀ k, s.cfg.uart.lineMax.val ≤ k → s'.linebuf.read k = s.linebuf.read k

namespace OnLine

variable {s s' s'' : State}

theorem refl (s : State) : OnLine s s where
  frame := ⟨_, _, _, _, _, _, rfl⟩
  mono := le_refl _
  pumped := id
  within := id
  stamp := id
  budget := le_refl _
  wf := id
  below := id
  line := id
  outside := fun _ _ _ => rfl

theorem cfg_eq (h : OnLine s s') : s'.cfg = s.cfg := by obtain ⟨_, _, _, _, _, _, hf⟩ := h.frame; rw [hf]
theorem busy_eq (h : OnLine s s') : s'.busy = s.busy := by obtain ⟨_, _, _, _, _, _, hf⟩ := h.frame; rw [hf]
theorem rsp_eq (h : OnLine s s') : s'.rsp = s.rsp := by obtain ⟨_, _, _, _, _, _, hf⟩ := h.frame; rw [hf]
theorem cmd_eq (h : OnLine s s') : s'.cmd = s.cmd := by obtain ⟨_, _, _, _, _, _, hf⟩ := h.frame; rw [hf]
theorem txbuf_eq (h : OnLine s s') : s'.txbuf = s.txbuf := by obtain ⟨_, _, _, _, _, _, hf⟩ := h.frame; rw [hf]
theorem rxbuf_eq (h : OnLine s s') : s'.rxbuf = s.rxbuf := by obtain ⟨_, _, _, _, _, _, hf⟩ := h.frame; rw [hf]
theorem rxlen_eq (h : OnLine s s') : s'.rxlen = s.rxlen := by obtain ⟨_, _, _, _, _, _, hf⟩ := h.frame; rw [hf]
theorem str0_eq (h : OnLine s s') : s'.str0 = s.str0 := by obtain ⟨_, _, _, _, _, _, hf⟩ := h.frame; rw [hf]
theorem str0len_eq (h : OnLine s s') : s'.str0len = s.str0len := by
  obtain ⟨_, _, _, _, _, _, hf⟩ := h.frame; rw [hf]
theorem str1_eq (h : OnLine s s') : s'.str1 = s.str1 := by obtain ⟨_, _, _, _, _, _, hf⟩ := h.frame; rw [hf]
theorem str1len_eq (h : OnLine s s') : s'.str1len = s.str1len := by
  obtain ⟨_, _, _, _, _, _, hf⟩ := h.frame; rw [hf]
theorem pins_eq (h : OnLine s s') : s'.pins = s.pins := by obtain ⟨_, _, _, _, _, _, hf⟩ := h.frame; rw [hf]
theorem dht_eq (h : OnLine s s') : s'.dht = s.dht := by obtain ⟨_, _, _, _, _, _, hf⟩ := h.frame; rw [hf]
theorem reading_eq (h : OnLine s s') : s'.reading = s.reading := by
  obtain ⟨_, _, _, _, _, _, hf⟩ := h.frame; rw [hf]
theorem session_eq (h : OnLine s s') : s'.session = s.session := by
  obtain ⟨_, _, _, _, _, _, hf⟩ := h.frame; rw [hf]
theorem btn_eq (h : OnLine s s') : s'.btn = s.btn := by obtain ⟨_, _, _, _, _, _, hf⟩ := h.frame; rw [hf]
theorem motor_eq (h : OnLine s s') : s'.motor = s.motor := by obtain ⟨_, _, _, _, _, _, hf⟩ := h.frame; rw [hf]
theorem alarm_eq (h : OnLine s s') : s'.alarm = s.alarm := by obtain ⟨_, _, _, _, _, _, hf⟩ := h.frame; rw [hf]
theorem str0Bytes_eq (h : OnLine s s') : s'.str0Bytes = s.str0Bytes := by
  unfold State.str0Bytes; rw [h.str0_eq, h.str0len_eq]
theorem str1Bytes_eq (h : OnLine s s') : s'.str1Bytes = s.str1Bytes := by
  unfold State.str1Bytes; rw [h.str1_eq, h.str1len_eq]

theorem trans (h : OnLine s s') (h' : OnLine s' s'') : OnLine s s'' := by
  have hc := h.cfg_eq
  refine ⟨?_, le_trans h.mono h'.mono, fun x => h'.pumped (h.pumped x), fun x => ?_,
    fun x => h'.stamp (h.stamp x), le_trans h'.budget h.budget, fun x => h'.wf (h.wf x), fun x => ?_, fun x => ?_,
    fun x k hk => ?_⟩
  · obtain ⟨a, b, c, d, e, f, hf⟩ := h.frame
    obtain ⟨a', b', c', d', e', f', hf'⟩ := h'.frame
    exact ⟨a', b', c', d', e', f', by rw [hf', hf]⟩
  · rw [← hc]; exact h'.within (by rw [hc]; exact h.within x)
  · rw [← hc]; exact h'.below (by rw [hc]; exact h.below x)
  · rw [← hc]; exact h'.line (by rw [hc]; exact h.line x)
  · rw [h'.outside (h.wf x) k (by rw [hc]; exact hk), h.outside x k hk]

theorem now_mono (h : OnLine s s') : s.nowMs ≤ s'.nowMs := State.nowMs_mono h.mono

end OnLine

theorem State.setTime_onLine (s : State) (x : Nat) (h : s.t ≤ x) : OnLine s (s.setTime x) where
  frame := ⟨_, _, _, _, _, _, rfl⟩
  mono := h
  pumped := fun _ => State.setTime_pumped s x
  within := fun hw => rxRun_within _ _ _ _ hw
  stamp := fun hl => rxRun_lastMs_le _ _ _ _ (le_trans hl (State.nowMs_mono (s' := s.setTime x) h))
  budget := rxRun_items _ _ _ _
  wf := id
  below := id
  line := id
  outside := fun _ _ _ => rfl

theorem State.waitItem_onLine (s : State) (dl : Nat) : OnLine s (s.waitItem dl) :=
  State.setTime_onLine s _ (Nat.le_max_left _ _)

/-- The state with another RX.q. -/
def State.withQ (s : State) (q : List RxItem) : State := { s with rx := { s.rx with q := q } }

@[simp] theorem State.withQ_cfg (s : State) (q : List RxItem) : (s.withQ q).cfg = s.cfg := rfl
@[simp] theorem State.withQ_q (s : State) (q : List RxItem) : (s.withQ q).rx.q = q := rfl
@[simp] theorem State.withQ_rx (s : State) (q : List RxItem) : (s.withQ q).rx = { s.rx with q := q } := rfl
@[simp] theorem State.withQ_nowMs (s : State) (q : List RxItem) : (s.withQ q).nowMs = s.nowMs := rfl
@[simp] theorem State.withQ_linebuf (s : State) (q : List RxItem) : (s.withQ q).linebuf = s.linebuf := rfl
@[simp] theorem State.withQ_linelen (s : State) (q : List RxItem) : (s.withQ q).linelen = s.linelen := rfl
@[simp] theorem State.withQ_withQ (s : State) (q q' : List RxItem) : (s.withQ q).withQ q' = s.withQ q' := rfl
theorem State.withQ_budget {s : State} {x : RxItem} {rest : List RxItem} (hq : s.rx.q = x :: rest) :
    (s.withQ rest).rxBudget + 1 = s.rxBudget := by
  have e : (s.withQ rest).env = s.env := rfl
  unfold State.rxBudget rxItems
  rw [e, hq, State.withQ_rx]
  simp only [List.length_cons]
  omega

theorem State.withQ_self (s : State) : s.withQ s.rx.q = s := rfl

/-- Removing an item leaves no receive step newly due. -/
theorem Rx.idleBefore_dropHead (c : UartConfig) (l : Nat) (rx : Rx) (q : List RxItem)
    (h : rx.idleBefore c l = rx) : { rx with q := q }.idleBefore c l = { rx with q := q } := by
  unfold Rx.idleBefore at h ⊢
  have hd : ({ rx with q := q } : Rx).idleDue c = rx.idleDue c := rfl
  rw [hd]
  cases hi : rx.idleDue c with
  | none => rfl
  | some d =>
    simp only [hi] at h ⊢
    split
    · rename_i hlt
      rw [if_pos hlt] at h
      have h1 := (Rx.commit_spec c .idleEol rx).1
      rw [h] at h1
      simp [Rx.idleDue, h1] at hi
    · rfl

theorem rxRun_fixed_iff (c : UartConfig) (now : Nat) (rx : Rx) (arr : List Arrival) :
    rxRun c now rx arr = (rx, arr) ↔ (∀ a rest, arr = a :: rest → now < a.1) ∧ rx.idleBefore c (now + 1) = rx := by
  constructor
  · intro h
    cases arr with
    | nil =>
      simp only [rxRun, Prod.mk.injEq, and_true] at h
      exact ⟨fun a rest h => by simp at h, h⟩
    | cons a rest =>
      obtain ⟨t, b⟩ := a
      simp only [rxRun] at h
      split at h
      · exfalso
        have hlen : ∀ (arr : List Arrival) (rx : Rx), (rxRun c now rx arr).2.length ≤ arr.length := by
          intro arr
          induction arr with
          | nil => intro rx; simp [rxRun]
          | cons a rest ih =>
            intro rx
            obtain ⟨u, v⟩ := a
            simp only [rxRun]
            split
            · exact le_trans (ih _) (by simp)
            · exact le_refl _
        have := hlen rest ((rx.idleBefore c t).arrive c t b)
        rw [h] at this
        simp at this
      · rename_i ht
        simp only [Prod.mk.injEq, and_true] at h
        refine ⟨fun a' rest' h' => ?_, h⟩
        simp only [List.cons.injEq] at h'
        rw [← h'.1]
        simp only
        omega
  · rintro ⟨h1, h2⟩
    cases arr with
    | nil => simp [rxRun, h2]
    | cons a rest =>
      obtain ⟨t, b⟩ := a
      have := h1 (t, b) rest rfl
      simp only at this
      simp only [rxRun]
      rw [if_neg (by omega), h2]

theorem State.dropHead_onLine (s : State) (x : RxItem) (rest : List RxItem) (hq : s.rx.q = x :: rest) :
    OnLine s (s.withQ rest) where
  frame := ⟨_, _, _, _, _, _, rfl⟩
  mono := le_refl _
  pumped := fun h => by
    unfold State.Pumped State.withQ at *
    rw [rxRun_fixed_iff] at h ⊢
    exact ⟨h.1, Rx.idleBefore_dropHead _ _ _ _ h.2⟩
  within := fun h => ⟨h.1, by
    have := h.2.1
    rw [hq] at this
    simp only [List.length_cons] at this
    simp only [State.withQ]
    omega, h.2.2⟩
  stamp := id
  budget := by
    have := State.withQ_budget hq
    omega
  wf := id
  below := id
  line := id
  outside := fun _ _ _ => rfl

theorem State.setLinelen_onLine (s : State) (n : Nat) (h : n ≤ s.cfg.uart.lineMax.val) : OnLine s (s.setLinelen n) where
  frame := ⟨_, _, _, _, _, _, rfl⟩
  mono := le_refl _
  pumped := id
  within := id
  stamp := id
  budget := le_refl _
  wf := id
  below := id
  line := fun _ => by
    have := s.cfg.uart.lineMax.isLt
    simp only [State.setLinelen, BitVec.toNat_ofNat]
    omega
  outside := fun _ _ _ => rfl

theorem State.writeLine_onLine (s : State) (n : Nat) (b : Byte) (h : n < s.cfg.uart.lineMax.val) :
    OnLine s (s.writeLine n b) where
  frame := ⟨_, _, _, _, _, _, rfl⟩
  mono := le_refl _
  pumped := id
  within := id
  stamp := id
  budget := le_refl _
  wf := fun hw => Memory.write_wf _ _ hw
  below := fun hb => Memory.write_below _ hb h
  line := id
  outside := fun hw k hk => Memory.read_write_other _ hw (by omega)

theorem State.transmit_onLine (s : State) (bs : Bytes) : OnLine s (s.transmit bs) where
  frame := ⟨_, _, _, _, _, _, rfl⟩
  mono := le_refl _
  pumped := id
  within := id
  stamp := id
  budget := le_refl _
  wf := id
  below := id
  line := id
  outside := fun _ _ _ => rfl

/-! ## The wait for an item -/

theorem State.nowMs_setTime (s : State) (x : Nat) : (s.setTime x).nowMs = x / 1000 := rfl

/-- The wait ends by the deadline, and short of it RX.q is not empty (R204). -/
theorem State.waitItem_ends (s : State) (dl : Nat) (h : s.nowMs < dl) :
    (s.waitItem dl).nowMs ≤ dl ∧ ((s.waitItem dl).nowMs < dl → (s.waitItem dl).rx.q ≠ []) := by
  have hw := wakeAt_le s.cfg.uart dl s.env.arrivals s.rx
  have hn : (s.waitItem dl).nowMs = max s.nowMs (wakeAt s.cfg.uart dl s.rx s.env.arrivals) := by
    unfold State.waitItem
    rw [State.nowMs_setTime]
    simp only [State.nowMs]
    omega
  refine ⟨by omega, fun hlt => ?_⟩
  have := wakeAt_at s.cfg.uart dl (s.waitItem dl).nowMs s.env.arrivals s.rx (by omega) (by omega)
  exact this

/-- Everything one round of the loops of R204 and R209 can do. -/
theorem State.nextItem_cases (s : State) (dl : Nat) :
    (∃ s1, s.nextItem dl = (none, s1) ∧ OnLine s s1 ∧ dl ≤ s1.nowMs ∧ s1.nowMs ≤ max s.nowMs dl ∧
      s1.trace = s.trace ∧ s1.linebuf = s.linebuf ∧ s1.linelen = s.linelen) ∨
    (∃ x s1, s.nextItem dl = (some x, s1) ∧ OnLine s s1 ∧ s1.nowMs < dl ∧ s1.rxBudget < s.rxBudget ∧
      s1.trace = s.trace ∧ s1.linebuf = s.linebuf ∧ s1.linelen = s.linelen) := by
  unfold State.nextItem
  by_cases hdl : dl ≤ s.nowMs
  · rw [if_pos hdl]
    exact .inl ⟨s, rfl, OnLine.refl s, hdl, Nat.le_max_left _ _, rfl, rfl, rfl⟩
  · rw [if_neg hdl]
    simp only
    have pop : ∀ s1 : State, OnLine s s1 → s1.nowMs < dl → s1.rx.q ≠ [] → s1.trace = s.trace →
        s1.linebuf = s.linebuf → s1.linelen = s.linelen →
        ∃ x s2, s1.popItem = (some x, s2) ∧ OnLine s s2 ∧ s2.nowMs < dl ∧ s2.rxBudget < s.rxBudget ∧
          s2.trace = s.trace ∧ s2.linebuf = s.linebuf ∧ s2.linelen = s.linelen := by
      intro s1 h1 hlt hq htr hb hl
      cases hq1 : s1.rx.q with
      | nil => exact absurd hq1 hq
      | cons x rest =>
        have hp : s1.popItem = (some x, s1.withQ rest) := by
          unfold State.popItem; rw [hq1]; rfl
        refine ⟨x, _, hp, h1.trans (State.dropHead_onLine s1 x rest hq1), hlt, ?_, htr, hb, hl⟩
        refine lt_of_lt_of_le ?_ h1.budget
        have := State.withQ_budget hq1
        omega
    by_cases hq : s.rx.q.isEmpty = true
    · rw [if_pos hq]
      have hw := State.waitItem_ends s dl (by omega)
      have ho := State.waitItem_onLine s dl
      by_cases h2 : dl ≤ (s.waitItem dl).nowMs
      · rw [if_pos h2]
        refine .inl ⟨_, rfl, ho, h2, by omega, rfl, rfl, rfl⟩
      · rw [if_neg h2]
        exact .inr (pop _ ho (by omega) (hw.2 (by omega)) rfl rfl rfl)
    · rw [if_neg hq, if_neg hdl]
      exact .inr (pop s (OnLine.refl s) (by omega) (by simpa using hq) rfl rfl rfl)

/-- With an item in RX.q and time left, the item is taken at once. -/
theorem State.nextItem_head {s : State} {dl : Nat} {x : RxItem} {rest : List RxItem} (h : s.nowMs < dl)
    (hq : s.rx.q = x :: rest) : s.nextItem dl = (some x, s.withQ rest) := by
  unfold State.nextItem
  rw [if_neg (by omega)]
  have he : s.rx.q.isEmpty = false := by rw [hq]; rfl
  simp only [he, Bool.false_eq_true, if_false]
  rw [if_neg (by omega)]
  unfold State.popItem
  rw [hq]
  rfl

/-! ## `readLine` -/

/-- Everything the loop of `readLine` can do: a line of at most `maxLen` bytes, LINELEN telling its length, the time
ended by the deadline, and no bytes at all only at the deadline. -/
theorem readLineLoop_spec (maxLen dl : Nat) (fuel n : Nat) (s : State) (hn : n ≤ maxLen)
    (hm : maxLen ≤ s.cfg.uart.lineMax.val) (hf : s.rxBudget < fuel) :
    let r := readLineLoop maxLen dl fuel n s
    OnLine s r.2 ∧ n ≤ r.1 ∧ r.1 ≤ maxLen ∧ r.2.linelen = BitVec.ofNat 8 r.1 ∧ r.2.nowMs ≤ max s.nowMs dl ∧
      r.2.trace = s.trace ∧ (r.1 = 0 → dl ≤ r.2.nowMs) ∧ (r.1 ≠ n → r.2.rxBudget < s.rxBudget) := by
  induction fuel generalizing n s with
  | zero => omega
  | succ fuel ih =>
    have hm8 : maxLen ≤ 255 := by have := s.cfg.uart.lineMax.isLt; omega
    unfold readLineLoop
    rcases State.nextItem_cases s dl with ⟨s1, he, ho, h1, h2, htr, hb, hl⟩ | ⟨x, s1, he, ho, h1, hbud, htr, hb, hl⟩
    · rw [he]
      simp only
      have hc : s1.cfg.uart.lineMax.val = s.cfg.uart.lineMax.val := by rw [ho.cfg_eq]
      refine ⟨ho.trans (State.setLinelen_onLine s1 n (by omega)), le_refl _, hn, rfl, h2, htr, fun _ => h1, ?_⟩
      intro h; exact absurd rfl h
    · rw [he]
      simp only
      have hc : s1.cfg.uart.lineMax.val = s.cfg.uart.lineMax.val := by rw [ho.cfg_eq]
      cases hx : x.data? with
      | none =>
        simp only
        by_cases hn0 : n = 0
        · rw [if_pos hn0]
          have := ih 0 s1 (by omega) (by omega) (by omega)
          simp only at this
          obtain ⟨k1, k2, k3, k4, k5, k6, k7, k8⟩ := this
          refine ⟨ho.trans k1, by omega, k3, k4, ?_, by rw [k6, htr], k7, fun hne => ?_⟩
          · omega
          · exact lt_of_lt_of_le (k8 (by omega)) (le_of_lt hbud)
        · rw [if_neg hn0]
          refine ⟨ho.trans (State.setLinelen_onLine s1 n (by omega)), le_refl _, hn, rfl, ?_, htr, fun h => absurd h hn0, ?_⟩
          · show s1.nowMs ≤ _
            omega
          · intro h; exact absurd rfl h
      | some b =>
        simp only
        by_cases hlt : n < maxLen
        · rw [if_pos hlt]
          have hw := State.writeLine_onLine s1 n b (by omega)
          have hbud' : (s1.writeLine n b).rxBudget = s1.rxBudget := rfl
          have := ih (n + 1) (s1.writeLine n b) (by omega) (by rw [State.writeLine_cfg, hc]; exact hm) (by omega)
          simp only at this
          obtain ⟨k1, k2, k3, k4, k5, k6, k7, k8⟩ := this
          have hnow : (s1.writeLine n b).nowMs = s1.nowMs := rfl
          refine ⟨(ho.trans hw).trans k1, by omega, k3, k4, by omega, by rw [k6, ← htr]; rfl, k7, fun _ => ?_⟩
          have := k1.budget
          omega
        · rw [if_neg hlt]
          have := ih n s1 hn (by omega) (by omega)
          simp only at this
          obtain ⟨k1, k2, k3, k4, k5, k6, k7, k8⟩ := this
          refine ⟨ho.trans k1, k2, k3, k4, by omega, by rw [k6, htr], k7, fun _ => ?_⟩
          have := k1.budget
          omega

/-- Everything `readLine` can do (R204). -/
theorem readLine_spec (maxLen timeout : Nat) (s : State) (hm : maxLen ≤ s.cfg.uart.lineMax.val) :
    let r := readLine maxLen timeout s
    OnLine s r.2 ∧ r.1 ≤ maxLen ∧ r.2.linelen = BitVec.ofNat 8 r.1 ∧ r.2.nowMs ≤ s.nowMs + timeout ∧
      r.2.trace = s.trace ∧ (r.1 = 0 → s.nowMs + timeout ≤ r.2.nowMs) ∧ (r.1 ≠ 0 → r.2.rxBudget < s.rxBudget) := by
  have h0 := State.setLinelen_onLine s 0 (Nat.zero_le _)
  have h := readLineLoop_spec maxLen (s.nowMs + timeout) (s.rxBudget + 1) 0 (s.setLinelen 0) (Nat.zero_le _)
    (by rw [State.setLinelen_cfg]; exact hm) (Nat.lt_succ_self _)
  simp only at h
  obtain ⟨k1, _, k3, k4, k5, k6, k7, k8⟩ := h
  refine ⟨h0.trans k1, k3, k4, ?_, k6, k7, k8⟩
  have e : (s.setLinelen 0).nowMs = s.nowMs := rfl
  rw [e] at k5
  unfold readLine
  omega

end Sys2Proof.Machine
end

