-- ==== Sys2Proof/Laws/UartReply.lean ====
section
/-! SUPPORT. What `awaitReply`, `awaitByte` and `sendCommand` can do in every environment, and what they make of lines
that stand in RX.q or arrive while they wait. -/

namespace Sys2Proof.Machine

/-! ## In every environment -/

/-- Everything the loop of `awaitReply` can do. -/
theorem awaitReplyLoop_spec (expected : Bytes) (dl fuel : Nat) (s : State) (hf : s.rxBudget + 1 < fuel) :
    let r := awaitReplyLoop expected dl fuel s
    OnLine s r.2 ∧ r.2.nowMs ≤ max s.nowMs dl ∧ r.2.trace = s.trace ∧
      ((r.1 = .protocolTimeout ∧ dl ≤ r.2.nowMs) ∨
        ∃ n, n ≠ 0 ∧ n ≤ s.cfg.uart.lineMax.val ∧ r.2.linelen = BitVec.ofNat 8 n ∧
          lineOutcome s.cfg.uart expected (Memory.prefixBytes r.2.linebuf n) = some r.1) := by
  induction fuel generalizing s with
  | zero => omega
  | succ fuel ih =>
    unfold awaitReplyLoop
    by_cases hdl : dl ≤ s.nowMs
    · rw [if_pos hdl]
      exact ⟨OnLine.refl s, Nat.le_max_left _ _, rfl, .inl ⟨rfl, hdl⟩⟩
    · rw [if_neg hdl]
      simp only
      have hr := readLine_spec s.cfg.uart.lineMax.val (dl - s.nowMs) s (le_refl _)
      simp only at hr
      obtain ⟨k1, k2, k3, k4, k5, k6, k7⟩ := hr
      by_cases hn : (readLine s.cfg.uart.lineMax.val (dl - s.nowMs) s).1 = 0
      · rw [if_pos hn]
        have hdl2 := k6 hn
        cases fuel with
        | zero => omega
        | succ fuel =>
          unfold awaitReplyLoop
          rw [if_pos (by omega)]
          exact ⟨k1, by simp only; omega, k5, .inl ⟨rfl, by simp only; omega⟩⟩
      · rw [if_neg hn]
        have hc := k1.cfg_eq
        cases ho : lineOutcome s.cfg.uart expected (Memory.prefixBytes
            (readLine s.cfg.uart.lineMax.val (dl - s.nowMs) s).2.linebuf
            (readLine s.cfg.uart.lineMax.val (dl - s.nowMs) s).1) with
        | some st =>
          simp only
          exact ⟨k1, by omega, k5, .inr ⟨_, hn, k2, k3, ho⟩⟩
        | none =>
          simp only
          have hb := k7 hn
          have := ih (readLine s.cfg.uart.lineMax.val (dl - s.nowMs) s).2 (by omega)
          simp only at this
          obtain ⟨j1, j2, j3, j4⟩ := this
          rw [hc] at j4
          exact ⟨k1.trans j1, by omega, by rw [j3, k5], j4⟩

/-- Everything `awaitReply` can do (R207). -/
theorem awaitReply_spec (expected : Bytes) (timeout : Nat) (s : State) :
    let r := awaitReply expected timeout s
    OnLine s r.2 ∧ r.2.nowMs ≤ s.nowMs + timeout ∧ r.2.trace = s.trace ∧
      ((r.1 = .protocolTimeout ∧ s.nowMs + timeout ≤ r.2.nowMs) ∨
        ∃ n, n ≠ 0 ∧ n ≤ s.cfg.uart.lineMax.val ∧ r.2.linelen = BitVec.ofNat 8 n ∧
          lineOutcome s.cfg.uart expected (Memory.prefixBytes r.2.linebuf n) = some r.1) := by
  have h := awaitReplyLoop_spec expected (s.nowMs + timeout) (s.rxBudget + 2) s (by omega)
  simp only at h
  refine ⟨h.1, ?_, h.2.2⟩
  have := h.2.1
  unfold awaitReply
  omega

/-- Everything `sendCommand` can do (R210). -/
theorem sendCommand_spec (text expected : Bytes) (timeout : Nat) (s : State) :
    let r := sendCommand text expected timeout s
    OnLine s r.2 ∧ r.2.nowMs ≤ s.nowMs + timeout ∧ r.2.trace = s.trace ++ [.tx (text ++ s.cfg.uart.cmdTerm)] ∧
      ((r.1 = .protocolTimeout ∧ s.nowMs + timeout ≤ r.2.nowMs) ∨
        ∃ n, n ≠ 0 ∧ n ≤ s.cfg.uart.lineMax.val ∧ r.2.linelen = BitVec.ofNat 8 n ∧
          lineOutcome s.cfg.uart expected (Memory.prefixBytes r.2.linebuf n) = some r.1) := by
  have h0 := State.transmit_onLine s (text ++ s.cfg.uart.cmdTerm)
  have h := awaitReply_spec expected timeout (s.transmit (text ++ s.cfg.uart.cmdTerm))
  simp only at h
  exact ⟨h0.trans h.1, h.2.1, h.2.2.1, h.2.2.2⟩

/-- The statuses a line can decide (R207). -/
theorem lineOutcome_status {c : UartConfig} {expected l : Bytes} {st : Status}
    (h : lineOutcome c expected l = some st) : st = .ok ∨ st = .substringMismatch ∨ st = .deviceReportedError := by
  unfold lineOutcome at h
  split at h
  · simp only [Option.some.injEq] at h; exact .inl h.symm
  · split at h
    · simp only [Option.some.injEq] at h; exact .inr (.inl h.symm)
    · split at h
      · simp only [Option.some.injEq] at h; exact .inr (.inr h.symm)
      · simp at h

/-- A command step ends OK or in one of the three failures (R216). -/
theorem sendCommand_status (text expected : Bytes) (timeout : Nat) (s : State) :
    (sendCommand text expected timeout s).1 = .ok ∨ (sendCommand text expected timeout s).1 = .protocolTimeout ∨
      (sendCommand text expected timeout s).1 = .substringMismatch ∨
      (sendCommand text expected timeout s).1 = .deviceReportedError := by
  have h := sendCommand_spec text expected timeout s
  simp only at h
  rcases h.2.2.2 with h | ⟨n, _, _, _, h⟩
  · exact .inr (.inl h.1)
  · rcases lineOutcome_status h with h | h | h
    · exact .inl h
    · exact .inr (.inr (.inl h))
    · exact .inr (.inr (.inr h))

/-- Everything the loop of `awaitByte` can do (R209). -/
theorem awaitByteLoop_spec (c : Byte) (dl fuel : Nat) (s : State) (hf : s.rxBudget < fuel) :
    let r := awaitByteLoop c dl fuel s
    OnLine s r.2 ∧ r.2.nowMs ≤ max s.nowMs dl ∧ r.2.trace = s.trace ∧ r.2.linebuf = s.linebuf ∧
      r.2.linelen = s.linelen ∧ (r.1 = false → dl ≤ r.2.nowMs) := by
  induction fuel generalizing s with
  | zero => omega
  | succ fuel ih =>
    unfold awaitByteLoop
    rcases State.nextItem_cases s dl with ⟨s1, he, ho, h1, h2, htr, hb, hl⟩ | ⟨x, s1, he, ho, h1, hbud, htr, hb, hl⟩
    · rw [he]
      exact ⟨ho, h2, htr, hb, hl, fun _ => h1⟩
    · rw [he]
      simp only
      split
      · exact ⟨ho, by simp only; omega, htr, hb, hl, fun h => by simp at h⟩
      · have := ih s1 (by omega)
        simp only at this
        obtain ⟨k1, k2, k3, k4, k5, k6⟩ := this
        exact ⟨ho.trans k1, by omega, by rw [k3, htr], by rw [k4, hb], by rw [k5, hl], k6⟩

/-- Everything `awaitByte` can do (R209). -/
theorem awaitByte_spec (c : Byte) (timeout : Nat) (s : State) :
    let r := awaitByte c timeout s
    OnLine s r.2 ∧ r.2.nowMs ≤ s.nowMs + timeout ∧ r.2.trace = s.trace ∧ r.2.linebuf = s.linebuf ∧
      r.2.linelen = s.linelen ∧ (r.1 = false → s.nowMs + timeout ≤ r.2.nowMs) := by
  have h := awaitByteLoop_spec c (s.nowMs + timeout) (s.rxBudget + 1) s (by omega)
  simp only at h
  refine ⟨h.1, ?_, h.2.2⟩
  have := h.2.1
  unfold awaitByte
  omega

/-- The awaited byte is not to be received before the deadline. -/
def State.LacksUntil (s : State) (dl : Nat) (b : Byte) : Prop :=
  RxLacks b s.rx ∧ ∀ a ∈ s.env.arrivals, a.1 < dl → a.2 ≠ b

theorem State.LacksUntil.waitItem {s : State} {dl : Nat} {b : Byte} (h : s.LacksUntil dl b)
    (hn : (s.waitItem dl).nowMs < dl) : (s.waitItem dl).LacksUntil dl b :=
  rxRun_lacks s.cfg.uart hn _ _ h.1 h.2

/-- A round of the loops takes no byte that is not to be received before the deadline. -/
theorem State.LacksUntil.nextItem {s s1 : State} {dl : Nat} {b : Byte} {x : RxItem} (h : s.LacksUntil dl b)
    (hx : s.nextItem dl = (some x, s1)) : x ≠ .byte b ∧ s1.LacksUntil dl b := by
  have pop : ∀ s2 : State, s2.LacksUntil dl b → s2.popItem = (some x, s1) → x ≠ .byte b ∧ s1.LacksUntil dl b := by
    intro s2 h2 hp
    unfold State.popItem at hp
    cases hq : s2.rx.q with
    | nil => rw [hq] at hp; simp at hp
    | cons y rest =>
      rw [hq] at hp
      simp only [Prod.mk.injEq, Option.some.injEq] at hp
      obtain ⟨rfl, rfl⟩ := hp
      refine ⟨h2.1.2 y (by rw [hq]; simp), ⟨h2.1.1, fun z hz => h2.1.2 z ?_⟩, h2.2⟩
      rw [hq]
      exact List.mem_cons_of_mem _ hz
  unfold State.nextItem at hx
  split at hx
  · simp at hx
  · simp only at hx
    by_cases hq : s.rx.q.isEmpty = true
    · simp only [hq, if_true] at hx
      split at hx
      · simp at hx
      · exact pop _ (h.waitItem (by omega)) hx
    · rw [if_neg hq] at hx
      split at hx
      · simp at hx
      · exact pop s h hx

/-- A prompt that does not come before the deadline is not found (R209). -/
theorem awaitByteLoop_lacks (c : Byte) (dl fuel : Nat) (s : State) (h : s.LacksUntil dl c) :
    (awaitByteLoop c dl fuel s).1 = false := by
  induction fuel generalizing s with
  | zero => rfl
  | succ fuel ih =>
    unfold awaitByteLoop
    simp only
    cases hx : s.nextItem dl with
    | mk o s1 =>
      cases o with
      | none => rfl
      | some x =>
        obtain ⟨h1, h2⟩ := h.nextItem hx
        simp only [h1, if_false]
        exact ih s1 h2

/-! ## Lines that stand in RX.q -/

/-- The state after a line has been read from RX.q. -/
def State.afterLine (s : State) (bs : Bytes) (rest : List RxItem) : State :=
  { s.withQ rest with linebuf := s.linebuf.writeAll 0 bs, linelen := BitVec.ofNat 8 bs.length }

theorem RxItem.data_of_ends {x : RxItem} (h : x.ends) : x.data? = none := by
  rcases h with h | h | h <;> (subst h; rfl)

theorem RxItem.data_of_content {b : Byte} (h : b ≠ 0x0D ∧ b ≠ 0x0A) : (RxItem.byte b).data? = some b := by
  have h1 : (b == 0x0D) = false := by simpa using h.1
  have h2 : (b == 0x0A) = false := by simpa using h.2
  simp only [RxItem.data?, isTerminator, h1, h2, Bool.or_self, Bool.false_eq_true, if_false]

/-- Leading terminators are skipped (R204). -/
theorem readLineLoop_lead (maxLen dl fuel : Nat) (lead rest : List RxItem) (s : State) (hl : ∀ x ∈ lead, x.ends)
    (hq : s.rx.q = lead ++ rest) (ht : s.nowMs < dl) :
    readLineLoop maxLen dl (fuel + lead.length) 0 s =
      readLineLoop maxLen dl fuel 0 (s.withQ rest) := by
  induction lead generalizing s with
  | nil =>
    simp only [List.nil_append] at hq
    simp only [List.length_nil, Nat.add_zero]
    rw [← hq, State.withQ_self]
  | cons x xs ih =>
    have hx := RxItem.data_of_ends (hl x (by simp))
    have hn := State.nextItem_head (s := s) (dl := dl) (x := x) (rest := xs ++ rest) ht (by rw [hq]; rfl)
    have hfuel : fuel + (x :: xs).length = (fuel + xs.length) + 1 := by simp; omega
    rw [hfuel, readLineLoop, hn]
    simp only [hx, if_true]
    rw [ih (s.withQ (xs ++ rest)) (fun y hy => hl y (by simp [hy])) rfl ht, State.withQ_withQ]

/-- The bytes of a line are stored up to `maxLen` and dropped beyond it, and the item that ends it is removed (R204). -/
theorem readLineLoop_text (maxLen dl fuel n : Nat) (text : Bytes) (stop : RxItem) (rest : List RxItem) (s : State)
    (hc : ∀ b ∈ text, b ≠ 0x0D ∧ b ≠ 0x0A) (hs : stop.ends) (hq : s.rx.q = text.map RxItem.byte ++ stop :: rest)
    (ht : s.nowMs < dl) (hn : n ≤ maxLen) (hm : 0 < maxLen) (hne : n = 0 → text ≠ []) :
    readLineLoop maxLen dl (fuel + text.length + 1) n s =
      (min (n + text.length) maxLen,
        { s.withQ rest with
          linebuf := s.linebuf.writeAll n (text.take (maxLen - n))
          linelen := BitVec.ofNat 8 (min (n + text.length) maxLen) }) := by
  induction text generalizing n s with
  | nil =>
    have hn0 : n ≠ 0 := fun h => hne h rfl
    have hi := State.nextItem_head (s := s) (dl := dl) (x := stop) (rest := rest) ht (by rw [hq]; rfl)
    simp only [List.length_nil, Nat.add_zero, readLineLoop, hi, RxItem.data_of_ends hs, hn0, if_false,
      List.take_nil, Memory.writeAll]
    rw [Nat.min_eq_left hn]
    rfl
  | cons b bs ih =>
    have hb := RxItem.data_of_content (hc b (by simp))
    have hi := State.nextItem_head (s := s) (dl := dl) (x := .byte b) (rest := bs.map RxItem.byte ++ stop :: rest) ht
      (by rw [hq]; rfl)
    have hfuel : fuel + (b :: bs).length + 1 = (fuel + bs.length + 1) + 1 := by simp; omega
    rw [hfuel, readLineLoop, hi]
    simp only [hb]
    by_cases hlt : n < maxLen
    · rw [if_pos hlt]
      rw [ih (n + 1) ((s.withQ (bs.map RxItem.byte ++ stop :: rest)).writeLine n b) (fun x hx => hc x (by simp [hx])) rfl ht (by omega) (by omega)]
      have h1 : n + 1 + bs.length = n + (b :: bs).length := by simp; omega
      have h2 : (b :: bs).take (maxLen - n) = b :: bs.take (maxLen - (n + 1)) := by
        have : maxLen - n = (maxLen - (n + 1)) + 1 := by omega
        rw [this, List.take_succ_cons]
      rw [h1, h2]
      rfl
    · rw [if_neg hlt]
      have hnm : n = maxLen := by omega
      rw [ih n (s.withQ (bs.map RxItem.byte ++ stop :: rest)) (fun x hx => hc x (by simp [hx])) rfl ht hn (by omega)]
      have h1 : min (n + bs.length) maxLen = min (n + (b :: bs).length) maxLen := by simp; omega
      have h2 : maxLen - n = 0 := by omega
      rw [h1, h2]
      simp

/-- More fuel than items to come changes nothing: `readLine` on a queued line. -/
theorem readLine_queued {maxLen timeout : Nat} {l : QueuedLine} {rest : List RxItem} {s : State} (hl : l.IsLine)
    (hq : s.rx.q = l.items ++ rest) (ht : 0 < timeout) (hm : 0 < maxLen) :
    readLine maxLen timeout s = (min l.text.length maxLen, s.afterLine (l.text.take maxLen) rest) := by
  have hb : l.lead.length + l.text.length + 1 ≤ s.rxBudget + 1 := by
    simp only [State.rxBudget, rxItems, hq, QueuedLine.items, List.length_append, List.length_map,
      List.length_cons, List.length_nil]
    omega
  obtain ⟨f, hf⟩ : ∃ f, s.rxBudget + 1 = (f + l.text.length + 1) + l.lead.length :=
    ⟨s.rxBudget + 1 - (l.lead.length + l.text.length + 1), by omega⟩
  unfold readLine
  rw [hf]
  have hnow : (s.setLinelen 0).nowMs < s.nowMs + timeout := by
    show s.nowMs < s.nowMs + timeout
    omega
  rw [readLineLoop_lead maxLen _ _ l.lead (l.text.map RxItem.byte ++ l.stop :: rest) (s.setLinelen 0) hl.lead
    (by rw [State.setLinelen_rx, hq]; simp [QueuedLine.items]) hnow]
  rw [readLineLoop_text maxLen _ f 0 l.text l.stop rest ((s.setLinelen 0).withQ (l.text.map RxItem.byte ++ l.stop :: rest)) hl.content hl.stop rfl hnow (Nat.zero_le _) hm
    (fun _ => hl.text)]
  simp only [Nat.zero_add, Nat.sub_zero]
  refine Prod.ext rfl ?_
  simp only [State.afterLine, List.length_take]
  rw [Nat.min_comm]
  rfl

/-- The status a line decides, as the model's own test has it (R207). -/
theorem decides_iff (c : UartConfig) (expected l : Bytes) (code : Byte) :
    Decides c expected l code ↔ ∃ st, lineOutcome c expected l = some st ∧ st.code = code := by
  unfold Decides lineOutcome
  have hm : (!c.errCodeMarker.isEmpty) = true ↔ c.errCodeMarker ≠ [] := by
    cases c.errCodeMarker <;> simp
  by_cases h1 : contains l expected = true
  · rw [if_pos h1]
    constructor
    · rintro (h | h | h)
      · exact ⟨_, rfl, h.2.symm⟩
      · rw [h1] at h; simp at h
      · rw [h1] at h; simp at h
    · rintro ⟨st, h4, h5⟩
      simp only [Option.some.injEq] at h4
      subst h4
      exact .inl ⟨h1, h5.symm⟩
  · rw [if_neg h1]
    rw [Bool.not_eq_true] at h1
    by_cases h2 : c.errCodeMarker ≠ [] ∧ contains l c.errCodeMarker = true
    · rw [if_pos (by rw [Bool.and_eq_true, hm]; exact h2)]
      constructor
      · rintro (h | h | h)
        · rw [h1] at h; simp at h
        · exact ⟨_, rfl, h.2.2.2.symm⟩
        · rcases h.2.1 with h4 | h4
          · exact absurd h4 h2.1
          · rw [h2.2] at h4; simp at h4
      · rintro ⟨st, h4, h5⟩
        simp only [Option.some.injEq] at h4
        subst h4
        exact .inr (.inl ⟨h1, h2.1, h2.2, h5.symm⟩)
    · rw [if_neg (by rw [Bool.and_eq_true, hm]; exact h2)]
      have h2' : c.errCodeMarker = [] ∨ contains l c.errCodeMarker = false := by
        by_cases h : c.errCodeMarker = []
        · exact .inl h
        · exact .inr (by rw [← Bool.not_eq_true]; exact fun h3 => h2 ⟨h, h3⟩)
      by_cases h3 : contains l c.errGeneric = true
      · rw [if_pos h3]
        simp only [h1, h3, h2', true_and]
        constructor
        · rintro (h | ⟨h4, h5, h6⟩ | h)
          · simp at h
          · exact absurd ⟨h4, h5⟩ h2
          · exact ⟨_, rfl, h.symm⟩
        · rintro ⟨st, h4, h5⟩
          simp only [Option.some.injEq] at h4
          subst h4
          exact .inr (.inr h5.symm)
      · rw [if_neg h3]
        simp only [h1, h3]
        constructor
        · rintro (h | ⟨_, h4, h5, h6⟩ | h)
          · simp at h
          · exact absurd ⟨h4, h5⟩ h2
          · simp at h
        · rintro ⟨st, h4, _⟩
          simp at h4

theorem ignored_iff (c : UartConfig) (expected l : Bytes) :
    Ignored c expected l ↔ lineOutcome c expected l = none := by
  unfold Ignored
  simp only [decides_iff]
  cases h : lineOutcome c expected l with
  | none => simp
  | some st => simp

/-- A whole line read from RX.q into LINEBUF. -/
theorem readLine_fits {timeout : Nat} {l : QueuedLine} {rest : List RxItem} {s : State} (hl : l.Fits s.cfg.uart)
    (hq : s.rx.q = l.items ++ rest) (ht : 0 < timeout) :
    readLine s.cfg.uart.lineMax.val timeout s = (l.text.length, s.afterLine l.text rest) := by
  have hpos : 0 < l.text.length := List.length_pos_iff.mpr hl.1.text
  have := hl.2
  rw [readLine_queued hl.1 hq ht (by omega), Nat.min_eq_left hl.2, List.take_of_length_le hl.2]

/-- One more unit of fuel than the lines to come: what `awaitReply` makes of queued lines, the last of which decides. -/
theorem awaitReplyLoop_queued (expected : Bytes) (dl : Nat) (ignored : List QueuedLine) (l : QueuedLine)
    (rest : List RxItem) (st : Status) (fuel : Nat) (s : State) (hwf : s.linebuf.wf = true)
    (hi : ∀ x ∈ ignored, x.Fits s.cfg.uart ∧ lineOutcome s.cfg.uart expected x.text = none)
    (hl : l.Fits s.cfg.uart) (ho : lineOutcome s.cfg.uart expected l.text = some st)
    (hq : s.rx.q = queuedItems ignored ++ l.items ++ rest) (ht : s.nowMs < dl) (hf : ignored.length < fuel) :
    ∃ m : Memory, m.wf = true ∧ m.prefixBytes l.text.length = l.text ∧
      awaitReplyLoop expected dl fuel s =
        (st, { s.withQ rest with linebuf := m, linelen := BitVec.ofNat 8 l.text.length }) := by
  induction ignored generalizing s fuel with
  | nil =>
    obtain ⟨f, rfl⟩ : ∃ f, fuel = f + 1 := ⟨fuel - 1, by simp at hf; omega⟩
    have hq' : s.rx.q = l.items ++ rest := by simpa [queuedItems] using hq
    have hr := readLine_fits (timeout := dl - s.nowMs) hl hq' (by omega)
    have hpos : l.text.length ≠ 0 := by
      have := List.length_pos_iff.mpr hl.1.text
      omega
    refine ⟨s.linebuf.writeAll 0 l.text, Memory.writeAll_wf 0 _ hwf, Memory.prefixBytes_writeAll _ hwf, ?_⟩
    unfold awaitReplyLoop
    rw [if_neg (by omega)]
    simp only [hr, hpos, if_false]
    have hp : (s.afterLine l.text rest).linebuf.prefixBytes l.text.length = l.text :=
      Memory.prefixBytes_writeAll _ hwf
    rw [hp, ho]
    rfl
  | cons x xs ih =>
    obtain ⟨f, rfl⟩ : ∃ f, fuel = f + 1 := ⟨fuel - 1, by simp at hf; omega⟩
    have hx := hi x (by simp)
    have hq' : s.rx.q = x.items ++ (queuedItems xs ++ l.items ++ rest) := by
      simpa [queuedItems, List.append_assoc] using hq
    have hr := readLine_fits (timeout := dl - s.nowMs) hx.1 hq' (by omega)
    have hpos : x.text.length ≠ 0 := by
      have := List.length_pos_iff.mpr hx.1.1.text
      omega
    have hp : (s.afterLine x.text (queuedItems xs ++ l.items ++ rest)).linebuf.prefixBytes x.text.length = x.text :=
      Memory.prefixBytes_writeAll _ hwf
    obtain ⟨m, m1, m2, m3⟩ := ih f (s.afterLine x.text (queuedItems xs ++ l.items ++ rest))
      (Memory.writeAll_wf 0 _ hwf) (fun y hy => hi y (by simp [hy])) hl ho rfl ht
      (by simp only [List.length_cons] at hf; omega)
    refine ⟨m, m1, m2, ?_⟩
    unfold awaitReplyLoop
    rw [if_neg (by omega)]
    simp only [hr, hpos, if_false]
    rw [hp, hx.2]
    exact m3

theorem queuedItems_length (ls : List QueuedLine) : ls.length ≤ (queuedItems ls).length := by
  induction ls with
  | nil => simp
  | cons x xs ih =>
    simp only [queuedItems, List.flatMap_cons, List.length_append, List.length_cons] at ih ⊢
    have : 1 ≤ x.items.length := by simp only [QueuedLine.items, List.length_append, List.length_cons]; omega
    omega

/-- `awaitReply` on queued lines (R207). -/
theorem awaitReply_queued {expected : Bytes} {timeout : Nat} {ignored : List QueuedLine} {l : QueuedLine}
    {rest : List RxItem} {st : Status} {s : State} (hwf : s.linebuf.wf = true)
    (hi : ∀ x ∈ ignored, x.Fits s.cfg.uart ∧ lineOutcome s.cfg.uart expected x.text = none)
    (hl : l.Fits s.cfg.uart) (ho : lineOutcome s.cfg.uart expected l.text = some st)
    (hq : s.rx.q = queuedItems ignored ++ l.items ++ rest) (ht : 0 < timeout) :
    ∃ m : Memory, m.wf = true ∧ m.prefixBytes l.text.length = l.text ∧
      awaitReply expected timeout s =
        (st, { s.withQ rest with linebuf := m, linelen := BitVec.ofNat 8 l.text.length }) := by
  refine awaitReplyLoop_queued expected _ ignored l rest st _ s hwf hi hl ho hq (by omega) ?_
  have h1 := queuedItems_length ignored
  simp only [State.rxBudget, rxItems, hq, List.length_append]
  omega

/-- `sendCommand` on queued lines, the last of which decides (R210). -/
theorem sendCommand_queued {text expected : Bytes} {timeout : Nat} {ignored : List QueuedLine} {l : QueuedLine}
    {rest : List RxItem} {st : Status} {s : State} (hwf : s.linebuf.wf = true)
    (hi : ∀ x ∈ ignored, x.Fits s.cfg.uart ∧ lineOutcome s.cfg.uart expected x.text = none)
    (hl : l.Fits s.cfg.uart) (ho : lineOutcome s.cfg.uart expected l.text = some st)
    (hq : s.rx.q = queuedItems ignored ++ l.items ++ rest) (ht : 0 < timeout) :
    ∃ m : Memory, m.wf = true ∧ m.prefixBytes l.text.length = l.text ∧
      sendCommand text expected timeout s = (st, { s.withQ rest with
        trace := s.trace ++ [.tx (text ++ s.cfg.uart.cmdTerm)]
        linebuf := m, linelen := BitVec.ofNat 8 l.text.length }) :=
  awaitReply_queued (s := s.transmit (text ++ s.cfg.uart.cmdTerm)) hwf hi hl ho hq ht

/-- Items before the awaited byte are discarded (R209). -/
theorem awaitByteLoop_queued (c : Byte) (dl fuel : Nat) (junk rest : List RxItem) (s : State)
    (hj : ∀ x ∈ junk, x ≠ .byte c) (hq : s.rx.q = junk ++ .byte c :: rest) (ht : s.nowMs < dl)
    (hf : junk.length < fuel) :
    awaitByteLoop c dl fuel s = (true, s.withQ rest) := by
  induction junk generalizing s fuel with
  | nil =>
    obtain ⟨f, rfl⟩ : ∃ f, fuel = f + 1 := ⟨fuel - 1, by simp at hf; omega⟩
    have hi := State.nextItem_head (s := s) (dl := dl) (x := .byte c) (rest := rest) ht (by rw [hq]; rfl)
    simp [awaitByteLoop, hi]
  | cons x xs ih =>
    obtain ⟨f, rfl⟩ : ∃ f, fuel = f + 1 := ⟨fuel - 1, by simp at hf; omega⟩
    have hi := State.nextItem_head (s := s) (dl := dl) (x := x) (rest := xs ++ .byte c :: rest) ht (by rw [hq]; rfl)
    have hx := hj x (by simp)
    simp only [awaitByteLoop, hi, hx, if_false]
    exact ih f (s.withQ (xs ++ .byte c :: rest)) (fun y hy => hj y (by simp [hy])) rfl ht
      (by simp only [List.length_cons] at hf; omega)

theorem awaitByte_queued {c : Byte} {timeout : Nat} {junk rest : List RxItem} {s : State}
    (hj : ∀ x ∈ junk, x ≠ .byte c) (hq : s.rx.q = junk ++ .byte c :: rest) (ht : 0 < timeout) :
    awaitByte c timeout s = (true, s.withQ rest) := by
  refine awaitByteLoop_queued c _ _ junk rest s hj hq (by omega) ?_
  simp only [State.rxBudget, rxItems, hq, List.length_append, List.length_cons]
  omega

/-! ## Waiting for an item -/

theorem State.waitItem_eq {s : State} {dl w : Nat} (hw : wakeAt s.cfg.uart dl s.rx s.env.arrivals = w)
    (h : s.nowMs < w) : s.waitItem dl = s.setTime (1000 * w) := by
  unfold State.waitItem
  rw [hw, Nat.max_eq_right]
  simp only [State.nowMs] at h
  omega

/-- Nothing received, nothing arriving before the deadline: the round ends at the deadline. -/
theorem State.nextItem_quiet {s : State} {dl : Nat} (hn : s.nowMs < dl) (hq : s.rx.q = []) (ha : s.rx.acc = [])
    (h : ∀ a ∈ s.env.arrivals, dl ≤ a.1) : s.nextItem dl = (none, s.setTime (1000 * dl)) := by
  have hw := State.waitItem_eq (wakeAt_quiet s.cfg.uart dl s.rx s.env.arrivals hq ha h) hn
  have ht : dl ≤ (s.setTime (1000 * dl)).nowMs := by rw [State.nowMs_setTime]; omega
  unfold State.nextItem
  rw [if_neg (by omega)]
  simp only [hq, List.isEmpty_nil, if_true, hw]
  rw [if_pos ht]

/-- A wait that ends short of the deadline: the round is that of the state at the end of the wait. -/
theorem State.nextItem_wait {s : State} {dl w : Nat} (hn : s.nowMs < w) (hw : w < dl) (hq : s.rx.q = [])
    (h : wakeAt s.cfg.uart dl s.rx s.env.arrivals = w) : s.nextItem dl = (s.setTime (1000 * w)).nextItem dl := by
  have ht : (s.setTime (1000 * w)).nowMs = w := by rw [State.nowMs_setTime]; omega
  have hne : (s.setTime (1000 * w)).rx.q ≠ [] := by
    have hx : (1000 * w) / 1000 = w := by omega
    show (rxRun s.cfg.uart (1000 * w / 1000) s.rx s.env.arrivals).1.q ≠ []
    rw [hx]
    exact wakeAt_at s.cfg.uart dl w s.env.arrivals s.rx (by omega) (by omega)
  have he : (s.setTime (1000 * w)).rx.q.isEmpty = false := by simpa using hne
  have h1 : ¬ dl ≤ s.nowMs := by omega
  have h2 : ¬ dl ≤ (s.setTime (1000 * w)).nowMs := by omega
  unfold State.nextItem
  simp only [h1, if_false, hq, List.isEmpty_nil, if_true, State.waitItem_eq h hn, he, Bool.false_eq_true, h2]

theorem readLineLoop_wait {maxLen dl fuel n w : Nat} {s : State} (hn : s.nowMs < w) (hw : w < dl) (hq : s.rx.q = [])
    (h : wakeAt s.cfg.uart dl s.rx s.env.arrivals = w) :
    readLineLoop maxLen dl (fuel + 1) n s = readLineLoop maxLen dl (fuel + 1) n (s.setTime (1000 * w)) := by
  unfold readLineLoop
  rw [State.nextItem_wait hn hw hq h]

/-- The state in which the deadline ends a read that has stored `text`. -/
def State.cutLine (s : State) (dl : Nat) (bs : Bytes) : State :=
  { (s.withQ []).setTime (1000 * dl) with
    linebuf := s.linebuf.writeAll 0 bs, linelen := BitVec.ofNat 8 bs.length }

/-- Bytes with no item that ends their line, cut short by the deadline (R204). -/
theorem readLineLoop_cut (maxLen dl fuel n : Nat) (text : Bytes) (s : State)
    (hc : ∀ b ∈ text, b ≠ 0x0D ∧ b ≠ 0x0A) (hq : s.rx.q = text.map RxItem.byte) (ha : s.rx.acc = [])
    (h : ∀ a ∈ s.env.arrivals, dl ≤ a.1) (ht : s.nowMs < dl) (hn : n ≤ maxLen) :
    readLineLoop maxLen dl (fuel + text.length + 1) n s =
      (min (n + text.length) maxLen,
        { (s.withQ []).setTime (1000 * dl) with
          linebuf := s.linebuf.writeAll n (text.take (maxLen - n))
          linelen := BitVec.ofNat 8 (min (n + text.length) maxLen) }) := by
  induction text generalizing n s with
  | nil =>
    have hq' : s.rx.q = [] := by simpa using hq
    have hs : s.withQ [] = s := by rw [← hq', State.withQ_self]
    simp only [List.length_nil, Nat.add_zero, readLineLoop, State.nextItem_quiet ht hq' ha h, List.take_nil,
      Memory.writeAll, hs]
    rw [Nat.min_eq_left hn]
    rfl
  | cons b bs ih =>
    have hb := RxItem.data_of_content (hc b (by simp))
    have hi := State.nextItem_head (s := s) (dl := dl) (x := .byte b) (rest := bs.map RxItem.byte) ht
      (by rw [hq]; rfl)
    have hfuel : fuel + (b :: bs).length + 1 = (fuel + bs.length + 1) + 1 := by simp; omega
    rw [hfuel, readLineLoop, hi]
    simp only [hb]
    by_cases hlt : n < maxLen
    · rw [if_pos hlt]
      rw [ih (n + 1) ((s.withQ (bs.map RxItem.byte)).writeLine n b) (fun x hx => hc x (by simp [hx])) rfl ha h ht
        (by omega)]
      have h1 : n + 1 + bs.length = n + (b :: bs).length := by simp; omega
      have h2 : (b :: bs).take (maxLen - n) = b :: bs.take (maxLen - (n + 1)) := by
        have : maxLen - n = (maxLen - (n + 1)) + 1 := by omega
        rw [this, List.take_succ_cons]
      rw [h1, h2]
      rfl
    · rw [if_neg hlt]
      have hnm : n = maxLen := by omega
      rw [ih n (s.withQ (bs.map RxItem.byte)) (fun x hx => hc x (by simp [hx])) rfl ha h ht hn]
      have h1 : min (n + bs.length) maxLen = min (n + (b :: bs).length) maxLen := by simp; omega
      have h2 : maxLen - n = 0 := by omega
      rw [h1, h2]
      simp

/-- `readLine` of terminators and bytes that no item ends, with nothing more before the deadline (R204). -/
theorem readLine_cut {maxLen timeout : Nat} {lead : List RxItem} {text : Bytes} {s : State} (hl : ∀ x ∈ lead, x.ends)
    (hc : ∀ b ∈ text, b ≠ 0x0D ∧ b ≠ 0x0A) (hq : s.rx.q = lead ++ text.map RxItem.byte) (ha : s.rx.acc = [])
    (ht : 0 < timeout) (h : ∀ a ∈ s.env.arrivals, s.nowMs + timeout ≤ a.1) :
    readLine maxLen timeout s =
      (min text.length maxLen, s.cutLine (s.nowMs + timeout) (text.take maxLen)) := by
  obtain ⟨f, hf⟩ : ∃ f, s.rxBudget + 1 = (f + text.length + 1) + lead.length := by
    refine ⟨s.rxBudget + 1 - (lead.length + text.length + 1), ?_⟩
    have : lead.length + text.length ≤ s.rxBudget := by
      simp only [State.rxBudget, rxItems, hq, List.length_append, List.length_map]
      omega
    omega
  have hnow : (s.setLinelen 0).nowMs < s.nowMs + timeout := by
    show s.nowMs < s.nowMs + timeout
    omega
  unfold readLine
  rw [hf, readLineLoop_lead maxLen _ _ lead (text.map RxItem.byte) (s.setLinelen 0) hl hq hnow,
    readLineLoop_cut maxLen _ f 0 text ((s.setLinelen 0).withQ (text.map RxItem.byte)) hc rfl ha h hnow
      (Nat.zero_le _)]
  simp only [Nat.zero_add, Nat.sub_zero]
  refine Prod.ext rfl ?_
  simp only [State.cutLine, List.length_take]
  rw [Nat.min_comm]
  rfl

/-- A line that arrives in one later millisecond before the deadline, after terminators only (R200, R204). -/
theorem readLine_later {timeout m : Nat} {lead : List RxItem} {text : Bytes} {stop : Byte} {later : List Arrival}
    {s : State} (hl : ∀ x ∈ lead, x.ends) (hq : s.rx.q = lead) (ha : s.rx.acc = [])
    (harr : s.env.arrivals = text.map (fun b => (m, b)) ++ (m, stop) :: later) (h1 : s.nowMs < m)
    (h2 : m < s.nowMs + timeout) (hne : text ≠ []) (hc : ∀ b ∈ text, b ≠ 0x0D ∧ b ≠ 0x0A)
    (hs : stop = 0x0D ∨ stop = 0x0A) (hlen : text.length ≤ s.cfg.uart.lineMax.val)
    (hacc : text.length ≤ s.cfg.uart.rxAccCap) (hcap : text.length < s.cfg.uart.rxQCap) :
    ∃ rest, readLine s.cfg.uart.lineMax.val timeout s =
      (text.length, ((s.withQ []).setTime (1000 * m)).afterLine text rest) := by
  obtain ⟨f, hf⟩ : ∃ f, s.rxBudget + 1 = (f + text.length + 1) + lead.length := by
    refine ⟨s.rxBudget + 1 - (lead.length + text.length + 1), ?_⟩
    have : lead.length + text.length ≤ s.rxBudget := by
      simp only [State.rxBudget, rxItems, hq, harr, List.length_append, List.length_map, List.length_cons]
      omega
    omega
  have hstop : (RxItem.byte stop).ends := by
    rcases hs with rfl | rfl
    · exact .inl rfl
    · exact .inr (.inl rfl)
  have hw : wakeAt s.cfg.uart (s.nowMs + timeout) ((s.setLinelen 0).withQ []).rx s.env.arrivals = m := by
    rw [harr]
    exact wakeAt_line s.cfg.uart _ m h2 text stop later _ rfl ha hc hs hacc hcap
  obtain ⟨rest, hrest⟩ :=
    rxRun_line s.cfg.uart m text stop later ((s.setLinelen 0).withQ []).rx rfl ha hc hs hacc hcap
  have hx : 1000 * m / 1000 = m := by omega
  have hq2 : (((s.setLinelen 0).withQ []).setTime (1000 * m)).rx.q = text.map RxItem.byte ++ .byte stop :: rest := by
    rw [← hrest, ← harr]
    show (rxRun s.cfg.uart (1000 * m / 1000) _ s.env.arrivals).1.q = _
    rw [hx]
  have hnow : (((s.setLinelen 0).withQ []).setTime (1000 * m)).nowMs < s.nowMs + timeout := by
    rw [State.nowMs_setTime, hx]
    exact h2
  have hpos : 0 < text.length := List.length_pos_iff.mpr hne
  refine ⟨rest, ?_⟩
  unfold readLine
  rw [hf, readLineLoop_lead s.cfg.uart.lineMax.val _ _ lead [] (s.setLinelen 0) hl (by rw [List.append_nil]; exact hq)
    (by show s.nowMs < _; omega)]
  rw [readLineLoop_wait (s := (s.setLinelen 0).withQ []) h1 h2 rfl hw,
    readLineLoop_text s.cfg.uart.lineMax.val _ f 0 text (.byte stop) rest _ hc hstop hq2 hnow (Nat.zero_le _)
      (by omega) (fun _ => hne)]
  simp only [Nat.zero_add, Nat.sub_zero, Nat.min_eq_left hlen, List.take_of_length_le hlen]
  rfl

/-- A line in RX.q that decides nothing is passed over (R207). -/
theorem awaitReplyLoop_ignored {expected : Bytes} {dl fuel : Nat} {l : QueuedLine} {rest : List RxItem} {s : State}
    (hwf : s.linebuf.wf = true) (hl : l.Fits s.cfg.uart) (ho : lineOutcome s.cfg.uart expected l.text = none)
    (hq : s.rx.q = l.items ++ rest) (ht : s.nowMs < dl) :
    awaitReplyLoop expected dl (fuel + 1) s = awaitReplyLoop expected dl fuel (s.afterLine l.text rest) := by
  have hr := readLine_fits (timeout := dl - s.nowMs) hl hq (by omega)
  have hpos : l.text.length ≠ 0 := by
    have := List.length_pos_iff.mpr hl.1.text
    omega
  have hp : (s.afterLine l.text rest).linebuf.prefixBytes l.text.length = l.text :=
    Memory.prefixBytes_writeAll _ hwf
  rw [awaitReplyLoop, if_neg (by omega)]
  simp only [hr, hpos, if_false, hp, ho]

/-- With terminators only in RX.q and nothing arriving before the deadline, the reply wait ends there (R207). -/
theorem awaitReplyLoop_quiet {expected : Bytes} {dl fuel : Nat} {s : State} (hl : ∀ x ∈ s.rx.q, x.ends)
    (ha : s.rx.acc = []) (h : ∀ a ∈ s.env.arrivals, dl ≤ a.1) (ht : s.nowMs ≤ dl) :
    ∃ s', awaitReplyLoop expected dl (fuel + 2) s = (.protocolTimeout, s') ∧ s'.nowMs = dl := by
  rw [awaitReplyLoop]
  by_cases hdl : dl ≤ s.nowMs
  · rw [if_pos hdl]
    exact ⟨s, rfl, by omega⟩
  · rw [if_neg hdl]
    have hd : s.nowMs + (dl - s.nowMs) = dl := by omega
    have hr := readLine_cut (maxLen := s.cfg.uart.lineMax.val) (timeout := dl - s.nowMs) (lead := s.rx.q) (text := [])
      (s := s) hl (by simp) (by simp) ha (by omega) (by rw [hd]; exact h)
    have hn : (s.cutLine dl []).nowMs = dl := by
      show 1000 * dl / 1000 = dl
      omega
    simp only [hd, List.length_nil, Nat.zero_min, List.take_nil] at hr
    simp only [hr, if_true]
    rw [awaitReplyLoop, if_pos (by omega)]
    exact ⟨_, rfl, hn⟩

/-- A reply line that arrives in one later millisecond before the deadline, with only terminators in RX.q, decides
then (R200, R202, R207). -/
theorem awaitReplyLoop_later {expected : Bytes} {dl fuel m : Nat} {text : Bytes} {stop : Byte}
    {later : List Arrival} {st : Status} {s : State} (hwf : s.linebuf.wf = true) (hl : ∀ x ∈ s.rx.q, x.ends)
    (ha : s.rx.acc = []) (harr : s.env.arrivals = text.map (fun b => (m, b)) ++ (m, stop) :: later) (h1 : s.nowMs < m)
    (h2 : m < dl) (hne : text ≠ []) (hc : ∀ b ∈ text, b ≠ 0x0D ∧ b ≠ 0x0A) (hs : stop = 0x0D ∨ stop = 0x0A)
    (hlen : text.length ≤ s.cfg.uart.lineMax.val) (hacc : text.length ≤ s.cfg.uart.rxAccCap)
    (hcap : text.length < s.cfg.uart.rxQCap) (ho : lineOutcome s.cfg.uart expected text = some st) :
    ∃ rest, awaitReplyLoop expected dl (fuel + 1) s =
      (st, ((s.withQ []).setTime (1000 * m)).afterLine text rest) := by
  obtain ⟨rest, hr⟩ := readLine_later (timeout := dl - s.nowMs) hl rfl ha harr h1 (by omega) hne hc hs hlen hacc hcap
  have hpos : text.length ≠ 0 := by
    have := List.length_pos_iff.mpr hne
    omega
  have hp : (((s.withQ []).setTime (1000 * m)).afterLine text rest).linebuf.prefixBytes text.length = text :=
    Memory.prefixBytes_writeAll _ hwf
  refine ⟨rest, ?_⟩
  rw [awaitReplyLoop, if_neg (by omega)]
  simp only [hr, hpos, if_false, hp, ho]

/-- A prompt that arrives while the operation waits, alone or with bytes after it, is seen at its idle commit (R202,
R209, R354 (3)). -/
theorem awaitByte_idle {c : Byte} {timeout m : Nat} {more : Bytes} {later : List Arrival} {s : State}
    (hj : ∀ x ∈ s.rx.q, x ≠ .byte c) (ha : s.rx.acc = [])
    (harr : s.env.arrivals = (m, c) :: more.map (fun b => (m, b)) ++ later)
    (hlater : ∀ a ∈ later, m + s.cfg.uart.tIdleCommitMs < a.1) (h1 : s.nowMs < m)
    (h2 : m + s.cfg.uart.tIdleCommitMs < s.nowMs + timeout) (hc : ∀ b ∈ c :: more, b ≠ 0x0D ∧ b ≠ 0x0A)
    (hacc : more.length < s.cfg.uart.rxAccCap) (hcap : more.length + 1 < s.cfg.uart.rxQCap) :
    ∃ s', awaitByte c timeout s = (true, s') ∧ OnLine s s' ∧ s'.nowMs = m + s.cfg.uart.tIdleCommitMs ∧
      s'.trace = s.trace ∧ s'.linebuf = s.linebuf ∧ s'.rx.acc = [] ∧ s'.env.arrivals = later ∧
      s'.rx.q = more.map RxItem.byte ++ [RxItem.idleEol] := by
  have harr' : s.env.arrivals = (c :: more).map (fun b => (m, b)) ++ later := harr
  have junk : ∀ (q : List RxItem) (fuel : Nat) (dl : Nat) (u : State), (∀ x ∈ q, x ≠ .byte c) → u.rx.q = q →
      u.nowMs < dl → awaitByteLoop c dl (fuel + q.length) u = awaitByteLoop c dl fuel (u.withQ []) := by
    intro q
    induction q with
    | nil =>
      intro fuel dl u _ hq _
      rw [← hq, State.withQ_self, hq]
      rfl
    | cons x xs ih =>
      intro fuel dl u hx hq ht
      have hi := State.nextItem_head (s := u) (dl := dl) (x := x) (rest := xs) ht hq
      have hx0 := hx x (by simp)
      show awaitByteLoop c dl (fuel + xs.length + 1) u = _
      rw [awaitByteLoop, hi]
      simp only [hx0, if_false]
      exact ih fuel dl (u.withQ xs) (fun y hy => hx y (by simp [hy])) rfl ht
  set w := m + s.cfg.uart.tIdleCommitMs with hwdef
  have hlen : (c :: more).length ≤ s.cfg.uart.rxAccCap := by simp only [List.length_cons]; omega
  have ha0 : (s.withQ []).rx.acc = [] := ha
  have hwake : wakeAt s.cfg.uart (s.nowMs + timeout) (s.withQ []).rx s.env.arrivals = w := by
    rw [harr', wakeAt_bytes s.cfg.uart (s.nowMs + timeout) m (by omega) (c :: more) later (s.withQ []).rx rfl (.inl ha0)
      hc (by rw [ha0]; simpa using hlen) (by simp)]
    rw [ha0, List.nil_append,
      wakeAt_idle s.cfg.uart _ later ⟨c :: more, m, []⟩ rfl (by simp) (by simpa using hcap) hlater]
    simp only
    omega
  have hx : 1000 * w / 1000 = w := by omega
  have hrun : rxRun s.cfg.uart w (s.withQ []).rx s.env.arrivals =
      (⟨[], m, (c :: more).map RxItem.byte ++ [RxItem.idleEol]⟩, later) := by
    rw [harr', rxRun_bytes s.cfg.uart w m (by omega) (c :: more) later (s.withQ []).rx (.inl ha0) hc
      (by rw [ha0]; simpa using hlen) (by simp)]
    have hcom := Rx.commit_room s.cfg.uart .idleEol ⟨c :: more, m, []⟩ (by simpa using hcap)
    have hid : (⟨c :: more, m, []⟩ : Rx).idleBefore s.cfg.uart (w + 1) =
        ⟨[], m, (c :: more).map RxItem.byte ++ [RxItem.idleEol]⟩ := by
      rw [Rx.idleBefore_of_due s.cfg.uart (w + 1) w _ (by simp [Rx.idleDue, hwdef]) (by omega), hcom]
      rfl
    rw [ha0, List.nil_append]
    show rxRun s.cfg.uart w ⟨c :: more, m, []⟩ later = _
    cases later with
    | nil => rw [rxRun, hid]
    | cons a rest =>
      obtain ⟨t, b⟩ := a
      have : w < t := hlater (t, b) (by simp)
      rw [rxRun, if_neg (by omega), hid]
  have hset : ((s.withQ []).setTime (1000 * w)) = { s.withQ [] with
      t := 1000 * w
      rx := ⟨[], m, (c :: more).map RxItem.byte ++ [RxItem.idleEol]⟩
      env := { s.env with arrivals := later } } := by
    show { s.withQ [] with
      t := 1000 * w
      rx := (rxRun s.cfg.uart (1000 * w / 1000) (s.withQ []).rx s.env.arrivals).1
      env := { s.env with arrivals := (rxRun s.cfg.uart (1000 * w / 1000) (s.withQ []).rx s.env.arrivals).2 } } = _
    rw [hx, hrun]
  obtain ⟨f, hf⟩ : ∃ f, s.rxBudget + 1 = (f + 1) + s.rx.q.length := by
    refine ⟨s.rxBudget - s.rx.q.length, ?_⟩
    have : s.rx.q.length ≤ s.rxBudget := by simp only [State.rxBudget, rxItems]; omega
    omega
  have hnext : (s.withQ []).nextItem (s.nowMs + timeout) =
      (some (.byte c), ((s.withQ []).setTime (1000 * w)).withQ (more.map RxItem.byte ++ [RxItem.idleEol])) := by
    rw [State.nextItem_wait (w := w) (by show s.nowMs < w; omega) h2 rfl hwake]
    exact State.nextItem_head (by rw [State.nowMs_setTime, hx]; exact h2) (by rw [hset]; rfl)
  have hon : OnLine s (((s.withQ []).setTime (1000 * w)).withQ (more.map RxItem.byte ++ [RxItem.idleEol])) := by
    have := awaitByte_spec c timeout s
    simp only at this
    have h3 := this.1
    unfold awaitByte at h3
    rw [hf, junk s.rx.q (f + 1) _ s hj rfl (by omega), awaitByteLoop, hnext] at h3
    simpa using h3
  refine ⟨_, ?_, hon, ?_, rfl, rfl, ?_, ?_, rfl⟩
  · unfold awaitByte
    rw [hf, junk s.rx.q (f + 1) _ s hj rfl (by omega), awaitByteLoop, hnext]
    simp
  · show 1000 * w / 1000 = w
    exact hx
  · rw [hset]; rfl
  · rw [hset]; rfl

end Sys2Proof.Machine
end

