-- ==== Sys2Proof/Laws/UartSession.lean ====
section
/-! SUPPORT. What the steps of the initialization sequence can do (spec/42_uart_session_framer.md R213 to R219): their
frame, their deadlines, their outcomes, what they transmit, and what they make of reply lines that stand in RX.q. -/

namespace Sys2Proof.Machine

/-! ## Frames and deadlines -/

theorem sendExpectOk_spec (text : Bytes) (timeout : Nat) (s : State) :
    OnLine s (sendExpectOk text timeout s).2 ∧ (sendExpectOk text timeout s).2.nowMs ≤ s.nowMs + timeout :=
  let h := sendCommand_spec text s.cfg.uart.expOk timeout s
  ⟨h.1, h.2.1⟩

theorem handshake_spec (k : Nat) (s : State) :
    OnLine s (handshake k s).2 ∧ (handshake k s).2.nowMs ≤ s.nowMs + (1 + k) * s.cfg.uart.tCmdMs := by
  induction k generalizing s with
  | zero =>
    have := sendExpectOk_spec s.cfg.uart.cmdHandshake s.cfg.uart.tCmdMs s
    refine ⟨this.1, ?_⟩
    unfold handshake
    omega
  | succ k ih =>
    have h := sendExpectOk_spec s.cfg.uart.cmdHandshake s.cfg.uart.tCmdMs s
    have hm : (1 + (k + 1)) * s.cfg.uart.tCmdMs = s.cfg.uart.tCmdMs + (1 + k) * s.cfg.uart.tCmdMs := by ring
    unfold handshake
    simp only
    split
    · exact ⟨h.1, le_trans h.2 (by omega)⟩
    · have h2 := ih (sendExpectOk s.cfg.uart.cmdHandshake s.cfg.uart.tCmdMs s).2
      rw [h.1.cfg_eq] at h2
      exact ⟨h.1.trans h2.1, by omega⟩

theorem diagnostics_spec (qs : List Bytes) (s : State) :
    OnLine s (diagnostics qs s) ∧ (diagnostics qs s).nowMs ≤ s.nowMs + qs.length * s.cfg.uart.tCmdMs := by
  induction qs generalizing s with
  | nil => exact ⟨OnLine.refl s, by simp [diagnostics]⟩
  | cons q qs ih =>
    have h := sendExpectOk_spec q s.cfg.uart.tCmdMs s
    have h2 := ih (sendExpectOk q s.cfg.uart.tCmdMs s).2
    rw [h.1.cfg_eq] at h2
    refine ⟨h.1.trans h2.1, ?_⟩
    have hm : (qs.length + 1) * s.cfg.uart.tCmdMs = s.cfg.uart.tCmdMs + qs.length * s.cfg.uart.tCmdMs := by ring
    unfold diagnostics
    simp only [List.length_cons]
    omega

/-! ## Outcomes -/

/-- The statuses with which a step fails (R215, R216). -/
def failedStatus (st : Status) : Prop := st = .protocolTimeout ∨ st = .substringMismatch ∨ st = .deviceReportedError

theorem sendExpectOk_status (text : Bytes) (timeout : Nat) (s : State) :
    (sendExpectOk text timeout s).1 = .ok ∨ failedStatus (sendExpectOk text timeout s).1 :=
  sendCommand_status text s.cfg.uart.expOk timeout s

theorem awaitReply_status (expected : Bytes) (timeout : Nat) (s : State) :
    (awaitReply expected timeout s).1 = .ok ∨ failedStatus (awaitReply expected timeout s).1 := by
  have h := awaitReply_spec expected timeout s
  simp only at h
  rcases h.2.2.2 with h | ⟨n, _, _, _, h⟩
  · exact .inr (.inl h.1)
  · rcases lineOutcome_status h with h | h | h
    · exact .inl h
    · exact .inr (.inr (.inl h))
    · exact .inr (.inr (.inr h))

theorem handshake_status (k : Nat) (s : State) : (handshake k s).1 = .ok ∨ failedStatus (handshake k s).1 := by
  induction k generalizing s with
  | zero => exact sendExpectOk_status _ _ _
  | succ k ih =>
    unfold handshake
    simp only
    split
    · rename_i h
      exact .inl h
    · exact ih _

/-- The number of a failed step's status (R301). -/
theorem failedStatus.code {st : Status} (h : failedStatus st) :
    st.code = 0x03 ∨ st.code = 0x07 ∨ st.code = 0x08 := by
  rcases h with rfl | rfl | rfl <;> simp [Status.code]

/-! ## Reply lines that stand in RX.q -/

/-- The state after a command whose reply stood in RX.q. -/
def State.afterReply (s : State) (text : Bytes) (m : Memory) (n : Nat) (rest : List RxItem) : State :=
  { s.withQ rest with
    trace := s.trace ++ [.tx (text ++ s.cfg.uart.cmdTerm)]
    linebuf := m
    linelen := BitVec.ofNat 8 n }

theorem sendExpectOk_queued {text : Bytes} {timeout : Nat} {l : QueuedLine} {rest : List RxItem} {st : Status}
    {s : State} (hwf : s.linebuf.wf = true) (hl : l.Fits s.cfg.uart)
    (ho : lineOutcome s.cfg.uart s.cfg.uart.expOk l.text = some st) (hq : s.rx.q = l.items ++ rest)
    (ht : 0 < timeout) :
    ∃ m : Memory, m.wf = true ∧ m.prefixBytes l.text.length = l.text ∧
      sendExpectOk text timeout s = (st, s.afterReply text m l.text.length rest) :=
  sendCommand_queued (ignored := []) hwf (by simp) hl ho (by simpa [queuedItems] using hq) ht

theorem lineOutcome_expected {c : UartConfig} {expected l : Bytes} (h : contains l expected = true) :
    lineOutcome c expected l = some .ok := by
  unfold lineOutcome
  rw [if_pos h]

theorem handshake_queued {k : Nat} {l : QueuedLine} {rest : List RxItem} {s : State} (hwf : s.linebuf.wf = true)
    (hl : l.Fits s.cfg.uart) (ho : lineOutcome s.cfg.uart s.cfg.uart.expOk l.text = some .ok)
    (hq : s.rx.q = l.items ++ rest) (ht : 0 < s.cfg.uart.tCmdMs) :
    ∃ m : Memory, m.wf = true ∧
      handshake k s = (.ok, s.afterReply s.cfg.uart.cmdHandshake m l.text.length rest) := by
  obtain ⟨m, h1, _, h3⟩ := sendExpectOk_queued (text := s.cfg.uart.cmdHandshake) hwf hl ho hq ht
  refine ⟨m, h1, ?_⟩
  cases k with
  | zero => exact h3
  | succ k =>
    unfold handshake
    simp only [h3, if_true]

/-- Attempts that all fail, each on a queued line after lines that decide nothing: each is made, the last one's status
counts (R214). -/
theorem handshake_exhausted (errs : List (List QueuedLine × QueuedLine)) (last : List QueuedLine × QueuedLine)
    (rest : List RxItem) (st : Status) (s : State) (hwf : s.linebuf.wf = true)
    (hi : ∀ a ∈ errs ++ [last], ∀ x ∈ a.1,
      x.Fits s.cfg.uart ∧ lineOutcome s.cfg.uart s.cfg.uart.expOk x.text = none)
    (he : ∀ a ∈ errs, a.2.Fits s.cfg.uart ∧
      ∃ x, x ≠ .ok ∧ lineOutcome s.cfg.uart s.cfg.uart.expOk a.2.text = some x)
    (hl : last.2.Fits s.cfg.uart) (ho : lineOutcome s.cfg.uart s.cfg.uart.expOk last.2.text = some st)
    (hq : s.rx.q = (errs ++ [last]).flatMap (fun a => queuedItems a.1 ++ a.2.items) ++ rest)
    (ht : 0 < s.cfg.uart.tCmdMs) :
    ∃ (m : Memory) (n : Byte), m.wf = true ∧
      handshake errs.length s = (st, { s.withQ rest with
        trace := s.trace ++
          List.replicate (1 + errs.length) (.tx (s.cfg.uart.cmdHandshake ++ s.cfg.uart.cmdTerm))
        linebuf := m
        linelen := n }) := by
  induction errs generalizing s with
  | nil =>
    obtain ⟨m, h1, _, h3⟩ := sendCommand_queued (text := s.cfg.uart.cmdHandshake) (rest := rest) hwf
      (hi last (by simp)) hl ho (by simpa using hq) ht
    exact ⟨m, _, h1, h3⟩
  | cons e es ih =>
    obtain ⟨hf, x, hx, hox⟩ := he e (by simp)
    obtain ⟨m, h1, _, h3⟩ := sendCommand_queued (text := s.cfg.uart.cmdHandshake)
      (rest := (es ++ [last]).flatMap (fun a => queuedItems a.1 ++ a.2.items) ++ rest) hwf (hi e (by simp)) hf hox
      (by rw [hq]; simp) ht
    obtain ⟨m', n', h4, h5⟩ := ih
      (s.afterReply s.cfg.uart.cmdHandshake m e.2.text.length
        ((es ++ [last]).flatMap (fun a => queuedItems a.1 ++ a.2.items) ++ rest)) h1
      (fun a ha => hi a (by simp only [List.cons_append, List.mem_cons]; exact .inr ha))
      (fun a ha => he a (by simp [ha])) hl ho rfl ht
    refine ⟨m', n', h4, ?_⟩
    rw [List.length_cons]
    unfold handshake sendExpectOk
    simp only [h3, hx, if_false]
    have hr : 1 + (es.length + 1) = (1 + es.length) + 1 := by omega
    simp only [State.afterReply, State.withQ] at h5
    simp only [State.withQ, h5, hr]
    rw [List.replicate_succ, List.append_assoc]
    rfl

/-- Attempts that all fail, in whatever way: each is made, and the last one's status and state are the step's (R214). -/
theorem handshake_chain (c : UartConfig) (k : Nat) (u : Nat → State) (hc : (u 0).cfg.uart = c)
    (h : ∀ j ≤ k, (sendCommand c.cmdHandshake c.expOk c.tCmdMs (u j)).1 ≠ .ok ∧
      u (j + 1) = (sendCommand c.cmdHandshake c.expOk c.tCmdMs (u j)).2) :
    handshake k (u 0) = ((sendCommand c.cmdHandshake c.expOk c.tCmdMs (u k)).1, u (k + 1)) := by
  induction k generalizing u with
  | zero =>
    subst hc
    rw [(h 0 (le_refl 0)).2]
    rfl
  | succ k ih =>
    have h0 := h 0 (Nat.zero_le _)
    have hc1 : (u 1).cfg.uart = c := by rw [h0.2, (sendCommand_spec _ _ _ _).1.cfg_eq, hc]
    have := ih (fun j => u (j + 1)) hc1 fun j hj => h (j + 1) (by omega)
    unfold handshake sendExpectOk
    simp only [hc]
    rw [if_neg h0.1, ← h0.2]
    exact this

/-- What a chain of attempts changes and transmits. -/
theorem handshake_chain_trace (c : UartConfig) (k : Nat) (u : Nat → State) (hc : (u 0).cfg.uart = c)
    (h : ∀ j ≤ k, u (j + 1) = (sendCommand c.cmdHandshake c.expOk c.tCmdMs (u j)).2) :
    OnLine (u 0) (u (k + 1)) ∧
      (u (k + 1)).trace = (u 0).trace ++ List.replicate (1 + k) (.tx (c.cmdHandshake ++ c.cmdTerm)) := by
  induction k with
  | zero =>
    have := sendCommand_spec c.cmdHandshake c.expOk c.tCmdMs (u 0)
    simp only at this
    rw [h 0 (le_refl 0)]
    exact ⟨this.1, by rw [this.2.2.1, hc]; rfl⟩
  | succ k ih =>
    obtain ⟨h1, h2⟩ := ih fun j hj => h j (by omega)
    have := sendCommand_spec c.cmdHandshake c.expOk c.tCmdMs (u (k + 1))
    simp only at this
    rw [h (k + 1) (le_refl _)]
    refine ⟨h1.trans this.1, ?_⟩
    rw [this.2.2.1, h1.cfg_eq, hc, h2, show 1 + (k + 1) = (1 + k) + 1 by omega, List.replicate_succ',
      List.append_assoc]

/-- Diagnostic queries whose replies stand in RX.q (R216). -/
theorem diagnostics_queued (qs : List Bytes) (ls : List QueuedLine) (rest : List RxItem) (s : State)
    (hlen : ls.length = qs.length) (hwf : s.linebuf.wf = true)
    (hl : ∀ l ∈ ls, l.Fits s.cfg.uart ∧ ∃ st, lineOutcome s.cfg.uart s.cfg.uart.expOk l.text = some st)
    (hq : s.rx.q = queuedItems ls ++ rest) (ht : 0 < s.cfg.uart.tCmdMs) :
    ∃ (m : Memory) (n : Byte), m.wf = true ∧ diagnostics qs s = { s.withQ rest with
      trace := s.trace ++ qs.map fun q => .tx (q ++ s.cfg.uart.cmdTerm)
      linebuf := m
      linelen := n } := by
  induction qs generalizing s ls with
  | nil =>
    obtain rfl : ls = [] := List.length_eq_zero_iff.mp hlen
    refine ⟨s.linebuf, s.linelen, hwf, ?_⟩
    have : s.rx.q = rest := by simpa [queuedItems] using hq
    subst this
    simp [diagnostics, State.withQ]
  | cons q qs ih =>
    cases ls with
    | nil => simp at hlen
    | cons l ls =>
      obtain ⟨hf, st, ho⟩ := hl l (by simp)
      obtain ⟨m, h1, _, h3⟩ := sendExpectOk_queued (text := q) (rest := queuedItems ls ++ rest) hwf hf ho
        (by rw [hq]; simp [queuedItems]) ht
      obtain ⟨m', n', h4, h5⟩ := ih ls (s.afterReply q m l.text.length (queuedItems ls ++ rest))
        (by simpa using hlen) h1 (fun x hx => hl x (by simp [hx])) rfl ht
      refine ⟨m', n', h4, ?_⟩
      unfold diagnostics
      rw [h3, h5]
      simp only [State.afterReply, State.withQ, List.map_cons]
      rw [List.append_assoc]
      rfl

/-! ## What is transmitted -/

theorem sendExpectOk_trace (text : Bytes) (timeout : Nat) (s : State) :
    (sendExpectOk text timeout s).2.trace = s.trace ++ [.tx (text ++ s.cfg.uart.cmdTerm)] :=
  (sendCommand_spec text s.cfg.uart.expOk timeout s).2.2.1

/-- The handshake is transmitted once to 1 + `k` times, that many when it fails (R214). -/
theorem handshake_trace (k : Nat) (s : State) :
    ∃ a, 1 ≤ a ∧ a ≤ 1 + k ∧ ((handshake k s).1 ≠ .ok → a = 1 + k) ∧
      (handshake k s).2.trace = s.trace ++ List.replicate a (.tx (s.cfg.uart.cmdHandshake ++ s.cfg.uart.cmdTerm)) := by
  induction k generalizing s with
  | zero => exact ⟨1, le_refl _, le_refl _, fun _ => rfl, sendExpectOk_trace _ _ _⟩
  | succ k ih =>
    have h := sendExpectOk_trace s.cfg.uart.cmdHandshake s.cfg.uart.tCmdMs s
    unfold handshake
    simp only
    split
    · rename_i ho
      exact ⟨1, le_refl _, by omega, fun hn => absurd ho hn, h⟩
    · obtain ⟨a, h1, h2, h3, h4⟩ := ih (sendExpectOk s.cfg.uart.cmdHandshake s.cfg.uart.tCmdMs s).2
      refine ⟨a + 1, by omega, by omega, fun hn => by have := h3 hn; omega, ?_⟩
      rw [h4, h, (sendExpectOk_spec _ _ _).1.cfg_eq, List.append_assoc, List.replicate_succ]
      rfl

theorem diagnostics_trace (qs : List Bytes) (s : State) :
    (diagnostics qs s).trace = s.trace ++ qs.map fun q => .tx (q ++ s.cfg.uart.cmdTerm) := by
  induction qs generalizing s with
  | nil => simp [diagnostics]
  | cons q qs ih =>
    unfold diagnostics
    rw [ih, sendExpectOk_trace, (sendExpectOk_spec _ _ _).1.cfg_eq]
    simp

end Sys2Proof.Machine
end

