-- ==== Sys2Proof/Tests/Slice0.lean ====
section
/-! SUPPORT. The model's own tests. Expected results are the vectors of spec/95_test_vectors.md, named in each comment, or
worked out by hand from the rule named. Then, for each statement of Certificates/Slice0/Obligations.lean that has
hypotheses, a named state and operands that meet them (`witness_…`). -/

namespace Sys2Proof.Tests

set_option Elab.async false

open Sys2Proof.Machine

/-! ## Helpers -/

/-- The state an answer leaves. -/
def after : Host.Outcome State Fault Refusal → State
  | .next s => s
  | .fault _ => State.reset
  | .refused _ => State.reset

theorem exec_after {i : Instr} {s : State} (hb : s.busy = false) (hw : i.wf s.cfg = true) :
    exec i s = .next (after (exec i s)) := by
  rw [exec_accepted hb hw]
  rfl

/-- The bytes of an ASCII text. -/
def ascii (s : String) : Bytes := s.toList.map fun c => BitVec.ofNat 8 c.toNat

/-- A buffer that begins with the given bytes, none of them 0. -/
def buffer (bs : Bytes) : Memory := bs.zipIdx.map fun x => (x.2, x.1)

/-- The reset state in an environment. -/
def within (e : Env) : State := State.resetWith Config.ref e []

/-- The reset state with answers of the I2C lines to come. -/
def onBus (answers : List Level) : State := within { Env.unscripted with lineAnswers := answers }

/-- The reset state with items standing in RX.q. -/
def withItems (q : List RxItem) : State := { State.reset with rx := ⟨[], 0, q⟩ }

/-- A text line as items of RX.q, ended by carriage return and line feed. -/
def queued (s : String) : List RxItem := (ascii s ++ [0x0D, 0x0A]).map .byte

/-- A modem's line, all its bytes arriving at one millisecond. -/
def arrives (ms : Nat) (s : String) : List Arrival := ([0x0D, 0x0A] ++ ascii s ++ [0x0D, 0x0A]).map fun b => (ms, b)

/-- A time in milliseconds, arrivals, STR0 and STR1. -/
def modem (ms : Nat) (arrivals : List Arrival) (s0 s1 : String) : State :=
  { within { Env.unscripted with arrivals := arrivals } with
    t := ms * 1000
    str0 := buffer (ascii s0)
    str1 := buffer (ascii s1)
    str0len := BitVec.ofNat 8 s0.length
    str1len := BitVec.ofNat 8 s1.length }

/-- Short DHT times, so that a whole frame is a small test. -/
def quick : Config := { Config.ref with
  dht := { warmupMs := 1, spacingMs := 2, healthUs := 1, startLowUs := 2, releaseUs := 1, respNominalUs := 8
           minRespUs := 4, minBitLowUs := 2, bitThreshUs := 3 } }

/-- The phases of a frame's bits: low 3, high 2 for a 0 and 5 for a 1. -/
def bitsOf (bs : Bytes) : List (Nat × Nat) := (bs.flatMap msbFirst).map fun b => (3, if b then 5 else 2)

/-- The sensor's line from a call at time 1000 on: idle for `w`, a response of `rl` and `rh`, then phases. -/
def sensor (phases : List Nat) : State :=
  { State.resetWith quick { Env.unscripted with wave := phaseWave 1004 true phases } [] with t := 1000 }

/-! ## Checks by value (R97): an ill-formed term for each check -/

theorem test_wf_read_of_nothing : (Instr.i2cRead 0x23 0).wf Config.ref = false := by decide
theorem test_wf_maxLen_zero : (Instr.uartReadLine 0 100).wf Config.ref = false := by decide
theorem test_wf_maxLen_above_LINE_MAX : (Instr.uartReadLine 129 100).wf Config.ref = false := by decide
theorem test_wf_maxLen_LINE_MAX : (Instr.uartReadLine 128 100).wf Config.ref = true := by decide
theorem test_wf_event_three : (Instr.motorUpdate false .reserved3 0).wf Config.ref = false := by decide

/-- V71: refused by value, RSP and nothing else. -/
theorem test_refused_by_value :
    after (step (State.reset.withFetchWord 32 0x20810064)) = { State.reset with
      cmd := 0x20810064, rsp := ⟨0xFF, 0, 0, 0⟩, env := { Env.unscripted with draws := 1 } } := by decide +kernel

/-! ## Decoding (V70, V71), every constructor -/

theorem test_decode_i2cWrite : decode 0x01230001 = .ok (.i2cWrite 0x23 1) := by decide +kernel
theorem test_decode_i2cRead : decode 0x02230002 = .ok (.i2cRead 0x23 2) := by decide +kernel
theorem test_decode_i2cProbe : decode 0x03500000 = .ok (.i2cProbe 0x50) := by decide +kernel
theorem test_decode_i2cBusIdle : decode 0x04000000 = .ok .i2cBusIdle := by decide +kernel
theorem test_decode_dhtReadFrame : decode 0x100003E8 = .ok (.dhtReadFrame 1000) := by decide +kernel
theorem test_decode_uartReadLine : decode 0x20800064 = .ok (.uartReadLine 128 100) := by decide +kernel
theorem test_decode_uartSendCommand : decode 0x210003E8 = .ok (.uartSendCommand 1000) := by decide +kernel
theorem test_decode_uartInitSession : decode 0x22002329 = .ok (.uartInitSession 9001) := by decide +kernel
theorem test_decode_uartSendLine : decode 0x23000000 = .ok .uartSendLine := by decide +kernel
theorem test_decode_btnPoll : decode 0x30000000 = .ok .btnPoll := by decide +kernel
theorem test_decode_dutyAuto : decode 0x4000FFFB = .ok (.dutyAuto (-5)) := by decide +kernel
theorem test_decode_alarmUpdate : decode 0x41320024 = .ok (.alarmUpdate 50 36) := by decide +kernel
theorem test_decode_motorUpdate : decode 0x42820021 = .ok (.motorUpdate true .longPress 33) := by decide +kernel
theorem test_decode_event_three : decode 0x42830000 = .ok (.motorUpdate true .reserved3 0) := by decide +kernel
theorem test_decode_unassigned : decode 0x24000000 = .error .unassignedOpcode := by decide +kernel
theorem test_decode_unused_bit : decode 0x42040000 = .error .unusedBitSet := by decide +kernel

/-- V9: address bytes. -/
theorem test_address_bytes :
    [addressByte 0x23 .write, addressByte 0x23 .read, addressByte 0x50 .write, addressByte 0x7F .read] =
      [0x46, 0x47, 0xA0, 0xFF] := by decide

/-! ## I2C -/

/-- V11. -/
theorem test_i2cWrite_acknowledged :
    (fun s => (s.rsp, s.t)) (after (execI2cWrite 0x23 1
      { onBus [true, true, true, true, true, false, true, false] with txbuf := [(0, 0x10)] })) =
      (⟨0, 0, 1, 0⟩, 12000) := by decide +kernel

/-- V13. -/
theorem test_i2cWrite_data_refused :
    (fun s => (s.rsp, s.t)) (after (execI2cWrite 0x23 3
      { onBus [true, true, true, true, true, false, true, false, true, true] with
        txbuf := [(0, 0x10), (1, 0x20), (2, 0x30)] })) =
      (⟨1, 2, 1, 0⟩, 17400) := by decide +kernel

/-- V12. -/
theorem test_i2cRead_two_bytes :
    (fun s => (s.rsp, s.rxbuf, s.rxlen, s.t)) (after (execI2cRead 0x23 2
      (onBus ([true, true, true, true, true, true, false] ++ deviceSends [0x01, 0x40] true)))) =
      (⟨0, 0, 0, 2⟩, [(0, 0x01), (1, 0x40)], 2, 17400) := by decide +kernel

/-- V17. -/
theorem test_i2cRead_address_refused :
    (fun s => (s.rsp, s.rxlen, s.t)) (after (execI2cRead 0x23 2
      { onBus [true, true, true, true, true, true, true] with rxlen := 5 })) =
      (⟨1, 1, 0, 0⟩, 0, 6600) := by decide +kernel

/-- V10. -/
theorem test_i2cProbe_no_device :
    (fun s => (s.rsp, s.t, s.pins, s.trace.length)) (after (execI2cProbe 0x50 (onBus [true, true, true, true, true]))) =
      (⟨0, 1, 0, 0⟩, 6600, ⟨.released, .high, .inputPullup⟩, 87) := by decide +kernel

/-- V14. -/
theorem test_i2cProbe_bus_not_idle :
    (fun s => (s.rsp, s.trace)) (after (execI2cProbe 0x50 (onBus [false, true]))) =
      (⟨0, 3, 0, 0⟩, [.sdaRel, .sclHigh, .delay 200 .us, .sampleSda false, .sampleScl true]) := by decide +kernel

/-- V15. -/
theorem test_i2cBusIdle_sda_low :
    (after (execI2cBusIdle (onBus [false, true]))).rsp = ⟨0, 0, 2, 0⟩ := by decide +kernel

/-- V15. -/
theorem test_i2cBusIdle_idle : (after (execI2cBusIdle (onBus [true, true]))).rsp = ⟨0, 0, 3, 1⟩ := by decide +kernel

/-! ## DHT -/

/-- The frame of V20 with short phases; by hand from R178: 4 + 1 + 5 + 5 + 40 * 3 + 28 * 2 + 12 * 5 microseconds. -/
theorem test_dhtReadFrame_valid :
    (fun s => (s.rsp, s.t, s.reading, s.dht)) (after (execDhtReadFrame 10
      (sensor (1 :: 5 :: 5 :: bitPhases (bitsOf [0x37, 0x00, 0x18, 0x00, 0x4F]) ++ [3])))) =
      (⟨0, 0, 0, 0x3718⟩, 1251, ⟨true, 24, 55, 1⟩, ⟨true, 1⟩) := by decide +kernel

/-- The corrupted frame of V23. -/
theorem test_dhtReadFrame_corrupted :
    (fun s => (s.rsp, s.reading, s.dht)) (after (execDhtReadFrame 10
      (sensor (1 :: 5 :: 5 :: bitPhases (bitsOf [0x37, 0x00, 0x18, 0x00, 0x4E]) ++ [3])))) =
      (⟨4, 0, 0, 0⟩, ⟨false, 0, 0, 0⟩, ⟨false, 0⟩) := by decide +kernel

/-! ## UART -/

/-- V34. -/
theorem test_uartReadLine_truncates :
    (fun s => (s.rsp, s.linebuf, s.linelen, s.rx.q, s.t)) (after (execUartReadLine 4 100
      (withItems (queued "HELLO WORLD")))) =
      (⟨0, 0, 0, 4⟩, buffer (ascii "HELL"), 4, [.byte 0x0A], 0) := by decide +kernel

/-- V33. -/
theorem test_uartReadLine_only_terminators :
    (fun s => (s.rsp, s.linelen, s.rx.q, s.t)) (after (execUartReadLine 16 100
      (withItems [.byte 0x0D, .byte 0x0A, .byte 0x0A]))) =
      (⟨0, 0, 0, 0⟩, 0, [], 100000) := by decide +kernel

/-- V38. -/
theorem test_uartSendCommand_structured_marker :
    (fun s => (s.rsp, s.t, s.rx.q, s.trace)) (after (execUartSendCommand 1000
      (modem 10000 (arrives 10050 "+CME ERROR: 10") "AT" "OK"))) =
      (⟨7, 0, 0, 0⟩, 10050000, [.byte 0x0A], [.tx [0x41, 0x54, 0x0D, 0x0A]]) := by decide +kernel

/-- V40. -/
theorem test_uartSendCommand_stale_reply :
    (fun s => (s.rsp, s.t)) (after (execUartSendCommand 1000
      { modem 10000 [] "AT" "OK" with rx := ⟨[], 0, queued "OK"⟩ })) =
      (⟨0, 0, 0, 0⟩, 10000000) := by decide +kernel

/-- V41. -/
theorem test_uartInitSession_all_steps :
    (fun s => (s.rsp, s.t, s.session, s.linelen, s.rx.q, s.trace.getLast?)) (after (execUartInitSession 9001
      (modem 0 (arrives 30 "OK" ++ arrives 60 "OK" ++ arrives 90 "OK" ++ arrives 120 "OK" ++ arrives 150 "ERROR" ++
        arrives 180 "OK" ++ arrives 680 "+QIOPEN: 0,0") "cmiot" "1.2.3.4"))) =
      (⟨0, 0, 0, 3⟩, 680000, ⟨true, true⟩, 12, [.byte 0x0A],
        some (.tx (ascii "AT+QIOPEN=1,0,\"UDP\",\"1.2.3.4\",9001,0,1\r\n"))) := by decide +kernel

/-- V42. -/
theorem test_uartInitSession_setApn_fails :
    (fun s => (s.rsp, s.t, s.session, s.trace.getLast?)) (after (execUartInitSession 9001
      (modem 0 (arrives 30 "OK" ++ arrives 60 "OK" ++ arrives 90 "OK" ++ arrives 120 "ERROR") "cmiot" "1.2.3.4"))) =
      (⟨6, 4, 8, 1⟩, 120000, ⟨true, false⟩,
        some (.tx (ascii "AT+CGDCONT=1,\"IP\",\"cmiot\"\r\n"))) := by decide +kernel

/-- V45. -/
theorem test_uartSendLine_sent :
    (fun s => (s.rsp, s.t, s.trace, s.rx)) (after (execUartSendLine
      { modem 1000 ([(1020, 0x3E), (1020, 0x20)] ++ arrives 1300 "SEND OK") "VDD=3300" "" with
        rx := ⟨[], 0, [.byte 0x0A]⟩ })) =
      (⟨0, 0, 0, 9⟩, 1300000, [.tx (ascii "AT+QISEND=0,9\r\n"), .tx (ascii "VDD=3300\n" ++ [0x1A])],
        ⟨[], 1300, [.byte 0x0A]⟩) := by decide +kernel

/-- V46, the modem answering with an error line. -/
theorem test_uartSendLine_no_prompt :
    (fun s => (s.rsp, s.t, s.trace)) (after (execUartSendLine
      { modem 1000 (arrives 1200 "ERROR") "VDD=3300" "" with rx := ⟨[], 0, [.byte 0x0A]⟩ })) =
      (⟨6, 7, 3, 9⟩, 3000000, [.tx (ascii "AT+QISEND=0,9\r\n")]) := by decide +kernel

/-- V31: the idle commit is due at 250 and not at 249. -/
theorem test_idle_commit :
    (rxRun UartConfig.ref 250 ⟨[], 0, []⟩ [(200, 0x3E), (200, 0x20)]).1.q = [.byte 0x3E, .byte 0x20, .idleEol] ∧
      (rxRun UartConfig.ref 249 ⟨[], 0, []⟩ [(200, 0x3E), (200, 0x20)]).1.q = [] := by decide +kernel

/-! ## BTN -/

/-- V50, the poll at 120. -/
theorem test_btnPoll_press_accepted :
    (fun s => (s.rsp, s.btn)) (after (execBtnPoll { within { Env.unscripted with btnAnswers := [true] } with
      t := 120000, btn := ⟨false, 0, .idle, true, 100⟩ })) =
      (⟨0, 1, 1, 0⟩, ⟨true, 120, .pressed, true, 100⟩) := by decide +kernel

/-- V51, the poll at 1120. -/
theorem test_btnPoll_long_press :
    (fun s => (s.rsp, s.btn.phase)) (after (execBtnPoll { within { Env.unscripted with btnAnswers := [true] } with
      t := 1120000, btn := ⟨true, 120, .pressed, true, 100⟩ })) =
      (⟨0, 2, 1, 2⟩, .longReported) := by decide +kernel

/-! ## DUTY -/

/-- V60 and R270: the whole function around its ramp, and a negative temperature. -/
theorem test_dutyAuto_points :
    [32, 33, 34, 35, 36, 37, 38, -5].map (autoDuty DutyConfig.ref) = [0, 58, 66, 75, 83, 91, 100, 0] := by decide

/-- V60, the operand a signed number. -/
theorem test_dutyAuto_negative : (after (execDutyAuto 0xFFFB State.reset)).rsp = ⟨0, 0, 0, 0⟩ := by decide +kernel

/-- R275's example. -/
theorem test_motorUpdate_auto :
    (fun s => (s.rsp, s.motor)) (after (execMotorUpdate true .noEvent 33 State.reset)) =
      (⟨0, 0, 0, 58⟩, ⟨.auto, false, 58⟩) := by decide +kernel

/-- By hand from R275 and R276: a short press in Manual turns the fan on. -/
theorem test_motorUpdate_short_in_manual :
    (fun s => (s.rsp, s.motor)) (after (execMotorUpdate true .shortPress 33
      { State.reset with motor := ⟨.manual, false, 0⟩ })) =
      (⟨0, 3, 0, 100⟩, ⟨.manual, true, 100⟩) := by decide +kernel

/-- R280's example. -/
theorem test_alarmUpdate_first_beep :
    (after (execAlarmUpdate 50 36 State.reset)).rsp = ⟨0, 1, 0, 1⟩ := by decide +kernel

/-- S8: 34 does not clear the flag, 33 does. -/
theorem test_alarmUpdate_hysteresis : hyst true 34 35 1 = true ∧ hyst true 33 35 1 = false := by decide

/-! ## Witnesses: the command word and the port -/

theorem witness_OperandsAreBitSlices :
    decode 0x01230001 = .ok (.i2cWrite 0x23 1) ∧ decode 0x02230002 = .ok (.i2cRead 0x23 2) ∧
    decode 0x03500000 = .ok (.i2cProbe 0x50) ∧ decode 0x1000FFFF = .ok (.dhtReadFrame 0xFFFF) ∧
    decode 0x20FF0000 = .ok (.uartReadLine 0xFF 0) ∧ decode 0x21000000 = .ok (.uartSendCommand 0) ∧
    decode 0x2200FFFF = .ok (.uartInitSession 0xFFFF) ∧ decode 0x40008000 = .ok (.dutyAuto 0x8000) ∧
    decode 0x41FF8000 = .ok (.alarmUpdate 0xFF 0x8000) ∧ decode 0x42820021 = .ok (.motorUpdate true .longPress 33) ∧
    decode 0x42030000 = .ok (.motorUpdate false .reserved3 0) ∧
    decode 0x42010000 = .ok (.motorUpdate false .shortPress 0) := by decide +kernel

theorem witness_RowSelectedByMask :
    (∀ r ∈ opcodeRows, (0x05000000 : Word) &&& r.2 ≠ r.1) ∧
      (State.reset.withCommand 0x05000000).host = .command 0x05000000 :: [] := by
  refine ⟨?_, rfl⟩
  simp [opcodeRows]

theorem witness_EncodeDecode : decode 0x42830000 = .ok (.motorUpdate true .reserved3 0) := by decide +kernel

theorem witness_StepRunsDecodedCommand :
    (State.reset.withCommand 0x03500000).host = .command 0x03500000 :: [] ∧
      decode 0x03500000 = .ok (.i2cProbe 0x50) ∧ decodeTableWord 32 0x03500000 = some (.i2cProbe 0x50) := by
  decide +kernel

theorem witness_StepRefusesUndecodedWord :
    (State.reset.withCommand 0x05000000).host = .command 0x05000000 :: [] ∧
      decode 0x05000000 = .error .unassignedOpcode := by decide +kernel

theorem witness_CommandRefusedExactly_refused :
    ({ State.reset with busy := true }).busy = true ∧ (∃ a, Instr.i2cRead 5 0 = .i2cRead a 0) ∧
      (∃ m v, Instr.uartReadLine 0 7 = .uartReadLine m v ∧ m = 0) ∧
      (∃ m v, Instr.uartReadLine 129 7 = .uartReadLine m v ∧ Config.ref.uart.lineMax.val < m.toNat) ∧
      (∃ r v, Instr.motorUpdate true .reserved3 9 = .motorUpdate r .reserved3 v) :=
  ⟨rfl, ⟨_, rfl⟩, ⟨_, _, rfl, rfl⟩, ⟨_, _, rfl, by decide⟩, ⟨_, _, rfl⟩⟩

theorem witness_CommandRefusedExactly_accepted :
    ¬ (State.reset.busy = true ∨ (∃ a, Instr.uartReadLine 128 0 = .i2cRead a 0) ∨
      (∃ m v, Instr.uartReadLine 128 0 = .uartReadLine m v ∧ (m = 0 ∨ State.reset.cfg.uart.lineMax.val < m.toNat)) ∨
      (∃ r v, Instr.uartReadLine 128 0 = .motorUpdate r .reserved3 v)) := by
  rintro (h | ⟨a, h⟩ | ⟨m, v, h, h'⟩ | ⟨r, v, h⟩)
  · simp [State.reset, State.resetWith] at h
  · cases h
  · cases h
    revert h'
    decide
  · cases h

theorem witness_HostWritesAndWaits (v : Byte) :
    let s := { State.reset with host := [.writeByte .str0 254 v] }
    s.txbuf.wf = true ∧ s.str0.wf = true ∧ s.str1.wf = true ∧ s.host = .writeByte .str0 254 v :: [] :=
  ⟨rfl, rfl, rfl, rfl⟩

/-- The length register that is written, and one written while `busy` = 1. -/
theorem witness_HostWritesAndWaits_length :
    ({ State.reset with host := [.writeLength .str0len 255] } : State).host = .writeLength .str0len 255 :: [] ∧
      ({ State.reset with busy := true, host := [.writeLength .str1len 1] } : State).host =
        .writeLength .str1len 1 :: [] := ⟨rfl, rfl⟩

/-- A wait that ends in the very microsecond at which an idle commit falls due (R320 (d)), and one of no time. -/
theorem witness_HostWritesAndWaits_wait :
    let s := { within { Env.unscripted with arrivals := [(200, 0x3E), (251, 0x0A)] } with host := [.wait 250000] }
    s.host = .wait 250000 :: [] ∧ (after (step s)).t = 250000 ∧
      (after (step s)).rx.q = [.byte 0x3E, .idleEol] ∧ (after (step s)).env.arrivals = [(251, 0x0A)] ∧
      ({ State.reset with host := [.wait 0] } : State).host = .wait 0 :: [] := by decide +kernel

/-! ## Witnesses: invariants and frames -/

theorem reset_inv : State.reset.Inv := by
  constructor <;> simp [State.reset, State.resetWith, Memory.wf, Memory.wfFrom, Memory.below, legalStatus]

theorem witness_InvariantKept : State.reset.Inv ∧ ∃ t, step State.reset = .next t := ⟨reset_inv, _, rfl⟩

theorem reset_pumped : State.reset.Pumped := rfl

theorem witness_ReceiverKeptCurrent : State.reset.Pumped ∧ ∃ t, step State.reset = .next t := ⟨reset_pumped, _, rfl⟩

theorem witness_OnlyOwnerWrites :
    (∃ t, exec (.i2cRead 5 1) State.reset = .next t) ∧ (∃ t, exec (.dhtReadFrame 5) State.reset = .next t) ∧
    (∃ t, exec (.uartReadLine 5 5) State.reset = .next t) ∧ (∃ t, exec .btnPoll State.reset = .next t) ∧
    (∃ t, exec (.dutyAuto 5) State.reset = .next t) :=
  ⟨⟨_, exec_accepted rfl rfl⟩, ⟨_, exec_accepted rfl rfl⟩, ⟨_, exec_accepted rfl rfl⟩, ⟨_, exec_accepted rfl rfl⟩,
    ⟨_, exec_accepted rfl rfl⟩⟩

/-- The clauses of R202: a terminator at the very time the idle commit is due, a last byte before it, the idle commit at
its due time with a byte to come a millisecond later, nothing due one millisecond earlier, and time in two parts. -/
theorem witness_ReceiveProducerSteps :
    let rx : Rx := ⟨[0x41], 100, []⟩
    rx.acc.length ≤ UartConfig.ref.rxAccCap ∧ rx.q.length ≤ UartConfig.ref.rxQCap ∧
    ((150 : Nat) ≤ rx.lastMs + UartConfig.ref.tIdleCommitMs ∧ (0x0D : Byte) = 0x0D) ∧
    ((150 : Nat) ≤ rx.lastMs + UartConfig.ref.tIdleCommitMs ∧ 199 < 150 + UartConfig.ref.tIdleCommitMs ∧
      (0x42 : Byte) ≠ 0x0D ∧ (0x42 : Byte) ≠ 0x0A) ∧
    ((∀ a ∈ [((151 : Nat), (0x42 : Byte))], 150 < a.1) ∧ rx.acc ≠ [] ∧
      rx.lastMs + UartConfig.ref.tIdleCommitMs ≤ 150) ∧
    ((∀ a ∈ [((150 : Nat), (0x42 : Byte))], 149 < a.1) ∧ 149 < rx.lastMs + UartConfig.ref.tIdleCommitMs) ∧
    (149 : Nat) ≤ 150 := by decide

/-! ## Witnesses: I2C -/

theorem witness_ClockPulseEvents :
    ({ State.reset with pins := ⟨.driveLow, .low, .inputPullup⟩ }).pins.sda = .driveLow ∧
      (onBus [true]).pins.sda = .released ∧ (onBus [true]).env.lineAnswers = true :: [] := by decide

theorem witness_BusIdleExact :
    (onBus [false, true]).busy = false ∧ (onBus [false, true]).env.lineAnswers = false :: true :: [] := by decide

/-- A bus that is not idle; an address that is acknowledged, and one that is not (V10, V16). -/
theorem witness_ProbeOutcome :
    (∀ l, (onBus l).busy = false ∧ (onBus l).pins.sda = .released ∧ (onBus l).pins.scl = .high) ∧
    (onBus [false, true]).env.lineAnswers = false :: true :: [] ∧
    afterAcked [addressByte 0x50 .write] [true, true, false] = some [] ∧
    afterNacked (addressByte 0x50 .write) [true, true, true] = some [] :=
  ⟨fun _ => ⟨rfl, rfl, rfl⟩, by decide, by decide, by decide⟩

/-- The four ends of a write of 255 bytes at most: here of two, V13's answers among them. -/
theorem witness_I2cWriteOutcome :
    let txbuf : Memory := [(0, 0x10), (1, 0x20)]
    (∀ l, (onBus l).busy = false ∧ (onBus l).pins.sda = .released ∧ (onBus l).pins.scl = .high) ∧
    afterNacked (addressByte 0x23 .write) [true, true, true, true] = some [] ∧
    (1 < (2 : Byte).toNat ∧
      afterAcked (addressByte 0x23 .write :: (List.range 1).map (Memory.read txbuf))
        [true, true, true, false, true, false, true, true] = some [true, true] ∧
      afterNacked (Memory.read txbuf 1) [true, true] = some []) ∧
    afterAcked (addressByte 0x23 .write :: (List.range (2 : Byte).toNat).map (Memory.read txbuf))
      [true, true, true, false, true, false, true, false] = some [] :=
  ⟨fun _ => ⟨rfl, rfl, rfl⟩, by decide, by decide, by decide⟩

/-- The three ends of a read (V12, V17). -/
theorem witness_I2cReadOutcome :
    (∀ l, (onBus l).busy = false ∧ (onBus l).pins.sda = .released ∧ (onBus l).pins.scl = .high ∧
      (onBus l).rxbuf.wf = true) ∧ (2 : Byte) ≠ 0 ∧
    afterNacked (addressByte 0x23 .read) [true, true, true, true, true] = some [] ∧
    ([0x01, 0x40] : Bytes).length = (2 : Byte).toNat ∧
    afterAcked [addressByte 0x23 .read] ([true, true, true, true, false] ++ deviceSends [0x01, 0x40] true) =
      some (deviceSends [0x01, 0x40] true ++ []) :=
  ⟨fun _ => ⟨rfl, rfl, rfl, rfl⟩, by decide, by decide, by decide, by decide⟩

theorem witness_I2cReturnsReleased :
    subBlock (.i2cRead 5 1) = .i2c ∧ (Instr.i2cRead 5 1).wf State.reset.cfg = true ∧ State.reset.busy = false := by
  decide

theorem witness_I2cWireDiscipline :
    subBlock (.i2cRead 5 255) = .i2c ∧ (Instr.i2cRead 5 255).wf State.reset.cfg = true ∧ State.reset.busy = false ∧
      State.reset.pins.sda = .released ∧ State.reset.pins.scl = .high := by decide

theorem witness_I2cResponseIgnoresTime :
    let s := onBus ([true, true, true, true, false] ++ deviceSends [0x01] true)
    let s' := { s with t := 77, cfg := quick }
    subBlock (.i2cRead 3 1) = .i2c ∧ s.busy = false ∧ s'.busy = false ∧ s.txbuf = s'.txbuf ∧
      s.env.lineAnswers = s'.env.lineAnswers ∧ s.env.draws = s'.env.draws ∧ s.rxbuf.wf = true ∧ s'.rxbuf.wf = true ∧
      (after (exec (.i2cRead 3 1) { s with env := { s.env with
        lineAnswers := [true, true, true, true, true, false] ++ deviceSends [0x01] true } })).rsp.status = 0x00 := by
  decide +kernel

/-! ## Witnesses: DHT -/

/-- A call during warm-up, and one less than the spacing after a good read. -/
theorem witness_DhtTooSoonBusy :
    State.reset.busy = false ∧ State.reset.tooSoon = true ∧
      ({ sensor [] with dht := ⟨true, 0⟩ } : State).tooSoon = true := by decide

theorem witness_DhtLineHeldLow :
    let s := { State.resetWith quick { Env.unscripted with wave := [(2000, false)] } [] with t := 1000 }
    s.busy = false ∧ s.tooSoon = false ∧ waveLevel s.env.wave (s.t + s.cfg.dht.healthUs) = false := by decide

/-- The four outcomes of a measurement of 10 at most and 4 at least, from time 0 on: no low at all; a low that lasts; a low
of 3; a low of exactly 4 after a wait of exactly 9. -/
theorem witness_PhaseMeasurement :
    let none := [(20, true)]
    let stuck := [(9, true), (30, false)]
    let short := [(9, true), (12, false), (30, true)]
    let good := [(9, true), (13, false), (30, true)]
    State.reset.pins.dline = .inputPullup ∧ (∀ t < 10, waveLevel none t ≠ false) ∧
    (waveLevel stuck 9 = false ∧ (∀ t < 9, waveLevel stuck t ≠ false) ∧
      ∀ t < 20, 9 < t → t ≤ 9 + 10 → waveLevel stuck t = false) ∧
    (waveLevel short 9 = false ∧ waveLevel short 12 ≠ false ∧ (∀ t < 12, 9 < t → waveLevel short t = false) ∧
      12 - 9 < 4) ∧
    (waveLevel good 9 = false ∧ waveLevel good 13 ≠ false ∧ (∀ t < 13, 9 < t → waveLevel good t = false) ∧
      4 ≤ 13 - 9) := by decide

/-- The conditions on a frame's phases (DhtFrameDecoded, DhtPayloadFailure), met at their bounds: `w` one below the
timeout, the response phases at the minimum and at the timeout, a bit at the threshold. -/
theorem witness_DhtFrameDecoded :
    let bits := bitsOf [0x37, 0x00, 0x18, 0x00, 0x4F]
    let s := sensor (9 :: 4 :: 10 :: bitPhases bits ++ [1])
    s.busy = false ∧ s.tooSoon = false ∧
    s.env.wave = phaseWave (s.t + s.lead) true (9 :: 4 :: 10 :: bitPhases bits ++ [1]) ++ [] ∧
    s.cfg.dht.healthUs < s.lead + 9 ∧ 9 < (10 : Half).toNat ∧ s.cfg.dht.minRespUs ≤ 4 ∧ 10 ≤ (10 : Half).toNat ∧
    (∀ b ∈ bits, 1 ≤ b.1 ∧ s.cfg.dht.minBitLowUs ≤ b.1 ∧ b.1 ≤ (10 : Half).toNat ∧ 1 ≤ b.2 ∧
      b.2 ≤ (10 : Half).toNat) ∧
    bits.map (fun b => decide (s.cfg.dht.bitThreshUs < b.2)) =
      ([0x37, 0x00, 0x18, 0x00, 0x4F] : Bytes).flatMap msbFirst ∧
    (0x4F : Byte).toNat =
      ((0x37 : Byte).toNat + (0x00 : Byte).toNat + (0x18 : Byte).toNat + (0x00 : Byte).toNat) % 256 := by
  decide +kernel

/-- The same with the checksum of V23. -/
theorem witness_DhtFrameDecoded_corrupted :
    (bitsOf [0x37, 0x00, 0x18, 0x00, 0x4E]).map (fun b => decide (quick.dht.bitThreshUs < b.2)) =
      ([0x37, 0x00, 0x18, 0x00, 0x4E] : Bytes).flatMap msbFirst ∧
    (0x4E : Byte).toNat ≠
      ((0x37 : Byte).toNat + (0x00 : Byte).toNat + (0x18 : Byte).toNat + (0x00 : Byte).toNat) % 256 := by
  decide +kernel

/-- A low phase one short of the minimum after 39 good bits; a high phase one above the timeout after none; a low phase
one above the timeout. -/
theorem witness_DhtPayloadFailure :
    let bits := (bitsOf [0x37, 0x00, 0x18, 0x00, 0x4F]).take 39
    let s := sensor (1 :: 5 :: 5 :: bitPhases bits ++ [1, 3])
    let s' := sensor (1 :: 5 :: 5 :: bitPhases [] ++ [2, 11])
    let s'' := sensor (1 :: 5 :: 5 :: bitPhases [] ++ [11, 1])
    (s.busy = false ∧ s.tooSoon = false ∧
      s.env.wave = phaseWave (s.t + s.lead) true (1 :: 5 :: 5 :: bitPhases bits ++ [1, 3]) ++ [] ∧
      bits.length < 40 ∧ 1 < s.cfg.dht.minBitLowUs ∧
      (∀ b ∈ bits, 1 ≤ b.1 ∧ s.cfg.dht.minBitLowUs ≤ b.1 ∧ b.1 ≤ (10 : Half).toNat ∧ 1 ≤ b.2 ∧
        b.2 ≤ (10 : Half).toNat)) ∧
    (s'.busy = false ∧ s'.tooSoon = false ∧
      s'.env.wave = phaseWave (s'.t + s'.lead) true (1 :: 5 :: 5 :: bitPhases [] ++ [2, 11]) ++ [] ∧
      s'.cfg.dht.minBitLowUs ≤ 2 ∧ 2 ≤ (10 : Half).toNat ∧ (10 : Half).toNat < 11) ∧
    (s''.busy = false ∧ s''.tooSoon = false ∧
      s''.env.wave = phaseWave (s''.t + s''.lead) true (1 :: 5 :: 5 :: bitPhases [] ++ [11, 1]) ++ [] ∧
      (10 : Half).toNat < 11) := by decide +kernel

/-- A line that stays high; a response low phase one too short, and one too long; a response high phase one too long, and
one too short. -/
theorem witness_DhtNoResponse :
    let s := sensor [9, 3, 5, 1]
    s.busy = false ∧ s.tooSoon = false ∧ waveLevel s.env.wave (s.t + s.cfg.dht.healthUs) = true ∧
    (∀ u < 1014, 1004 ≤ u → waveLevel (sensor [30]).env.wave u = true) ∧
    s.env.wave = phaseWave (s.t + s.lead) true [9, 3, 5, 1] ++ [] ∧ 9 < (10 : Half).toNat ∧
    3 < s.cfg.dht.minRespUs ∧ s.cfg.dht.minRespUs ≤ 4 ∧ 10 ≤ (10 : Half).toNat ∧ (10 : Half).toNat < 11 ∧
    (sensor [9, 11, 5, 1]).env.wave = phaseWave (s.t + s.lead) true [9, 11, 5, 1] ++ [] ∧
    (sensor [9, 4, 3, 1]).env.wave = phaseWave (s.t + s.lead) true [9, 4, 3, 1] ++ [] ∧
    (sensor [9, 10, 11, 1]).env.wave = phaseWave (s.t + s.lead) true [9, 10, 11, 1] ++ [] := by
  decide +kernel

theorem witness_DhtOutcomeAndReading : State.reset.busy = false := rfl

/-- The frame of `test_dhtReadFrame_valid`, then a call in the last millisecond of the spacing. -/
theorem witness_DhtSecondReadBusy :
    let s := sensor (1 :: 5 :: 5 :: bitPhases (bitsOf [0x37, 0x00, 0x18, 0x00, 0x4F]) ++ [3])
    let t := after (exec (.dhtReadFrame 10) s)
    let u := { t with t := 2999 }
    s.busy = false ∧ exec (.dhtReadFrame 10) s = .next t ∧ t.rsp.status = 0x00 ∧ u.busy = false ∧ u.cfg = t.cfg ∧
      u.dht = t.dht ∧ u.t / 1000 < t.t / 1000 + u.cfg.dht.spacingMs := by
  refine ⟨rfl, ?_, ?_⟩
  · exact exec_after rfl rfl
  · decide +kernel

theorem witness_DhtBounded : ∃ t, exec (.dhtReadFrame 65535) State.reset = .next t := ⟨_, exec_accepted rfl rfl⟩

/-! ## Witnesses: UART -/

/-- "OK" between the terminators of V32. -/
def okLine : QueuedLine := ⟨[.byte 0x0D, .byte 0x0A], ascii "OK", .byte 0x0D⟩

/-- An error line ended by the idle commit. -/
def errorLine : QueuedLine := ⟨[.byte 0x0A], ascii "ERROR", .idleEol⟩

/-- A line that decides nothing. -/
def readyLine : QueuedLine := ⟨[], ascii "RDY", .byte 0x0A⟩

/-- The socket-opened notification (V41). -/
def openedLine : QueuedLine := ⟨[.byte 0x0A], ascii "+QIOPEN: 0,0", .byte 0x0D⟩

theorem okLine_fits : okLine.Fits UartConfig.ref :=
  ⟨⟨by simp [okLine, RxItem.ends], by decide, by decide, .inl rfl⟩, by decide⟩

theorem errorLine_fits : errorLine.Fits UartConfig.ref :=
  ⟨⟨by simp [errorLine, RxItem.ends], by decide, by decide, .inr (.inr rfl)⟩, by decide⟩

theorem readyLine_fits : readyLine.Fits UartConfig.ref :=
  ⟨⟨by simp [readyLine], by decide, by decide, .inr (.inl rfl)⟩, by decide⟩

theorem openedLine_fits : openedLine.Fits UartConfig.ref :=
  ⟨⟨by simp [openedLine, RxItem.ends], by decide, by decide, .inl rfl⟩, by decide⟩

theorem okLine_decides : Decides UartConfig.ref (ascii "OK") okLine.text 0x00 := .inl ⟨by decide, rfl⟩

theorem errorLine_decides : Decides UartConfig.ref (ascii "OK") errorLine.text 0x08 :=
  .inr (.inr ⟨by decide, .inr (by decide), by decide, rfl⟩)

theorem readyLine_ignored : Ignored UartConfig.ref (ascii "OK") readyLine.text := by
  have h1 : contains readyLine.text (ascii "OK") = false := by decide
  have h2 : contains readyLine.text UartConfig.ref.errCodeMarker = false := by decide
  have h3 : contains readyLine.text UartConfig.ref.errGeneric = false := by decide
  rintro code (⟨h, _⟩ | ⟨_, _, h, _⟩ | ⟨_, _, h, _⟩)
  · rw [h1] at h
    cases h
  · rw [h2] at h
    cases h
  · rw [h3] at h
    cases h

/-- STR1 = "OK" and lines in RX.q. -/
def talking (ls : List QueuedLine) (rest : List RxItem) : State :=
  { modem 0 [] "AT" "OK" with rx := ⟨[], 0, queuedItems ls ++ rest⟩ }

theorem witness_ReadLineFromQueue :
    let s := talking [okLine] [.byte 0x0A]
    s.busy = false ∧ s.linebuf.wf = true ∧ (128 : Byte) ≠ 0 ∧ (128 : Byte).toNat ≤ s.cfg.uart.lineMax.val ∧
      (1 : Half) ≠ 0 ∧ okLine.IsLine ∧ s.pump.rx.q = okLine.items ++ [.byte 0x0A] :=
  ⟨by decide, by decide, by decide, by decide, by decide, okLine_fits.1, by decide⟩

/-- Three terminators (V33), the next byte at the very deadline. -/
theorem witness_ReadLineTimesOut :
    let s := { within { Env.unscripted with arrivals := [(100, 0x41)] } with
      rx := ⟨[], 0, [.byte 0x0D, .byte 0x0A, .idleEol]⟩ }
    s.busy = false ∧ (16 : Byte) ≠ 0 ∧ (16 : Byte).toNat ≤ s.cfg.uart.lineMax.val ∧ (100 : Half) ≠ 0 ∧
      (∀ x ∈ s.pump.rx.q, x.ends) ∧ s.pump.rx.acc = [] ∧
      (∀ a ∈ s.pump.env.arrivals, s.t / 1000 + (100 : Half).toNat ≤ a.1) := by
  refine ⟨by decide, by decide, by decide, by decide, ?_, by decide, by decide⟩
  intro x hx
  have : x = .byte 0x0D ∨ x = .byte 0x0A ∨ x = .idleEol := by
    simpa [State.pump, rxRun, Rx.idleBefore, Rx.idleDue, within, State.resetWith, Env.unscripted, State.nowMs] using hx
  exact this

/-- A line of two bytes after a terminator, cut short by the deadline, the byte that would go on with it arriving at the very
deadline. -/
theorem witness_ReadLineTimesOut_cut :
    let s := { within { Env.unscripted with arrivals := [(100, 0x43)] } with
      rx := ⟨[], 0, [RxItem.byte 0x0A] ++ [RxItem.byte 0x41, RxItem.byte 0x42]⟩ }
    s.busy = false ∧ s.linebuf.wf = true ∧ (1 : Byte) ≠ 0 ∧ (1 : Byte).toNat ≤ s.cfg.uart.lineMax.val ∧
      (100 : Half) ≠ 0 ∧ (∀ x ∈ [RxItem.byte 0x0A], x.ends) ∧ (∀ b ∈ ([0x41, 0x42] : Bytes), b ≠ 0x0D ∧ b ≠ 0x0A) ∧
      s.pump.rx.q = [RxItem.byte 0x0A] ++ ([0x41, 0x42] : Bytes).map .byte ∧ s.pump.rx.acc = [] ∧
      (∀ a ∈ s.pump.env.arrivals, s.t / 1000 + (100 : Half).toNat ≤ a.1) := by
  refine ⟨by decide, by decide, by decide, by decide, by decide, fun x hx => ?_, by decide, by decide, by decide,
    by decide⟩
  obtain rfl : x = .byte 0x0A := by simpa using hx
  exact .inr (.inl rfl)

/-- By hand from R204, a line cut short with room for it: "AB" is returned, "C" waits in RX.acc. -/
theorem test_uartReadLine_cut_by_deadline :
    (fun s => (s.rsp, s.linebuf, s.linelen, s.rx, s.t)) (after (execUartReadLine 16 100
      { within { Env.unscripted with arrivals := [(100, 0x43)] } with
        rx := ⟨[], 0, [.byte 0x0A, .byte 0x41, .byte 0x42]⟩ })) =
      (⟨0, 0, 0, 2⟩, buffer (ascii "AB"), 2, ⟨[0x43], 100, []⟩, 100000) := by decide +kernel

theorem witness_ReadLineZeroOnlyAtDeadline :
    State.reset.busy = false ∧ (16 : Byte) ≠ 0 ∧ (16 : Byte).toNat ≤ State.reset.cfg.uart.lineMax.val ∧
      exec (.uartReadLine 16 100) State.reset = .next (after (exec (.uartReadLine 16 100) State.reset)) ∧
      (after (exec (.uartReadLine 16 100) State.reset)).rsp.value = 0 := by
  exact ⟨rfl, by decide, by decide, exec_after rfl (by decide), by decide +kernel⟩

theorem witness_SendCommandMatched :
    let s := talking [readyLine, errorLine] [.byte 0x0A]
    s.busy = false ∧ s.linebuf.wf = true ∧ (1 : Half) ≠ 0 ∧
      (∀ x ∈ [readyLine], x.Fits s.cfg.uart ∧ Ignored s.cfg.uart s.str1Bytes x.text) ∧ errorLine.Fits s.cfg.uart ∧
      Decides s.cfg.uart s.str1Bytes errorLine.text 0x08 ∧
      s.pump.rx.q = queuedItems [readyLine] ++ errorLine.items ++ [.byte 0x0A] := by
  have hs : (talking [readyLine, errorLine] [.byte 0x0A]).str1Bytes = ascii "OK" := by decide +kernel
  refine ⟨by decide, by decide, by decide, ?_, errorLine_fits, ?_, by decide +kernel⟩
  · intro x hx
    obtain rfl : x = readyLine := by simpa using hx
    rw [hs]
    exact ⟨readyLine_fits, readyLine_ignored⟩
  · rw [hs]
    exact errorLine_decides

/-- A reply one millisecond after the command. -/
theorem witness_SendCommandLaterReply :
    let s := modem 10000 ((ascii "OK").map (fun b => (10001, b)) ++ (10001, 0x0D) :: [(10001, 0x0A)]) "AT" "OK"
    s.busy = false ∧ s.linebuf.wf = true ∧ s.pump.rx.q = [] ∧ s.pump.rx.acc = [] ∧
      s.pump.env.arrivals = (ascii "OK").map (fun b => (10001, b)) ++ (10001, 0x0D) :: [(10001, 0x0A)] ∧
      s.t / 1000 < 10001 ∧ 10001 < s.t / 1000 + (2 : Half).toNat ∧ ascii "OK" ≠ [] ∧
      (∀ b ∈ ascii "OK", b ≠ 0x0D ∧ b ≠ 0x0A) ∧ (ascii "OK").length ≤ s.cfg.uart.lineMax.val ∧
      (ascii "OK").length ≤ s.cfg.uart.rxAccCap ∧ (ascii "OK").length < s.cfg.uart.rxQCap ∧
      contains (ascii "OK") s.str1Bytes = true := by decide +kernel

theorem witness_SendCommandTimeoutZero : State.reset.busy = false := rfl

theorem witness_SendCommandOutcome : State.reset.busy = false ∧ State.reset.linebuf.wf = true := ⟨rfl, rfl⟩

theorem witness_UartBounded :
    (∃ t, exec (.uartReadLine 5 5) State.reset = .next t) ∧ (∃ t, exec (.uartSendCommand 5) State.reset = .next t) ∧
    (∃ t, exec (.uartInitSession 5) State.reset = .next t) ∧ (∃ t, exec .uartSendLine State.reset = .next t) :=
  ⟨⟨_, exec_accepted rfl rfl⟩, ⟨_, exec_accepted rfl rfl⟩, ⟨_, exec_accepted rfl rfl⟩, ⟨_, exec_accepted rfl rfl⟩⟩

/-- The replies of V41 standing in RX.q. -/
theorem witness_InitAllStepsOk :
    let s := talking [okLine, okLine, okLine, okLine, errorLine, okLine, openedLine] []
    s.busy = false ∧ s.linebuf.wf = true ∧ 0 < s.cfg.uart.tCmdMs ∧ 0 < s.cfg.uart.tAttachMs ∧
      0 < s.cfg.uart.tSockWaitMs ∧
      (∀ l ∈ [okLine, okLine, okLine, okLine] ++ [] ++ [errorLine, okLine, openedLine], l.Fits s.cfg.uart) ∧
      (∀ l ∈ [okLine, okLine, okLine, okLine, okLine], contains l.text s.cfg.uart.expOk = true) ∧
      ([] : List QueuedLine).length = s.cfg.uart.diagCmds.length ∧
      (∀ l ∈ [] ++ [errorLine], ∃ code, Decides s.cfg.uart s.cfg.uart.expOk l.text code) ∧
      contains openedLine.text s.cfg.uart.expSockOpened = true ∧
      s.pump.rx.q =
        queuedItems ([okLine, okLine, okLine, okLine] ++ [] ++ [errorLine, okLine, openedLine]) ++ [] := by
  refine ⟨by decide, by decide, by decide, by decide, by decide, ?_, by decide, by decide, ?_, by decide,
    by decide +kernel⟩
  · intro l hl
    have : l = okLine ∨ l = errorLine ∨ l = openedLine := by
      simp only [List.mem_append, List.mem_cons, List.not_mem_nil, or_false] at hl
      tauto
    rcases this with rfl | rfl | rfl
    · exact okLine_fits
    · exact errorLine_fits
    · exact openedLine_fits
  · intro l hl
    obtain rfl : l = errorLine := by simpa using hl
    exact ⟨_, errorLine_decides⟩

theorem witness_InitStopsAtSetApn :
    let s := talking [okLine, okLine, okLine, errorLine] []
    s.busy = false ∧ s.linebuf.wf = true ∧ 0 < s.cfg.uart.tCmdMs ∧ 0 < s.cfg.uart.tAttachMs ∧
      (∀ l ∈ [okLine, okLine, okLine, errorLine], l.Fits s.cfg.uart) ∧
      (∀ l ∈ [okLine, okLine, okLine], contains l.text s.cfg.uart.expOk = true) ∧
      Decides s.cfg.uart s.cfg.uart.expOk errorLine.text 0x08 ∧ (0x08 : Byte) ≠ 0x00 ∧
      s.pump.rx.q = queuedItems [okLine, okLine, okLine, errorLine] ++ [] := by
  refine ⟨by decide, by decide, by decide, by decide, ?_, by decide, errorLine_decides, by decide, by decide +kernel⟩
  intro l hl
  have : l = okLine ∨ l = errorLine := by
    simp only [List.mem_cons, List.not_mem_nil, or_false] at hl
    tauto
  rcases this with rfl | rfl
  · exact okLine_fits
  · exact errorLine_fits

theorem errorLine_ready (c : UartConfig) (h : c = .ref) :
    ∀ a ∈ [([readyLine], errorLine), ([], errorLine)],
      (∀ x ∈ a.1, x.Fits c ∧ Ignored c c.expOk x.text) ∧
        a.2.Fits c ∧ ∃ code, code ≠ 0x00 ∧ Decides c c.expOk a.2.text code := by
  subst h
  intro a ha
  simp only [List.mem_cons, List.not_mem_nil, or_false] at ha
  rcases ha with rfl | rfl
  · refine ⟨fun x hx => ?_, errorLine_fits, _, by decide, errorLine_decides⟩
    obtain rfl : x = readyLine := by simpa using hx
    exact ⟨readyLine_fits, readyLine_ignored⟩
  · exact ⟨fun x hx => by simp at hx, errorLine_fits, _, by decide, errorLine_decides⟩

/-- Attempts ended by error lines, the first of them after a line that decides nothing. -/
theorem witness_InitHandshakeExhausted_errors :
    let s := { State.reset with
      rx := ⟨[], 0, queuedItems [readyLine] ++ errorLine.items ++ errorLine.items ++ [RxItem.byte 0x0A]⟩ }
    s.busy = false ∧ s.linebuf.wf = true ∧ 0 < s.cfg.uart.tCmdMs ∧
      [([readyLine], errorLine)].length = s.cfg.uart.handshakeRetries ∧
      (∀ a ∈ [([readyLine], errorLine)] ++ [([], errorLine)],
        (∀ x ∈ a.1, x.Fits s.cfg.uart ∧ Ignored s.cfg.uart s.cfg.uart.expOk x.text) ∧
          a.2.Fits s.cfg.uart ∧ ∃ code, code ≠ 0x00 ∧ Decides s.cfg.uart s.cfg.uart.expOk a.2.text code) ∧
      Decides s.cfg.uart s.cfg.uart.expOk errorLine.text 0x08 ∧
      s.pump.rx.q = ([([readyLine], errorLine)] ++ [([], errorLine)]).flatMap
        (fun a : List QueuedLine × QueuedLine => queuedItems a.1 ++ a.2.items) ++ [RxItem.byte 0x0A] :=
  ⟨by decide, by decide, by decide, by decide, errorLine_ready _ rfl, errorLine_decides, by decide +kernel⟩

/-- Attempts that all time out: the first arrival stands at the very end of the last one. -/
theorem witness_InitHandshakeExhausted_timeouts :
    let s := { within { Env.unscripted with arrivals := [(2000, 0x4F)] } with
      rx := ⟨[], 0, queuedItems [readyLine] ++ [RxItem.byte 0x0D]⟩ }
    s.busy = false ∧ s.linebuf.wf = true ∧
      (∀ x ∈ [readyLine], x.Fits s.cfg.uart ∧ Ignored s.cfg.uart s.cfg.uart.expOk x.text) ∧
      (∀ x ∈ [RxItem.byte 0x0D], x.ends) ∧ s.pump.rx.q = queuedItems [readyLine] ++ [RxItem.byte 0x0D] ∧
      s.pump.rx.acc = [] ∧
      (∀ a ∈ s.pump.env.arrivals,
        s.t / 1000 + (1 + s.cfg.uart.handshakeRetries) * s.cfg.uart.tCmdMs ≤ a.1) := by
  refine ⟨by decide, by decide, fun x hx => ?_, fun x hx => ?_, by decide +kernel, by decide, by decide⟩
  · obtain rfl : x = readyLine := by simpa using hx
    exact ⟨readyLine_fits, readyLine_ignored⟩
  · exact .inl (by simpa using hx)

/-- After reset with the timeout of a command 0. -/
def impatient : State :=
  { State.reset with cfg := { Config.ref with uart := { UartConfig.ref with tCmdMs := 0 } } }

/-- The states between handshake attempts from there. -/
def betweenAttempts : Nat → State
  | 0 => { impatient.pump with busy := true, session := ⟨false, false⟩ }
  | k + 1 => (sendCommand UartConfig.ref.cmdHandshake UartConfig.ref.expOk 0 (betweenAttempts k)).2

/-- Two attempts that fail, as their own outcomes. -/
theorem witness_InitHandshakeExhausted :
    let s := impatient
    let u := betweenAttempts
    let attempt := fun k => sendCommand s.cfg.uart.cmdHandshake s.cfg.uart.expOk s.cfg.uart.tCmdMs (u k)
    s.busy = false ∧ u 0 = { s.pump with busy := true, session := ⟨false, false⟩ } ∧
      ∀ k ≤ s.cfg.uart.handshakeRetries, (attempt k).1 ≠ .ok ∧ u (k + 1) = (attempt k).2 := by
  refine ⟨rfl, rfl, fun k _ => ⟨?_, rfl⟩⟩
  have h : (sendCommand UartConfig.ref.cmdHandshake UartConfig.ref.expOk 0 (betweenAttempts k)).1 =
      .protocolTimeout := by
    simp [sendCommand, awaitReply, awaitReplyLoop]
  intro hk
  exact absurd (h.symm.trans hk) (by decide)

theorem witness_InitOutcome : State.reset.busy = false := rfl

/-- The line "SEND OK" (V45). -/
def sentLine : QueuedLine := ⟨[.byte 0x0D, .byte 0x0A], ascii "SEND OK", .byte 0x0D⟩

theorem witness_SendLineOutcome :
    let s := { State.reset with
      rx := ⟨[], 0, [RxItem.byte 0x0A] ++ RxItem.byte 0x3E ::
        (queuedItems [readyLine] ++ sentLine.items ++ [RxItem.byte 0x0A])⟩ }
    s.busy = false ∧ s.linebuf.wf = true ∧ 0 < s.cfg.uart.tPromptMs ∧ 0 < s.cfg.uart.tSendAckMs ∧
      (∀ x ∈ [RxItem.byte 0x0A], x ≠ .byte s.cfg.uart.promptChar) ∧
      (∀ x ∈ [readyLine], x.Fits s.cfg.uart ∧ Ignored s.cfg.uart s.cfg.uart.expSendAck x.text) ∧
      sentLine.Fits s.cfg.uart ∧ Decides s.cfg.uart s.cfg.uart.expSendAck sentLine.text 0x00 ∧
      s.pump.rx.q =
        [RxItem.byte 0x0A] ++ RxItem.byte s.cfg.uart.promptChar ::
          (queuedItems [readyLine] ++ sentLine.items ++ [RxItem.byte 0x0A]) := by
  refine ⟨by decide, by decide, by decide, by decide, by decide, ?_, ?_, .inl ⟨by decide, rfl⟩, by decide +kernel⟩
  · intro x hx
    obtain rfl : x = readyLine := by simpa using hx
    refine ⟨readyLine_fits, ?_⟩
    have h1 : contains readyLine.text UartConfig.ref.expSendAck = false := by decide
    have h2 : contains readyLine.text UartConfig.ref.errCodeMarker = false := by decide
    have h3 : contains readyLine.text UartConfig.ref.errGeneric = false := by decide
    rintro code (⟨h, _⟩ | ⟨_, _, h, _⟩ | ⟨_, _, h, _⟩)
    · exact absurd (h.symm.trans h1) (by decide)
    · exact absurd (h.symm.trans h2) (by decide)
    · exact absurd (h.symm.trans h3) (by decide)
  · exact ⟨⟨by simp [sentLine, RxItem.ends], by decide, by decide, .inl rfl⟩, by decide⟩

/-- The prompt of V45, "> ", at 1 ms of the wait, seen at 51: nothing before the deadline at 5051, where a byte comes. -/
theorem witness_SendLineOutcome_seen_late :
    let later : List Arrival := [(5051, 0x4F)]
    let s := { within { Env.unscripted with arrivals := [(1, 0x3E), (1, 0x20)] ++ later } with
      rx := ⟨[], 0, [.byte 0x0A]⟩ }
    let c := s.cfg.uart
    s.busy = false ∧ s.linebuf.wf = true ∧ (∀ x ∈ s.pump.rx.q, x ≠ .byte c.promptChar) ∧ s.pump.rx.acc = [] ∧
      s.pump.env.arrivals = (1, c.promptChar) :: ([0x20] : Bytes).map (fun b => (1, b)) ++ later ∧
      (∀ a ∈ later, 1 + c.tIdleCommitMs < a.1) ∧ s.t / 1000 < 1 ∧ 1 + c.tIdleCommitMs < s.t / 1000 + c.tPromptMs ∧
      (∀ b ∈ c.promptChar :: [0x20], b ≠ 0x0D ∧ b ≠ 0x0A) ∧ lineOutcome c c.expSendAck [0x20] = none ∧
      1 ≤ c.lineMax.val ∧ 1 < c.rxAccCap ∧ 1 + 1 < c.rxQCap ∧
      (∀ a ∈ later, 1 + c.tIdleCommitMs + c.tSendAckMs ≤ a.1) ∧ 1 + c.tIdleCommitMs + c.tSendAckMs = 5051 := by
  decide +kernel

theorem witness_SendLineOutcome_seen_late_ignored : Ignored UartConfig.ref UartConfig.ref.expSendAck [0x20] :=
  (ignored_iff _ _ _).mpr (by decide)

/-- The prompt alone, and the reply line in the last millisecond before that deadline. -/
theorem witness_SendLineOutcome_seen_late_reply :
    let later : List Arrival := (ascii "SEND OK").map (fun b => (5050, b)) ++ (5050, 0x0D) :: [(5050, 0x0A)]
    let s := within { Env.unscripted with arrivals := (1, 0x3E) :: later }
    let c := s.cfg.uart
    s.busy = false ∧ s.linebuf.wf = true ∧ (∀ x ∈ s.pump.rx.q, x ≠ .byte c.promptChar) ∧ s.pump.rx.acc = [] ∧
      s.pump.env.arrivals = (1, c.promptChar) :: ([] : Bytes).map (fun b => (1, b)) ++ later ∧
      (∀ a ∈ later, 1 + c.tIdleCommitMs < a.1) ∧ 5050 < 1 + c.tIdleCommitMs + c.tSendAckMs ∧ ascii "SEND OK" ≠ [] ∧
      (∀ b ∈ ascii "SEND OK", b ≠ 0x0D ∧ b ≠ 0x0A) ∧ (ascii "SEND OK").length ≤ c.lineMax.val ∧
      (ascii "SEND OK").length ≤ c.rxAccCap ∧ (ascii "SEND OK").length < c.rxQCap ∧
      contains (ascii "SEND OK") c.expSendAck = true := by decide +kernel

/-- An error line in RX.q, a byte in RX.acc, an error line arriving, and the prompt arriving at the very deadline
(V46). -/
theorem witness_SendLineNoPrompt :
    let s := { within { Env.unscripted with
        arrivals := (ascii "ERROR\r\n").map (fun b => (20, b)) ++ [(2000, 0x3E)] } with
      rx := ⟨ascii "E", 0, queued "ERROR"⟩ }
    s.busy = false ∧ (∀ x ∈ s.pump.rx.q, x ≠ .byte s.cfg.uart.promptChar) ∧
      (∀ b ∈ s.pump.rx.acc, b ≠ s.cfg.uart.promptChar) ∧
      (∀ a ∈ s.pump.env.arrivals, a.1 < s.t / 1000 + s.cfg.uart.tPromptMs → a.2 ≠ s.cfg.uart.promptChar) := by
  decide +kernel

/-! ## Witnesses: BTN and DUTY -/

/-- Every clause of the debounce and of the event machine, at the bounds of its interval. -/
theorem witness_ButtonPollExact :
    let s := { within { Env.unscripted with btnAnswers := [true] } with
      t := 120000, btn := ⟨false, 0, .idle, true, 100⟩ }
    s.busy = false ∧ s.env.btnAnswers = true :: [] ∧
      (true = s.btn.rawPrev ∧ (s.cfg.btn.settleMs : Int) ≤ ((s.t / 1000 : Nat) : Int) - (s.btn.rawSinceMs : Int)) ∧
      s.btn.phase = .idle := by decide

/-- A hold of exactly the threshold, and one a millisecond shorter. -/
theorem witness_ButtonPollExact_held :
    let b : Btn := ⟨true, 120, .pressed, true, 100⟩
    b.phase = .pressed ∧ (BtnConfig.ref.longMs : Int) ≤ ((1120 : Nat) : Int) - (b.pressStartMs : Int) ∧
      ¬ ((BtnConfig.ref.longMs : Int) ≤ ((1119 : Nat) : Int) - (b.pressStartMs : Int)) ∧
      (b.poll BtnConfig.ref true 1119).2.debouncedLevel = true ∧
      ({ b with rawPrev := false } : Btn).phase = .pressed ∧
      (({ b with rawPrev := false } : Btn).poll BtnConfig.ref false 1119).2.debouncedLevel = false ∧
      ({ b with phase := .longReported } : Btn).phase = .longReported := by decide

/-- V52 (a), one millisecond inside the settle time. -/
theorem witness_BounceIgnored :
    let b : Btn := ⟨false, 0, .idle, false, 0⟩
    b.rawPrev = b.debouncedLevel ∧
      ∀ x ∈ [(true, 100), (false, 110), (true, 119)], 100 ≤ x.2 ∧ x.2 < 100 + BtnConfig.ref.settleMs := by decide

/-- V52 (c): accepted at 120. -/
theorem witness_CleanTransitionAccepted :
    let b : Btn := ⟨false, 0, .idle, false, 0⟩
    b.rawPrev = b.debouncedLevel ∧ true ≠ b.debouncedLevel ∧ ∃ u ∈ [110, 120], 100 + BtnConfig.ref.settleMs ≤ u := by
  decide

/-- V51. -/
theorem witness_HoldGivesOneLongPress :
    let b : Btn := ⟨false, 0, .idle, false, 0⟩
    b.phase = .idle ∧ b.debouncedLevel = false ∧ b.rawPrev = false ∧
      Rising (100 :: [110] ++ 120 :: [1110] ++ 1120 :: [1130, 1990] ++ [2000, 2010, 2020]) ∧
      (∀ u ∈ [110], u < 100 + BtnConfig.ref.settleMs) ∧ 100 + BtnConfig.ref.settleMs ≤ 120 ∧
      120 + BtnConfig.ref.longMs ≤ 1120 := by
  refine ⟨rfl, rfl, rfl, ?_, by decide, by decide, by decide⟩
  unfold Rising
  decide

/-- V50. -/
theorem witness_ShortPressOnce :
    let b : Btn := ⟨false, 0, .idle, false, 0⟩
    b.phase = .idle ∧ b.debouncedLevel = false ∧ b.rawPrev = false ∧
      Rising (100 :: [110] ++ 120 :: [290] ++ 300 :: [310] ++ 320 :: [330]) ∧
      (∀ u ∈ [110], u < 100 + BtnConfig.ref.settleMs) ∧ 100 + BtnConfig.ref.settleMs ≤ 120 ∧
      (∀ u ∈ [310], u < 300 + BtnConfig.ref.settleMs) ∧ 300 + BtnConfig.ref.settleMs ≤ 320 ∧
      320 < 120 + BtnConfig.ref.longMs := by
  refine ⟨rfl, rfl, rfl, ?_, by decide, by decide, by decide, by decide, by decide⟩
  unfold Rising
  decide

/-- The three clauses of R270, at the bounds of their ranges. -/
theorem witness_AutoDutyExact :
    State.reset.busy = false ∧ (32 : Half).toInt ≤ DutyConfig.ref.tLow ∧ DutyConfig.ref.tLow < (38 : Half).toInt ∧
      DutyConfig.ref.tHigh ≤ (38 : Half).toInt ∧ DutyConfig.ref.tLow < (33 : Half).toInt ∧
      (37 : Half).toInt < DutyConfig.ref.tHigh := by decide

theorem witness_AutoDutyMonotone : (-5 : Int) ≤ 33 := by decide

/-- Each mode and event; the mapping is R275's under REF. -/
theorem witness_MotorUpdateExact :
    State.reset.busy = false ∧ EventArg.shortPress ≠ .reserved3 ∧ EventArg.longPress ≠ .reserved3 ∧
      EventArg.noEvent ≠ .reserved3 ∧ State.reset.cfg.duty.motorMap = .r275 ∧
      (after (execMotorUpdate true .longPress 33 State.reset)).motor.mode = .manual ∧
      (after (execMotorUpdate true .shortPress 33 State.reset)).motor.mode = .auto := by decide +kernel

theorem witness_AlarmUpdateExact : State.reset.busy = false := rfl

/-- Two requests of one pattern, the second at the first millisecond at which it may come. -/
theorem witness_BeepCooldown :
    (Alarm.updates DutyConfig.ref [(50, 36, 0), (50, 36, 9999), (50, 36, 10000)] State.reset.alarm).1 =
      [(0, .temperatureOnly), (9999, .none), (10000, .temperatureOnly)] := by decide

/-- A numeral, and REF's set-APN text at and past the cut (R106, R212). -/
theorem witness_NumeralAndComposedText :
    decimal 65535 = ascii "65535" ∧ (65535 : Nat) ≠ 0 ∧
      composeSetApn UartConfig.ref (ascii "cmiot") = ascii "AT+CGDCONT=1,\"IP\",\"cmiot\"" ∧
      composeSetApn { UartConfig.ref with cmdTextCap := 21 } (ascii "cmiot") = ascii "AT+CGDCONT=1,\"IP\",\"cm" := by
  decide +kernel

/-- A slice at the end of a text, and one no slice equals. -/
theorem witness_SubstringAndOperandBytes :
    contains (ascii "+CME ERROR") (ascii "ERROR") = true ∧ contains (ascii "ERRO") (ascii "ERROR") = false := by decide

end Sys2Proof.Tests
end

section
/-! PROOFS. The family 00_scope.md: the substring test of R13, the address byte of R100 and the byte-string operands of
R23 and R62. The substring test is the library's `List.IsInfix`, whose slices are those of R13. -/

namespace Sys2Proof.Machine

/-! ## The substring test -/

/-- R13's test is the library's relation "contiguous sublist". -/
theorem contains_iff_isInfix (h n : Bytes) : contains h n = true ↔ n <:+: h := by
  induction h with
  | nil => simp [contains]
  | cons b rest ih => simp [contains, ih, List.infix_cons_iff]

/-- A contiguous sublist is a slice: it starts after some `i` elements and ends within the list. -/
theorem isInfix_iff_slice (h n : Bytes) :
    n <:+: h ↔ ∃ i, i + n.length ≤ h.length ∧ (h.drop i).take n.length = n := by
  constructor
  · rintro ⟨before, after, rfl⟩
    exact ⟨before.length, by simp, by simp⟩
  · rintro ⟨i, -, hslice⟩
    have hpre : n <+: h.drop i := hslice ▸ List.take_prefix n.length (h.drop i)
    exact hpre.isInfix.trans (List.drop_suffix i h).isInfix

@[simp] theorem contains_nil (h : Bytes) : contains h [] = true :=
  (contains_iff_isInfix h []).2 List.nil_infix

/-! ## The operand bytes -/

/-- R100: the sum fits a byte, since the address has seven bits. -/
theorem addressByte_toNat (a : BitVec 7) (d : Direction) :
    (addressByte a d).toNat = a.toNat * 2 + (match d with | .write => 0 | .read => 1) := by
  have ha : a.toNat < 128 := a.isLt
  cases d <;> simp only [addressByte, BitVec.toNat_ofNat] <;> omega

/-- The bytes `[0..n)` of a memory, position by position, and none past them. -/
theorem Memory.prefixBytes_getElem? (m : Memory) (n k : Nat) :
    (m.prefixBytes n)[k]? = if k < n then some (m.read k) else none := by
  split
  · next hk => exact Memory.prefixBytes_get m n k hk
  · next hk => exact List.getElem?_eq_none (by rw [Memory.prefixBytes_length]; omega)

end Sys2Proof.Machine

open Sys2Proof.Machine

/-- Settles O60: the substring test through `List.IsInfix`, the operands through the first bytes of their memories. -/
theorem substringAndOperandBytes : Obligations.SubstringAndOperandBytes := by
  refine ⟨fun h n => ⟨?_, contains_nil h⟩, fun a => ?_, fun s n k => ?_⟩
  · exact (contains_iff_isInfix h n).trans (isInfix_iff_slice h n)
  · exact ⟨addressByte_toNat a .write, addressByte_toNat a .read⟩
  · exact ⟨Memory.prefixBytes_getElem? s.txbuf n.toNat k, Memory.prefixBytes_getElem? s.str0 s.str0len.toNat k,
      Memory.prefixBytes_getElem? s.str1 s.str1len.toNat k⟩

end

section
/-! PROOFS. The family 10_state.md, part 1: what a step runs, HOST's writes and waits (R20, R22, R23, R76), and the state
after reset (R35). -/

namespace Sys2Proof.Machine

/-! ## What a step runs -/

/-- A step on HOST's next action runs it on the state with the action taken and the model's counter moved. -/
theorem step_of_host {s : State} {a : HostAct} {rest : List HostAct} (h : s.host = a :: rest) :
    step s = runAction a { s with host := rest, env := { s.env with draws := s.env.draws + 1 } } := by
  simp [step, State.nextAction, h]

/-- With nothing to do HOST lets one microsecond pass (assumption 4). -/
theorem step_of_idleHost {s : State} (h : s.host = []) :
    step s = runAction (.wait 1) { s with env := { s.env with draws := s.env.draws + 1 } } := by
  simp [step, State.nextAction, h]

theorem runAction_command {w : Word} {i : Instr} (h : decode w = .ok i) (s : State) :
    runAction (.command w) s = exec i (s.writeCmd w) := by
  simp [runAction, runWord, h]

theorem State.writeCmd_eq (s : State) (w : Word) : s.writeCmd w = { s with cmd := if s.busy then s.cmd else w } := by
  unfold State.writeCmd
  split <;> rfl

/-- HOST's word, decoded and run (R20, R22). -/
theorem step_of_command {s : State} {w : Word} {rest : List HostAct} {i : Instr} (hh : s.host = .command w :: rest)
    (hd : decode w = .ok i) :
    step s = exec i { s with
      host := rest
      cmd := if s.busy then s.cmd else w
      env := { s.env with draws := s.env.draws + 1 } } := by
  rw [step_of_host hh, runAction_command hd, State.writeCmd_eq]

theorem decode_of_decodeTableWord {nbits w : Nat} {i : Instr} (h : decodeTableWord nbits w = some i) :
    decode (BitVec.ofNat 32 (w % 2 ^ nbits)) = .ok i := by
  unfold decodeTableWord at h
  split at h
  · next j hj => rw [hj, Option.some.inj h]
  · cases h

/-! ## HOST's writes -/

/-- A byte that does not land has no effect (R76, assumption 21). -/
theorem State.hostWriteByte_dropped {s : State} {i : Nat} (h : ¬ (s.busy = false ∧ i < bufCap)) (b : OperandBuf)
    (v : Byte) : s.hostWriteByte b i v = s := by
  unfold State.hostWriteByte
  cases hb : s.busy <;> simp_all

/-- A byte that lands, buffer by buffer (R23). -/
theorem State.hostWriteByte_lands {s : State} {i : Nat} (h : s.busy = false ∧ i < bufCap) (v : Byte) :
    s.hostWriteByte .txbuf i v = { s with txbuf := s.txbuf.write i v } ∧
    s.hostWriteByte .str0 i v = { s with str0 := s.str0.write i v } ∧
    s.hostWriteByte .str1 i v = { s with str1 := s.str1.write i v } := by
  have hcond : (s.busy || decide (bufCap ≤ i)) = false := by simp [h]
  simp only [State.hostWriteByte, hcond, Bool.false_eq_true, if_false, and_self]

/-- R23, R76: where the byte lands, or that it has no effect. -/
theorem State.hostWriteByte_operandByte {s : State} (htx : s.txbuf.wf = true) (h0 : s.str0.wf = true)
    (h1 : s.str1.wf = true) (b b' : OperandBuf) (i j : Nat) (v : Byte) :
    (s.hostWriteByte b i v).operandByte b' j =
      if s.busy = false ∧ i < bufCap ∧ b' = b ∧ j = i then v else s.operandByte b' j := by
  by_cases hland : s.busy = false ∧ i < bufCap
  · obtain ⟨etx, e0, e1⟩ := State.hostWriteByte_lands hland v
    cases b with
    | txbuf => cases b' <;> simp [etx, State.operandByte, hland, Memory.read_write i j v htx]
    | str0 => cases b' <;> simp [e0, State.operandByte, hland, Memory.read_write i j v h0]
    | str1 => cases b' <;> simp [e1, State.operandByte, hland, Memory.read_write i j v h1]
  · rw [State.hostWriteByte_dropped hland, if_neg fun h => hland ⟨h.1, h.2.1⟩]

theorem State.hostWriteByte_frame (s : State) (b : OperandBuf) (i : Nat) (v : Byte) :
    s.hostWriteByte b i v = { s with
      txbuf := (s.hostWriteByte b i v).txbuf
      str0 := (s.hostWriteByte b i v).str0
      str1 := (s.hostWriteByte b i v).str1 } := by
  unfold State.hostWriteByte
  split
  · rfl
  · cases b <;> rfl

theorem State.hostWriteLength_eq (s : State) (r : LengthReg) (n : Byte) :
    s.hostWriteLength r n = { s with
      str0len := if s.busy = false ∧ r = .str0len then n else s.str0len
      str1len := if s.busy = false ∧ r = .str1len then n else s.str1len } := by
  unfold State.hostWriteLength
  split
  · next hb => rw [if_neg (by simp [hb]), if_neg (by simp [hb])]
  · next hb => cases r <;> simp [hb]

end Sys2Proof.Machine
open Sys2Proof Sys2Proof.Machine

/-- Settles O7: a step is `runAction` of HOST's next action, and a word that decodes runs `exec`. -/
theorem stepRunsDecodedCommand : Obligations.StepRunsDecodedCommand :=
  ⟨fun _ _ _ _ hh hd => step_of_command hh hd,
    fun s nbits w _ hd => step_of_command (s := s.withFetchWord nbits w) rfl (decode_of_decodeTableWord hd)⟩

/-- Settles O11: a read after a write for the bytes, and the frame of each action. -/
theorem hostWritesAndWaits : Obligations.HostWritesAndWaits := by
  refine ⟨fun s b i v rest htx h0 h1 hh => ?_, fun s r n rest hh => ?_, fun s us rest hh => ?_⟩
  · refine ⟨_, step_of_host hh, fun b' j => ?_, State.hostWriteByte_frame _ b i v⟩
    exact State.hostWriteByte_operandByte (s := { s with host := rest, env := _ }) htx h0 h1 b b' i j v
  · rw [step_of_host hh]
    exact congrArg _ (State.hostWriteLength_eq _ r n)
  · exact ⟨_, step_of_host hh, rfl, rfl⟩

/-- Settles O12: each field of the state after reset, as it stands in `State.resetWith`. -/
theorem resetValues : Obligations.ResetValues := by
  intro c e h
  refine ⟨rfl, rfl, rfl, rfl, rfl, fun b i => ?_, fun i => ⟨rfl, rfl⟩, rfl, rfl, rfl, rfl, ?_⟩
  · cases b <;> rfl
  · simp [State.resetWith]

/-- Settles O13: every clause of the invariant is about an empty, zero or idle field. -/
theorem invariantAtReset : Obligations.InvariantAtReset := by
  intro c e h
  constructor <;> simp [State.resetWith, Memory.wf, Memory.wfFrom, Memory.below, legalStatus]
end

section
/-! PROOFS. The family 10_state.md, part 2: what the I2C operations answer and leave unchanged (R26, R142). -/

namespace Sys2Proof.Machine

/-! ## The scripts an operation does not consume

What the time and the events of an operation leave of the environment: `Env.scripts` is all of it but the arrivals,
`Env.offBus` what no I2C operation consumes. -/

/-- The environment without its arrivals. -/
def Env.scripts (e : Env) : Env := { e with arrivals := [] }

/-- The environment without what an I2C operation consumes: answers of the lines, free values and arrivals. -/
def Env.offBus (e : Env) : Env := { e with lineAnswers := [], draws := 0, arrivals := [] }

theorem Env.eq_of_scripts {e e' : Env} (h : e'.scripts = e.scripts) : e' = { e with arrivals := e'.arrivals } := by
  cases e; cases e'; simp_all [Env.scripts]

theorem Env.eq_of_offBus {e e' : Env} (h : e'.offBus = e.offBus) :
    e' = { e with lineAnswers := e'.lineAnswers, draws := e'.draws, arrivals := e'.arrivals } := by
  cases e; cases e'; simp_all [Env.offBus]

@[simp] theorem State.emit_scripts (s : State) (e : Event) : (s.emit e).env.scripts = s.env.scripts := by
  cases e <;> rfl

@[simp] theorem State.emit_offBus (s : State) (e : Event) : (s.emit e).env.offBus = s.env.offBus := by
  cases e <;> rfl

@[simp] theorem State.delayUs_offBus (s : State) (n : Nat) : (s.delayUs n).env.offBus = s.env.offBus :=
  State.emit_offBus s _

@[simp] theorem State.drawLine_offBus (s : State) : s.drawLine.2.env.offBus = s.env.offBus := by
  unfold State.drawLine
  split <;> rfl

@[simp] theorem State.sampleSda_offBus (s : State) : s.sampleSda.2.env.offBus = s.env.offBus := by
  unfold State.sampleSda
  split <;> simp

@[simp] theorem State.sampleScl_offBus (s : State) : s.sampleScl.2.env.offBus = s.env.offBus := by
  simp [State.sampleScl]

@[simp] theorem idleCheck_offBus (s : State) : (idleCheck s).2.env.offBus = s.env.offBus := by
  simp [idleCheck]

@[simp] theorem clockPulse_offBus (s : State) : (clockPulse s).2.env.offBus = s.env.offBus := by
  simp [clockPulse]

@[simp] theorem start_offBus (s : State) : (start s).2.env.offBus = s.env.offBus := by
  rcases start_cases s with h | h <;> simp [h]

@[simp] theorem stop_offBus (s : State) : (stop s).env.offBus = s.env.offBus := by
  simp [stop]

@[simp] theorem driveBit_offBus (b : Level) (s : State) : (driveBit b s).env.offBus = s.env.offBus :=
  State.emit_offBus s _

@[simp] theorem writeBits_offBus (v : Byte) (k : Nat) (s : State) : (writeBits v k s).env.offBus = s.env.offBus := by
  induction k generalizing s with
  | zero => rfl
  | succ k ih => simp [writeBits, ih]

@[simp] theorem writeByte_offBus (v : Byte) (s : State) : (writeByte v s).2.env.offBus = s.env.offBus := by
  simp [writeByte]

@[simp] theorem sendData_offBus (bs : Bytes) (k : Nat) (s : State) :
    (sendData bs k s).2.env.offBus = s.env.offBus := by
  induction bs generalizing k s with
  | nil => rfl
  | cons v rest ih =>
    unfold sendData
    simp only
    split <;> simp [ih]

@[simp] theorem readBits_offBus (k : Nat) (s : State) : (readBits k s).2.env.offBus = s.env.offBus := by
  induction k generalizing s with
  | zero => rfl
  | succ k ih => simp [readBits, ih]

@[simp] theorem readByte_offBus (last : Bool) (s : State) : (readByte last s).2.env.offBus = s.env.offBus := by
  simp [readByte]

@[simp] theorem readData_offBus (n k : Nat) (s : State) : (readData n k s).env.offBus = s.env.offBus := by
  induction n generalizing k s with
  | zero => rfl
  | succ n ih => simp [readData, ih]

/-! ## The I2C operations -/

/-- Every way an I2C_READ can end (R142): the bus is not idle, the address is not acknowledged, or the bytes are read. -/
theorem i2cReadOp_cases (a : BitVec 7) (n : Byte) (s : State) :
    i2cReadOp a n s = (response .busNack I2cCause.busNotIdle.code 0 0, (start s).2.setRxlen 0) ∨
    i2cReadOp a n s = (response .busNack I2cCause.addrNack.code 0 0,
      (stop (writeByte (addressByte a .read) (start s).2).2).setRxlen 0) ∨
    i2cReadOp a n s = (response .ok I2cCause.none.code 0 (n.zeroExtend 16),
      (stop (readData n.toNat 0 (writeByte (addressByte a .read) (start s).2).2)).setRxlen n) := by
  unfold i2cReadOp
  simp only
  split
  · exact .inl rfl
  · split
    · exact .inr (.inl rfl)
    · exact .inr (.inr rfl)

/-- What an I2C_READ answers and leaves in RXLEN and RXBUF (R142). -/
theorem i2cReadOp_outcome (a : BitVec 7) (n : Byte) (s : State) :
    ((i2cReadOp a n s).1 = ⟨0x00, 0, 0, n.zeroExtend 16⟩ ∧ (i2cReadOp a n s).2.rxlen = n) ∨
    (((i2cReadOp a n s).1 = ⟨0x01, 1, 0, 0⟩ ∨ (i2cReadOp a n s).1 = ⟨0x01, 3, 0, 0⟩) ∧
      (i2cReadOp a n s).2.rxlen = 0 ∧ (i2cReadOp a n s).2.rxbuf = s.rxbuf) := by
  have hstart := start_onWires s
  have haddr := (hstart.trans (writeByte_onWires (addressByte a .read) _)).trans (stop_onWires _)
  rcases i2cReadOp_cases a n s with h | h | h <;> rw [h]
  · exact .inr ⟨.inr rfl, rfl, hstart.rxbuf_eq⟩
  · exact .inr ⟨.inl rfl, rfl, haddr.rxbuf_eq⟩
  · exact .inl ⟨rfl, rfl⟩

/-- A read stores nothing at or beyond its length (R142). -/
theorem i2cReadOp_read_outside (a : BitVec 7) (n : Byte) (s : State) (hwf : s.rxbuf.wf = true) {k : Nat}
    (hk : n.toNat ≤ k) : (i2cReadOp a n s).2.rxbuf.read k = s.rxbuf.read k := by
  have haddr := (start_onWires s).trans (writeByte_onWires (addressByte a .read) _)
  rcases i2cReadOp_cases a n s with h | h | h <;> rw [h, State.setRxlen_rxbuf]
  · rw [(start_onWires s).rxbuf_eq]
  · rw [(haddr.trans (stop_onWires _)).rxbuf_eq]
  · rw [(stop_onWires _).rxbuf_eq, readData_read_outside _ _ _ _ (by rw [haddr.rxbuf_eq]; exact hwf) (by omega),
      haddr.rxbuf_eq]

theorem i2cWriteOp_offBus (a : BitVec 7) (n : Byte) (s : State) :
    (i2cWriteOp a n s).2.env.offBus = s.env.offBus := by
  unfold i2cWriteOp
  simp only
  split
  · simp
  · split
    · simp
    · split <;> simp

theorem i2cReadOp_offBus (a : BitVec 7) (n : Byte) (s : State) :
    (i2cReadOp a n s).2.env.offBus = s.env.offBus := by
  rcases i2cReadOp_cases a n s with h | h | h <;> simp [h]

theorem i2cProbeOp_offBus (a : BitVec 7) (s : State) : (i2cProbeOp a s).2.env.offBus = s.env.offBus := by
  unfold i2cProbeOp
  simp only
  split
  · simp
  · split <;> simp

theorem instr_of_i2c {i : Instr} (hi : subBlock i = .i2c) :
    (∃ a n, i = .i2cWrite a n) ∨ (∃ a n, i = .i2cRead a n) ∨ (∃ a, i = .i2cProbe a) ∨ i = .i2cBusIdle := by
  cases i <;> simp_all [subBlock]

/-- An operation that stays on the wires leaves RXBUF and RXLEN. -/
theorem OnWires.keepRxbuf {s s' : State} (h : OnWires s s') :
    OnWires { s with rxbuf := s'.rxbuf, rxlen := s'.rxlen } s' := by
  rw [h.rxbuf_eq, h.rxlen_eq]
  exact h

/-- What an I2C operation can do: it stays on the wires but for RXBUF and RXLEN, and leaves both lines released. -/
theorem i2cBody_frame {i : Instr} (hi : subBlock i = .i2c) (s : State) :
    OnWires { s with rxbuf := (Instr.body i s).2.rxbuf, rxlen := (Instr.body i s).2.rxlen } (Instr.body i s).2 ∧
      (Instr.body i s).2.pins = s.pins.idleFrom ∧ (Instr.body i s).2.env.offBus = s.env.offBus := by
  rcases instr_of_i2c hi with ⟨a, n, rfl⟩ | ⟨a, n, rfl⟩ | ⟨a, rfl⟩ | rfl
  · exact ⟨(i2cWriteOp_onWires a n s).keepRxbuf, i2cWriteOp_pins a n s, i2cWriteOp_offBus a n s⟩
  · exact ⟨i2cReadOp_onWires a n s, i2cReadOp_pins a n s, i2cReadOp_offBus a n s⟩
  · exact ⟨(i2cProbeOp_onWires a s).keepRxbuf, i2cProbeOp_pins a s, i2cProbeOp_offBus a s⟩
  · exact ⟨(i2cBusIdleOp_onWires s).keepRxbuf, i2cBusIdleOp_pins s, idleCheck_offBus s⟩

/-- Only a read writes RXBUF, below its length, and RXLEN (R32, R142). -/
theorem i2cBody_rxbuf {i : Instr} (hi : subBlock i = .i2c) (s : State) :
    (∃ a n, i = .i2cRead a n ∧ ∀ k, n.toNat ≤ k → s.rxbuf.wf = true →
      (Instr.body i s).2.rxbuf.read k = s.rxbuf.read k) ∨
    (Instr.body i s).2.rxbuf = s.rxbuf ∧ (Instr.body i s).2.rxlen = s.rxlen := by
  rcases instr_of_i2c hi with ⟨a, n, rfl⟩ | ⟨a, n, rfl⟩ | ⟨a, rfl⟩ | rfl
  · exact .inr ⟨(i2cWriteOp_onWires a n s).rxbuf_eq, (i2cWriteOp_onWires a n s).rxlen_eq⟩
  · exact .inl ⟨a, n, rfl, fun k hk hwf => i2cReadOp_read_outside a n s hwf hk⟩
  · exact .inr ⟨(i2cProbeOp_onWires a s).rxbuf_eq, (i2cProbeOp_onWires a s).rxlen_eq⟩
  · exact .inr ⟨(i2cBusIdleOp_onWires s).rxbuf_eq, (i2cBusIdleOp_onWires s).rxlen_eq⟩

end Sys2Proof.Machine
open Sys2Proof Sys2Proof.Machine

/-- Settles O23: every operation ends in `Pins.idleFrom`, and a read in one of its three ways. -/
theorem i2cReturnsReleased : Obligations.I2cReturnsReleased := by
  intro i s hi hwf hb
  obtain ⟨-, hpins, -⟩ := i2cBody_frame hi s.accept
  refine ⟨_, exec_accepted hb hwf, hpins, ?_⟩
  rintro a n rfl
  exact i2cReadOp_outcome a n s.accept

end

section
/-! PROOFS. The family 10_state.md, part 3: everything DHT_READ_FRAME can do (R27, R178). -/

namespace Sys2Proof.Machine

theorem instr_of_dht {i : Instr} (hi : subBlock i = .dht) : ∃ tmo, i = .dhtReadFrame tmo := by
  cases i <;> simp_all [subBlock]

@[simp] theorem measurePhase_scripts (level : Level) (tmo minDur : Nat) (s : State) :
    (measurePhase level tmo minDur s).2.env.scripts = s.env.scripts := by
  obtain ⟨x, -, -, h⟩ := measurePhase_cases level tmo minDur s
  rw [h, State.emit_scripts]
  rfl

theorem readPayload_scripts (tmo left i : Nat) (got : List Level) (s : State) :
    (readPayload tmo left i got s).2.env.scripts = s.env.scripts := by
  induction left generalizing i got s with
  | zero => rfl
  | succ left ih =>
    unfold readPayload
    simp only
    split
    · simp
    · split
      · simp
      · simp [ih]

/-- `s'` is `s` after steps of DHT_READ_FRAME: what is on the wires moves, of the pins DLINE alone, and it ends as it was
or as an input (R172, R173). -/
structure OnDline (s s' : State) : Prop where
  on : OnWires s s'
  scripts : s'.env.scripts = s.env.scripts
  pins : s'.pins = s.pins ∨ s'.pins = { s.pins with dline := .inputPullup }

namespace OnDline

variable {s s' s'' : State}

theorem refl (s : State) : OnDline s s := ⟨OnWires.refl s, rfl, .inl rfl⟩

theorem trans (h : OnDline s s') (h' : OnDline s' s'') : OnDline s s'' := by
  refine ⟨h.on.trans h'.on, h'.scripts.trans h.scripts, ?_⟩
  rcases h.pins with hp | hp <;> rcases h'.pins with hp' | hp' <;> simp [hp, hp']

end OnDline

theorem lineHealth_onDline (s : State) : OnDline s (lineHealth s).2 where
  on := lineHealth_onWires s
  scripts := by simp [lineHealth, State.sampleDl, State.delayUs]
  pins := by
    obtain ⟨-, -, -, hpins, -⟩ := lineHealth_spec s
    exact .inr hpins

theorem startSignal_onDline (s : State) : OnDline s (startSignal s) where
  on := startSignal_onWires s
  scripts := by simp [startSignal, State.delayUs]
  pins := by
    obtain ⟨-, -, hpins, -⟩ := startSignal_spec s
    exact .inr hpins

theorem measurePhase_onDline (level : Level) (tmo minDur : Nat) (s : State) :
    OnDline s (measurePhase level tmo minDur s).2 where
  on := measurePhase_onWires level tmo minDur s
  scripts := measurePhase_scripts level tmo minDur s
  pins := .inl (measurePhase_frame level tmo minDur s).1

theorem readPayload_onDline (tmo left i : Nat) (got : List Level) (s : State) :
    OnDline s (readPayload tmo left i got s).2 where
  on := readPayload_onWires tmo left i got s
  scripts := readPayload_scripts tmo left i got s
  pins := .inl (readPayload_frame tmo left i got s).1

/-- The answers of a read that yields no reading (R109, R176, R178). -/
def DhtFailure (r : Rsp) : Prop :=
  r.value = 0 ∧
    ((r.status = 0x02 ∨ r.status = 0x04 ∨ r.status = 0x05) ∧ r.aux = 0 ∧ r.aux2 = 0 ∨
      r.status = 0x03 ∧
        ((r.aux = 1 ∨ r.aux = 2) ∧ r.aux2 = 0 ∨ (r.aux = 3 ∨ r.aux = 4) ∧ r.aux2.toNat < 40))

theorem dhtFailure_payload {step : DhtStep} {i : Nat} (hstep : step = .bitLow ∨ step = .bitHigh) (hi : i < 40) :
    DhtFailure (response .protocolTimeout step.code (BitVec.ofNat 8 i) 0) := by
  have hidx : (BitVec.ofNat 8 i).toNat < 40 := by rw [BitVec.toNat_ofNat]; omega
  rcases hstep with rfl | rfl
  · exact ⟨rfl, .inr ⟨rfl, .inr ⟨.inl rfl, hidx⟩⟩⟩
  · exact ⟨rfl, .inr ⟨rfl, .inr ⟨.inr rfl, hidx⟩⟩⟩

/-- How DHT_READ_FRAME ends: after steps on DLINE either a failure, or a frame whose reading is recorded (R178). -/
def DhtEnds (s : State) (r : Rsp × State) : Prop :=
  ∃ s', OnDline s s' ∧
    ((DhtFailure r.1 ∧ r.2 = s') ∨
      ∃ humidity temperature : Byte,
        r = (response .ok 0 0 (humidity ++ temperature), s'.recordReading humidity temperature))

theorem DhtEnds.failure {s s' : State} {r : Rsp} (h : OnDline s s') (hr : DhtFailure r) : DhtEnds s (r, s') :=
  ⟨s', h, .inl ⟨hr, rfl⟩⟩

theorem finishFrame_ends {s s' : State} (bits : List Level) (h : OnDline s s') :
    DhtEnds s (finishFrame bits s') := by
  unfold finishFrame
  split
  · exact ⟨s', h, .inr ⟨_, _, rfl⟩⟩
  · exact .failure h ⟨rfl, .inl ⟨.inr (.inl rfl), rfl, rfl⟩⟩

/-- Everything DHT_READ_FRAME can do (R178). -/
theorem dhtReadFrameOp_ends (tmo : Nat) (s : State) : DhtEnds s (dhtReadFrameOp tmo s) := by
  have hhealth := lineHealth_onDline s
  have hlow := (hhealth.trans (startSignal_onDline _)).trans (measurePhase_onDline false tmo s.cfg.dht.minRespUs _)
  have hhigh := hlow.trans (measurePhase_onDline true tmo s.cfg.dht.minRespUs _)
  have hpayload := hhigh.trans (readPayload_onDline tmo 40 0 [] _)
  unfold dhtReadFrameOp
  simp only
  split
  · exact .failure (.refl s) ⟨rfl, .inl ⟨.inr (.inr rfl), rfl, rfl⟩⟩
  split
  · exact .failure hhealth ⟨rfl, .inl ⟨.inl rfl, rfl, rfl⟩⟩
  split
  · exact .failure hlow ⟨rfl, .inr ⟨rfl, .inl ⟨.inl rfl, rfl⟩⟩⟩
  split
  · exact .failure hhigh ⟨rfl, .inr ⟨rfl, .inl ⟨.inr rfl, rfl⟩⟩⟩
  split
  · next step i hfailed =>
    rcases readPayload_result tmo 40 0 [] _ with ⟨bs, hbits, -⟩ | ⟨step', i', hp, hstep, hi⟩
    · rw [hbits] at hfailed
      cases hfailed
    · rw [hp] at hfailed
      cases hfailed
      exact .failure hpayload (dhtFailure_payload hstep (by omega))
  · exact finishFrame_ends _ hpayload

end Sys2Proof.Machine
open Sys2Proof Sys2Proof.Machine

/-- Settles O32: the end of the operation, `dhtReadFrameOp_ends`, read off for the answered state. -/
theorem dhtOutcomeAndReading : Obligations.DhtOutcomeAndReading := by
  intro s tmo hb
  refine ⟨_, exec_accepted hb rfl, ?_⟩
  obtain ⟨s', hon, ⟨⟨hvalue, hstatus⟩, hs'⟩ | ⟨hum, temp, hok⟩⟩ := dhtReadFrameOp_ends tmo.toNat s.accept
  · refine .inr ⟨?_, ?_, hvalue, hstatus⟩
    · exact (congrArg State.reading hs').trans hon.on.reading_eq
    · exact (congrArg State.dht hs').trans hon.on.dht_eq
  · refine .inl ?_
    simp only [Instr.body, hok]
    refine ⟨rfl, rfl, rfl, ?_, rfl⟩
    have hhum : (hum ++ temp).extractLsb' 8 8 = hum := BitVec.extractLsb'_append_eq_left
    have htemp : (hum ++ temp).extractLsb' 0 8 = temp := BitVec.extractLsb'_append_eq_right
    simp [response, hhum, htemp, State.nowMs]
end

section
/-! PROOFS. The family 10_state.md, part 4: what the UART, BTN and DUTY operations leave unchanged (R28 to R32). -/

namespace Sys2Proof.Machine

/-! ## The UART operations -/

theorem instr_of_uart {i : Instr} (hi : subBlock i = .uart) :
    (∃ m v, i = .uartReadLine m v) ∨ (∃ v, i = .uartSendCommand v) ∨ (∃ p, i = .uartInitSession p) ∨
      i = .uartSendLine := by
  cases i <;> simp_all [subBlock]

theorem OnLine.setSession {s s' : State} (h : OnLine s s') (x : Session) :
    OnLine { s with session := x } { s' with session := x } := by
  obtain ⟨trace, t, rx, arrivals, linebuf, linelen, hf⟩ := h.frame
  exact ⟨⟨trace, t, rx, arrivals, linebuf, linelen, by rw [hf]⟩, h.mono, h.pumped, h.within, h.stamp, h.budget, h.wf,
    h.below, h.line, h.outside⟩

/-- `s'` is `s` after UART procedures and updates of SESSION that do not clear `attached`. -/
structure OnSession (s s' : State) : Prop where
  on : OnLine { s with session := s'.session } s'
  attached : s.session.attached = true → s'.session.attached = true

theorem OnLine.onSession {s s' : State} (h : OnLine s s') : OnSession s s' := by
  refine ⟨?_, fun ha => by rw [h.session_eq]; exact ha⟩
  rw [h.session_eq]
  exact h

theorem OnSession.trans {s s' s'' : State} (h : OnSession s s') (h' : OnSession s' s'') : OnSession s s'' :=
  ⟨(h.on.setSession s''.session).trans h'.on, fun ha => h'.attached (h.attached ha)⟩

theorem State.setAttached_onSession (s : State) : OnSession s s.setAttached := ⟨OnLine.refl _, fun _ => rfl⟩

theorem State.setSocketOpen_onSession (s : State) : OnSession s s.setSocketOpen := ⟨OnLine.refl _, fun ha => ha⟩

theorem initSockWait_onSession (s : State) : OnSession s (initSockWait s).2 := by
  have hwait := (awaitReply_spec s.cfg.uart.expSockOpened s.cfg.uart.tSockWaitMs s).1.onSession
  unfold initSockWait
  simp only
  split
  · exact hwait.trans (State.setSocketOpen_onSession _)
  · exact hwait

theorem initSocket_onSession (port : Nat) (s : State) : OnSession s (initSocket port s).2 := by
  have hopen (text : Bytes) := ((sendExpectOk_spec s.cfg.uart.cmdSockClose s.cfg.uart.tCmdMs s).1.trans
    (sendExpectOk_spec text s.cfg.uart.tCmdMs _).1).onSession
  unfold initSocket
  simp only
  split
  · exact (hopen _).trans (initSockWait_onSession _)
  · exact hopen _

theorem initSetApn_onSession (port : Nat) (s : State) : OnSession s (initSetApn port s).2 := by
  have happn := (sendExpectOk_spec (composeSetApn s.cfg.uart s.str0Bytes) s.cfg.uart.tCmdMs s).1
  unfold initSetApn
  simp only
  split
  · exact (happn.trans (diagnostics_spec _ _).1).onSession.trans (initSocket_onSession port _)
  · exact happn.onSession

/-- The initialization from the full-function step on: with the socket closed before it, the socket is open after it only
where the attach step has succeeded (R213, R216). -/
theorem initFullFunc_session (port : Nat) (s : State) :
    OnSession s (initFullFunc port s).2 ∧ (s.session.socketOpen = false →
      (initFullFunc port s).2.session.socketOpen = true → (initFullFunc port s).2.session.attached = true) := by
  have hfull := (sendExpectOk_spec s.cfg.uart.cmdFullFunc s.cfg.uart.tCmdMs s).1
  have hattach := hfull.trans (sendExpectOk_spec s.cfg.uart.cmdAttach s.cfg.uart.tAttachMs _).1
  have closed : ∀ s', OnLine s s' → s.session.socketOpen = false → s'.session.socketOpen = true →
      s'.session.attached = true := by
    intro s' h hc ho
    rw [h.session_eq, hc] at ho
    cases ho
  unfold initFullFunc
  simp only
  split
  · split
    · have hapn := initSetApn_onSession port
        (sendExpectOk s.cfg.uart.cmdAttach s.cfg.uart.tAttachMs
          (sendExpectOk s.cfg.uart.cmdFullFunc s.cfg.uart.tCmdMs s).2).2.setAttached
      exact ⟨(hattach.onSession.trans (State.setAttached_onSession _)).trans hapn, fun _ _ => hapn.attached rfl⟩
    · exact ⟨hattach.onSession, closed _ hattach⟩
  · exact ⟨hfull.onSession, closed _ hfull⟩

/-- UART_INIT_SESSION clears both flags first and opens the socket only while attached (R213, R216). -/
theorem uartInitSessionOp_session (port : Nat) (s : State) :
    OnLine { s with session := (uartInitSessionOp port s).2.session } (uartInitSessionOp port s).2 ∧
      ((uartInitSessionOp port s).2.session.socketOpen = true →
        (uartInitSessionOp port s).2.session.attached = true) := by
  have hshake := (handshake_spec s.cfg.uart.handshakeRetries s.clearSession).1
  have hsession := hshake.session_eq
  unfold uartInitSessionOp
  simp only
  split
  · obtain ⟨hon, hopen⟩ := initFullFunc_session port (handshake s.cfg.uart.handshakeRetries s.clearSession).2
    exact ⟨(hshake.onSession.trans hon).on, hopen (by rw [hsession]; rfl)⟩
  · refine ⟨hshake.onSession.on, fun ho => ?_⟩
    simp only [initFail] at ho
    rw [hsession] at ho
    cases ho

theorem uartSendLineOp_onLine (s : State) : OnLine s (uartSendLineOp s).2 := by
  have hprompt (bs : Bytes) := (State.transmit_onLine s bs).trans
    (awaitByte_spec s.cfg.uart.promptChar s.cfg.uart.tPromptMs (s.transmit bs)).1
  have hreply (bs bs' : Bytes) := ((hprompt bs).trans (State.transmit_onLine _ bs')).trans
    (awaitReply_spec s.cfg.uart.expSendAck s.cfg.uart.tSendAckMs _).1
  unfold uartSendLineOp
  simp only
  split
  · exact hprompt _
  · split <;> exact hreply _ _

/-- What a UART operation can do: SESSION apart it moves the line, the time and the trace only, UART_READ_LINE not even
the trace, and SESSION is written by the initialization only (R32, R205, R210, R216, R220). -/
theorem uartBody_frame {i : Instr} (hi : subBlock i = .uart) {s : State} (hw : i.wf s.cfg = true) :
    OnLine { s with session := (Instr.body i s).2.session } (Instr.body i s).2 ∧
      ((∃ p, i = .uartInitSession p) ∨ (Instr.body i s).2.session = s.session) ∧
      ((∀ m v, i ≠ .uartReadLine m v) ∨ (Instr.body i s).2.trace = s.trace) := by
  rcases instr_of_uart hi with ⟨m, v, rfl⟩ | ⟨v, rfl⟩ | ⟨p, rfl⟩ | rfl
  · simp only [Instr.wf, Bool.and_eq_true, decide_eq_true_eq] at hw
    obtain ⟨hon, -, -, -, htrace, -⟩ := readLine_spec m.toNat v.toNat s hw.2
    exact ⟨hon.onSession.on, .inr hon.session_eq, .inr htrace⟩
  · have hon := (sendCommand_spec s.str0Bytes s.str1Bytes v.toNat s).1
    exact ⟨hon.onSession.on, .inr hon.session_eq, .inl (by simp)⟩
  · exact ⟨(uartInitSessionOp_session p.toNat s).1, .inl ⟨p, rfl⟩, .inl (by simp)⟩
  · have hon := uartSendLineOp_onLine s
    exact ⟨hon.onSession.on, .inr hon.session_eq, .inl (by simp)⟩

theorem uartBody_attached {i : Instr} (hi : subBlock i = .uart) {s : State} (hw : i.wf s.cfg = true)
    (hs : s.session.socketOpen = true → s.session.attached = true)
    (ho : (Instr.body i s).2.session.socketOpen = true) : (Instr.body i s).2.session.attached = true := by
  obtain ⟨-, ⟨p, rfl⟩ | hkept, -⟩ := uartBody_frame hi hw
  · exact (uartInitSessionOp_session p.toNat s).2 ho
  · rw [hkept] at ho ⊢
    exact hs ho

/-! ## BTN_POLL and the DUTY operations -/

theorem instr_of_btn {i : Instr} (hi : subBlock i = .btn) : i = .btnPoll := by
  cases i <;> simp_all [subBlock]

/-- A sample of the button moves the trace and consumes an answer, nothing else (R250). -/
theorem State.sampleBtn_frame (s : State) : ∃ answers draws trace,
    s.sampleBtn.2 = { s with trace := trace, env := { s.env with btnAnswers := answers, draws := draws } } := by
  unfold State.sampleBtn State.drawBtn
  split
  · next b rest _ => exact ⟨rest, s.env.draws, _, rfl⟩
  · exact ⟨s.env.btnAnswers, s.env.draws + 1, _, rfl⟩

theorem instr_of_duty {i : Instr} (hi : subBlock i = .duty) :
    (∃ v, i = .dutyAuto v) ∨ (∃ h v, i = .alarmUpdate h v) ∨ ∃ r e v, i = .motorUpdate r e v := by
  cases i <;> simp_all [subBlock]

/-- A DUTY operation writes its own record only (R32). -/
theorem dutyBody_frame {i : Instr} (hi : subBlock i = .duty) (s : State) :
    (Instr.body i s).2 = { s with motor := (Instr.body i s).2.motor, alarm := (Instr.body i s).2.alarm } ∧
      ((∃ r e v, i = .motorUpdate r e v) ∨ (Instr.body i s).2.motor = s.motor) ∧
      ((∃ h v, i = .alarmUpdate h v) ∨ (Instr.body i s).2.alarm = s.alarm) := by
  rcases instr_of_duty hi with ⟨v, rfl⟩ | ⟨h, v, rfl⟩ | ⟨r, e, v, rfl⟩
  · exact ⟨rfl, .inr rfl, .inr rfl⟩
  · exact ⟨rfl, .inr rfl, .inl ⟨h, v, rfl⟩⟩
  · exact ⟨rfl, .inl ⟨r, e, v, rfl⟩, .inr rfl⟩

end Sys2Proof.Machine
end

section
/-! PROOFS. The family 10_state.md, part 5: each record is written by the operations of its own sub-block only (R32). -/

namespace Sys2Proof.Machine

/-! ## The frames of DHT_READ_FRAME, BTN_POLL and the DUTY operations -/

theorem OnWires.setReading {s s' : State} (h : OnWires s s') (d : Dht) (r : Reading) :
    OnWires { s with dht := d, reading := r } { s' with dht := d, reading := r } := by
  obtain ⟨pins, trace, t, rx, env, hf⟩ := h.frame
  exact ⟨⟨pins, trace, t, rx, env, by rw [hf]⟩, h.mono, h.future, h.pumped, h.trace⟩

theorem OnWires.setBtn {s s' : State} (h : OnWires s s') (b : Btn) :
    OnWires { s with btn := b } { s' with btn := b } := by
  obtain ⟨pins, trace, t, rx, env, hf⟩ := h.frame
  exact ⟨⟨pins, trace, t, rx, env, by rw [hf]⟩, h.mono, h.future, h.pumped, h.trace⟩

/-- DHT_READ_FRAME stays on the wires but for the rate limiter and READING, and of the pins it moves DLINE alone. -/
theorem dhtReadFrameOp_frame (tmo : Nat) (s : State) :
    OnWires { s with dht := (dhtReadFrameOp tmo s).2.dht, reading := (dhtReadFrameOp tmo s).2.reading }
        (dhtReadFrameOp tmo s).2 ∧
      (dhtReadFrameOp tmo s).2.env.scripts = s.env.scripts ∧
      ((dhtReadFrameOp tmo s).2.pins = s.pins ∨
        (dhtReadFrameOp tmo s).2.pins = { s.pins with dline := .inputPullup }) := by
  obtain ⟨s', hline, ⟨-, hs'⟩ | ⟨hum, temp, hok⟩⟩ := dhtReadFrameOp_ends tmo s
  · rw [hs']
    exact ⟨hline.on.setReading s'.dht s'.reading, hline.scripts, hline.pins⟩
  · rw [hok]
    exact ⟨hline.on.setReading _ _, hline.scripts, hline.pins⟩

/-- BTN_POLL takes one sample; BTN apart it changes nothing else (R253). -/
theorem btnPollOp_frame (s : State) :
    OnWires { s with btn := (btnPollOp s).2.btn } (btnPollOp s).2 ∧ ∃ answers draws trace,
      (btnPollOp s).2 = { s with
        trace := trace, env := { s.env with btnAnswers := answers, draws := draws }, btn := (btnPollOp s).2.btn } := by
  obtain ⟨answers, draws, trace, hf⟩ := s.sampleBtn_frame
  refine ⟨(State.sampleBtn_onWires s).setBtn _, answers, draws, trace, ?_⟩
  simp only [btnPollOp, hf]

theorem dutyBody_onWires {i : Instr} (hi : subBlock i = .duty) (s : State) :
    OnWires { s with motor := (Instr.body i s).2.motor, alarm := (Instr.body i s).2.alarm } (Instr.body i s).2 := by
  rw [← (dutyBody_frame hi s).1]
  exact OnWires.refl _

/-! ## Ownership: what a command leaves unchanged -/

/-- Every next state of a command: the refusal, or the answer of its body. -/
theorem exec_next {i : Instr} {s t : State} (h : exec i s = .next t) :
    t = s.refuse ∨ (s.busy = false ∧ i.wf s.cfg = true ∧
      t = (Instr.body i s.accept).2.respond (Instr.body i s.accept).1) := by
  rcases exec_cases i s with ⟨-, he⟩ | ⟨hb, hw, he⟩ <;> rw [he] at h <;> cases h
  · exact .inl rfl
  · exact .inr ⟨hb, hw, rfl⟩

/-- The answered state of an operation that stays on the wires. -/
theorem OnWires.answered {s s' : State} (h : OnWires s.accept s') (hb : s.busy = false) (r : Rsp) :
    s'.respond r = { s with
      rsp := r, pins := s'.pins, trace := s'.trace, t := s'.t, rx := s'.rx, env := s'.env } := by
  obtain ⟨_, _, _, _, _, hf⟩ := h.frame
  rw [hf, State.respond, State.accept, ← hb]
  rfl

theorem exec_i2c_frame {i : Instr} (hi : subBlock i = .i2c) {s t : State} (h : exec i s = .next t) :
    t = { s with
      rsp := t.rsp, trace := t.trace, t := t.t, rx := t.rx
      env := { s.env with lineAnswers := t.env.lineAnswers, draws := t.env.draws, arrivals := t.env.arrivals }
      pins := { s.pins with sda := t.pins.sda, scl := t.pins.scl }
      rxbuf := t.rxbuf, rxlen := t.rxlen } := by
  obtain rfl | ⟨hb, -, rfl⟩ := exec_next h
  · rfl
  · obtain ⟨hon, hpins, hoff⟩ := i2cBody_frame hi s.accept
    refine (OnWires.answered (s := { s with rxbuf := _, rxlen := _ }) hon hb _).trans ?_
    congr 1
    · simp only [State.respond_pins, hpins]
      rfl
    · exact Env.eq_of_offBus (e := s.env) hoff

theorem exec_dht_frame {tmo : Half} {s t : State} (h : exec (.dhtReadFrame tmo) s = .next t) :
    t = { s with
      rsp := t.rsp, trace := t.trace, t := t.t, rx := t.rx
      env := { s.env with arrivals := t.env.arrivals }
      pins := { s.pins with dline := t.pins.dline }
      dht := t.dht, reading := t.reading } := by
  obtain rfl | ⟨hb, -, rfl⟩ := exec_next h
  · rfl
  · obtain ⟨hon, hscripts, hpins⟩ := dhtReadFrameOp_frame tmo.toNat s.accept
    refine (OnWires.answered (s := { s with dht := _, reading := _ }) hon hb _).trans ?_
    congr 1
    · rcases hpins with hp | hp <;> simp only [State.respond_pins, Instr.body, hp] <;> rfl
    · exact Env.eq_of_scripts (e := s.env) hscripts

/-- The answered state of an operation that stays on the line. -/
theorem OnLine.answered {s s' : State} (h : OnLine s.accept s') (hb : s.busy = false) (r : Rsp) :
    s'.respond r = { s with
      rsp := r, trace := s'.trace, t := s'.t, rx := s'.rx, env := { s.env with arrivals := s'.env.arrivals }
      linebuf := s'.linebuf, linelen := s'.linelen } := by
  obtain ⟨_, _, _, _, _, _, hf⟩ := h.frame
  rw [hf, State.respond, State.accept, ← hb]
  rfl

theorem exec_uart_frame {i : Instr} (hi : subBlock i = .uart) {s t : State} (h : exec i s = .next t) :
    t = { s with
        rsp := t.rsp, trace := t.trace, t := t.t, rx := t.rx
        env := { s.env with arrivals := t.env.arrivals }
        session := t.session, linebuf := t.linebuf, linelen := t.linelen } ∧
      ((∃ p, i = .uartInitSession p) ∨ t.session = s.session) ∧
      ((∀ m v, i ≠ .uartReadLine m v) ∨ t.trace = s.trace) ∧
      (∀ k, s.cfg.uart.lineMax.val ≤ k → s.linebuf.wf = true →
        Memory.read t.linebuf k = Memory.read s.linebuf k) := by
  obtain rfl | ⟨hb, hw, rfl⟩ := exec_next h
  · exact ⟨rfl, .inr rfl, .inr rfl, fun _ _ _ => rfl⟩
  · obtain ⟨hon, hsession, htrace⟩ := uartBody_frame hi (s := s.accept) hw
    exact ⟨OnLine.answered (s := { s with session := _ }) hon hb _, hsession, htrace,
      fun k hk hwf => hon.outside hwf k hk⟩

theorem exec_btn_frame {s t : State} (h : exec .btnPoll s = .next t) :
    t = { s with
      rsp := t.rsp, trace := t.trace, rx := t.rx
      env := { s.env with btnAnswers := t.env.btnAnswers, draws := t.env.draws, arrivals := t.env.arrivals }
      btn := t.btn } := by
  obtain rfl | ⟨hb, -, rfl⟩ := exec_next h
  · rfl
  · obtain ⟨hon, answers, draws, trace, hf⟩ := btnPollOp_frame s.accept
    refine (OnWires.answered (s := { s with btn := (btnPollOp s.accept).2.btn }) hon hb _).trans ?_
    simp only [Instr.body]
    rw [hf]
    rfl

theorem exec_duty_frame {i : Instr} (hi : subBlock i = .duty) {s t : State} (h : exec i s = .next t) :
    t = { s with
        rsp := t.rsp, rx := t.rx, env := { s.env with arrivals := t.env.arrivals }
        motor := t.motor, alarm := t.alarm } ∧
      ((∃ r e v, i = .motorUpdate r e v) ∨ t.motor = s.motor) ∧
      ((∃ h v, i = .alarmUpdate h v) ∨ t.alarm = s.alarm) := by
  obtain rfl | ⟨hb, -, rfl⟩ := exec_next h
  · exact ⟨rfl, .inr rfl, .inr rfl⟩
  · obtain ⟨hf, hmotor, halarm⟩ := dutyBody_frame hi s.accept
    have hon := dutyBody_onWires hi s.accept
    refine ⟨(OnWires.answered (s := { s with
      motor := (Instr.body i s.accept).2.motor, alarm := (Instr.body i s.accept).2.alarm }) hon hb _).trans ?_,
      hmotor, halarm⟩
    rw [hf]
    rfl

/-- `s` with the records that the operations outside the UART sub-block write, as they stand in `b`. -/
def State.withRecords (s b : State) : State :=
  { s with
    rxbuf := b.rxbuf, rxlen := b.rxlen, dht := b.dht, reading := b.reading, btn := b.btn, motor := b.motor
    alarm := b.alarm }

theorem OnWires.withRecords {s s' : State} (h : OnWires s s') (b : State) :
    OnWires (s.withRecords b) (s'.withRecords b) := by
  obtain ⟨pins, trace, t, rx, env, hf⟩ := h.frame
  exact ⟨⟨pins, trace, t, rx, env, by rw [hf]; rfl⟩, h.mono, h.future, h.pumped, h.trace⟩

/-- An operation outside the UART sub-block stays on the wires but for its records. -/
theorem body_onWires {i : Instr} (hi : subBlock i ≠ .uart) (s : State) :
    OnWires (s.withRecords (Instr.body i s).2) (Instr.body i s).2 := by
  cases hb : subBlock i with
  | i2c => exact (i2cBody_frame hb s).1.withRecords (Instr.body i s).2
  | dht =>
    obtain ⟨tmo, rfl⟩ := instr_of_dht hb
    exact (dhtReadFrameOp_frame tmo.toNat s).1.withRecords (dhtReadFrameOp tmo.toNat s).2
  | uart => exact absurd hb hi
  | btn =>
    obtain rfl := instr_of_btn hb
    exact (btnPollOp_frame s).1.withRecords (btnPollOp s).2
  | duty => exact (dutyBody_onWires hb s).withRecords (Instr.body i s).2

/-- But for a UART operation the receive side ends as RXP leaves it at the later time (R202, R311). -/
theorem exec_rx {i : Instr} (hi : subBlock i ≠ .uart) {s t : State} (h : exec i s = .next t) :
    t = s.refuse ∨ (t.rx, t.env.arrivals) = rxRun s.cfg.uart t.nowMs s.rx s.env.arrivals := by
  obtain rfl | ⟨-, -, rfl⟩ := exec_next h
  · exact .inl rfl
  · exact .inr (OnWires.rx_from_accept (s := s.withRecords (Instr.body i s.accept).2)
      (s' := (Instr.body i s.accept).2) (body_onWires hi s.accept))

/-- A command leaves `busy` as it was (R22, R110). -/
theorem exec_busy {i : Instr} {s t : State} (h : exec i s = .next t) : t.busy = s.busy := by
  obtain rfl | ⟨hb, -, rfl⟩ := exec_next h
  · rfl
  · exact hb.symm

theorem exec_i2c_rxbuf {i : Instr} (hi : subBlock i = .i2c) {s t : State} (h : exec i s = .next t) :
    (∃ a n, i = .i2cRead a n ∧ ∀ k, n.toNat ≤ k → s.rxbuf.wf = true →
      Memory.read t.rxbuf k = Memory.read s.rxbuf k) ∨ t.rxbuf = s.rxbuf ∧ t.rxlen = s.rxlen := by
  obtain rfl | ⟨-, -, rfl⟩ := exec_next h
  · exact .inr ⟨rfl, rfl⟩
  · exact i2cBody_rxbuf hi s.accept

end Sys2Proof.Machine
open Sys2Proof Sys2Proof.Machine

/-- Settles O16: for each sub-block the frame of its operations; the flags after reset are fields of
`State.resetWith`. -/
theorem onlyOwnerWrites : Obligations.OnlyOwnerWrites := by
  refine ⟨fun i s t h => ⟨exec_busy h, ?_, ?_⟩, fun c e h => ?_⟩
  · by_cases hi : subBlock i = .uart
    · exact .inl hi
    · exact .inr (exec_rx hi h)
  · cases hi : subBlock i with
    | i2c => exact ⟨_, _, _, exec_i2c_frame hi h, exec_i2c_rxbuf hi h⟩
    | dht =>
      obtain ⟨tmo, rfl⟩ := instr_of_dht hi
      exact ⟨_, exec_dht_frame h⟩
    | uart => exact ⟨_, exec_uart_frame hi h⟩
    | btn =>
      obtain rfl := instr_of_btn hi
      exact ⟨_, _, _, exec_btn_frame h⟩
    | duty => exact ⟨_, exec_duty_frame hi h⟩
  · simp [State.resetWith]

end

section
/-! PROOFS. The family 10_state.md, part 6: every step keeps `State.Inv`. One lemma for each record says what an update
of it must respect; the answered states are put together from those. -/

namespace Sys2Proof.Machine

/-! ## The invariant -/

theorem legalStatus_code (st : Status) : legalStatus st.code := by
  cases st <;> simp [legalStatus, Status.code]

theorem initFail_legal (p : SessionPhase) (r : Status) (s : State) : legalStatus (initFail p r s).1.status :=
  legalStatus_code _

theorem initSockWait_legal (s : State) : legalStatus (initSockWait s).1.status := by
  unfold initSockWait
  simp only
  split
  · exact legalStatus_code _
  · exact initFail_legal _ _ _

theorem initSocket_legal (port : Nat) (s : State) : legalStatus (initSocket port s).1.status := by
  unfold initSocket
  simp only
  split
  · exact initSockWait_legal _
  · exact initFail_legal _ _ _

theorem initSetApn_legal (port : Nat) (s : State) : legalStatus (initSetApn port s).1.status := by
  unfold initSetApn
  simp only
  split
  · exact initSocket_legal _ _
  · exact initFail_legal _ _ _

theorem initFullFunc_legal (port : Nat) (s : State) : legalStatus (initFullFunc port s).1.status := by
  unfold initFullFunc
  simp only
  split
  · split
    · exact initSetApn_legal _ _
    · exact initFail_legal _ _ _
  · exact initFail_legal _ _ _

theorem uartInitSessionOp_legal (port : Nat) (s : State) : legalStatus (uartInitSessionOp port s).1.status := by
  unfold uartInitSessionOp
  simp only
  split
  · exact initFullFunc_legal _ _
  · exact initFail_legal _ _ _

theorem dhtReadFrameOp_legal (tmo : Nat) (s : State) : legalStatus (dhtReadFrameOp tmo s).1.status := by
  obtain ⟨_, -, ⟨⟨-, hstatus⟩, -⟩ | ⟨_, _, hok⟩⟩ := dhtReadFrameOp_ends tmo s
  · rcases hstatus with ⟨h | h | h, -⟩ | ⟨h, -⟩ <;> simp [legalStatus, h]
  · rw [hok]
    exact legalStatus_code _

/-- Every body answers with a status of R301. -/
theorem body_legalStatus (i : Instr) (s : State) : legalStatus (Instr.body i s).1.status := by
  cases i with
  | i2cWrite a n =>
    simp only [Instr.body, i2cWriteOp]
    split
    · exact legalStatus_code _
    · split
      · exact legalStatus_code _
      · split <;> exact legalStatus_code _
  | i2cRead a n => rcases i2cReadOp_cases a n s with h | h | h <;> (simp only [Instr.body, h]; exact legalStatus_code _)
  | i2cProbe a =>
    simp only [Instr.body, i2cProbeOp]
    split
    · exact legalStatus_code _
    · split <;> exact legalStatus_code _
  | dhtReadFrame tmo => exact dhtReadFrameOp_legal _ s
  | uartInitSession p => exact uartInitSessionOp_legal _ s
  | uartSendLine =>
    simp only [Instr.body, uartSendLineOp]
    split
    · exact legalStatus_code _
    · split <;> exact legalStatus_code _
  | i2cBusIdle | uartReadLine | uartSendCommand | btnPoll | dutyAuto | alarmUpdate | motorUpdate =>
    exact legalStatus_code _

namespace State.Inv

variable {s s' : State}

/-- The invariant does not speak of CMD, RXLEN, the operand lengths, the environment or HOST's program. -/
theorem frame (h : s.Inv) (cmd : Word) (str0len str1len : Byte) (env : Env) (host : List HostAct) :
    State.Inv { s with cmd := cmd, str0len := str0len, str1len := str1len, env := env, host := host } :=
  ⟨h.idle, h.wf, h.caps, h.line, h.pins, h.status, h.rxCap, h.reading, h.session, h.btn, h.duty, h.stamps⟩

theorem setRsp (h : s.Inv) {r : Rsp} (hr : legalStatus r.status) : State.Inv { s with rsp := r } :=
  ⟨h.idle, h.wf, h.caps, h.line, h.pins, hr, h.rxCap, h.reading, h.session, h.btn, h.duty, h.stamps⟩

/-- Later, with the receive side as RXP may leave it. -/
theorem later (h : s.Inv) {t : Nat} {rx : Rx} (ht : s.t ≤ t) (hrx : RxWithin s.cfg.uart rx)
    (hl : rx.lastMs ≤ t / 1000) (trace : List Event) (env : Env) :
    State.Inv { s with t := t, rx := rx, trace := trace, env := env } := by
  have hnow : s.nowMs ≤ t / 1000 := Nat.div_le_div_right ht
  obtain ⟨-, h1, h2, h3, h4, h5, h6⟩ := h.stamps
  exact ⟨h.idle, h.wf, h.caps, h.line, h.pins, h.status, hrx, h.reading, h.session, h.btn, h.duty,
    hl, h1.trans hnow, h2.trans hnow, h3.trans hnow, h4.trans hnow, h5.trans hnow, h6.trans hnow⟩

theorem setTime (h : s.Inv) {x : Nat} (hx : s.t ≤ x) : (s.setTime x).Inv :=
  h.later hx (rxRun_within _ _ _ _ h.rxCap)
    (rxRun_lastMs_le _ _ _ _ (h.stamps.1.trans (Nat.div_le_div_right hx))) s.trace _

theorem setOperands (h : s.Inv) {txbuf str0 str1 : Memory} (hwf : txbuf.wf = true ∧ str0.wf = true ∧ str1.wf = true)
    (hcap : txbuf.below bufCap = true ∧ str0.below bufCap = true ∧ str1.below bufCap = true) :
    State.Inv { s with txbuf := txbuf, str0 := str0, str1 := str1 } := by
  obtain ⟨-, hrx, -, -, hline⟩ := h.wf
  obtain ⟨-, hrx', -, -, hline'⟩ := h.caps
  obtain ⟨htx, h0, h1⟩ := hwf
  obtain ⟨htx', h0', h1'⟩ := hcap
  exact ⟨h.idle, ⟨htx, hrx, h0, h1, hline⟩, ⟨htx', hrx', h0', h1', hline'⟩, h.line, h.pins, h.status, h.rxCap,
    h.reading, h.session, h.btn, h.duty, h.stamps⟩

theorem setRxbuf (h : s.Inv) {m : Memory} (hwf : m.wf = true) (hcap : m.below bufCap = true) (n : Byte) :
    State.Inv { s with rxbuf := m, rxlen := n } := by
  obtain ⟨htx, -, h0, h1, hline⟩ := h.wf
  obtain ⟨htx', -, h0', h1', hline'⟩ := h.caps
  exact ⟨h.idle, ⟨htx, hwf, h0, h1, hline⟩, ⟨htx', hcap, h0', h1', hline'⟩, h.line, h.pins, h.status, h.rxCap,
    h.reading, h.session, h.btn, h.duty, h.stamps⟩

theorem setLine (h : s.Inv) {m : Memory} {n : Byte} (hwf : m.wf = true)
    (hcap : m.below s.cfg.uart.lineMax.val = true) (hn : n.toNat ≤ s.cfg.uart.lineMax.val) :
    State.Inv { s with linebuf := m, linelen := n } := by
  obtain ⟨htx, hrx, h0, h1, -⟩ := h.wf
  obtain ⟨htx', hrx', h0', h1', -⟩ := h.caps
  exact ⟨h.idle, ⟨htx, hrx, h0, h1, hwf⟩, ⟨htx', hrx', h0', h1', hcap⟩, hn, h.pins, h.status, h.rxCap,
    h.reading, h.session, h.btn, h.duty, h.stamps⟩

theorem setSession (h : s.Inv) {x : Session} (hx : x.socketOpen = true → x.attached = true) :
    State.Inv { s with session := x } :=
  ⟨h.idle, h.wf, h.caps, h.line, h.pins, h.status, h.rxCap, h.reading, hx, h.btn, h.duty, h.stamps⟩

theorem setReading (h : s.Inv) {d : Dht} {r : Reading}
    (hr : r.valid = d.haveRead ∧ r.validSinceMs = d.lastOkMs) (hd : d.lastOkMs ≤ s.nowMs) :
    State.Inv { s with dht := d, reading := r } := by
  obtain ⟨hrx, -, hrest⟩ := h.stamps
  exact ⟨h.idle, h.wf, h.caps, h.line, h.pins, h.status, h.rxCap, hr, h.session, h.btn, h.duty, hrx, hd, hrest⟩

theorem setMotor (h : s.Inv) {m : Motor} (hm : m.dutyPercent.toNat ≤ 100) : State.Inv { s with motor := m } :=
  ⟨h.idle, h.wf, h.caps, h.line, h.pins, h.status, h.rxCap, h.reading, h.session, h.btn, hm, h.stamps⟩

end State.Inv

/-! ## The invariant's clauses on BTN, MOTOR and ALARM -/

/-- The button's phase agrees with its level (R252). -/
def Btn.Agrees (b : Btn) : Prop :=
  (b.phase = .idle → b.debouncedLevel = false) ∧ (b.phase = .pressed → b.debouncedLevel = true)

/-- The button's timestamps lie in the past. -/
def Btn.StampedBy (b : Btn) (now : Nat) : Prop := b.pressStartMs ≤ now ∧ b.rawSinceMs ≤ now

theorem Btn.debounce_stamped {settleMs now : Nat} {p : Level} {b : Btn} (h : b.StampedBy now) :
    (b.debounce settleMs p now).StampedBy now := by
  obtain ⟨hpress, hraw⟩ := h
  unfold Btn.debounce
  split
  · exact ⟨hpress, le_refl now⟩
  · split <;> exact ⟨hpress, hraw⟩

/-- The state machine restores the agreement that debouncing may break (R252). -/
theorem Btn.events_agrees (longMs now : Nat) (b : Btn) : (b.events longMs now).2.Agrees := by
  unfold Btn.events Btn.Agrees
  split
  · next hp =>
    split
    · next hl => simp [hl]
    · next hl => simpa [hp] using hl
  · next hp =>
    split
    · simp
    · split
      · next hl => simp [hp, hl]
      · next hl => simpa using hl
  · next hp =>
    split
    · simp [hp]
    · next hl => simpa using hl

theorem Btn.events_stamped {longMs now : Nat} {b : Btn} (h : b.StampedBy now) :
    (b.events longMs now).2.StampedBy now := by
  obtain ⟨hpress, hraw⟩ := h
  unfold Btn.events
  split
  · split
    · exact ⟨le_refl now, hraw⟩
    · exact ⟨hpress, hraw⟩
  · split
    · exact ⟨hpress, hraw⟩
    · split <;> exact ⟨hpress, hraw⟩
  · split <;> exact ⟨hpress, hraw⟩

/-- The duty is a percentage (R30, R270). -/
theorem autoDuty_le (c : DutyConfig) (t : Int) : autoDuty c t ≤ 100 := by
  have hmin : c.rampMin.val ≤ 100 := by have := c.rampMin.isLt; omega
  unfold autoDuty
  split
  · exact Nat.zero_le _
  · split
    · exact le_refl _
    · next hlow hhigh =>
      have hramp : (100 - c.rampMin.val) * (t - c.tLow).toNat / (c.tHigh - c.tLow).toNat ≤ 100 - c.rampMin.val :=
        Nat.div_le_of_le_mul (by rw [Nat.mul_comm]; exact Nat.mul_le_mul_right _ (by omega))
      omega

theorem motorDuty_le (c : DutyConfig) (mode : MotorMode) (manualOn rv : Bool) (t : Int) :
    motorDuty c mode manualOn rv t ≤ 100 := by
  unfold motorDuty
  cases mode with
  | manual =>
    have hmanual : c.manualOnDuty.val ≤ 100 := by have := c.manualOnDuty.isLt; omega
    simp only
    split
    · exact hmanual
    · exact Nat.zero_le _
  | auto =>
    simp only
    split
    · exact autoDuty_le c t
    · exact Nat.zero_le _

theorem Motor.update_duty_le (c : DutyConfig) (rv : Bool) (ev : EventArg) (t : Int) (m : Motor) :
    (m.update c rv ev t).dutyPercent.toNat ≤ 100 := by
  simp only [Motor.update, BitVec.toNat_ofNat]
  exact (Nat.mod_le _ _).trans (motorDuty_le _ _ _ _ _)

/-- The alarms' timestamps lie in the past. -/
def Alarm.StampedBy (a : Alarm) (now : Nat) : Prop :=
  a.lastTempBeepMs ≤ now ∧ a.lastHumidityBeepMs ≤ now ∧ a.lastBothBeepMs ≤ now

theorem Alarm.update_stamped {c : DutyConfig} {hum t : Int} {now : Nat} {a : Alarm} (h : a.StampedBy now) :
    (a.update c hum t now).2.StampedBy now := by
  obtain ⟨htemp, hhum, hboth⟩ := h
  have hset : (a.setFlags c hum t).StampedBy now := ⟨htemp, hhum, hboth⟩
  unfold Alarm.update Alarm.beepRequest
  split
  · split
    · exact ⟨htemp, hhum, le_refl now⟩
    · exact hset
  · split
    · split
      · exact ⟨le_refl now, hhum, hboth⟩
      · exact hset
    · split
      · split
        · exact ⟨htemp, le_refl now, hboth⟩
        · exact hset
      · exact hset

/-! ## Every step keeps the invariant -/

namespace State.Inv

variable {s s' : State}

theorem setBtn (h : s.Inv) {b : Btn} (hb : b.Agrees) (hstamps : b.StampedBy s.nowMs) :
    State.Inv { s with btn := b } := by
  obtain ⟨hrx, hdht, -, -, halarm⟩ := h.stamps
  exact ⟨h.idle, h.wf, h.caps, h.line, h.pins, h.status, h.rxCap, h.reading, h.session, hb, h.duty,
    hrx, hdht, hstamps.1, hstamps.2, halarm⟩

theorem setAlarm (h : s.Inv) {a : Alarm} (ha : a.StampedBy s.nowMs) : State.Inv { s with alarm := a } := by
  obtain ⟨hrx, hdht, hpress, hraw, -⟩ := h.stamps
  exact ⟨h.idle, h.wf, h.caps, h.line, h.pins, h.status, h.rxCap, h.reading, h.session, h.btn, h.duty,
    hrx, hdht, hpress, hraw, ha⟩

/-- The answer of an operation that stays on the wires and leaves the pins as they were. -/
theorem answer_onWires (h : s.Inv) (ho : OnWires s.accept s') (hp : s'.pins = s.pins) {r : Rsp}
    (hr : legalStatus r.status) : (s'.respond r).Inv := by
  have hrx : s'.rx = (rxRun s.cfg.uart s'.nowMs s.rx s.env.arrivals).1 := congrArg Prod.fst ho.rx_from_accept
  have hlater := h.later (t := s'.t) (rx := s'.rx) ho.mono (by rw [hrx]; exact rxRun_within _ _ _ _ h.rxCap)
    (by rw [hrx]; exact rxRun_lastMs_le _ _ _ _ (h.stamps.1.trans (State.nowMs_mono ho.mono))) s'.trace s'.env
  rw [ho.answered h.idle r, hp]
  exact hlater.setRsp hr

/-- The answer of an operation that stays on the line. -/
theorem answer_onLine (h : s.Inv) (ho : OnLine s.accept s') {r : Rsp} (hr : legalStatus r.status) :
    (s'.respond r).Inv := by
  have hstamp : s.accept.rx.lastMs ≤ s.accept.nowMs := rxRun_lastMs_le _ _ _ _ h.stamps.1
  have hlater := h.later (t := s'.t) (rx := s'.rx) ho.mono (ho.within (rxRun_within _ _ _ _ h.rxCap))
    (ho.stamp hstamp) s'.trace { s.env with arrivals := s'.env.arrivals }
  obtain ⟨-, -, -, -, hwf⟩ := h.wf
  obtain ⟨-, -, -, -, hcap⟩ := h.caps
  have hline := hlater.setLine (ho.wf hwf) (ho.below hcap) (ho.line h.line)
  rw [ho.answered h.idle r]
  exact hline.setRsp hr

end State.Inv

theorem i2cBody_rxbuf_inv {i : Instr} (hi : subBlock i = .i2c) {s : State} (hwf : s.rxbuf.wf = true)
    (hcap : s.rxbuf.below bufCap = true) :
    (Instr.body i s).2.rxbuf.wf = true ∧ (Instr.body i s).2.rxbuf.below bufCap = true := by
  obtain ⟨a, n, rfl, -⟩ | ⟨hkept, -⟩ := i2cBody_rxbuf hi s
  · exact ⟨i2cReadOp_rxbuf_wf a n s hwf, i2cReadOp_rxbuf_below a n s hcap⟩
  · rw [hkept]
    exact ⟨hwf, hcap⟩

theorem i2c_keeps_inv {i : Instr} (hi : subBlock i = .i2c) {s : State} (h : s.Inv) :
    ((Instr.body i s.accept).2.respond (Instr.body i s.accept).1).Inv := by
  obtain ⟨hon, hpins, -⟩ := i2cBody_frame hi s.accept
  obtain ⟨-, hrxbuf, -⟩ := h.wf
  obtain ⟨-, hrxcap, -⟩ := h.caps
  obtain ⟨hwf, hcap⟩ := i2cBody_rxbuf_inv hi (s := s.accept) hrxbuf hrxcap
  refine (h.setRxbuf hwf hcap (Instr.body i s.accept).2.rxlen).answer_onWires hon ?_ (body_legalStatus i _)
  rw [hpins]
  simp [Pins.idleFrom, h.pins]

theorem dht_keeps_inv (tmo : Nat) {s : State} (h : s.Inv) :
    ((dhtReadFrameOp tmo s.accept).2.respond (dhtReadFrameOp tmo s.accept).1).Inv := by
  have hlegal := dhtReadFrameOp_legal tmo s.accept
  obtain ⟨s', hline, hend⟩ := dhtReadFrameOp_ends tmo s.accept
  have hpins : s'.pins = s.pins := by
    rcases hline.pins with hp | hp <;> simp [hp, h.pins]
  have hanswer := h.answer_onWires hline.on hpins hlegal
  obtain ⟨-, hs'⟩ | ⟨hum, temp, hok⟩ := hend
  · rw [hs']
    exact hanswer
  · rw [hok] at hanswer ⊢
    exact hanswer.setReading (d := ⟨true, s'.nowMs⟩) (r := ⟨true, temp, hum, s'.nowMs⟩) ⟨rfl, rfl⟩ (le_refl _)

theorem uart_keeps_inv {i : Instr} (hi : subBlock i = .uart) {s : State} (hw : i.wf s.cfg = true) (h : s.Inv) :
    ((Instr.body i s.accept).2.respond (Instr.body i s.accept).1).Inv :=
  (h.setSession (uartBody_attached hi (s := s.accept) hw h.session)).answer_onLine
    (uartBody_frame hi (s := s.accept) hw).1 (body_legalStatus i _)

theorem btn_keeps_inv {s : State} (h : s.Inv) :
    ((btnPollOp s.accept).2.respond (btnPollOp s.accept).1).Inv := by
  obtain ⟨_, _, _, hf⟩ := s.accept.sampleBtn_frame
  have hon := State.sampleBtn_onWires s.accept
  have hanswer := h.answer_onWires hon (by rw [hf]; rfl) (body_legalStatus .btnPoll s.accept)
  obtain ⟨-, -, hpress, hraw, -⟩ := h.stamps
  have hnow : s.accept.sampleBtn.2.nowMs = s.nowMs := by rw [hf]; rfl
  refine hanswer.setBtn (Btn.events_agrees _ _ _) ?_
  exact hnow ▸ Btn.events_stamped (Btn.debounce_stamped ⟨hpress, hraw⟩)

theorem duty_keeps_inv {i : Instr} (hi : subBlock i = .duty) {s : State} (h : s.Inv) :
    ((Instr.body i s.accept).2.respond (Instr.body i s.accept).1).Inv := by
  have hanswer := h.answer_onWires (OnWires.refl s.accept) rfl (body_legalStatus i s.accept)
  obtain ⟨-, -, -, -, halarm⟩ := h.stamps
  rcases instr_of_duty hi with ⟨v, rfl⟩ | ⟨hum, v, rfl⟩ | ⟨r, e, v, rfl⟩
  · exact hanswer
  · exact hanswer.setAlarm (Alarm.update_stamped halarm)
  · exact hanswer.setMotor (Motor.update_duty_le _ _ _ _ _)

/-- A command keeps the invariant, refused or carried out. -/
theorem exec_keeps_inv {i : Instr} {s t : State} (h : s.Inv) (he : exec i s = .next t) : t.Inv := by
  obtain rfl | ⟨-, hw, rfl⟩ := exec_next he
  · exact h.setRsp (legalStatus_code .illegalCommand)
  · cases hi : subBlock i with
    | i2c => exact i2c_keeps_inv hi h
    | dht =>
      obtain ⟨tmo, rfl⟩ := instr_of_dht hi
      exact dht_keeps_inv tmo.toNat h
    | uart => exact uart_keeps_inv hi hw h
    | btn =>
      obtain rfl := instr_of_btn hi
      exact btn_keeps_inv h
    | duty => exact duty_keeps_inv hi h

theorem hostWriteByte_keeps_inv {s : State} (h : s.Inv) (b : OperandBuf) (i : Nat) (v : Byte) :
    (s.hostWriteByte b i v).Inv := by
  obtain ⟨htx, -, h0, h1, -⟩ := h.wf
  obtain ⟨htx', -, h0', h1', -⟩ := h.caps
  by_cases hland : s.busy = false ∧ i < bufCap
  · obtain ⟨etx, e0, e1⟩ := State.hostWriteByte_lands hland v
    obtain ⟨-, hi⟩ := hland
    cases b with
    | txbuf =>
      rw [etx]
      exact h.setOperands ⟨Memory.write_wf _ _ htx, h0, h1⟩ ⟨Memory.write_below _ htx' hi, h0', h1'⟩
    | str0 =>
      rw [e0]
      exact h.setOperands ⟨htx, Memory.write_wf _ _ h0, h1⟩ ⟨htx', Memory.write_below _ h0' hi, h1'⟩
    | str1 =>
      rw [e1]
      exact h.setOperands ⟨htx, h0, Memory.write_wf _ _ h1⟩ ⟨htx', h0', Memory.write_below _ h1' hi⟩
  · rw [State.hostWriteByte_dropped hland]
    exact h

/-- An action of HOST keeps the invariant. -/
theorem runAction_keeps_inv {a : HostAct} {s t : State} (h : s.Inv) (hr : runAction a s = .next t) : t.Inv := by
  cases a with
  | command w =>
    have hcmd : (s.writeCmd w).Inv := by
      rw [State.writeCmd_eq]
      exact h.frame _ s.str0len s.str1len s.env s.host
    simp only [runAction, runWord] at hr
    split at hr
    · exact exec_keeps_inv hcmd hr
    · cases hr
      exact hcmd.setRsp (legalStatus_code .illegalCommand)
  | writeByte b i v =>
    cases hr
    exact hostWriteByte_keeps_inv h b i v
  | writeLength r n =>
    cases hr
    rw [State.hostWriteLength_eq]
    exact h.frame s.cmd _ _ s.env s.host
  | wait us =>
    cases hr
    exact h.setTime (Nat.le_add_right _ _)

theorem step_keeps_inv {s t : State} (h : s.Inv) (hs : step s = .next t) : t.Inv := by
  cases hh : s.host with
  | nil =>
    rw [step_of_idleHost hh] at hs
    exact runAction_keeps_inv (h.frame s.cmd s.str0len s.str1len _ s.host) hs
  | cons a rest =>
    rw [step_of_host hh] at hs
    exact runAction_keeps_inv (h.frame s.cmd s.str0len s.str1len _ rest) hs

end Sys2Proof.Machine
open Sys2Proof Sys2Proof.Machine

/-- Settles O14: `step_keeps_inv`, by the cases of HOST's action and, for a command, of its sub-block. -/
theorem invariantKept : Obligations.InvariantKept := fun _ _ h hs => step_keeps_inv h hs

end

section
/-! PROOFS. The family 30_encoding.md, part 1: the command word (R90 to R96). A word that carries a row's fixed bits
decodes to that row with the operands read from the word (`decode_of_row`); a word that decodes is assembled from the
fields of its command (`encode_of_decode`). The round trips, the masks and the operand slices follow from these two. -/

namespace Sys2Proof

/-! ## Fields and slices -/

/-- R13's slice is the library's. -/
theorem field_eq_extractLsb' (w : Word) (lo len : Nat) : field w lo len = (w.extractLsb' lo len).toNat := by
  rw [field, BitVec.extractLsb'_toNat, Nat.shiftRight_eq_div_pow]

theorem ofNat_field (w : Word) (lo len : Nat) : BitVec.ofNat len (field w lo len) = w.extractLsb' lo len := by
  rw [field_eq_extractLsb', BitVec.ofNat_toNat, BitVec.setWidth_eq]

/-- A mask that covers a field fixes it; both side conditions compute for the literals of a row. -/
theorem field_of_and_eq {w mask bits : Word} (h : w &&& mask = bits) {lo len n : Nat}
    (hcover : mask.extractLsb' lo len = BitVec.allOnes len := by decide)
    (hbits : field bits lo len = n := by decide) :
    field w lo len = n := by
  rw [← hbits, field_eq_extractLsb', field_eq_extractLsb', ← h, BitVec.extractLsb'_and, hcover, BitVec.and_allOnes]

theorem assemble_of_fields {w : Word} {opcode a b : Nat} (ho : field w 24 8 = opcode) (ha : field w 16 8 = a)
    (hb : field w 0 16 = b) : assemble opcode a b = w := by
  have hw : w.toNat < 2 ^ 32 := w.isLt
  apply BitVec.eq_of_toNat_eq
  simp only [field] at ho ha hb
  simp only [assemble, BitVec.toNat_ofNat]
  omega

/-- Format Z: the fields `a` and `b` of a word without operands (R92). -/
theorem fields_eq_zero {w : Word} (h : field w 0 24 = 0) : field w 16 8 = 0 ∧ field w 0 16 = 0 := by
  simp only [field] at h ⊢
  omega

/-! ## The operands of a word -/

@[simp] theorem addrField_assemble (opcode : Nat) (addr7 : BitVec 7) (n : Byte) :
    addrField (assemble opcode addr7.toNat n.toNat) = addr7 := by
  apply BitVec.eq_of_toNat_eq
  simp only [addrField, field, assemble, BitVec.toNat_ofNat]
  omega

@[simp] theorem countField_assemble (opcode a : Nat) (n : Byte) : countField (assemble opcode a n.toNat) = n := by
  apply BitVec.eq_of_toNat_eq
  simp only [countField, field, assemble, BitVec.toNat_ofNat]
  omega

@[simp] theorem a8Field_assemble (opcode : Nat) (a8 : Byte) (v16 : Half) :
    a8Field (assemble opcode a8.toNat v16.toNat) = a8 := by
  apply BitVec.eq_of_toNat_eq
  simp only [a8Field, field, assemble, BitVec.toNat_ofNat]
  omega

@[simp] theorem v16Field_assemble (opcode a : Nat) (v16 : Half) : v16Field (assemble opcode a v16.toNat) = v16 := by
  apply BitVec.eq_of_toNat_eq
  simp only [v16Field, field, assemble, BitVec.toNat_ofNat]
  omega

theorem field_eq_addrField {w : Word} (h : field w 23 1 = 0) : field w 16 8 = (addrField w).toNat := by
  simp only [addrField, field, BitVec.toNat_ofNat] at h ⊢
  omega

theorem field_eq_countField {w : Word} (h : field w 8 8 = 0) : field w 0 16 = (countField w).toNat := by
  simp only [countField, field, BitVec.toNat_ofNat] at h ⊢
  omega

theorem field_eq_a8Field (w : Word) : field w 16 8 = (a8Field w).toNat := by
  simp only [a8Field, field, BitVec.toNat_ofNat]
  omega

theorem field_eq_v16Field (w : Word) : field w 0 16 = (v16Field w).toNat := by
  simp only [v16Field, field, BitVec.toNat_ofNat]
  omega

theorem eventField_eventOfField {k : Nat} (h : k < 4) : eventField (eventOfField k) = k := by
  interval_cases k <;> rfl

theorem toNat_decide_eq_one {k : Nat} (h : k < 2) : (decide (k = 1)).toNat = k := by
  interval_cases k <;> rfl

/-- R96: bits 22:18 are 0, so the field `a` is `rv` and `ev`. -/
theorem field_eq_rv_ev {w : Word} (h : field w 18 5 = 0) :
    field w 16 8 = (decide (field w 23 1 = 1)).toNat * 2 ^ 7 + eventField (eventOfField (field w 16 2)) := by
  have hev : field w 16 2 < 4 := Nat.mod_lt _ (by decide)
  have hrv : field w 23 1 < 2 := Nat.mod_lt _ (by decide)
  rw [eventField_eventOfField hev, toNat_decide_eq_one hrv]
  simp only [field] at h ⊢
  omega

/-- The operation of `i`'s row with its operands read from the word `w` (R92 to R96). -/
def Instr.withOperands (i : Instr) (w : Word) : Instr :=
  match i with
  | .i2cWrite _ _ => .i2cWrite (addrField w) (countField w)
  | .i2cRead _ _ => .i2cRead (addrField w) (countField w)
  | .i2cProbe _ => .i2cProbe (addrField w)
  | .i2cBusIdle => .i2cBusIdle
  | .dhtReadFrame _ => .dhtReadFrame (v16Field w)
  | .uartReadLine _ _ => .uartReadLine (a8Field w) (v16Field w)
  | .uartSendCommand _ => .uartSendCommand (v16Field w)
  | .uartInitSession _ => .uartInitSession (v16Field w)
  | .uartSendLine => .uartSendLine
  | .btnPoll => .btnPoll
  | .dutyAuto _ => .dutyAuto (v16Field w)
  | .alarmUpdate _ _ => .alarmUpdate (a8Field w) (v16Field w)
  | .motorUpdate _ _ _ =>
    .motorUpdate (decide (field w 23 1 = 1)) (eventOfField (field w 16 2)) (v16Field w)

/-- A command's word holds its operands. -/
theorem withOperands_encode (i : Instr) : i.withOperands (encode i) = i := by
  cases i with
  | i2cProbe a => exact congrArg Instr.i2cProbe (addrField_assemble 0x03 a 0)
  | motorUpdate rv ev v =>
    have ha : rv.toNat * 2 ^ 7 + eventField ev < 256 := by cases rv <;> cases ev <;> decide
    obtain ⟨-, -, -, hrv, -, hev, -⟩ := field_assemble (opcode := 0x42) (by decide) ha v.isLt
    simp only [Instr.withOperands, encode, v16Field_assemble, hrv, hev]
    cases rv <;> cases ev <;> rfl
  | _ => simp [Instr.withOperands, encode]

/-! ## Rows -/

theorem encode_selectsRow (i : Instr) : encode i &&& (opcodeMap i).2 = (opcodeMap i).1 := by
  cases i with
  | i2cWrite a n => exact Laws.EncodeSelectsRow.i2cWrite a n
  | i2cRead a n => exact Laws.EncodeSelectsRow.i2cRead a n
  | i2cProbe a => exact Laws.EncodeSelectsRow.i2cProbe a
  | i2cBusIdle => exact Laws.EncodeSelectsRow.i2cBusIdle
  | dhtReadFrame v => exact Laws.EncodeSelectsRow.dhtReadFrame v
  | uartReadLine m v => exact Laws.EncodeSelectsRow.uartReadLine m v
  | uartSendCommand v => exact Laws.EncodeSelectsRow.uartSendCommand v
  | uartInitSession p => exact Laws.EncodeSelectsRow.uartInitSession p
  | uartSendLine => exact Laws.EncodeSelectsRow.uartSendLine
  | btnPoll => exact Laws.EncodeSelectsRow.btnPoll
  | dutyAuto v => exact Laws.EncodeSelectsRow.dutyAuto v
  | alarmUpdate m v => exact Laws.EncodeSelectsRow.alarmUpdate m v
  | motorUpdate r e v => exact Laws.EncodeSelectsRow.motorUpdate r e v

theorem opcodeMap_mem_opcodeRows (i : Instr) : opcodeMap i ∈ opcodeRows := by
  cases i <;> simp [opcodeMap, opcodeRows]

/-- A word that carries a row's fixed bits decodes to the row, with the operands it holds (R91). -/
theorem decode_of_row {w : Word} {i : Instr} (h : w &&& (opcodeMap i).2 = (opcodeMap i).1) :
    decode w = .ok (i.withOperands w) := by
  obtain ⟨hwrite, hread, hprobe, hidle, hframe, hreadLine, hsend, hinit, hsendLine, hpoll, hduty, halarm, hmotor⟩ :=
    decode_of_fields w
  cases i <;> dsimp only [opcodeMap] at h
  case i2cWrite => exact hwrite (field_of_and_eq h) (field_of_and_eq h) (field_of_and_eq h)
  case i2cRead => exact hread (field_of_and_eq h) (field_of_and_eq h) (field_of_and_eq h)
  case i2cProbe => exact hprobe (field_of_and_eq h) (field_of_and_eq h) (field_of_and_eq h)
  case i2cBusIdle => exact hidle (field_of_and_eq h) (field_of_and_eq h)
  case dhtReadFrame => exact hframe (field_of_and_eq h) (field_of_and_eq h)
  case uartReadLine => exact hreadLine (field_of_and_eq h)
  case uartSendCommand => exact hsend (field_of_and_eq h) (field_of_and_eq h)
  case uartInitSession => exact hinit (field_of_and_eq h) (field_of_and_eq h)
  case uartSendLine => exact hsendLine (field_of_and_eq h) (field_of_and_eq h)
  case btnPoll => exact hpoll (field_of_and_eq h) (field_of_and_eq h)
  case dutyAuto => exact hduty (field_of_and_eq h) (field_of_and_eq h)
  case alarmUpdate => exact halarm (field_of_and_eq h)
  case motorUpdate => exact hmotor (field_of_and_eq h) (field_of_and_eq h)

/-- A word that decodes is assembled from the fields of its command (R90). -/
theorem encode_of_decode {w : Word} {i : Instr} (h : decode w = .ok i) : encode i = w := by
  rcases decode_ok h with ⟨ho, ha, hb, rfl⟩ | ⟨ho, ha, hb, rfl⟩ | ⟨ho, ha, hb, rfl⟩ | ⟨ho, hz, rfl⟩ | ⟨ho, ha, rfl⟩ |
    ⟨ho, rfl⟩ | ⟨ho, ha, rfl⟩ | ⟨ho, ha, rfl⟩ | ⟨ho, hz, rfl⟩ | ⟨ho, hz, rfl⟩ | ⟨ho, ha, rfl⟩ | ⟨ho, rfl⟩ |
    ⟨ho, hz, rfl⟩
  · exact assemble_of_fields ho (field_eq_addrField ha) (field_eq_countField hb)
  · exact assemble_of_fields ho (field_eq_addrField ha) (field_eq_countField hb)
  · exact assemble_of_fields ho (field_eq_addrField ha) hb
  · obtain ⟨ha, hb⟩ := fields_eq_zero hz
    exact assemble_of_fields ho ha hb
  · exact assemble_of_fields ho ha (field_eq_v16Field w)
  · exact assemble_of_fields ho (field_eq_a8Field w) (field_eq_v16Field w)
  · exact assemble_of_fields ho ha (field_eq_v16Field w)
  · exact assemble_of_fields ho ha (field_eq_v16Field w)
  · obtain ⟨ha, hb⟩ := fields_eq_zero hz
    exact assemble_of_fields ho ha hb
  · obtain ⟨ha, hb⟩ := fields_eq_zero hz
    exact assemble_of_fields ho ha hb
  · exact assemble_of_fields ho ha (field_eq_v16Field w)
  · exact assemble_of_fields ho (field_eq_a8Field w) (field_eq_v16Field w)
  · exact assemble_of_fields ho (field_eq_rv_ev hz) (field_eq_v16Field w)

/-- A command decodes from its own word, which carries its row's bits and holds its operands (R90, R91). -/
theorem decode_encode (i : Instr) : decode (encode i) = .ok i := by
  rw [decode_of_row (encode_selectsRow i), withOperands_encode]

/-- A word that decodes carries the fixed bits of its command's row (R91). -/
theorem row_of_decode {w : Word} {i : Instr} (h : decode w = .ok i) : w &&& (opcodeMap i).2 = (opcodeMap i).1 := by
  rw [← encode_of_decode h]
  exact encode_selectsRow i

/-- The operands of a command are those its word holds (R92 to R96). -/
theorem eq_withOperands_of_decode {w : Word} {i : Instr} (h : decode w = .ok i) : i = i.withOperands w := by
  rw [← encode_of_decode h, withOperands_encode]

/-- A word that no row of the opcode map selects does not decode (R91). -/
theorem decode_eq_error_of_noRow {w : Word} (h : ∀ r ∈ opcodeRows, w &&& r.2 ≠ r.1) : ∃ e, decode w = .error e := by
  cases hd : decode w with
  | error e => exact ⟨e, rfl⟩
  | ok i => exact absurd (row_of_decode hd) (h _ (opcodeMap_mem_opcodeRows i))

/-! ## The operands as slices -/

theorem addrField_eq (w : Word) : addrField w = w.extractLsb' 16 7 := ofNat_field w 16 7
theorem countField_eq (w : Word) : countField w = w.extractLsb' 0 8 := ofNat_field w 0 8
theorem a8Field_eq (w : Word) : a8Field w = w.extractLsb' 16 8 := ofNat_field w 16 8
theorem v16Field_eq (w : Word) : v16Field w = w.extractLsb' 0 16 := ofNat_field w 0 16

/-- R96: `rv` is bit 23. -/
theorem rvField_eq (w : Word) : decide (field w 23 1 = 1) = w.getLsbD 23 := by
  rw [BitVec.getLsbD, Nat.testBit_eq_decide_div_mod_eq]
  rfl

/-- R96: `ev` is bits 17:16. -/
theorem evField_eq_iff (w : Word) (e : EventArg) :
    eventOfField (field w 16 2) = e ↔ w.extractLsb' 16 2 = BitVec.ofNat 2 (eventField e) := by
  have hlt : field w 16 2 < 4 := Nat.mod_lt _ (by decide)
  rw [← ofNat_field]
  generalize field w 16 2 = k at hlt
  interval_cases k <;> cases e <;> decide

end Sys2Proof
open Sys2Proof

/-- Settles O5: the word of a command carries the fixed bits of its row, and its fields are the operands. -/
theorem decodeEncode : Obligations.DecodeEncode := decode_encode

/-- Settles O6: a word is assembled from its opcode and its two fields, which for a word that decodes hold nothing but
the operands. -/
theorem encodeDecode : Obligations.EncodeDecode := fun _ _ h => encode_of_decode h

/-- Settles O4: a command holds the operand fields of its word, and each field is a slice. -/
theorem operandsAreBitSlices : Obligations.OperandsAreBitSlices := by
  intro w
  refine ⟨fun a n h => ?_, fun a n h => ?_, fun a h => ?_, fun v h => ?_, fun a v h => ?_, fun v h => ?_, fun v h => ?_,
    fun v h => ?_, fun a v h => ?_, fun r e v h => ?_⟩
  · obtain ⟨ha, hn⟩ := Instr.i2cWrite.inj (eq_withOperands_of_decode h)
    exact ⟨ha.trans (addrField_eq w), hn.trans (countField_eq w)⟩
  · obtain ⟨ha, hn⟩ := Instr.i2cRead.inj (eq_withOperands_of_decode h)
    exact ⟨ha.trans (addrField_eq w), hn.trans (countField_eq w)⟩
  · exact (Instr.i2cProbe.inj (eq_withOperands_of_decode h)).trans (addrField_eq w)
  · exact (Instr.dhtReadFrame.inj (eq_withOperands_of_decode h)).trans (v16Field_eq w)
  · obtain ⟨ha, hv⟩ := Instr.uartReadLine.inj (eq_withOperands_of_decode h)
    exact ⟨ha.trans (a8Field_eq w), hv.trans (v16Field_eq w)⟩
  · exact (Instr.uartSendCommand.inj (eq_withOperands_of_decode h)).trans (v16Field_eq w)
  · exact (Instr.uartInitSession.inj (eq_withOperands_of_decode h)).trans (v16Field_eq w)
  · exact (Instr.dutyAuto.inj (eq_withOperands_of_decode h)).trans (v16Field_eq w)
  · obtain ⟨ha, hv⟩ := Instr.alarmUpdate.inj (eq_withOperands_of_decode h)
    exact ⟨ha.trans (a8Field_eq w), hv.trans (v16Field_eq w)⟩
  · obtain ⟨hr, rfl, hv⟩ := Instr.motorUpdate.inj (eq_withOperands_of_decode h)
    exact ⟨hr.trans (rvField_eq w), hv.trans (v16Field_eq w), evField_eq_iff w .noEvent, evField_eq_iff w .shortPress,
      evField_eq_iff w .longPress, evField_eq_iff w .reserved3⟩

/-- Settles O1: each word is the word of the command it decodes to. -/
theorem specWordsDecode : Obligations.SpecWordsDecode :=
  ⟨decode_encode (.i2cWrite 0x23 1), decode_encode (.i2cWrite 0x7F 255), decode_encode (.i2cRead 0x23 2),
    decode_encode (.i2cProbe 0x50), decode_encode .i2cBusIdle, decode_encode (.dhtReadFrame 1000),
    decode_encode (.uartReadLine 16 100), decode_encode (.uartSendCommand 1000),
    decode_encode (.uartInitSession 9001), decode_encode .uartSendLine, decode_encode .btnPoll,
    decode_encode (.dutyAuto 33), decode_encode (.dutyAuto 0xFFFB), decode_encode (.alarmUpdate 50 36),
    decode_encode (.motorUpdate true .noEvent 33), decode_encode (.motorUpdate true .longPress 33),
    decode_encode (.motorUpdate false .noEvent 0)⟩

/-- Settles O2: the decoder run on the words of V71. -/
theorem specWordsRejected : Obligations.SpecWordsRejected := by
  unfold Obligations.SpecWordsRejected
  decide
end

section
/-! PROOFS. The family 30_encoding.md, part 2: which words and which commands are refused, and how (R91, R97, R110). -/

namespace Sys2Proof.Machine

/-! ## Words that select no row -/

theorem State.refuse_eq (s : State) : s.refuse = { s with rsp := ⟨0xFF, 0, 0, 0⟩ } := rfl

/-- HOST's word, rejected by the decoder (R110). -/
theorem step_of_undecoded {s : State} {w : Word} {rest : List HostAct} {e : DecodeError}
    (hh : s.host = .command w :: rest) (hd : decode w = .error e) :
    step s = .next { s with
      host := rest
      cmd := if s.busy then s.cmd else w
      env := { s.env with draws := s.env.draws + 1 }
      rsp := ⟨0xFF, 0, 0, 0⟩ } := by
  simp only [step_of_host hh, runAction, runWord, hd, State.writeCmd_eq, State.refuse_eq]

/-! ## Commands that fail a check by value -/

/-- R97 (1) to (3): the commands that fail a check by value. -/
theorem wf_eq_false_iff (c : Config) (i : Instr) :
    i.wf c = false ↔ (∃ a, i = .i2cRead a 0) ∨
      (∃ m v, i = .uartReadLine m v ∧ (m = 0 ∨ c.uart.lineMax.val < m.toNat)) ∨
      ∃ r v, i = .motorUpdate r .reserved3 v := by
  cases i with
  | i2cRead a n => simp [Instr.wf]
  | uartReadLine m v => simp [Instr.wf, or_iff_not_imp_left]
  | motorUpdate r e v => simp [Instr.wf]
  | _ => simp [Instr.wf]

/-! ## The status of a command that is carried out -/

theorem Status.code_ne {st : Status} (h : st ≠ .illegalCommand) : st.code ≠ 0xFF := by
  cases st with
  | illegalCommand => exact absurd rfl h
  | _ => decide

theorem sendCommand_ne_illegal (text expected : Bytes) (timeout : Nat) (s : State) :
    (sendCommand text expected timeout s).1 ≠ .illegalCommand := by
  rcases sendCommand_status text expected timeout s with h | h | h | h <;> rw [h] <;> decide

/-- UART_INIT_SESSION answers OK or SESSION_PHASE_FAILURE (R216). -/
theorem uartInitSessionOp_status (port : Nat) (s : State) :
    (uartInitSessionOp port s).1.status = 0x00 ∨ (uartInitSessionOp port s).1.status = 0x06 := by
  simp only [uartInitSessionOp]
  split
  · simp only [initFullFunc]
    split
    · split
      · simp only [initSetApn]
        split
        · simp only [initSocket]
          split
          · simp only [initSockWait]
            split
            · exact .inl rfl
            · exact .inr rfl
          · exact .inr rfl
        · exact .inr rfl
      · exact .inr rfl
    · exact .inr rfl
  · exact .inr rfl

theorem dhtReadFrameOp_status_ne (tmo : Nat) (s : State) : (dhtReadFrameOp tmo s).1.status ≠ 0xFF := by
  obtain ⟨_, -, ⟨⟨-, hstatus⟩, -⟩ | ⟨_, _, hok⟩⟩ := dhtReadFrameOp_ends tmo s
  · rcases hstatus with ⟨h | h | h, -⟩ | ⟨h, -⟩ <;> rw [h] <;> decide
  · rw [hok]
    exact Status.code_ne (st := .ok) (by decide)

/-- No body answers ILLEGAL_COMMAND: that status is the refusal's alone (R97, R110). -/
theorem body_status_ne (i : Instr) (s : State) : (Instr.body i s).1.status ≠ 0xFF := by
  cases i with
  | i2cWrite a n =>
    simp only [Instr.body, i2cWriteOp]
    split
    · exact Status.code_ne (st := .busNack) (by decide)
    · split
      · exact Status.code_ne (st := .busNack) (by decide)
      · split
        · exact Status.code_ne (st := .busNack) (by decide)
        · exact Status.code_ne (st := .ok) (by decide)
  | i2cRead a n =>
    rcases i2cReadOp_cases a n s with h | h | h <;> simp only [Instr.body, h]
    · exact Status.code_ne (st := .busNack) (by decide)
    · exact Status.code_ne (st := .busNack) (by decide)
    · exact Status.code_ne (st := .ok) (by decide)
  | i2cProbe a =>
    simp only [Instr.body, i2cProbeOp]
    split
    · exact Status.code_ne (st := .ok) (by decide)
    · split <;> exact Status.code_ne (st := .ok) (by decide)
  | dhtReadFrame tmo => exact dhtReadFrameOp_status_ne tmo.toNat s
  | uartSendCommand v => exact Status.code_ne (sendCommand_ne_illegal _ _ _ _)
  | uartInitSession p =>
    rcases uartInitSessionOp_status p.toNat s with h | h <;> simp only [Instr.body, h] <;> decide
  | uartSendLine =>
    simp only [Instr.body, uartSendLineOp]
    split
    · exact Status.code_ne (st := .sessionPhaseFailure) (by decide)
    · split
      · exact Status.code_ne (st := .ok) (by decide)
      · exact Status.code_ne (st := .sessionPhaseFailure) (by decide)
  | i2cBusIdle | uartReadLine | btnPoll | dutyAuto | alarmUpdate | motorUpdate =>
    exact Status.code_ne (st := .ok) (by decide)

end Sys2Proof.Machine
open Sys2Proof Sys2Proof.Machine

/-- Settles O8: HOST's word stands in CMD, the decoder rejects it, and the refusal writes RSP. -/
theorem stepRefusesUndecodedWord : Obligations.StepRefusesUndecodedWord := fun _ _ _ _ hh hd => step_of_undecoded hh hd

/-- Settles O9: a command is refused when `busy` = 1 or a check by value fails, and no body answers with the refusal's
status. -/
theorem commandRefusedExactly : Obligations.CommandRefusedExactly := by
  intro i s
  simp only [← wf_eq_false_iff]
  refine ⟨exec_refused, fun h => ?_⟩
  obtain ⟨hb, hw⟩ := not_or.1 h
  exact ⟨_, exec_accepted (Bool.eq_false_of_not_eq_true hb) (Bool.eq_true_of_not_eq_false hw), rfl,
    body_status_ne i s.accept⟩

/-- Settles O3: a word selects a row exactly when it decodes to the row's operation, `row_of_decode` and `decode_of_row`;
a word of no row is refused as in O8. -/
theorem rowSelectedByMask : Obligations.RowSelectedByMask := by
  intro w
  refine ⟨⟨fun ⟨_, _, h⟩ => row_of_decode h, fun h => ⟨_, _, decode_of_row (i := .i2cWrite 0 0) h⟩⟩,
    ⟨fun ⟨_, _, h⟩ => row_of_decode h, fun h => ⟨_, _, decode_of_row (i := .i2cRead 0 0) h⟩⟩,
    ⟨fun ⟨_, h⟩ => row_of_decode h, fun h => ⟨_, decode_of_row (i := .i2cProbe 0) h⟩⟩,
    ⟨row_of_decode, decode_of_row (i := .i2cBusIdle)⟩,
    ⟨fun ⟨_, h⟩ => row_of_decode h, fun h => ⟨_, decode_of_row (i := .dhtReadFrame 0) h⟩⟩,
    ⟨fun ⟨_, _, h⟩ => row_of_decode h, fun h => ⟨_, _, decode_of_row (i := .uartReadLine 0 0) h⟩⟩,
    ⟨fun ⟨_, h⟩ => row_of_decode h, fun h => ⟨_, decode_of_row (i := .uartSendCommand 0) h⟩⟩,
    ⟨fun ⟨_, h⟩ => row_of_decode h, fun h => ⟨_, decode_of_row (i := .uartInitSession 0) h⟩⟩,
    ⟨row_of_decode, decode_of_row (i := .uartSendLine)⟩,
    ⟨row_of_decode, decode_of_row (i := .btnPoll)⟩,
    ⟨fun ⟨_, h⟩ => row_of_decode h, fun h => ⟨_, decode_of_row (i := .dutyAuto 0) h⟩⟩,
    ⟨fun ⟨_, _, h⟩ => row_of_decode h, fun h => ⟨_, _, decode_of_row (i := .alarmUpdate 0 0) h⟩⟩,
    ⟨fun ⟨_, _, _, h⟩ => row_of_decode h, fun h => ⟨_, _, _, decode_of_row (i := .motorUpdate false .noEvent 0) h⟩⟩,
    fun hno s rest hh => ?_⟩
  obtain ⟨e, hd⟩ := decode_eq_error_of_noRow hno
  exact ⟨_, step_of_undecoded hh hd, rfl, rfl, rfl⟩
end

section
/-! PROOFS. The family 30_encoding.md, part 3: numerals and composed command texts (R106, R212). -/

namespace Sys2Proof.Machine

/-! ## Numerals -/

/-- Reading digits, most significant first, after the number `v`. -/
def readDigits (v : Nat) (ds : Bytes) : Nat := ds.foldl (fun v d => v * 10 + (d.toNat - 0x30)) v

theorem digit_toNat (n : Nat) : (BitVec.ofNat 8 (0x30 + n % 10)).toNat = 0x30 + n % 10 := by
  rw [BitVec.toNat_ofNat]
  omega

/-- The last digit of a numeral. -/
theorem decimalOnto_of_lt {n : Nat} (h : n < 10) (fuel : Nat) (tail : Bytes) :
    decimalOnto (fuel + 1) n tail = BitVec.ofNat 8 (0x30 + n % 10) :: tail := if_pos h

theorem decimalOnto_of_ge {n : Nat} (h : 10 ≤ n) (fuel : Nat) (tail : Bytes) :
    decimalOnto (fuel + 1) n tail = decimalOnto fuel (n / 10) (BitVec.ofNat 8 (0x30 + n % 10) :: tail) :=
  if_neg (by omega)

theorem decimalOnto_digits {fuel n : Nat} {tail : Bytes} (h : ∀ d ∈ tail, 0x30 ≤ d.toNat ∧ d.toNat ≤ 0x39) :
    ∀ d ∈ decimalOnto fuel n tail, 0x30 ≤ d.toNat ∧ d.toNat ≤ 0x39 := by
  induction fuel generalizing n tail with
  | zero => exact h
  | succ fuel ih =>
    have hcons : ∀ d ∈ BitVec.ofNat 8 (0x30 + n % 10) :: tail, 0x30 ≤ d.toNat ∧ d.toNat ≤ 0x39 := by
      refine List.forall_mem_cons.2 ⟨?_, h⟩
      rw [digit_toNat]
      omega
    rcases Nat.lt_or_ge n 10 with hn | hn
    · rw [decimalOnto_of_lt hn]
      exact hcons
    · rw [decimalOnto_of_ge hn]
      exact ih hcons

/-- Reading the digits of `n` and then `tail` is reading `tail` after `n`. -/
theorem readDigits_decimalOnto {fuel n : Nat} (hf : n < fuel) (tail : Bytes) :
    readDigits 0 (decimalOnto fuel n tail) = readDigits n tail := by
  induction fuel generalizing n tail with
  | zero => omega
  | succ fuel ih =>
    rcases Nat.lt_or_ge n 10 with hn | hn
    · rw [decimalOnto_of_lt hn, readDigits, List.foldl_cons, digit_toNat, ← readDigits]
      congr 1
      omega
    · rw [decimalOnto_of_ge hn, ih (by omega), readDigits, List.foldl_cons, digit_toNat, ← readDigits]
      congr 1
      omega

theorem decimalOnto_head {fuel n : Nat} (hf : n < fuel) (hn : n ≠ 0) (tail : Bytes) :
    (decimalOnto fuel n tail).head? ≠ some 0x30 := by
  induction fuel generalizing n tail with
  | zero => omega
  | succ fuel ih =>
    rcases Nat.lt_or_ge n 10 with hlt | hge
    · rw [decimalOnto_of_lt hlt, List.head?_cons]
      intro h
      have hdigit := congrArg BitVec.toNat (Option.some.inj h)
      rw [digit_toNat] at hdigit
      simp at hdigit
      omega
    · rw [decimalOnto_of_ge hge]
      exact ih (by omega) (by omega) _

theorem decimal_zero : decimal 0 = [0x30] := rfl

/-- A numeral reads as its number (R106). -/
theorem readDigits_decimal (n : Nat) : readDigits 0 (decimal n) = n := readDigits_decimalOnto (Nat.lt_succ_self n) []

theorem decimal_ne_nil (n : Nat) : decimal n ≠ [] := by
  intro h
  have hn : n = 0 := by rw [← readDigits_decimal n, h]; rfl
  rw [hn, decimal_zero] at h
  cases h

/-! ## Composed texts -/

/-- A composed text is its template with every slot replaced by its value, cut to CMD_TEXT_CAP (R106, R212). -/
theorem compose_getElem? {σ : Type} (c : UartConfig) {value : σ → Bytes} {fillPiece : Piece σ → Bytes}
    (htext : ∀ bs, fillPiece (.text bs) = bs) (hslot : ∀ x, fillPiece (.slot x) = value x) (tpl : Template σ) (k : Nat) :
    (compose c value tpl)[k]? = if k < c.cmdTextCap then (tpl.map fillPiece).flatten[k]? else none := by
  have hfill : Template.fill value tpl = (tpl.map fillPiece).flatten := by
    rw [Template.fill, List.flatMap_def]
    congr 2
    funext p
    cases p with
    | text bs => exact (htext bs).symm
    | slot x => exact (hslot x).symm
  rw [compose, hfill, List.getElem?_take]

end Sys2Proof.Machine
open Sys2Proof Sys2Proof.Machine

/-- Settles O49: the numeral by induction on the digits still to come, the texts slot by slot. -/
theorem numeralAndComposedText : Obligations.NumeralAndComposedText := by
  refine ⟨fun n => ⟨decimal_ne_nil n, decimalOnto_digits (by simp), readDigits_decimal n,
    fun hn => decimalOnto_head (Nat.lt_succ_self n) hn [], decimal_zero⟩, ?_⟩
  intro c apn host port n apnText openText prepText k
  exact ⟨compose_getElem? c (fun _ => rfl) (fun .apn => rfl) c.cmdSetApn k,
    compose_getElem? c (fun _ => rfl) (fun | .host => rfl | .port => rfl) c.cmdSockOpen k,
    compose_getElem? c (fun _ => rfl) (fun .n => rfl) c.cmdSendPrep k⟩
end

section
/-! PROOFS. The family 40_i2c_master.md, part 1: for every answer of the bus the exact end of the idle check, a clock
pulse and the four operations (R130 to R144, R147). `BusOutcome` says once what the end of an operation is; each operation
has one equation for each of its ways to end, and one outcome for each. -/

namespace Sys2Proof.Machine

/-! ## What the samples, the idle check and a clock pulse write -/

@[simp] theorem State.delayUs_trace (s : State) (n : Nat) : (s.delayUs n).trace = s.trace ++ [.delay n .us] :=
  State.emit_trace s _

@[simp] theorem State.drawLine_trace (s : State) : s.drawLine.2.trace = s.trace := by
  unfold State.drawLine
  split <;> rfl

@[simp] theorem State.sampleSda_trace (s : State) : s.sampleSda.2.trace = s.trace ++ [.sampleSda s.sampleSda.1] := by
  unfold State.sampleSda
  split <;> simp

@[simp] theorem State.sampleScl_trace (s : State) : s.sampleScl.2.trace = s.trace ++ [.sampleScl s.sampleScl.1] := by
  simp [State.sampleScl]

@[simp] theorem State.delayUs_t (s : State) (n : Nat) : (s.delayUs n).t = s.t + n := State.emit_t s _

@[simp] theorem State.sampleSda_t (s : State) : s.sampleSda.2.t = s.t := (State.sampleSda_wire s).time

@[simp] theorem State.sampleScl_t (s : State) : s.sampleScl.2.t = s.t := (State.sampleScl_wire s).time

/-- R132: the events of the idle check, with the levels it returns. -/
theorem idleCheck_trace (s : State) : (idleCheck s).2.trace = s.trace ++
    [.sdaRel, .sclHigh, .delay s.cfg.i2c.settle .us, .sampleSda (idleCheck s).1.1, .sampleScl (idleCheck s).1.2] := by
  simp [idleCheck]

/-- The idle check takes I2C_T_SETTLE, whatever the drive registers were (R132). -/
theorem idleCheck_t (s : State) : (idleCheck s).2.t = s.t + s.cfg.i2c.settle := by
  simp [idleCheck, State.emit_t, eventTime]

/-- R133: the events of a clock pulse, with the sample it returns. -/
theorem clockPulse_trace (s : State) : (clockPulse s).2.trace = s.trace ++
    [.delay s.cfg.i2c.su .us, .sclHigh, .delay s.cfg.i2c.hi1 .us, .sampleSda (clockPulse s).1,
      .delay s.cfg.i2c.hi2 .us, .sclLow, .delay s.cfg.i2c.lo .us] := by
  simp [clockPulse]

/-! ## The bytes a write sends -/

theorem Memory.prefixBytes_succ (m : Memory) (k : Nat) : m.prefixBytes (k + 1) = m.prefixBytes k ++ [m.read k] := by
  simp [Memory.prefixBytes, List.range_succ]

/-- The first `n` bytes are the first `k`, byte `k`, and the rest. -/
theorem Memory.prefixBytes_split (m : Memory) {k n : Nat} (h : k < n) :
    ∃ post, m.prefixBytes n = m.prefixBytes k ++ m.read k :: post := by
  induction n, h using Nat.le_induction with
  | base => exact ⟨[], m.prefixBytes_succ k⟩
  | succ n hn ih =>
    obtain ⟨post, ih⟩ := ih
    exact ⟨post ++ [m.read n], by rw [Memory.prefixBytes_succ, ih]; simp⟩

/-! ## The end of an operation -/

theorem Pins.eq_idleFrom {p : Pins} (hsda : p.sda = .released) (hscl : p.scl = .high) : p = p.idleFrom := by
  cases p
  simp_all [Pins.idleFrom]

/-- What an operation's body run from `s` answers, what it puts on the bus, the answers it leaves and the time it takes.
RXBUF and RXLEN, which a read writes, are set aside. -/
structure BusOutcome (s : State) (r : Rsp × State) (rsp : Rsp) (syms : List WireSymbol) (rest : List Level)
    (dt : Nat) : Prop where
  rsp : r.1 = rsp
  wire : Wire { s with rxbuf := r.2.rxbuf, rxlen := r.2.rxlen } r.2 syms dt
  answers : r.2.env.lineAnswers = rest

theorem BusOutcome.of_wire {s s' : State} {rsp : Rsp} {syms : List WireSymbol} {rest : List Level} {dt : Nat}
    (h : Wire s s' syms dt) (hl : s'.env.lineAnswers = rest) : BusOutcome s (rsp, s') rsp syms rest dt :=
  ⟨rfl, ⟨h.on.keepRxbuf, h.events, h.time⟩, hl⟩

theorem BusOutcome.setRxlen {s s' : State} {rsp rsp' : Rsp} {syms : List WireSymbol} {rest : List Level} {dt : Nat}
    (h : BusOutcome s (rsp, s') rsp' syms rest dt) (n : Byte) :
    BusOutcome s (rsp, s'.setRxlen n) rsp' syms rest dt :=
  ⟨h.rsp, ⟨h.wire.on.setRxlen n, h.wire.events, h.wire.time⟩, h.answers⟩

theorem BusOutcome.of_rxbuf {s : State} {m : Memory} {r : Rsp × State} {rsp : Rsp} {syms : List WireSymbol}
    {rest : List Level} {dt : Nat} (h : BusOutcome { s with rxbuf := m } r rsp syms rest dt) :
    BusOutcome s r rsp syms rest dt := ⟨h.rsp, h.wire, h.answers⟩

/-- An outcome, read off the state HOST sees and the events appended to the trace. -/
theorem BusOutcome.answered {s : State} {r : Rsp × State} {rsp : Rsp} {syms : List WireSymbol} {rest : List Level}
    {dt : Nat} {evs : List Event} (h : BusOutcome s.accept r rsp syms rest dt) (htr : r.2.trace = s.trace ++ evs) :
    (r.2.respond r.1).rsp = rsp ∧ wireSymbols s.pins evs = syms ∧ (r.2.respond r.1).env.lineAnswers = rest ∧
      (r.2.respond r.1).t = s.t + dt := by
  obtain ⟨evs', htr', hsyms, -⟩ := h.wire.events
  have hevs : evs' = evs := List.append_cancel_left (htr'.symm.trans htr)
  exact ⟨h.rsp, hevs ▸ hsyms, h.answers, h.wire.time⟩

/-- An accepted operation on a released bus appends events to the trace and leaves the lines released (R26). -/
theorem exec_i2c_appends {i : Instr} {s : State} (hi : subBlock i = .i2c) (hwf : i.wf s.cfg = true)
    (hb : s.busy = false) (hp : s.pins = s.pins.idleFrom) :
    ∃ evs, exec i s = .next ((Instr.body i s.accept).2.respond (Instr.body i s.accept).1) ∧
      (Instr.body i s.accept).2.trace = s.trace ++ evs ∧ (Instr.body i s.accept).2.pins = s.pins := by
  obtain ⟨hon, hpins, -⟩ := i2cBody_frame hi s.accept
  obtain ⟨evs, htr⟩ := hon.trace
  exact ⟨evs, exec_accepted hb hwf, htr, hpins.trans hp.symm⟩

/-- A transaction of `n9` clock pulses, ended by STOP (R136, R147). -/
theorem Wire.transaction {s s' : State} {x : List WireSymbol} {n9 : Nat}
    (h : Wire s s' x (s.cfg.i2c.settle + (s.cfg.i2c.sta + s.cfg.i2c.lo) + n9 * I2cConfig.pulse s.cfg.i2c))
    (hp : s'.pins.scl = .low) : Wire s (stop s') (x ++ stopSymbols) (I2cConfig.transaction s.cfg.i2c n9) :=
  h.stopped hp

/-! ## The ways an operation goes on after START

One equation for each: not idle, the address not acknowledged, the address acknowledged (R141 to R143). -/

section

variable {s : State} {a : BitVec 7} {n : Byte}

theorem i2cProbeOp_of_notIdle (h : (start s).1 = false) : i2cProbeOp a s = (⟨0x00, 3, 0, 0⟩, (start s).2) := by
  simp [i2cProbeOp, h, response, Status.code, I2cCause.code]

theorem i2cProbeOp_of_nacked (h : (start s).1 = true)
    (hack : (writeByte (addressByte a .write) (start s).2).1 = false) :
    i2cProbeOp a s = (⟨0x00, 1, 0, 0⟩, stop (writeByte (addressByte a .write) (start s).2).2) := by
  simp [i2cProbeOp, h, hack, response, Status.code, I2cCause.code]

theorem i2cProbeOp_of_acked (h : (start s).1 = true)
    (hack : (writeByte (addressByte a .write) (start s).2).1 = true) :
    i2cProbeOp a s = (⟨0x00, 0, 0, 1⟩, stop (writeByte (addressByte a .write) (start s).2).2) := by
  simp [i2cProbeOp, h, hack, response, Status.code, I2cCause.code]

theorem i2cWriteOp_of_notIdle (h : (start s).1 = false) : i2cWriteOp a n s = (⟨0x01, 3, 0, 0⟩, (start s).2) := by
  simp [i2cWriteOp, h, response, Status.code, I2cCause.code]

theorem i2cWriteOp_of_nacked (h : (start s).1 = true)
    (hack : (writeByte (addressByte a .write) (start s).2).1 = false) :
    i2cWriteOp a n s = (⟨0x01, 1, 0, 0⟩, stop (writeByte (addressByte a .write) (start s).2).2) := by
  simp [i2cWriteOp, h, hack, response, Status.code, I2cCause.code]

/-- The response of a write whose address is acknowledged: the first data byte that is not, or none (R141). -/
def writeAnswer (n : Byte) : Option Nat → Rsp
  | some k => ⟨0x01, 2, BitVec.ofNat 8 k, 0⟩
  | none => ⟨0x00, 0, n, 0⟩

theorem i2cWriteOp_of_acked (h : (start s).1 = true)
    (hack : (writeByte (addressByte a .write) (start s).2).1 = true) :
    i2cWriteOp a n s =
      (writeAnswer n (sendData (s.txBytes n) 0 (writeByte (addressByte a .write) (start s).2).2).1,
        stop (sendData (s.txBytes n) 0 (writeByte (addressByte a .write) (start s).2).2).2) := by
  cases hdata : (sendData (s.txBytes n) 0 (writeByte (addressByte a .write) (start s).2).2).1 <;>
    simp [i2cWriteOp, h, hack, hdata, writeAnswer, response, Status.code, I2cCause.code]

theorem i2cReadOp_of_notIdle (h : (start s).1 = false) :
    i2cReadOp a n s = (⟨0x01, 3, 0, 0⟩, (start s).2.setRxlen 0) := by
  simp [i2cReadOp, h, response, Status.code, I2cCause.code]

theorem i2cReadOp_of_nacked (h : (start s).1 = true)
    (hack : (writeByte (addressByte a .read) (start s).2).1 = false) :
    i2cReadOp a n s = (⟨0x01, 1, 0, 0⟩, (stop (writeByte (addressByte a .read) (start s).2).2).setRxlen 0) := by
  simp [i2cReadOp, h, hack, response, Status.code, I2cCause.code]

theorem i2cReadOp_of_acked (h : (start s).1 = true)
    (hack : (writeByte (addressByte a .read) (start s).2).1 = true) :
    i2cReadOp a n s = (⟨0x00, 0, 0, n.zeroExtend 16⟩,
      (stop (readData n.toNat 0 (writeByte (addressByte a .read) (start s).2).2)).setRxlen n) := by
  simp [i2cReadOp, h, hack, response, Status.code, I2cCause.code]

end

/-! ## The ends every addressed operation shares -/

section

variable {s : State} {d c : Level} {v : Byte} {l rest : List Level} (hp : s.pins = s.pins.idleFrom)
  (hl : s.env.lineAnswers = d :: c :: l)

include hp hl

/-- A bus that is not idle: nothing goes on the wire (R135, R140). -/
theorem start_notIdle_outcome (hdc : (d && c) = false) (rsp : Rsp) :
    (start s).1 = false ∧ BusOutcome s (rsp, (start s).2) rsp [] l s.cfg.i2c.settle := by
  rw [start_notIdle hl hdc]
  exact ⟨rfl, .of_wire (idleCheck_wire s hp) (idleCheck_answers hl).2⟩

/-- An address that is not acknowledged: STOP at once (R140). -/
theorem address_nacked_outcome (hdc : (d && c) = true) (h : afterNacked v l = some rest) (rsp : Rsp) :
    (start s).1 = true ∧ (writeByte v (start s).2).1 = false ∧
      BusOutcome s (rsp, stop (writeByte v (start s).2).2) rsp (.start :: sentFrame v ++ stopSymbols) rest
        (I2cConfig.transaction s.cfg.i2c 9) := by
  obtain ⟨rfl, rfl⟩ := Bool.and_eq_true_iff.1 hdc
  obtain ⟨hstart, hnack, hrest, hscl, hwire⟩ := address_nacked hp hl h
  exact ⟨hstart, hnack, .of_wire (hwire.transaction hscl) (by rw [stop_answers, hrest])⟩

end

/-! ## I2C_PROBE (R143) -/

section

variable {s : State} {a : BitVec 7} {d c : Level} {l rest : List Level} (hp : s.pins = s.pins.idleFrom)
  (hl : s.env.lineAnswers = d :: c :: l)

include hp hl

theorem i2cProbeOp_notIdle (hdc : (d && c) = false) :
    BusOutcome s (i2cProbeOp a s) ⟨0x00, 3, 0, 0⟩ [] l s.cfg.i2c.settle := by
  obtain ⟨hstart, hend⟩ := start_notIdle_outcome hp hl hdc ⟨0x00, 3, 0, 0⟩
  rw [i2cProbeOp_of_notIdle hstart]
  exact hend

theorem i2cProbeOp_nacked (hdc : (d && c) = true) (h : afterNacked (addressByte a .write) l = some rest) :
    BusOutcome s (i2cProbeOp a s) ⟨0x00, 1, 0, 0⟩ (.start :: sentFrame (addressByte a .write) ++ stopSymbols) rest
      (I2cConfig.transaction s.cfg.i2c 9) := by
  obtain ⟨hstart, hnack, hend⟩ := address_nacked_outcome hp hl hdc h ⟨0x00, 1, 0, 0⟩
  rw [i2cProbeOp_of_nacked hstart hnack]
  exact hend

theorem i2cProbeOp_acked (hdc : (d && c) = true) (h : afterAcked [addressByte a .write] l = some rest) :
    BusOutcome s (i2cProbeOp a s) ⟨0x00, 0, 0, 1⟩ (.start :: sentFrame (addressByte a .write) ++ stopSymbols) rest
      (I2cConfig.transaction s.cfg.i2c 9) := by
  obtain ⟨rfl, rfl⟩ := Bool.and_eq_true_iff.1 hdc
  obtain ⟨hstart, hack, hrest, hscl, hwire⟩ := address_acked hp hl h
  rw [i2cProbeOp_of_acked hstart hack]
  exact .of_wire (hwire.transaction hscl) (by rw [stop_answers, hrest])

end

/-! ## I2C_WRITE (R141) -/

section

variable {s : State} {a : BitVec 7} {n : Byte} {d c : Level} {l mid rest : List Level} (hp : s.pins = s.pins.idleFrom)
  (hl : s.env.lineAnswers = d :: c :: l)

include hp hl

theorem i2cWriteOp_notIdle (hdc : (d && c) = false) :
    BusOutcome s (i2cWriteOp a n s) ⟨0x01, 3, 0, 0⟩ [] l s.cfg.i2c.settle := by
  obtain ⟨hstart, hend⟩ := start_notIdle_outcome hp hl hdc ⟨0x01, 3, 0, 0⟩
  rw [i2cWriteOp_of_notIdle hstart]
  exact hend

theorem i2cWriteOp_nacked (hdc : (d && c) = true) (h : afterNacked (addressByte a .write) l = some rest) :
    BusOutcome s (i2cWriteOp a n s) ⟨0x01, 1, 0, 0⟩ (.start :: sentFrame (addressByte a .write) ++ stopSymbols) rest
      (I2cConfig.transaction s.cfg.i2c 9) := by
  obtain ⟨hstart, hnack, hend⟩ := address_nacked_outcome hp hl hdc h ⟨0x01, 1, 0, 0⟩
  rw [i2cWriteOp_of_nacked hstart hnack]
  exact hend

/-- The address is acknowledged and the bytes `sent` go out, all that TXBUF gives or those up to the first that is not
acknowledged: what sending them answers is what the write answers. -/
theorem i2cWriteOp_sent (hdc : (d && c) = true) (h : afterAcked [addressByte a .write] l = some mid)
    {failed : Option Nat} {sent : Bytes}
    (hsend : ∀ u : State, u.pins.scl = .low → u.env.lineAnswers = mid →
      (sendData (s.txBytes n) 0 u).1 = failed ∧ (sendData (s.txBytes n) 0 u).2.env.lineAnswers = rest ∧
        Wire u (sendData (s.txBytes n) 0 u).2 (sent.flatMap sentFrame)
          (9 * sent.length * I2cConfig.pulse u.cfg.i2c)) :
    BusOutcome s (i2cWriteOp a n s) (writeAnswer n failed)
      (.start :: (addressByte a .write :: sent).flatMap sentFrame ++ stopSymbols) rest
      (I2cConfig.transaction s.cfg.i2c (9 * (sent.length + 1))) := by
  obtain ⟨rfl, rfl⟩ := Bool.and_eq_true_iff.1 hdc
  obtain ⟨hstart, hack, hmid, hscl, hwire⟩ := address_acked hp hl h
  obtain ⟨hfailed, hrest, hdata⟩ := hsend _ hscl hmid
  rw [i2cWriteOp_of_acked hstart hack, hfailed]
  refine .of_wire (((hwire.trans hdata).cast (by simp) ?_).transaction (sendData_scl _ _ _ hscl))
    (by rw [stop_answers, hrest])
  rw [hwire.on.cfg_eq]
  ring

theorem i2cWriteOp_allAcked (hdc : (d && c) = true)
    (h : afterAcked (addressByte a .write :: s.txBytes n) l = some rest) :
    BusOutcome s (i2cWriteOp a n s) ⟨0x00, 0, n, 0⟩
      (.start :: (addressByte a .write :: s.txBytes n).flatMap sentFrame ++ stopSymbols) rest
      (I2cConfig.transaction s.cfg.i2c (9 * (n.toNat + 1))) := by
  obtain ⟨mid, haddr, hdata⟩ := afterAcked_cons h
  have hlen : (s.txBytes n).length = n.toNat := Memory.prefixBytes_length s.txbuf n.toNat
  rw [← hlen]
  exact i2cWriteOp_sent hp hl hdc haddr (failed := none)
    fun u hscl hu => sendData_acked (s.txBytes n) 0 u mid rest hscl hu hdata

theorem i2cWriteOp_dataNacked (hdc : (d && c) = true) {k : Nat} (hk : k < n.toNat)
    (h : afterAcked (addressByte a .write :: s.txbuf.prefixBytes k) l = some mid)
    (hnack : afterNacked (s.txbuf.read k) mid = some rest) :
    BusOutcome s (i2cWriteOp a n s) ⟨0x01, 2, BitVec.ofNat 8 k, 0⟩
      (.start :: (addressByte a .write :: s.txbuf.prefixBytes (k + 1)).flatMap sentFrame ++ stopSymbols) rest
      (I2cConfig.transaction s.cfg.i2c (9 * (k + 2))) := by
  obtain ⟨mid', haddr, hdata⟩ := afterAcked_cons h
  obtain ⟨post, hsplit⟩ := s.txbuf.prefixBytes_split hk
  have hsent : s.txbuf.prefixBytes (k + 1) = s.txbuf.prefixBytes k ++ [s.txbuf.read k] := s.txbuf.prefixBytes_succ k
  have hlen : (s.txbuf.prefixBytes (k + 1)).length = k + 1 := Memory.prefixBytes_length _ _
  have hend := i2cWriteOp_sent (n := n) (rest := rest) hp hl hdc haddr (failed := some k)
    (sent := s.txbuf.prefixBytes (k + 1)) fun u hscl hu => by
      have hsend := sendData_nacked (s.txbuf.prefixBytes k) (s.txbuf.read k) post 0 u mid' mid rest hscl hu hdata hnack
      rw [← hsplit, ← hsent, Memory.prefixBytes_length, Nat.zero_add] at hsend
      rwa [hlen]
  rwa [hlen] at hend

end

/-! ## I2C_READ (R142) -/

/-- What HOST reads of a string stored in RXBUF that RXLEN covers. -/
theorem State.hostReadRxbuf_of_writeAll {t : State} {m : Memory} {bs : Bytes} (hwf : m.wf = true)
    (hlen : t.rxlen.toNat = bs.length) (hbuf : t.rxbuf = m.writeAll 0 bs) {k : Nat} (hk : k < bs.length) :
    t.hostReadRxbuf k = bs[k] := by
  unfold State.hostReadRxbuf
  rw [if_pos (hlen ▸ hk), hbuf, Memory.read_writeAll 0 k bs hwf]
  simp [hk]

/-- A read that fails leaves RXLEN 0 and RXBUF unwritten (R142). -/
theorem i2cReadOp_failed {a : BitVec 7} {n : Byte} {s : State} (h : (i2cReadOp a n s).1.status = 0x01) :
    (i2cReadOp a n s).2.rxlen = 0 ∧ (i2cReadOp a n s).2.rxbuf = s.rxbuf := by
  rcases i2cReadOp_outcome a n s with ⟨hok, -⟩ | ⟨-, hlen, hbuf⟩
  · rw [hok] at h
    cases h
  · exact ⟨hlen, hbuf⟩

section

variable {s : State} {a : BitVec 7} {n : Byte} {d c : Level} {l mid rest : List Level} (hp : s.pins = s.pins.idleFrom)
  (hl : s.env.lineAnswers = d :: c :: l)

include hp hl

theorem i2cReadOp_notIdle (hdc : (d && c) = false) :
    BusOutcome s (i2cReadOp a n s) ⟨0x01, 3, 0, 0⟩ [] l s.cfg.i2c.settle := by
  obtain ⟨hstart, hend⟩ := start_notIdle_outcome hp hl hdc ⟨0x01, 3, 0, 0⟩
  rw [i2cReadOp_of_notIdle hstart]
  exact hend.setRxlen 0

theorem i2cReadOp_nacked (hdc : (d && c) = true) (h : afterNacked (addressByte a .read) l = some rest) :
    BusOutcome s (i2cReadOp a n s) ⟨0x01, 1, 0, 0⟩ (.start :: sentFrame (addressByte a .read) ++ stopSymbols) rest
      (I2cConfig.transaction s.cfg.i2c 9) := by
  obtain ⟨hstart, hnack, hend⟩ := address_nacked_outcome hp hl hdc h ⟨0x01, 1, 0, 0⟩
  rw [i2cReadOp_of_nacked hstart hnack]
  exact hend.setRxlen 0

/-- A device that acknowledges its address and sends `n` bytes: they are stored from index 0 on (R63, R142). -/
theorem i2cReadOp_received (hdc : (d && c) = true) (h : afterAcked [addressByte a .read] l = some mid)
    {bs : Bytes} {ack : Level} (hne : bs ≠ []) (hlen : bs.length = n.toNat)
    (hmid : mid = deviceSends bs ack ++ rest) :
    BusOutcome s (i2cReadOp a n s) ⟨0x00, 0, 0, n.zeroExtend 16⟩
      (.start :: sentFrame (addressByte a .read) ++ receivedFrames n.toNat ++ stopSymbols) rest
      (I2cConfig.transaction s.cfg.i2c (9 * (n.toNat + 1))) ∧
    (i2cReadOp a n s).2.rxlen = n ∧ (i2cReadOp a n s).2.rxbuf = s.rxbuf.writeAll 0 bs := by
  obtain ⟨rfl, rfl⟩ := Bool.and_eq_true_iff.1 hdc
  obtain ⟨hstart, hack, hanswers, hscl, hwire⟩ := address_acked hp hl h
  obtain ⟨hstored, hrest⟩ := readData_answers bs ack rest 0 _ hscl hne (hanswers.trans hmid)
  rw [hlen] at hstored hrest
  rw [i2cReadOp_of_acked hstart hack]
  refine ⟨?_, rfl, ?_⟩
  · have hread := (hwire.setRxbuf _).trans (readData_wire n.toNat 0 _ hscl)
    have hstop := (hread.cast rfl ?_).transaction (n9 := 9 * (n.toNat + 1)) (readData_pins n.toNat 0 _ hscl).1
    · exact ((BusOutcome.of_wire hstop (by rw [stop_answers, hrest])).setRxlen n).of_rxbuf
    · rw [hwire.on.cfg_eq]
      ring
  · rw [State.setRxlen_rxbuf, (stop_onWires _).rxbuf_eq, hstored,
      ((start_onWires s).trans (writeByte_onWires _ _)).rxbuf_eq]

end

end Sys2Proof.Machine
open Sys2Proof Sys2Proof.Machine

/-- Settles O20: a probe's three ends, `i2cProbeOp_notIdle`, `i2cProbeOp_acked` and `i2cProbeOp_nacked`. -/
theorem probeOutcome : Obligations.ProbeOutcome := by
  intro s a d c l hb hsda hscl hl
  have hp := Pins.eq_idleFrom hsda hscl
  obtain ⟨evs, hexec, htr, hpins⟩ := exec_i2c_appends (i := .i2cProbe a) rfl rfl hb hp
  exact ⟨_, evs, hexec, htr, hpins,
    fun hdc => (i2cProbeOp_notIdle (s := s.accept) hp hl hdc).answered htr,
    fun hdc _ h => (i2cProbeOp_acked (s := s.accept) hp hl hdc h).answered htr,
    fun hdc _ h => (i2cProbeOp_nacked (s := s.accept) hp hl hdc h).answered htr⟩

/-- Settles O21: a write's four ends; where data go out, by what `sendData` answers. -/
theorem i2cWriteOutcome : Obligations.I2cWriteOutcome := by
  intro s a n d c l hb hsda hscl hl
  have hp := Pins.eq_idleFrom hsda hscl
  obtain ⟨evs, hexec, htr, hpins⟩ := exec_i2c_appends (i := .i2cWrite a n) rfl rfl hb hp
  exact ⟨_, evs, hexec, htr, hpins,
    fun hdc => (i2cWriteOp_notIdle (s := s.accept) hp hl hdc).answered htr,
    fun hdc _ h => (i2cWriteOp_nacked (s := s.accept) hp hl hdc h).answered htr,
    fun hdc _ _ _ hk h hnack => (i2cWriteOp_dataNacked (s := s.accept) hp hl hdc hk h hnack).answered htr,
    fun hdc _ h => (i2cWriteOp_allAcked (s := s.accept) hp hl hdc h).answered htr⟩

/-- Settles O22: a read's three ends; the bytes HOST reads are those stored. -/
theorem i2cReadOutcome : Obligations.I2cReadOutcome := by
  intro s a n d c l hb hsda hscl hl hn hwf
  have hp := Pins.eq_idleFrom hsda hscl
  obtain ⟨evs, hexec, htr, hpins⟩ := exec_i2c_appends (i := .i2cRead a n) rfl (decide_eq_true hn) hb hp
  refine ⟨_, evs, hexec, htr, hpins, fun hdc => ?_, fun hdc rest h => ?_,
    fun hdc bs ack mid rest hlen h hmid => ?_⟩
  · have hend := i2cReadOp_notIdle (s := s.accept) (a := a) (n := n) hp hl hdc
    obtain ⟨hrxlen, hrxbuf⟩ := i2cReadOp_failed (congrArg Rsp.status hend.rsp)
    exact ⟨hend.rsp, hrxlen, hrxbuf, (hend.answered htr).2⟩
  · have hend := i2cReadOp_nacked (s := s.accept) (a := a) (n := n) hp hl hdc h
    obtain ⟨hrxlen, hrxbuf⟩ := i2cReadOp_failed (congrArg Rsp.status hend.rsp)
    exact ⟨hend.rsp, hrxlen, hrxbuf, (hend.answered htr).2⟩
  · have hne : bs ≠ [] := List.ne_nil_of_length_pos (hlen ▸ toNat_pos_of_ne hn)
    obtain ⟨hend, hrxlen, hrxbuf⟩ := i2cReadOp_received (s := s.accept) hp hl hdc h hne hlen hmid
    exact ⟨hend.rsp, hrxlen,
      fun k hk => State.hostReadRxbuf_of_writeAll hwf ((congrArg BitVec.toNat hrxlen).trans hlen.symm) hrxbuf hk,
      fun k hk => i2cReadOp_read_outside a n s.accept hwf hk, (hend.answered htr).2⟩

/-- Settles O18: the sample is the clock pulse's own; the answers by the level SDA is driven to. -/
theorem clockPulseEvents : Obligations.ClockPulseEvents := by
  intro s
  exact ⟨_, rfl, clockPulse_trace s, clockPulse_pins s, clockPulse_low,
    fun _ hsda hl => (clockPulse_released hsda hl).2, fun _ _ hsda hl => (clockPulse_released hsda hl).1⟩

/-- Settles O19: the idle check with the two answers it samples. -/
theorem busIdleExact : Obligations.BusIdleExact := by
  intro s d c rest hb hl
  obtain ⟨hlevels, hrest⟩ := idleCheck_answers (s := s.accept) hl
  have htr := idleCheck_trace s.accept
  rw [hlevels] at htr
  refine ⟨_, exec_accepted hb rfl, ?_, htr, idleCheck_pins s.accept, idleCheck_t s.accept, hrest⟩
  simp only [Instr.body, i2cBusIdleOp, State.respond_rsp, hlevels]
  cases d <;> cases c <;> rfl
end

section
/-! PROOFS. The family 40_i2c_master.md, part 2: what holds of every operation whatever the bus answers: at most one
START and one STOP with clock pulses only between them (R102, R145, R146), and a response that no delay and no time can
change (R147). -/

namespace Sys2Proof.Machine

/-! ## Clock pulses between START and STOP -/

/-- `s'` is `s` after clock pulses alone, one for each of `bits`. -/
def Clocked (s s' : State) (bits : List Bool) : Prop :=
  Wire s s' (bits.map .bit) (bits.length * I2cConfig.pulse s.cfg.i2c)

theorem Clocked.refl (s : State) : Clocked s s [] := (Wire.refl s).cast rfl (by simp)

theorem Clocked.trans {s s' s'' : State} {x y : List Bool} (h : Clocked s s' x) (h' : Clocked s' s'' y) :
    Clocked s s'' (x ++ y) := by
  refine (Wire.trans h h').cast (by simp) ?_
  rw [h.on.cfg_eq, List.length_append, Nat.add_mul]

theorem Clocked.setRxbuf {s s' : State} {bits : List Bool} (h : Clocked s s' bits) (m : Memory) :
    Clocked { s with rxbuf := m } { s' with rxbuf := m } bits := Wire.setRxbuf h m

theorem writeByte_clocked (v : Byte) {s : State} (hp : s.pins.scl = .low) :
    Clocked s (writeByte v s).2 (msbFirst v ++ [true]) := writeByte_wire v s hp

/-- Whatever is acknowledged, sending data is clock pulses alone (R101, R141). -/
theorem sendData_clocked (bs : Bytes) (k : Nat) {s : State} (hp : s.pins.scl = .low) :
    ∃ bits, Clocked s (sendData bs k s).2 bits := by
  induction bs generalizing k s with
  | nil => exact ⟨[], .refl s⟩
  | cons v rest ih =>
    have hbyte := writeByte_clocked v hp
    cases hack : (writeByte v s).1 with
    | true =>
      obtain ⟨bits, hrest⟩ := ih (k + 1) (s := (writeByte v s).2) (by rw [writeByte_pins])
      exact ⟨_, by simpa [sendData, hack] using hbyte.trans hrest⟩
    | false => exact ⟨_, by simpa [sendData, hack] using hbyte⟩

/-- The acknowledgements the block gives on the bus are clock pulses too (R138). -/
theorem receivedFrames_eq_map (n : Nat) :
    ∃ bits : List Bool, bits.length = 9 * n ∧ receivedFrames n = bits.map .bit := by
  induction n with
  | zero => exact ⟨[], rfl, rfl⟩
  | succ n ih =>
    obtain ⟨bits, hlen, hbits⟩ := ih
    refine ⟨List.replicate 8 true ++ [n == 0] ++ bits, ?_, ?_⟩
    · simp [hlen]
      omega
    · rw [receivedFrames, hbits, receivedFrame, ← List.map_append]

theorem readData_clocked (n k : Nat) {s : State} (hp : s.pins.scl = .low) :
    ∃ bits, Clocked { s with rxbuf := (readData n k s).rxbuf } (readData n k s) bits := by
  obtain ⟨bits, hlen, hbits⟩ := receivedFrames_eq_map n
  exact ⟨bits, (readData_wire n k s hp).cast hbits (by rw [hlen])⟩

/-! ## The whole operation -/

/-- `s'` is `s` after START and clock pulses alone, one for each of `bits`. -/
def Started (s s' : State) (bits : List Bool) : Prop :=
  Wire s s' (.start :: bits.map .bit)
    (s.cfg.i2c.settle + (s.cfg.i2c.sta + s.cfg.i2c.lo) + bits.length * I2cConfig.pulse s.cfg.i2c)

theorem Started.trans {s s' s'' : State} {x y : List Bool} (h : Started s s' x) (h' : Clocked s' s'' y) :
    Started s s'' (x ++ y) := by
  refine (Wire.trans h h').cast (by simp) ?_
  rw [h.on.cfg_eq, List.length_append, Nat.add_mul, Nat.add_assoc]

theorem Started.setRxbuf {s s' : State} {bits : List Bool} (h : Started s s' bits) (m : Memory) :
    Started { s with rxbuf := m } { s' with rxbuf := m } bits := Wire.setRxbuf h m

/-- What an operation that ends in `r` put on the bus (R145, R146): nothing, or one START, clock pulses and one STOP, in
R147's time. -/
def Disciplined (s : State) (r : Rsp × State) : Prop :=
  (∃ dt, BusOutcome s r r.1 [] r.2.env.lineAnswers dt) ∨
  ∃ bits : List Bool, BusOutcome s r r.1 (.start :: (bits.map .bit ++ stopSymbols)) r.2.env.lineAnswers
    (I2cConfig.transaction s.cfg.i2c bits.length)

theorem Disciplined.setRxlen {s s' : State} {rsp : Rsp} (h : Disciplined s (rsp, s')) (n : Byte) :
    Disciplined s (rsp, s'.setRxlen n) := by
  rcases h with ⟨dt, h⟩ | ⟨bits, h⟩
  · exact .inl ⟨dt, h.setRxlen n⟩
  · exact .inr ⟨bits, h.setRxlen n⟩

theorem Disciplined.of_rxbuf {s : State} {m : Memory} {r : Rsp × State} (h : Disciplined { s with rxbuf := m } r) :
    Disciplined s r := by
  rcases h with ⟨dt, h⟩ | ⟨bits, h⟩
  · exact .inl ⟨dt, h.of_rxbuf⟩
  · exact .inr ⟨bits, h.of_rxbuf⟩

theorem start_notIdle_disciplined {s : State} (hp : s.pins = s.pins.idleFrom) (h : (start s).1 = false) (rsp : Rsp) :
    Disciplined s (rsp, (start s).2) := by
  rcases start_cases s with hs | hs
  · rw [hs]
    exact .inl ⟨_, .of_wire (idleCheck_wire s hp) rfl⟩
  · rw [hs] at h
    cases h

/-- START and a first byte, acknowledged or not. -/
theorem address_started (v : Byte) {s : State} (hp : s.pins = s.pins.idleFrom) (h : (start s).1 = true) :
    Started s (writeByte v (start s).2).2 (msbFirst v ++ [true]) := by
  obtain ⟨hpins, hwire⟩ := start_true_wire hp h
  have hbyte := writeByte_clocked v (s := (start s).2) (by rw [hpins])
  exact (hwire.trans hbyte).cast rfl (by rw [hwire.on.cfg_eq])

/-- START, clock pulses, STOP. -/
theorem Started.disciplined {s s' : State} {bits : List Bool} (h : Started s s' bits) (hscl : s'.pins.scl = .low)
    (rsp : Rsp) : Disciplined s (rsp, stop s') := .inr ⟨bits, .of_wire (Wire.transaction h hscl) rfl⟩

theorem i2cProbeOp_disciplined (a : BitVec 7) {s : State} (hp : s.pins = s.pins.idleFrom) :
    Disciplined s (i2cProbeOp a s) := by
  cases hstart : (start s).1 with
  | false =>
    rw [i2cProbeOp_of_notIdle hstart]
    exact start_notIdle_disciplined hp hstart _
  | true =>
    have haddr := address_started (addressByte a .write) hp hstart
    have hscl := congrArg Pins.scl (writeByte_pins (addressByte a .write) (start s).2)
    cases hack : (writeByte (addressByte a .write) (start s).2).1 with
    | false =>
      rw [i2cProbeOp_of_nacked hstart hack]
      exact haddr.disciplined hscl _
    | true =>
      rw [i2cProbeOp_of_acked hstart hack]
      exact haddr.disciplined hscl _

theorem i2cWriteOp_disciplined (a : BitVec 7) (n : Byte) {s : State} (hp : s.pins = s.pins.idleFrom) :
    Disciplined s (i2cWriteOp a n s) := by
  cases hstart : (start s).1 with
  | false =>
    rw [i2cWriteOp_of_notIdle hstart]
    exact start_notIdle_disciplined hp hstart _
  | true =>
    have haddr := address_started (addressByte a .write) hp hstart
    have hscl := congrArg Pins.scl (writeByte_pins (addressByte a .write) (start s).2)
    cases hack : (writeByte (addressByte a .write) (start s).2).1 with
    | false =>
      rw [i2cWriteOp_of_nacked hstart hack]
      exact haddr.disciplined hscl _
    | true =>
      obtain ⟨bits, hdata⟩ := sendData_clocked (s.txBytes n) 0 hscl
      rw [i2cWriteOp_of_acked hstart hack]
      exact (haddr.trans hdata).disciplined (sendData_scl _ _ _ hscl) _

theorem i2cReadOp_disciplined (a : BitVec 7) (n : Byte) {s : State} (hp : s.pins = s.pins.idleFrom) :
    Disciplined s (i2cReadOp a n s) := by
  cases hstart : (start s).1 with
  | false =>
    rw [i2cReadOp_of_notIdle hstart]
    exact (start_notIdle_disciplined hp hstart _).setRxlen 0
  | true =>
    have haddr := address_started (addressByte a .read) hp hstart
    have hscl := congrArg Pins.scl (writeByte_pins (addressByte a .read) (start s).2)
    cases hack : (writeByte (addressByte a .read) (start s).2).1 with
    | false =>
      rw [i2cReadOp_of_nacked hstart hack]
      exact (haddr.disciplined hscl _).setRxlen 0
    | true =>
      obtain ⟨bits, hdata⟩ := readData_clocked n.toNat 0 hscl
      have hread := (haddr.setRxbuf _).trans hdata
      rw [i2cReadOp_of_acked hstart hack]
      exact ((hread.disciplined (readData_pins n.toNat 0 _ hscl).1 _).setRxlen n).of_rxbuf

theorem i2cBody_disciplined {i : Instr} (hi : subBlock i = .i2c) {s : State} (hp : s.pins = s.pins.idleFrom) :
    Disciplined s (Instr.body i s) := by
  rcases instr_of_i2c hi with ⟨a, n, rfl⟩ | ⟨a, n, rfl⟩ | ⟨a, rfl⟩ | rfl
  · exact i2cWriteOp_disciplined a n hp
  · exact i2cReadOp_disciplined a n hp
  · exact i2cProbeOp_disciplined a hp
  · exact .inl ⟨_, .of_wire (idleCheck_wire s hp) rfl⟩

end Sys2Proof.Machine
open Sys2Proof Sys2Proof.Machine

/-- Settles O24: `i2cBody_disciplined`, operation by operation. -/
theorem i2cWireDiscipline : Obligations.I2cWireDiscipline := by
  intro i s hi hwf hb hsda hscl
  have hp := Pins.eq_idleFrom hsda hscl
  obtain ⟨evs, hexec, htr, -⟩ := exec_i2c_appends hi hwf hb hp
  refine ⟨_, evs, hexec, htr, ?_⟩
  rcases i2cBody_disciplined hi (s := s.accept) hp with ⟨dt, hend⟩ | ⟨bits, hend⟩
  · exact .inl (hend.answered htr).2.1
  · obtain ⟨-, hsyms, -, htime⟩ := hend.answered htr
    exact .inr ⟨_, bits, rfl, hsyms, htime⟩
end

section
/-! PROOFS. The family 40_i2c_master.md, part 3: a response and the bytes read are functions of the operands, TXBUF and
the bus's answers (R147). Two states that agree on these are `SameBus` once SDA is released, and an operation first
releases SDA. -/

namespace Sys2Proof.Machine

/-! ## Every operation first releases SDA -/

/-- `s` with SDA released, whatever it was driven to. -/
def State.releaseSda (s : State) : State := { s with pins := { s.pins with sda := .released } }

theorem idleCheck_releaseSda (s : State) : idleCheck s.releaseSda = idleCheck s := rfl

theorem start_releaseSda (s : State) : start s.releaseSda = start s := by
  unfold start
  rw [idleCheck_releaseSda]
  rfl

theorem i2cReadOp_releaseSda (a : BitVec 7) (n : Byte) (s : State) : i2cReadOp a n s.releaseSda = i2cReadOp a n s := by
  simp only [i2cReadOp, start_releaseSda]

/-- What SDA was driven to before an operation is nothing to it (R132). -/
theorem i2cBody_releaseSda {i : Instr} (hi : subBlock i = .i2c) (s : State) :
    Instr.body i s.releaseSda = Instr.body i s := by
  rcases instr_of_i2c hi with ⟨a, n, rfl⟩ | ⟨a, n, rfl⟩ | ⟨a, rfl⟩ | rfl
  · simp only [Instr.body, i2cWriteOp, start_releaseSda]
    rfl
  · exact i2cReadOp_releaseSda a n s
  · simp only [Instr.body, i2cProbeOp, start_releaseSda]
  · rfl

/-! ## Reading on the same bus -/

section

variable {s s' : State} (h : SameBus s s')

include h

theorem SameBus.setRxbuf (m m' : Memory) : SameBus { s with rxbuf := m } { s' with rxbuf := m' } :=
  ⟨h.sda, h.answers, h.draws, h.txbuf⟩

theorem SameBus.txBytes (n : Byte) : s.txBytes n = s'.txBytes n := by
  unfold State.txBytes
  rw [h.txbuf]

theorem SameBus.readBits (k : Nat) :
    (Machine.readBits k s).1 = (Machine.readBits k s').1 ∧
      SameBus (Machine.readBits k s).2 (Machine.readBits k s').2 := by
  induction k generalizing s s' with
  | zero => exact ⟨rfl, h⟩
  | succ k ih =>
    obtain ⟨hbit, hpulse⟩ := h.clockPulse
    obtain ⟨hbits, hrest⟩ := ih hpulse
    exact ⟨congrArg₂ List.cons hbit hbits, hrest⟩

theorem SameBus.readByte (last : Bool) :
    (Machine.readByte last s).1 = (Machine.readByte last s').1 ∧
      SameBus (Machine.readByte last s).2 (Machine.readByte last s').2 := by
  obtain ⟨hbits, hread⟩ := (h.emit .sdaRel).readBits 8
  exact ⟨congrArg bitsToByte hbits, ((hread.emit _).clockPulse.2).emit .sdaRel⟩

end

/-- The bytes read are the same at every index read. -/
theorem SameBus.readData {n k : Nat} {s s' : State} (h : SameBus s s') (hwf : s.rxbuf.wf = true)
    (hwf' : s'.rxbuf.wf = true) {j : Nat} (hj : k ≤ j ∧ j < k + n) :
    (Machine.readData n k s).rxbuf.read j = (Machine.readData n k s').rxbuf.read j := by
  induction n generalizing k s s' with
  | zero => omega
  | succ n ih =>
    obtain ⟨hbyte, hread⟩ := h.readByte (n == 0)
    have hmem : (Machine.readByte (n == 0) s).2.rxbuf.wf = true := by rw [(readByte_onWires _ s).rxbuf_eq]; exact hwf
    have hmem' : (Machine.readByte (n == 0) s').2.rxbuf.wf = true := by
      rw [(readByte_onWires _ s').rxbuf_eq]; exact hwf'
    have hstored := Memory.write_wf k (Machine.readByte (n == 0) s).1 hmem
    have hstored' := Memory.write_wf k (Machine.readByte (n == 0) s').1 hmem'
    simp only [Machine.readData]
    by_cases hjk : j = k
    · subst hjk
      rw [readData_read_outside n (j + 1) j _ hstored (by omega),
        readData_read_outside n (j + 1) j _ hstored' (by omega)]
      simp only [Memory.read_write_same, hmem, hmem', hbyte]
    · exact ih (hread.setRxbuf _ _) hstored hstored' (by omega)

/-! ## Responses on the same bus -/

section

variable {s s' : State} (h : SameBus s s')

include h

theorem SameBus.i2cProbeOp (a : BitVec 7) : (i2cProbeOp a s).1 = (Machine.i2cProbeOp a s').1 := by
  obtain ⟨hstart, hbus⟩ := h.start
  obtain ⟨hack, -⟩ := hbus.writeByte (addressByte a .write)
  cases hst : (Machine.start s).1 with
  | false => rw [i2cProbeOp_of_notIdle hst, i2cProbeOp_of_notIdle (hstart ▸ hst)]
  | true =>
    cases hsa : (Machine.writeByte (addressByte a .write) (Machine.start s).2).1 with
    | false => rw [i2cProbeOp_of_nacked hst hsa, i2cProbeOp_of_nacked (hstart ▸ hst) (hack ▸ hsa)]
    | true => rw [i2cProbeOp_of_acked hst hsa, i2cProbeOp_of_acked (hstart ▸ hst) (hack ▸ hsa)]

theorem SameBus.i2cWriteOp (a : BitVec 7) (n : Byte) : (i2cWriteOp a n s).1 = (Machine.i2cWriteOp a n s').1 := by
  obtain ⟨hstart, hbus⟩ := h.start
  obtain ⟨hack, hsent⟩ := hbus.writeByte (addressByte a .write)
  cases hst : (Machine.start s).1 with
  | false => rw [i2cWriteOp_of_notIdle hst, i2cWriteOp_of_notIdle (hstart ▸ hst)]
  | true =>
    cases hsa : (Machine.writeByte (addressByte a .write) (Machine.start s).2).1 with
    | false => rw [i2cWriteOp_of_nacked hst hsa, i2cWriteOp_of_nacked (hstart ▸ hst) (hack ▸ hsa)]
    | true =>
      rw [i2cWriteOp_of_acked hst hsa, i2cWriteOp_of_acked (hstart ▸ hst) (hack ▸ hsa), ← h.txBytes n]
      exact congrArg (writeAnswer n) (hsent.sendData (s.txBytes n) 0).1

/-- Two reads on the same bus answer alike, and where they succeed they store the same bytes. -/
theorem SameBus.i2cReadOp (a : BitVec 7) (n : Byte) :
    (i2cReadOp a n s).1 = (Machine.i2cReadOp a n s').1 ∧
      (s.rxbuf.wf = true → s'.rxbuf.wf = true → (Machine.i2cReadOp a n s).1.status = 0x00 → ∀ k, k < n.toNat →
        (Machine.i2cReadOp a n s).2.rxbuf.read k = (Machine.i2cReadOp a n s').2.rxbuf.read k) := by
  obtain ⟨hstart, hbus⟩ := h.start
  obtain ⟨hack, hsent⟩ := hbus.writeByte (addressByte a .read)
  cases hst : (Machine.start s).1 with
  | false =>
    rw [i2cReadOp_of_notIdle hst, i2cReadOp_of_notIdle (hstart ▸ hst)]
    exact ⟨rfl, fun _ _ hok => by cases hok⟩
  | true =>
    cases hsa : (Machine.writeByte (addressByte a .read) (Machine.start s).2).1 with
    | false =>
      rw [i2cReadOp_of_nacked hst hsa, i2cReadOp_of_nacked (hstart ▸ hst) (hack ▸ hsa)]
      exact ⟨rfl, fun _ _ hok => by cases hok⟩
    | true =>
      rw [i2cReadOp_of_acked hst hsa, i2cReadOp_of_acked (hstart ▸ hst) (hack ▸ hsa)]
      refine ⟨rfl, fun hwf hwf' _ k hk => ?_⟩
      rw [State.setRxlen_rxbuf, State.setRxlen_rxbuf, (stop_onWires _).rxbuf_eq, (stop_onWires _).rxbuf_eq]
      have hframe := (start_onWires s).trans (writeByte_onWires (addressByte a .read) _)
      have hframe' := (start_onWires s').trans (writeByte_onWires (addressByte a .read) _)
      exact hsent.readData (by rw [hframe.rxbuf_eq]; exact hwf) (by rw [hframe'.rxbuf_eq]; exact hwf') (by omega)

theorem SameBus.i2cBody {i : Instr} (hi : subBlock i = .i2c) : (Instr.body i s).1 = (Instr.body i s').1 := by
  rcases instr_of_i2c hi with ⟨a, n, rfl⟩ | ⟨a, n, rfl⟩ | ⟨a, rfl⟩ | rfl
  · exact h.i2cWriteOp a n
  · exact (h.i2cReadOp a n).1
  · exact h.i2cProbeOp a
  · simp only [Instr.body, i2cBusIdleOp, h.idleCheck.1]

end

/-- The checks by value of an I2C operation do not read the configuration (R97). -/
theorem i2c_wf_eq {i : Instr} (hi : subBlock i = .i2c) (c c' : Config) : i.wf c = i.wf c' := by
  rcases instr_of_i2c hi with ⟨a, n, rfl⟩ | ⟨a, n, rfl⟩ | ⟨a, rfl⟩ | rfl <;> rfl

end Sys2Proof.Machine
open Sys2Proof Sys2Proof.Machine

/-- Settles O25: the two accepted states with SDA released are `SameBus`, from which the response follows for every
operation and the bytes for a read. -/
theorem i2cResponseIgnoresTime : Obligations.I2cResponseIgnoresTime := by
  intro i s s' hi hb hb' htx hl hd
  have hbus : SameBus s.accept.releaseSda s'.accept.releaseSda := ⟨rfl, hl, hd, htx⟩
  cases hwf : i.wf s.cfg with
  | false =>
    refine ⟨_, _, exec_refused (.inr hwf), exec_refused (.inr (i2c_wf_eq hi s.cfg s'.cfg ▸ hwf)), rfl, ?_⟩
    rintro a n rfl - - - hok
    cases hok
  | true =>
    refine ⟨_, _, exec_accepted hb hwf, exec_accepted hb' (i2c_wf_eq hi s.cfg s'.cfg ▸ hwf), ?_, ?_⟩
    · have hrsp := hbus.i2cBody hi
      rwa [i2cBody_releaseSda hi, i2cBody_releaseSda hi] at hrsp
    · rintro a n rfl - hrx hrx' hok k hk
      have hread := (hbus.i2cReadOp a n).2 hrx hrx'
      rw [i2cReadOp_releaseSda, i2cReadOp_releaseSda] at hread
      exact hread hok k hk
end

section
/-! PROOFS. The family 41_pulse_decoder.md, part 1: the four outcomes of a phase measurement (R174), the rate limiter
(R171) and the longest run of DHT_READ_FRAME (R185). -/

namespace Sys2Proof.Machine

/-! ## The rate limiter -/

/-- Called too soon, the operation does nothing (R171). -/
theorem dhtReadFrameOp_tooSoon {s : State} (tmo : Nat) (h : s.tooSoon = true) :
    dhtReadFrameOp tmo s = (response .deviceBusy 0 0 0, s) := by
  rw [dhtReadFrameOp, State.rateLimited_eq, if_pos h]

/-- Within the spacing after the last successful read it is too soon (R171). -/
theorem State.tooSoon_of_recentRead {s : State} {m : Nat} (hread : s.dht = ⟨true, m⟩)
    (hspacing : s.t / 1000 < m + s.cfg.dht.spacingMs) : s.tooSoon = true := by
  rw [← State.rateLimited_eq]
  simp [State.rateLimited, State.nowMs, hread, hspacing]

/-- A read that answers OK takes the time of its end as that of the last successful read (R178, R182). -/
theorem exec_dht_ok_dht {s t : State} {tmo : Half} (hb : s.busy = false) (h : exec (.dhtReadFrame tmo) s = .next t)
    (hok : t.rsp.status = 0x00) : t.dht = ⟨true, t.t / 1000⟩ := by
  obtain ⟨t', ht', houtcome⟩ := dhtOutcomeAndReading s tmo hb
  obtain rfl : t = t' := by
    rw [h] at ht'
    cases ht'
    rfl
  rcases houtcome with ⟨-, -, -, -, hdht⟩ | ⟨-, -, -, ⟨hst, -⟩ | ⟨hst, -⟩⟩
  · exact hdht
  all_goals
    rw [hok] at hst
    exact absurd hst (by decide)

/-! ## The longest run -/

/-- Validating a frame takes no time, moves no pin and emits nothing (R181, R182). -/
theorem finishFrame_frame (bits : List Level) (s : State) :
    (finishFrame bits s).2.t = s.t ∧ (finishFrame bits s).2.pins = s.pins ∧
      (finishFrame bits s).2.trace = s.trace := by
  unfold finishFrame
  split <;> exact ⟨rfl, rfl, rfl⟩

/-- Two timeouts for each of the 82 phases, after the lead (R185). -/
theorem dhtReadFrameOp_bounded (tmo : Nat) (s : State) :
    (dhtReadFrameOp tmo s).2.t ≤ s.t + s.lead + 82 * 2 * tmo := by
  obtain ⟨-, hhealth, -⟩ := lineHealth_spec s
  have hlead : (startSignal (lineHealth s).2).t = s.t + s.lead := s.measuring_spec.1
  have hle : s.cfg.dht.healthUs ≤ s.lead := by simp only [State.lead]; omega
  obtain ⟨-, -, -, hlow⟩ := measurePhase_frame false tmo s.cfg.dht.minRespUs (startSignal (lineHealth s).2)
  obtain ⟨-, -, -, hhigh⟩ := measurePhase_frame true tmo s.cfg.dht.minRespUs
    (measurePhase false tmo s.cfg.dht.minRespUs (startSignal (lineHealth s).2)).2
  obtain ⟨-, hpayload⟩ := readPayload_frame tmo 40 0 [] (measurePhase true tmo s.cfg.dht.minRespUs
    (measurePhase false tmo s.cfg.dht.minRespUs (startSignal (lineHealth s).2)).2).2
  unfold dhtReadFrameOp
  simp only
  split
  · simp only; omega
  split
  · simp only; omega
  split
  · simp only; omega
  split
  · simp only; omega
  split
  · simp only; omega
  · rw [(finishFrame_frame _ _).1]; omega

end Sys2Proof.Machine
open Sys2Proof Sys2Proof.Machine

/-- Settles O28: `measurePhase_absent`, `measurePhase_stuck` and `measurePhase_found`, for each way the level can come
and go. -/
theorem phaseMeasurement : Obligations.PhaseMeasurement := by
  intro s level tmo minDur hinput w m
  obtain ⟨hpins, -, htrace, -⟩ := measurePhase_frame level tmo minDur s
  refine ⟨htrace, hpins, measurePhase_absent hinput, fun ta hle hlt hta hbefore => ⟨fun hstays => ?_, ?_⟩⟩
  · have hheld : ∀ u, ta ≤ u → u ≤ ta + tmo → w u = level := fun u hu hu' =>
      hu.eq_or_lt.elim (fun heq => heq ▸ hta) (fun hgt => hstays u hgt hu')
    exact measurePhase_stuck hinput hle hlt hbefore hheld
  · intro tb hgt htb hend hstays
    have hheld : ∀ u, ta ≤ u → u < tb → w u = level := fun u hu hu' =>
      hu.eq_or_lt.elim (fun heq => heq ▸ hta) (fun hgt => hstays u hgt hu')
    obtain ⟨hout, ht⟩ := measurePhase_found (minDur := minDur) hinput hle hlt hgt htb hbefore hheld hend
    exact ⟨ht, fun hshort => hout.trans (if_pos hshort), fun hlong => hout.trans (if_neg (by omega))⟩

/-- Settles O26: the accepted operation leaves the state as it is, so what is left is accepting and answering. -/
theorem dhtTooSoonBusy : Obligations.DhtTooSoonBusy := by
  intro s tmo hb hsoon
  have hop : Instr.body (.dhtReadFrame tmo) s.accept = (response .deviceBusy 0 0 0, s.accept) :=
    dhtReadFrameOp_tooSoon tmo.toNat hsoon
  rw [exec_accepted hb rfl, hop, State.accept_respond hb]
  rfl

/-- Settles O33: the first read left its time in the rate limiter, so the second comes too soon. -/
theorem dhtSecondReadBusy : Obligations.DhtSecondReadBusy := by
  intro s t u tmo tmo' hb ht hok hbu _ hdht hspacing
  have hread := hdht.trans (exec_dht_ok_dht hb ht hok)
  exact dhtTooSoonBusy u tmo' hbu (State.tooSoon_of_recentRead hread hspacing)

/-- Settles O34: `dhtReadFrameOp_bounded` for an accepted command; a refused one takes no time. -/
theorem dhtBounded : Obligations.DhtBounded := by
  intro s t tmo h
  obtain rfl | ⟨-, -, rfl⟩ := exec_next h
  · rw [State.refuse_t]
    omega
  · have hbound : (dhtReadFrameOp tmo.toNat s.accept).2.t ≤ s.t + s.lead + 82 * 2 * tmo.toNat :=
      dhtReadFrameOp_bounded tmo.toNat s.accept
    simp only [State.lead] at hbound
    simp only [State.respond_t, Instr.body]
    omega
end

section
/-! PROOFS. The family 41_pulse_decoder.md, part 2: a read against a waveform given by its phases, up to the payload: a
sensor that does not respond, or badly (R175, R176). -/

namespace Sys2Proof.Machine

/-! ## Phases that fail -/

@[simp] theorem PhaseOutcome.heldDur?_held (d : Nat) : (PhaseOutcome.held d).heldDur? = some d := rfl

/-- A phase that is too short or longer than the timeout, from its beginning. -/
theorem Sees.held_fails {s : State} {b : Level} {d e tmo minDur : Nat} {ds : List Nat} {later : List (Nat × Level)}
    (h : Sees s b (d :: e :: ds) later) (htmo : 1 ≤ tmo) (hd : 1 ≤ d) (he : 1 ≤ e) (hbad : d < minDur ∨ tmo < d) :
    (measurePhase b tmo minDur s).1.heldDur? = none := by
  rcases Nat.lt_or_ge tmo d with hlong | hle
  · rw [h.tooLong htmo hlong]
    rfl
  · have hshort : d < minDur := by omega
    rw [(h.held hd hle he).1, if_pos hshort]
    rfl

/-- A phase that is too short or longer than the timeout, awaited from the phase before it. -/
theorem Sees.awaited_fails {s : State} {b : Level} {w d e tmo minDur : Nat} {ds : List Nat}
    {later : List (Nat × Level)} (h : Sees s (!b) (w :: d :: e :: ds) later) (hw : w < tmo) (hd : 1 ≤ d) (he : 1 ≤ e)
    (hbad : d < minDur ∨ tmo < d) : (measurePhase b tmo minDur s).1.heldDur? = none := by
  rcases Nat.lt_or_ge tmo d with hlong | hle
  · have hwait : ∀ u, s.t ≤ u → u < s.t + w → waveLevel s.env.wave u ≠ b := fun u hu hu' => by
      rw [h.wave u hu, waveLevel_phaseWave, if_pos hu']
      exact Bool.not_ne_self b
    have hhold : ∀ u, s.t + w ≤ u → u ≤ s.t + w + tmo → waveLevel s.env.wave u = b := fun u hu hu' => by
      rw [h.wave u (by omega), waveLevel_phaseWave, if_neg (by omega), waveLevel_phaseWave, if_pos (by omega),
        Bool.not_not]
    rw [(measurePhase_stuck h.input (by omega) (by omega) hwait hhold).1]
    rfl
  · have hshort : d < minDur := by omega
    rw [(h.awaited hw hd hle he).1, if_pos hshort]
    rfl

/-! ## The response handshake -/

/-- The response low phase fails: step 1 (R176). -/
theorem dhtReadFrameOp_respLow_fails {s : State} {tmo : Nat} (hsoon : s.tooSoon = false)
    (hhealthy : (lineHealth s).1 = true)
    (hlow : (measurePhase false tmo s.cfg.dht.minRespUs s.measuring).1.heldDur? = none) :
    dhtReadFrameOp tmo s =
      (response .protocolTimeout 1 0 0, (measurePhase false tmo s.cfg.dht.minRespUs s.measuring).2) := by
  rw [State.measuring] at hlow ⊢
  simp only [dhtReadFrameOp, State.rateLimited_eq, hsoon, hhealthy, hlow]
  rfl

/-- The response low phase is good and the high phase fails: step 2 (R176). -/
theorem dhtReadFrameOp_respHigh_fails {s s' : State} {tmo rl : Nat} (hsoon : s.tooSoon = false)
    (hhealthy : (lineHealth s).1 = true)
    (hlow : measurePhase false tmo s.cfg.dht.minRespUs s.measuring = (.held rl, s'))
    (hhigh : (measurePhase true tmo s.cfg.dht.minRespUs s').1.heldDur? = none) :
    dhtReadFrameOp tmo s = (response .protocolTimeout 2 0 0, (measurePhase true tmo s.cfg.dht.minRespUs s').2) := by
  rw [State.measuring] at hlow
  simp only [dhtReadFrameOp, State.rateLimited_eq, hsoon, hhealthy, hlow, PhaseOutcome.heldDur?_held, hhigh]
  rfl

/-- A line that stays high for the timeout: step 1, with its events and its time (R174, R175). -/
theorem dhtReadFrameOp_silent {s : State} {tmo : Nat} (hsoon : s.tooSoon = false) (hhealthy : (lineHealth s).1 = true)
    (hstays : ∀ u, s.t + s.lead ≤ u → u < s.t + s.lead + tmo → waveLevel s.env.wave u = true) :
    ∃ s', dhtReadFrameOp tmo s = (response .protocolTimeout 1 0 0, s') ∧ OnWires s s' ∧ s'.t = s.t + s.lead + tmo ∧
      s'.trace = s.trace ++
        [.dlInput, .delay s.cfg.dht.healthUs .us, .sampleDl true, .dlLow, .delay s.cfg.dht.startLowUs .us, .dlInput,
          .delay s.cfg.dht.releaseUs .us, .dlPhase false .waitTimedOut] := by
  obtain ⟨ht, hwave, -, hpins, htrace, hon⟩ := s.measuring_spec
  have habsent : ∀ u, s.measuring.t ≤ u → u < s.measuring.t + tmo → waveLevel s.measuring.env.wave u ≠ false := by
    rw [ht, hwave]
    exact fun u hu hu' => ne_false_of_eq_true (hstays u hu hu')
  obtain ⟨hout, hend⟩ := measurePhase_absent (minDur := s.cfg.dht.minRespUs) (by rw [hpins]) habsent
  obtain ⟨-, -, htrace', -⟩ := measurePhase_frame false tmo s.cfg.dht.minRespUs s.measuring
  refine ⟨_, dhtReadFrameOp_respLow_fails hsoon hhealthy (congrArg PhaseOutcome.heldDur? hout),
    hon.trans (measurePhase_onWires _ _ _ _), by rw [hend, ht], ?_⟩
  rw [htrace', htrace, hhealthy, hout, List.append_assoc]
  rfl

/-- A response whose low phase fails gives step 1; one whose low phase is good and whose high phase fails, step 2
(R175, R176). -/
theorem dhtReadFrameOp_badResponse {s : State} {tmo w rl rh tail : Nat} {later : List (Nat × Level)}
    (hsoon : s.tooSoon = false) (hhealthy : (lineHealth s).1 = true)
    (h : Sees s.measuring true [w, rl, rh, tail] later) (hans : w < tmo) (hrl : 1 ≤ rl) (hrh : 1 ≤ rh)
    (htail : 1 ≤ tail) (hbad : rl < s.cfg.dht.minRespUs ∨ tmo < rl ∨ rh < s.cfg.dht.minRespUs ∨ tmo < rh) :
    ∃ aux s', dhtReadFrameOp tmo s = (response .protocolTimeout aux 0 0, s') ∧ OnWires s s' ∧
      (rl < s.cfg.dht.minRespUs ∨ tmo < rl → aux = 1) ∧ (s.cfg.dht.minRespUs ≤ rl → rl ≤ tmo → aux = 2) := by
  obtain ⟨-, -, -, -, -, hon⟩ := s.measuring_spec
  have honLow := hon.trans (measurePhase_onWires false tmo s.cfg.dht.minRespUs s.measuring)
  by_cases hlowBad : rl < s.cfg.dht.minRespUs ∨ tmo < rl
  · exact ⟨1, _, dhtReadFrameOp_respLow_fails hsoon hhealthy (h.awaited_fails hans hrl hrh hlowBad), honLow,
      fun _ => rfl, by omega⟩
  · obtain ⟨hout, -, hsees⟩ :=
      h.awaited (b := false) (minDur := s.cfg.dht.minRespUs) hans hrl (by omega : rl ≤ tmo) hrh
    rw [if_neg (by omega)] at hout
    exact ⟨2, _, dhtReadFrameOp_respHigh_fails hsoon hhealthy (Prod.ext hout rfl)
        (hsees.held_fails (by omega) hrh htail (by omega)), honLow.trans (measurePhase_onWires _ _ _ _),
      fun hl => absurd hl hlowBad, fun _ _ => rfl⟩

/-! ## The answered state -/

/-- An operation that stays on the wires and answers `r`: READING and the rate limiter are as they were. -/
theorem exec_dht_onWires {s s' : State} {tmo : Half} {r : Rsp} (hb : s.busy = false)
    (hop : dhtReadFrameOp tmo.toNat s.accept = (r, s')) (hon : OnWires s.accept s') :
    exec (.dhtReadFrame tmo) s = .next (s'.respond r) ∧ s'.reading = s.reading ∧ s'.dht = s.dht := by
  refine ⟨?_, hon.reading_eq, hon.dht_eq⟩
  rw [exec_accepted hb rfl]
  simp only [Instr.body, hop]

end Sys2Proof.Machine
open Sys2Proof Sys2Proof.Machine

/-- Settles O31: a line that stays high by `dhtReadFrameOp_silent`, a response phase that fails by
`dhtReadFrameOp_badResponse`. -/
theorem dhtNoResponse : Obligations.DhtNoResponse := by
  intro s tmo hb hsoon hhealthy
  have hhigh : (lineHealth s.accept).1 = true := (lineHealth_spec s.accept).1.trans hhealthy
  refine ⟨fun hstays => ?_, fun w rl rh tail later hphases hans hrl hrh htail hbad => ?_⟩
  · obtain ⟨s', hop, hon, ht, htrace⟩ := dhtReadFrameOp_silent (s := s.accept) hsoon hhigh hstays
    obtain ⟨hexec, hreading, hdht⟩ := exec_dht_onWires hb hop hon
    exact ⟨_, hexec, rfl, hreading, hdht, ht, htrace⟩
  · obtain ⟨aux, s', hop, hon, haux1, haux2⟩ :=
      dhtReadFrameOp_badResponse (s := s.accept) hsoon hhigh (Sees.measuring hphases) hans hrl hrh htail hbad
    obtain ⟨hexec, hreading, hdht⟩ := exec_dht_onWires hb hop hon
    refine ⟨_, hexec, hreading, hdht, fun hl => ?_, fun hl hl' _ => ?_⟩
    · rw [haux1 hl]
      rfl
    · rw [haux2 hl hl']
      rfl
end

section
/-! PROOFS. The family 41_pulse_decoder.md, part 3: a read after a good response: a payload phase that fails (R177) and
a frame that is decoded (R181, R182). -/

namespace Sys2Proof.Machine

/-! ## Good bits after a good response -/

/-- The answer and the end of DHT_READ_FRAME once the payload has been read (R178). -/
def payloadAnswer (p : PayloadResult × State) : Rsp × State :=
  match p.1 with
  | .failed step i => (response .protocolTimeout step.code (BitVec.ofNat 8 i) 0, p.2)
  | .bits bits => finishFrame bits p.2

/-- A sensor that answers the start signal as R175 asks: high at the health check, low within the timeout, both response
phases long enough and within the timeout. -/
structure GoodResponse (s : State) (tmo w rl rh : Nat) : Prop where
  healthy : s.cfg.dht.healthUs < s.lead + w
  answers : w < tmo
  low : 1 ≤ rl ∧ s.cfg.dht.minRespUs ≤ rl ∧ rl ≤ tmo
  high : 1 ≤ rh ∧ s.cfg.dht.minRespUs ≤ rh ∧ rh ≤ tmo

/-- The events of a read whose response phases and bits are good (R172, R173, R175, R177). -/
def frameEvents (c : DhtConfig) (rl rh : Nat) (bits : List (Nat × Nat)) : List Event :=
  [.dlInput, .delay c.healthUs .us, .sampleDl true, .dlLow, .delay c.startLowUs .us, .dlInput,
    .delay c.releaseUs .us, .dlPhase false (.held rl), .dlPhase true (.held rh)] ++
  bits.flatMap fun b => [.dlPhase false (.held b.1), .dlPhase true (.held b.2)]

/-- The phase after the response is the first bit's, or where there is none the one given. -/
theorem bitPhases_append_cons {c : DhtConfig} {tmo e : Nat} (bits : List (Nat × Nat)) (ds : List Nat)
    (hbits : ∀ b ∈ bits, GoodBit c tmo b) (he : 1 ≤ e) :
    ∃ e' ds', bitPhases bits ++ e :: ds = e' :: ds' ∧ 1 ≤ e' := by
  cases bits with
  | nil => exact ⟨e, ds, rfl, he⟩
  | cons b rest =>
    obtain ⟨hlow, -⟩ := hbits b (by simp)
    exact ⟨b.1, b.2 :: (bitPhases rest ++ e :: ds), rfl, hlow⟩

/-- After a good response and good bits: what is left of the payload, from the end of the last bit (R175, R177). -/
theorem dhtReadFrameOp_goodBits {s : State} {tmo w rl rh e left : Nat} {bits : List (Nat × Nat)} {ds : List Nat}
    {later : List (Nat × Level)} (hsoon : s.tooSoon = false) (hresp : GoodResponse s tmo w rl rh)
    (hwave : s.env.wave = phaseWave (s.t + s.lead) true (w :: rl :: rh :: bitPhases bits ++ e :: ds) ++ later)
    (hbits : ∀ b ∈ bits, GoodBit s.cfg.dht tmo b) (he : 1 ≤ e) (hlen : bits.length + left = 40) :
    ∃ s', dhtReadFrameOp tmo s =
        payloadAnswer (readPayload tmo left bits.length
          (bits.map fun b => decide (s.cfg.dht.bitThreshUs < b.2)) s') ∧
      Sees s' false (e :: ds) later ∧ OnWires s s' ∧
      s'.t = s.t + s.lead + w + rl + rh + (bitPhases bits).sum ∧
      s'.pins = { s.pins with dline := .inputPullup } ∧
      s'.trace = s.trace ++ frameEvents s.cfg.dht rl rh bits := by
  obtain ⟨e', ds', hsplit, he'⟩ := bitPhases_append_cons bits ds hbits he
  obtain ⟨hhealthy, hans, ⟨hl1, hl2, hl3⟩, hh1, hh2, hh3⟩ := hresp
  simp only [List.cons_append, hsplit] at hwave
  obtain ⟨s1, hop, hsees, hon, ht, hpins, htrace⟩ := dhtReadFrameOp_response hwave hhealthy
    (s.rateLimited_eq.trans hsoon) hans hl1 hl2 hl3 hh1 hh2 hh3 he'
  have hcfg := hon.cfg_eq
  rw [← hsplit] at hsees
  obtain ⟨s2, hpay, hsees', hon', ht', hpins', htrace'⟩ :=
    readPayload_good (left := left) bits 0 [] s1 hsees (by rwa [hcfg]) he
  rw [hlen, hcfg, Nat.zero_add, List.nil_append] at hpay
  have hop' : dhtReadFrameOp tmo s = payloadAnswer (readPayload tmo 40 0 [] s1) := hop
  refine ⟨s2, by rw [hop', hpay], hsees', hon.trans hon', by rw [ht', ht], hpins'.trans hpins, ?_⟩
  rw [htrace', htrace, List.append_assoc]
  rfl

/-! ## The payload's next bit -/

/-- The next low phase fails: step 3 (R176, R177). -/
theorem readPayload_bitLow_fails {s : State} {tmo left i : Nat} {got : List Level}
    (hlow : (measurePhase false tmo s.cfg.dht.minBitLowUs s).1.heldDur? = none) :
    readPayload tmo (left + 1) i got s = (.failed .bitLow i, (measurePhase false tmo s.cfg.dht.minBitLowUs s).2) := by
  simp only [readPayload, hlow]

/-- The next low phase is good and its high phase fails: step 4 (R176, R177). -/
theorem readPayload_bitHigh_fails {s s' : State} {tmo left i d : Nat} {got : List Level}
    (hlow : measurePhase false tmo s.cfg.dht.minBitLowUs s = (.held d, s'))
    (hhigh : (measurePhase true tmo 0 s').1.heldDur? = none) :
    readPayload tmo (left + 1) i got s = (.failed .bitHigh i, (measurePhase true tmo 0 s').2) := by
  simp only [readPayload, hlow, PhaseOutcome.heldDur?_held, hhigh]

/-- Where a bit's low phase is too short or too long, or its high phase too long, the payload fails there, with the step
of the failing phase, and the drive registers stay (R177). -/
theorem readPayload_badBit {s : State} {tmo left i low high : Nat} {got : List Level} {later : List (Nat × Level)}
    (h : Sees s false [low, high] later) (htmo : 1 ≤ tmo) (hlow : 1 ≤ low) (hhigh : 1 ≤ high)
    (hbad : low < s.cfg.dht.minBitLowUs ∨ tmo < low ∨ tmo < high) :
    ∃ step s', readPayload tmo (left + 1) i got s = (.failed step i, s') ∧ OnWires s s' ∧ s'.pins = s.pins ∧
      (low < s.cfg.dht.minBitLowUs ∨ tmo < low → step = .bitLow) ∧
      (s.cfg.dht.minBitLowUs ≤ low → low ≤ tmo → step = .bitHigh) := by
  have hon := readPayload_onWires tmo (left + 1) i got s
  obtain ⟨hpins, -⟩ := readPayload_frame tmo (left + 1) i got s
  by_cases hlowBad : low < s.cfg.dht.minBitLowUs ∨ tmo < low
  · have hpay := readPayload_bitLow_fails (left := left) (i := i) (got := got) (h.held_fails htmo hlow hhigh hlowBad)
    rw [hpay] at hon hpins
    exact ⟨_, _, hpay, hon, hpins, fun _ => rfl, by omega⟩
  · obtain ⟨hout, -, hsees⟩ := h.held (minDur := s.cfg.dht.minBitLowUs) hlow (by omega : low ≤ tmo) hhigh
    rw [if_neg (by omega)] at hout
    have hpay := readPayload_bitHigh_fails (left := left) (i := i) (got := got) (Prod.ext hout rfl)
      (congrArg PhaseOutcome.heldDur? (hsees.tooLong htmo (by omega)))
    rw [hpay] at hon hpins
    exact ⟨_, _, hpay, hon, hpins, fun hl => absurd hl hlowBad, fun _ _ => rfl⟩

/-! ## The checksum test -/

/-- The checksum test of five bytes, as their bits arrive (R103, R181). -/
theorem checksumOk_flatMap (hum humF tmp tmpF chk : Byte) :
    checksumOk ([hum, humF, tmp, tmpF, chk].flatMap msbFirst) = true ↔
      chk.toNat = (hum.toNat + humF.toNat + tmp.toNat + tmpF.toNat) % 256 := by
  obtain ⟨h0, h1, h2, h3, h4⟩ := frameByte_spec hum humF tmp tmpF chk
  rw [checksumOk, h0, h1, h2, h3, h4, beq_iff_eq, ← BitVec.toNat_inj, trunc8, BitVec.toNat_ofNat, Nat.mod_mod]

section

variable {hum humF tmp tmpF chk : Byte} (s : State)

/-- A frame whose checksum is right is recorded (R182). -/
theorem finishFrame_valid (hsum : chk.toNat = (hum.toNat + humF.toNat + tmp.toNat + tmpF.toNat) % 256) :
    finishFrame ([hum, humF, tmp, tmpF, chk].flatMap msbFirst) s =
      (response .ok 0 0 (hum ++ tmp), s.recordReading hum tmp) := by
  obtain ⟨h0, -, h2, -, -⟩ := frameByte_spec hum humF tmp tmpF chk
  rw [finishFrame, if_pos ((checksumOk_flatMap hum humF tmp tmpF chk).2 hsum), h0, h2]

/-- A frame whose checksum is wrong is discarded (R181). -/
theorem finishFrame_invalid (hsum : chk.toNat ≠ (hum.toNat + humF.toNat + tmp.toNat + tmpF.toNat) % 256) :
    finishFrame ([hum, humF, tmp, tmpF, chk].flatMap msbFirst) s = (response .checksumMismatch 0 0 0, s) := by
  rw [finishFrame, if_neg (mt (checksumOk_flatMap hum humF tmp tmpF chk).1 hsum)]

end

end Sys2Proof.Machine
open Sys2Proof Sys2Proof.Machine

/-- Settles O29: `dhtReadFrameOp_goodBits` for all forty bits leaves the checksum test of the five bytes they spell. -/
theorem dhtFrameDecoded : Obligations.DhtFrameDecoded := by
  intro s tmo w rl rh tail bits hum humF tmp tmpF chk later hb hsoon hwave hhealthy hans hl1 hl2 hl3 hh1 hh2 hh3 hbits
    htail hbytes
  have hlen : bits.length = 40 := by simpa [msbFirst] using congrArg List.length hbytes
  obtain ⟨s', hop, -, hon, ht, hpins, htrace⟩ := dhtReadFrameOp_goodBits (s := s.accept) (left := 0) hsoon
    ⟨hhealthy, hans, ⟨hl1, hl2, hl3⟩, hh1, hh2, hh3⟩ hwave hbits htail hlen
  have hread : Instr.body (.dhtReadFrame tmo) s.accept =
      finishFrame ([hum, humF, tmp, tmpF, chk].flatMap msbFirst) s' := hop.trans (congrArg (finishFrame · s') hbytes)
  obtain ⟨hkeepT, hkeepPins, hkeepTrace⟩ := finishFrame_frame ([hum, humF, tmp, tmpF, chk].flatMap msbFirst) s'
  refine ⟨_, exec_accepted hb rfl, ?_⟩
  rw [hread]
  refine ⟨hkeepT.trans ht, ?_, hkeepPins.trans hpins, fun hsum => ?_, fun hsum => ?_⟩
  · rw [State.respond_trace, hkeepTrace, htrace, frameEvents, ← List.append_assoc]
    rfl
  · rw [finishFrame_valid s' hsum]
    exact ⟨rfl, rfl, rfl⟩
  · rw [finishFrame_invalid s' hsum]
    exact ⟨rfl, hon.reading_eq, hon.dht_eq⟩

/-- Settles O30: `dhtReadFrameOp_goodBits` leads to the bad bit, `readPayload_badBit` says how it ends. -/
theorem dhtPayloadFailure : Obligations.DhtPayloadFailure := by
  intro s tmo w rl rh low high bits later hb hsoon hwave hhealthy hans hl1 hl2 hl3 hh1 hh2 hh3 hbits hlen hlow hhigh
    hbad
  obtain ⟨left, hleft⟩ : ∃ left, bits.length + (left + 1) = 40 := ⟨39 - bits.length, by omega⟩
  obtain ⟨s1, hop, hsees, hon, -, hpins, -⟩ := dhtReadFrameOp_goodBits (s := s.accept) (left := left + 1) hsoon
    ⟨hhealthy, hans, ⟨hl1, hl2, hl3⟩, hh1, hh2, hh3⟩ hwave hbits hlow hleft
  have hcfg : s1.cfg = s.cfg := hon.cfg_eq
  obtain ⟨step, s2, hpay, hon', hpins', hstep3, hstep4⟩ := readPayload_badBit (tmo := tmo.toNat) hsees (by omega)
    hlow hhigh (by rwa [hcfg])
  rw [hpay] at hop
  obtain ⟨hexec, hreading, hdht⟩ := exec_dht_onWires hb hop (hon.trans hon')
  rw [hcfg] at hstep3 hstep4
  refine ⟨_, hexec, hreading, hdht, hpins'.trans hpins, fun hl => ?_, fun hl hl' _ => ?_⟩
  · rw [hstep3 hl]
    rfl
  · rw [hstep4 hl hl']
    rfl
end

section
/-! PROOFS. The family 42_uart_session_framer.md, part 1: the receive producer (R202), and every step leaves it
current (R311, R354). -/

namespace Sys2Proof.Machine

/-! ## The two steps, with what does not fit dropped -/

theorem take_append_of_take {α : Type} (n : Nat) (l m : List α) : (l.take n ++ m).take n = (l ++ m).take n := by
  have hlen : n - min n l.length = n - l.length := by omega
  simp [List.take_append, hlen]

/-- `q_append` keeps as much of the lengthened queue as fits (R202). -/
theorem Rx.append_eq_take {c : UartConfig} {rx : Rx} (x : RxItem) (hq : rx.q.length ≤ c.rxQCap) :
    rx.append c x = { rx with q := (rx.q ++ [x]).take c.rxQCap } := by
  unfold Rx.append
  split
  · next hroom => rw [List.take_of_length_le (by simp; omega)]
  · next hfull => rw [List.take_append_of_le_length (by omega), List.take_of_length_le hq]

theorem Rx.appendAll_eq_take {c : UartConfig} {rx : Rx} (bs : Bytes) (hq : rx.q.length ≤ c.rxQCap) :
    bs.foldl (fun r b => r.append c (.byte b)) rx =
      { rx with q := (rx.q ++ bs.map RxItem.byte).take c.rxQCap } := by
  induction bs generalizing rx with
  | nil => simp [List.take_of_length_le hq]
  | cons b bs ih =>
    rw [List.foldl_cons, Rx.append_eq_take _ hq, ih (List.length_take_le _ _)]
    simp [take_append_of_take]

/-- A commit moves RX.acc and the item that ends it to RX.q, as much of them as fits (R202). -/
theorem Rx.commit_eq_take {c : UartConfig} {rx : Rx} (x : RxItem) (hq : rx.q.length ≤ c.rxQCap) :
    rx.commit c x = ⟨[], rx.lastMs, (rx.q ++ rx.acc.map RxItem.byte ++ [x]).take c.rxQCap⟩ := by
  rw [Rx.commit, Rx.appendAll_eq_take _ hq, Rx.append_eq_take _ (List.length_take_le _ _)]
  simp only [take_append_of_take]

theorem Rx.arrive_terminator {c : UartConfig} {rx : Rx} {b : Byte} (t : Nat) (hq : rx.q.length ≤ c.rxQCap)
    (hb : b = 0x0D ∨ b = 0x0A) :
    rx.arrive c t b = ⟨[], t, (rx.q ++ rx.acc.map RxItem.byte ++ [RxItem.byte b]).take c.rxQCap⟩ := by
  simp only [Rx.arrive, isTerminator_stop hb, if_true]
  exact Rx.commit_eq_take (rx := { rx with lastMs := t }) _ hq

theorem Rx.arrive_dataByte {c : UartConfig} {rx : Rx} {b : Byte} (t : Nat) (ha : rx.acc.length ≤ c.rxAccCap)
    (hb : b ≠ 0x0D ∧ b ≠ 0x0A) : rx.arrive c t b = ⟨(rx.acc ++ [b]).take c.rxAccCap, t, rx.q⟩ := by
  by_cases hroom : rx.acc.length < c.rxAccCap
  · rw [Rx.arrive_content hb hroom, List.take_of_length_le (by simp; omega)]
  · rw [List.take_append_of_le_length (by omega), List.take_of_length_le ha]
    simp [Rx.arrive, isTerminator_content hb, hroom]

/-- With every arrival still to come, RXP has only its idle commit to make. -/
theorem rxRun_later (c : UartConfig) {now : Nat} (rx : Rx) {later : List Arrival} (h : ∀ a ∈ later, now < a.1) :
    rxRun c now rx later = (rx.idleBefore c (now + 1), later) := by
  cases later with
  | nil => rfl
  | cons a rest =>
    have ha : ¬ a.1 ≤ now := Nat.not_le.mpr (h a (by simp))
    simp only [rxRun, ha, if_false]

/-- A single arrival that is due, with no idle commit due before or after it. -/
theorem rxRun_arrival {c : UartConfig} {now t : Nat} {b : Byte} {rx : Rx} (hd : rx.NotDue c t) (ht : t ≤ now)
    (hd' : (rx.arrive c t b).NotDue c (now + 1)) : rxRun c now rx [(t, b)] = (rx.arrive c t b, []) := by
  simp only [rxRun, ht, if_true, hd.idleBefore, hd'.idleBefore]

/-! ## Every step leaves the receive side current -/

/-- A command leaves no RXP step due, refused or carried out (R311). -/
theorem exec_keeps_pumped {i : Instr} {s t : State} (h : s.Pumped) (he : exec i s = .next t) : t.Pumped := by
  obtain rfl | ⟨-, hw, rfl⟩ := exec_next he
  · exact h
  · by_cases hi : subBlock i = .uart
    · exact (uartBody_frame hi (s := s.accept) hw).1.pumped (State.accept_pumped s)
    · exact (body_onWires hi s.accept).pumped (State.accept_pumped s)

theorem hostWriteByte_keeps_pumped {s : State} (h : s.Pumped) (b : OperandBuf) (i : Nat) (v : Byte) :
    (s.hostWriteByte b i v).Pumped := by
  rw [State.hostWriteByte_frame]
  exact h

theorem runAction_keeps_pumped {a : HostAct} {s t : State} (h : s.Pumped) (hr : runAction a s = .next t) :
    t.Pumped := by
  cases a with
  | command w =>
    have hcmd : (s.writeCmd w).Pumped := by
      rw [State.writeCmd_eq]
      exact h
    simp only [runAction, runWord] at hr
    split at hr
    · exact exec_keeps_pumped hcmd hr
    · cases hr
      exact hcmd
  | writeByte b i v =>
    cases hr
    exact hostWriteByte_keeps_pumped h b i v
  | writeLength r n =>
    cases hr
    rw [State.hostWriteLength_eq]
    exact h
  | wait us =>
    cases hr
    exact State.setTime_pumped _ _

theorem step_keeps_pumped {s t : State} (h : s.Pumped) (hs : step s = .next t) : t.Pumped := by
  cases hh : s.host with
  | nil =>
    rw [step_of_idleHost hh] at hs
    refine runAction_keeps_pumped ?_ hs
    exact h
  | cons a rest =>
    rw [step_of_host hh] at hs
    refine runAction_keeps_pumped ?_ hs
    exact h

end Sys2Proof.Machine
open Sys2Proof Sys2Proof.Machine

/-- Settles O15: `step_keeps_pumped`; accepting a command applies what is due, and every operation keeps it so. -/
theorem receiverKeptCurrent : Obligations.ReceiverKeptCurrent := fun _ _ h hs => step_keeps_pumped h hs

/-- Settles O17: one arrival by `rxRun_arrival`, the idle commit by `rxRun_later`; the lemmas on `take` say what is
dropped. -/
theorem receiveProducerSteps : Obligations.ReceiveProducerSteps := by
  intro c rx hacc hq
  refine ⟨fun now t b hd ht hb => ?_, fun now t b hd ht hsoon h1 h2 => ?_, fun now later hlater hne hdue => ?_,
    fun now later hlater hd => ?_, fun n1 n2 arrivals h => rxRun_rxRun c n1 n2 h arrivals rx⟩
  · have harrive := Rx.arrive_terminator t hq hb
    rw [rxRun_arrival hd ht (.inl (by rw [harrive])), harrive]
  · have harrive := Rx.arrive_dataByte t hacc ⟨h1, h2⟩
    rw [rxRun_arrival hd ht (.inr (by rw [harrive]; simpa using hsoon)), harrive]
  · have hidle : rx.idleDue c = some (rx.lastMs + c.tIdleCommitMs) := by simp [Rx.idleDue, hne]
    rw [rxRun_later c rx hlater, Rx.idleBefore_of_due c _ _ rx hidle (by omega), Rx.commit_eq_take _ hq]
  · rw [rxRun_later c rx hlater, Rx.NotDue.idleBefore hd]
end

section
/-! PROOFS. The family 42_uart_session_framer.md, part 2: UART_READ_LINE (R204, R205). -/

namespace Sys2Proof.Machine

/-! ## The operation, and the line it leaves -/

theorem uartReadLine_wf {c : Config} {maxLen : Byte} (h : maxLen ≠ 0) (hm : maxLen.toNat ≤ c.uart.lineMax.val)
    (timeout : Half) : (Instr.uartReadLine maxLen timeout).wf c = true := by
  simp only [Instr.wf, Bool.and_eq_true, decide_eq_true_eq]
  exact ⟨h, hm⟩

/-- An accepted command, given what its body makes of the accepted state. -/
theorem exec_answers {i : Instr} {s s' : State} {r : Rsp} (hb : s.busy = false) (hw : i.wf s.cfg = true)
    (h : Instr.body i s.accept = (r, s')) : exec i s = .next (s'.respond r) := by
  rw [exec_accepted hb hw, h]

/-- UART_READ_LINE, given what `readLine` makes of the accepted state. -/
theorem exec_uartReadLine {maxLen : Byte} {timeout : Half} {s s' : State} {n : Nat} (hb : s.busy = false)
    (h : maxLen ≠ 0) (hm : maxLen.toNat ≤ s.cfg.uart.lineMax.val)
    (hr : readLine maxLen.toNat timeout.toNat s.accept = (n, s')) :
    exec (.uartReadLine maxLen timeout) s = .next (s'.respond ⟨0x00, 0, 0, BitVec.ofNat 16 n⟩) :=
  exec_answers hb (uartReadLine_wf h hm timeout)
    (congrArg (fun r => (response .ok 0 0 (BitVec.ofNat 16 r.1), r.2)) hr)

/-- LINEBUF and LINELEN hold the bytes of `text`, written over `m`. -/
def State.HoldsLine (t : State) (m : Memory) (text : Bytes) : Prop :=
  t.linebuf = m.writeAll 0 text ∧ t.linelen = BitVec.ofNat 8 text.length

/-- What HOST finds of a line cut to `n` bytes: its length, its bytes, and what stood beyond it (R62, R205). -/
theorem State.HoldsLine.cut {t : State} {m : Memory} {text : Bytes} {n : Nat} (h : t.HoldsLine m (text.take n))
    (hwf : m.wf = true) (hn : n ≤ 255) :
    t.linelen.toNat = min text.length n ∧
      (∀ (k : Nat) (h : k < text.length), k < n → t.hostReadLinebuf k = text[k]) ∧
      ∀ k, min text.length n ≤ k → t.linebuf.read k = m.read k := by
  obtain ⟨hbuf, hlen⟩ := h
  have hcut : (text.take n).length = min text.length n := by rw [List.length_take, Nat.min_comm]
  have hlen' : t.linelen.toNat = (text.take n).length := by
    rw [hlen, BitVec.toNat_ofNat, Nat.mod_eq_of_lt (by omega)]
  refine ⟨hlen'.trans hcut, fun k hk hkn => ?_, fun k hk => ?_⟩
  · rw [State.hostReadLinebuf_of_prefix hlen' (by rw [hbuf, Memory.prefixBytes_writeAll _ hwf]) k (by omega),
      List.getElem_take]
  · rw [hbuf, Memory.read_writeAll 0 k _ hwf, if_neg (by omega)]

/-! ## A deadline that has passed -/

/-- With timeout 0 nothing is read (R204). -/
theorem readLine_zero (maxLen : Nat) (s : State) :
    readLine maxLen (0 : Half).toNat s = (0, s.setLinelen 0) := by
  have hnext : (s.setLinelen 0).nextItem (s.nowMs + (0 : Half).toNat) = (none, s.setLinelen 0) := by
    unfold State.nextItem
    exact if_pos (le_refl s.nowMs)
  simp only [readLine, readLineLoop, hnext]
  rfl

/-- The answered state of a read that its deadline ends (R204). -/
theorem exec_uartReadLine_cut {maxLen : Byte} {timeout : Half} {s : State} {lead : List RxItem} {text : Bytes}
    (hb : s.busy = false) (h : maxLen ≠ 0) (hm : maxLen.toNat ≤ s.cfg.uart.lineMax.val) (ht : timeout ≠ 0)
    (hl : ∀ x ∈ lead, x.ends) (hc : ∀ b ∈ text, b ≠ 0x0D ∧ b ≠ 0x0A)
    (hq : s.pump.rx.q = lead ++ text.map RxItem.byte) (ha : s.pump.rx.acc = [])
    (hquiet : ∀ a ∈ s.pump.env.arrivals, s.t / 1000 + timeout.toNat ≤ a.1) :
    ∃ t, exec (.uartReadLine maxLen timeout) s = .next t ∧
      t.rsp = ⟨0x00, 0, 0, BitVec.ofNat 16 (min text.length maxLen.toNat)⟩ ∧
      t.HoldsLine s.linebuf (text.take maxLen.toNat) ∧ t.t = 1000 * (s.t / 1000 + timeout.toNat) ∧
      t.trace = s.trace ∧
      (t.rx, t.env.arrivals) =
        rxRun s.cfg.uart (s.t / 1000 + timeout.toNat) { s.pump.rx with q := [] } s.pump.env.arrivals := by
  refine ⟨_, exec_uartReadLine hb h hm (readLine_cut (s := s.accept) hl hc hq ha (toNat_pos_of_ne ht) hquiet), rfl,
    ⟨rfl, rfl⟩, rfl, rfl, ?_⟩
  have hnow : 1000 * (s.t / 1000 + timeout.toNat) / 1000 = s.t / 1000 + timeout.toNat := by omega
  exact congrArg (fun now => rxRun s.cfg.uart now { s.pump.rx with q := [] } s.pump.env.arrivals) hnow

end Sys2Proof.Machine
open Sys2Proof Sys2Proof.Machine

/-- Settles O35: `readLine_queued`, and what HOST finds of the line it stores. -/
theorem readLineFromQueue : Obligations.ReadLineFromQueue := by
  intro s maxLen timeout l rest hb hwf h hm ht hl hq
  have hread := readLine_queued (s := s.accept) hl hq (toNat_pos_of_ne ht) (toNat_pos_of_ne h)
  refine ⟨_, exec_uartReadLine hb h hm hread, rfl, ?_⟩
  obtain ⟨hlen, hbytes, hbeyond⟩ := State.HoldsLine.cut (t := (s.accept.afterLine _ rest).respond _)
    (m := s.linebuf) (text := l.text) (n := maxLen.toNat) ⟨rfl, rfl⟩ hwf (by omega)
  exact ⟨hlen, hbytes, hbeyond, rfl, rfl, rfl, rfl⟩

/-- Settles O36: `readLine_zero` for timeout 0, `readLine_cut` for both other parts. -/
theorem readLineTimesOut : Obligations.ReadLineTimesOut := by
  intro s maxLen timeout hb h hm
  refine ⟨?_, fun ht hl ha hquiet => ?_, fun lead text ht hwf hl hc hq ha hquiet => ?_⟩
  · rintro rfl
    rw [exec_uartReadLine hb h hm (readLine_zero maxLen.toNat s.accept)]
    exact congrArg (fun t => Host.Outcome.next { t with linelen := 0 })
      (State.accept_respond hb ⟨0x00, 0, 0, BitVec.ofNat 16 0⟩)
  · obtain ⟨t, he, hrsp, ⟨hbuf, hlen⟩, htime, htrace, hrx⟩ :=
      exec_uartReadLine_cut (text := []) hb h hm ht hl (by simp) (by simp) ha hquiet
    exact ⟨t, he, by simpa using hrsp, by simpa using hlen, by simpa [Memory.writeAll] using hbuf, htime, htrace, hrx⟩
  · obtain ⟨t, he, hrsp, hline, htime, htrace, hrx⟩ := exec_uartReadLine_cut hb h hm ht hl hc hq ha hquiet
    obtain ⟨hlen, hbytes, hbeyond⟩ := hline.cut hwf (by omega)
    exact ⟨t, he, hrsp, hlen, hbytes, hbeyond, htime, htrace, hrx⟩

/-- Settles O37: `readLine_spec`; a length of 0 is the only one whose 16 bits are 0. -/
theorem readLineZeroOnlyAtDeadline : Obligations.ReadLineZeroOnlyAtDeadline := by
  intro s t maxLen timeout hb h hm he hvalue
  have hspec := readLine_spec maxLen.toNat timeout.toNat s.accept hm
  cases hread : readLine maxLen.toNat timeout.toNat s.accept with
  | mk n s' =>
    rw [hread] at hspec
    obtain ⟨-, hle, -, -, -, hzero, -⟩ := hspec
    rw [exec_uartReadLine hb h hm hread] at he
    cases he
    refine hzero ?_
    have hval : n % 2 ^ 16 = 0 := by simpa using congrArg BitVec.toNat hvalue
    simp only at hle
    omega
end

section
/-! PROOFS. The family 42_uart_session_framer.md, part 3: UART_SEND_COMMAND (R207, R208, R210). -/

namespace Sys2Proof.Machine

/-- UART_SEND_COMMAND, given what `sendCommand` makes of the accepted state. -/
theorem exec_uartSendCommand {timeout : Half} {s s' : State} {st : Status} (hb : s.busy = false)
    (hr : sendCommand s.str0Bytes s.str1Bytes timeout.toNat s.accept = (st, s')) :
    exec (.uartSendCommand timeout) s = .next (s'.respond ⟨st.code, 0, 0, 0⟩) :=
  exec_answers hb rfl (congrArg (fun r => (response r.1 0 0 0, r.2)) hr)

/-- With no time to wait nothing is read (R207). -/
theorem awaitReply_zero (expected : Bytes) (s : State) : awaitReply expected 0 s = (.protocolTimeout, s) := by
  simp [awaitReply, awaitReplyLoop]

/-- A whole line in LINEBUF, as HOST finds it (R23, R62). -/
theorem State.hostReadLinebuf_of_fits {t : State} {c : UartConfig} {text : Bytes}
    (hlen : t.linelen = BitVec.ofNat 8 text.length) (hbuf : t.linebuf.prefixBytes text.length = text)
    (hfit : text.length ≤ c.lineMax.val) :
    t.linelen.toNat = text.length ∧ ∀ (k : Nat) (h : k < text.length), t.hostReadLinebuf k = text[k] := by
  have hmax := c.lineMax.isLt
  have hlen' : t.linelen.toNat = text.length := by
    rw [hlen, BitVec.toNat_ofNat, Nat.mod_eq_of_lt (by omega)]
  exact ⟨hlen', State.hostReadLinebuf_of_prefix hlen' hbuf⟩

/-- HOST reads the bytes LINELEN covers as they stand in LINEBUF (R62). -/
theorem State.map_hostReadLinebuf (t : State) :
    (List.range t.linelen.toNat).map t.hostReadLinebuf = t.linebuf.prefixBytes t.linelen.toNat :=
  List.map_congr_left fun _ hk => if_pos (List.mem_range.mp hk)

/-- A line of the statements that decides nothing, as the model's own test has it. -/
theorem fits_ignored {c : UartConfig} {expected : Bytes} {ls : List QueuedLine}
    (h : ∀ x ∈ ls, x.Fits c ∧ Ignored c expected x.text) :
    ∀ x ∈ ls, x.Fits c ∧ lineOutcome c expected x.text = none :=
  fun x hx => ⟨(h x hx).1, (ignored_iff c expected x.text).mp (h x hx).2⟩

end Sys2Proof.Machine
open Sys2Proof Sys2Proof.Machine

/-- Settles O38: `sendCommand_queued` for the lines in RX.q. -/
theorem sendCommandMatched : Obligations.SendCommandMatched := by
  intro s timeout ignored l rest code hb hwf ht hi hl hd hq
  obtain ⟨st, hst, rfl⟩ := (decides_iff _ _ _ _).mp hd
  obtain ⟨m, -, hm, hsend⟩ := sendCommand_queued (text := s.str0Bytes) (s := s.accept) hwf (fits_ignored hi) hl hst hq
    (toNat_pos_of_ne ht)
  refine ⟨_, exec_uartSendCommand hb hsend, rfl, rfl, ?_⟩
  obtain ⟨hlen, hbytes⟩ := State.hostReadLinebuf_of_fits
    (t := { s.accept.withQ rest with linebuf := m, linelen := BitVec.ofNat 8 l.text.length }) rfl hm hl.2
  exact ⟨hlen, hbytes, rfl, rfl, rfl⟩

/-- Settles O39: the wait for the reply ends with the line that arrives, `awaitReplyLoop_later`. -/
theorem sendCommandLaterReply : Obligations.SendCommandLaterReply := by
  intro s timeout reply stop m later code hb hwf hq ha harr h1 h2 hne hc hs hlen hacc hcap hd
  obtain ⟨st, hst, rfl⟩ := (decides_iff _ _ _ _).mp hd
  have hends : ∀ x ∈ s.pump.rx.q, x.ends := by
    rw [hq]
    simp
  obtain ⟨rest, hloop⟩ := awaitReplyLoop_later (s := s.accept.transmit (s.str0Bytes ++ s.cfg.uart.cmdTerm)) hwf
    hends ha harr h1 h2 hne hc hs hlen hacc hcap hst
  refine ⟨_, exec_uartSendCommand hb hloop, rfl, rfl, rfl, ?_⟩
  exact State.hostReadLinebuf_of_fits rfl (Memory.prefixBytes_writeAll _ hwf) hlen

/-- Settles O40: after the transmission `awaitReply_zero`. -/
theorem sendCommandTimeoutZero : Obligations.SendCommandTimeoutZero := by
  intro s hb
  have hsend : sendCommand s.str0Bytes s.str1Bytes (0 : Half).toNat s.accept =
      (.protocolTimeout, s.accept.transmit (s.str0Bytes ++ s.cfg.uart.cmdTerm)) := awaitReply_zero _ _
  have hanswer := State.accept_respond hb ⟨0x03, 0, 0, 0⟩
  rw [exec_uartSendCommand hb hsend]
  exact congrArg (fun t => Host.Outcome.next (t.transmit (s.str0Bytes ++ s.cfg.uart.cmdTerm))) hanswer

/-- Settles O41: the two ends of `sendCommand_spec`. -/
theorem sendCommandOutcome : Obligations.SendCommandOutcome := by
  intro s timeout hb hwf
  have hspec := sendCommand_spec s.str0Bytes s.str1Bytes timeout.toNat s.accept
  cases hsend : sendCommand s.str0Bytes s.str1Bytes timeout.toNat s.accept with
  | mk st s' =>
    rw [hsend] at hspec
    obtain ⟨-, -, -, hend⟩ := hspec
    refine ⟨_, exec_uartSendCommand hb hsend, rfl, rfl, rfl, ?_⟩
    obtain ⟨rfl, htime⟩ | ⟨n, hn, hmax, hlen, hout⟩ := hend
    · exact .inl ⟨rfl, htime⟩
    · have hlen' : s'.linelen.toNat = n := by
        have := s.cfg.uart.lineMax.isLt
        rw [hlen, BitVec.toNat_ofNat, Nat.mod_eq_of_lt (hmax.trans_lt this)]
      refine .inr ⟨?_, fun h0 => hn ?_⟩
      · rw [State.map_hostReadLinebuf, State.respond_linelen, State.respond_linebuf, hlen']
        exact (decides_iff _ _ _ _).mpr ⟨st, hout, rfl⟩
      · rw [← hlen', show s'.linelen = 0 from h0]
        rfl
end

section
/-! PROOFS. The family 42_uart_session_framer.md, part 4: how UART_INIT_SESSION ends in every environment, what it
transmits up to there (R213 to R216), and how long the UART operations take (R222). -/

namespace Sys2Proof.Machine

/-! ## Commands of the sequence -/

/-- The event of a command: its text with CMD_TERM (R206, R210). -/
def commandEvent (c : UartConfig) (text : Bytes) : Event := .tx (text ++ c.cmdTerm)

/-- `s'` is `s` after the commands `texts`, within `ms` milliseconds. -/
structure Exchanged (s s' : State) (texts : List Bytes) (ms : Nat) : Prop where
  cfg : s'.cfg = s.cfg
  str0 : s'.str0Bytes = s.str0Bytes
  str1 : s'.str1Bytes = s.str1Bytes
  trace : s'.trace = s.trace ++ texts.map (commandEvent s.cfg.uart)
  time : s'.nowMs ≤ s.nowMs + ms

namespace Exchanged

variable {s s' s'' : State} {texts texts' : List Bytes} {ms ms' : Nat}

theorem trans (h : Exchanged s s' texts ms) (h' : Exchanged s' s'' texts' ms') :
    Exchanged s s'' (texts ++ texts') (ms + ms') where
  cfg := h'.cfg.trans h.cfg
  str0 := h'.str0.trans h.str0
  str1 := h'.str1.trans h.str1
  trace := by rw [h'.trace, h.trace, h.cfg, List.map_append, List.append_assoc]
  time := by have := h.time; have := h'.time; omega

theorem mono (h : Exchanged s s' texts ms) (hle : ms ≤ ms') : Exchanged s s' texts ms' :=
  ⟨h.cfg, h.str0, h.str1, h.trace, h.time.trans (by omega)⟩

end Exchanged

theorem OnLine.exchanged {s s' : State} {texts : List Bytes} {ms : Nat} (h : OnLine s s')
    (htrace : s'.trace = s.trace ++ texts.map (commandEvent s.cfg.uart)) (htime : s'.nowMs ≤ s.nowMs + ms) :
    Exchanged s s' texts ms :=
  ⟨h.cfg_eq, h.str0Bytes_eq, h.str1Bytes_eq, htrace, htime⟩

theorem sendExpectOk_exchanged (text : Bytes) (timeout : Nat) (s : State) :
    Exchanged s (sendExpectOk text timeout s).2 [text] timeout :=
  let h := sendExpectOk_spec text timeout s
  h.1.exchanged (sendExpectOk_trace text timeout s) h.2

theorem diagnostics_exchanged (qs : List Bytes) (s : State) :
    Exchanged s (diagnostics qs s) qs (qs.length * s.cfg.uart.tCmdMs) :=
  let h := diagnostics_spec qs s
  h.1.exchanged (diagnostics_trace qs s) h.2

theorem awaitReply_exchanged (expected : Bytes) (timeout : Nat) (s : State) :
    Exchanged s (awaitReply expected timeout s).2 [] timeout := by
  obtain ⟨hon, htime, htrace, -⟩ := awaitReply_spec expected timeout s
  exact hon.exchanged (by simpa using htrace) htime

/-- Writing SESSION transmits nothing and takes no time. -/
theorem setSession_exchanged (s : State) (x : Session) : Exchanged s { s with session := x } [] 0 :=
  ⟨rfl, rfl, rfl, (List.append_nil _).symm, le_refl _⟩

theorem setAttached_exchanged (s : State) : Exchanged s s.setAttached [] 0 := setSession_exchanged s _

/-- The handshake's attempts, all of them where it fails (R214). -/
theorem handshake_exchanged (k : Nat) (s : State) :
    ∃ attempts, 1 ≤ attempts ∧ attempts ≤ 1 + k ∧ ((handshake k s).1 ≠ .ok → attempts = 1 + k) ∧
      Exchanged s (handshake k s).2 (List.replicate attempts s.cfg.uart.cmdHandshake)
        ((1 + k) * s.cfg.uart.tCmdMs) := by
  obtain ⟨attempts, hpos, hle, hall, htrace⟩ := handshake_trace k s
  obtain ⟨hon, htime⟩ := handshake_spec k s
  exact ⟨attempts, hpos, hle, hall, hon.exchanged (by simpa [commandEvent] using htrace) htime⟩

/-! ## The ends of the initialization -/

/-- An end of the initialization: OK, or the phase that failed (R215). -/
abbrev InitEnd := Option SessionPhase

/-- An end no earlier than phase `k`, and no later than the initialization's last phase (R215). -/
def InitEnd.From (e : InitEnd) (k : Nat) : Prop := ∀ p, e = some p → k ≤ p.code.toNat ∧ p.code.toNat ≤ 6

theorem InitEnd.from_ok (k : Nat) : InitEnd.From none k := fun _ h => by cases h

theorem InitEnd.from_failed {p : SessionPhase} {k : Nat} (h : k ≤ p.code.toNat) (h6 : p.code.toNat ≤ 6) :
    InitEnd.From (some p) k := fun _ hp => by cases hp; exact ⟨h, h6⟩

theorem InitEnd.From.mono {e : InitEnd} {k k' : Nat} (h : e.From k) (hk : k' ≤ k) : e.From k' :=
  fun p hp => ⟨hk.trans (h p hp).1, (h p hp).2⟩

/-- The answer at an end, with the session flags: both set at OK; else `attached` from the set-APN phase on and the
socket closed, with the failed step's status (R213, R215, R216). -/
def InitEnd.Answers (e : InitEnd) (r : Rsp × State) : Prop :=
  match e with
  | none => r.1 = ⟨0x00, 0, 0, 3⟩ ∧ r.2.session = ⟨true, true⟩
  | some p => r.2.session = ⟨decide (4 ≤ p.code.toNat), false⟩ ∧ ∃ st, failedStatus st ∧
      r.1 = ⟨0x06, p.code, st.code, if 4 ≤ p.code.toNat then 1 else 0⟩

/-- From `s`, a part of the initialization ends in `r` at `e`, after the commands `texts`, within `ms` milliseconds. -/
structure EndsInit (s : State) (r : Rsp × State) (e : InitEnd) (texts : List Bytes) (ms : Nat) : Prop where
  answers : e.Answers r
  exchanged : Exchanged s r.2 texts ms

theorem EndsInit.after {s s' : State} {r : Rsp × State} {e : InitEnd} {texts texts' : List Bytes} {ms ms' : Nat}
    (h' : EndsInit s' r e texts' ms') (h : Exchanged s s' texts ms) :
    EndsInit s r e (texts ++ texts') (ms + ms') :=
  ⟨h'.answers, h.trans h'.exchanged⟩

/-- A step that fails ends the initialization there (R216). -/
theorem EndsInit.failed {s s' : State} {p : SessionPhase} {st : Status} {texts : List Bytes} {ms : Nat}
    (hst : failedStatus st) (hs : s'.session = ⟨decide (4 ≤ p.code.toNat), false⟩) (h : Exchanged s s' texts ms) :
    EndsInit s (initFail p st s') (some p) texts ms := by
  refine ⟨⟨hs, st, hst, ?_⟩, h⟩
  have hflags : s'.session.flags = if 4 ≤ p.code.toNat then 1 else 0 := by
    rw [hs]
    cases p <;> rfl
  simp only [initFail, response, hflags]
  rfl

/-- The socket-opened wait (R219). -/
theorem initSockWait_ends {s : State} (hs : s.session = ⟨true, false⟩) :
    ∃ e : InitEnd, e.From 6 ∧ EndsInit s (initSockWait s) e [] s.cfg.uart.tSockWaitMs := by
  have hwait := awaitReply_exchanged s.cfg.uart.expSockOpened s.cfg.uart.tSockWaitMs s
  have hsession := (awaitReply_spec s.cfg.uart.expSockOpened s.cfg.uart.tSockWaitMs s).1.session_eq.trans hs
  unfold initSockWait
  simp only
  split
  · refine ⟨none, InitEnd.from_ok 6, ⟨?_, ?_⟩, hwait.trans (setSession_exchanged _ _)⟩ <;>
      simp only [State.setSocketOpen, hsession]
    rfl
  · next hfail =>
    exact ⟨_, InitEnd.from_failed (by decide) (by decide),
      .failed ((awaitReply_status _ _ s).resolve_left hfail) hsession hwait⟩

/-- From the stale-socket close on, whose own result does not matter (R216). -/
theorem initSocket_ends (port : Nat) {s : State} (hs : s.session = ⟨true, false⟩) :
    ∃ e : InitEnd, e.From 5 ∧
      EndsInit s (initSocket port s) e [s.cfg.uart.cmdSockClose, composeSockOpen s.cfg.uart s.str1Bytes port]
        (s.cfg.uart.tCmdMs + s.cfg.uart.tCmdMs + s.cfg.uart.tSockWaitMs) := by
  have hopen := (sendExpectOk_exchanged s.cfg.uart.cmdSockClose s.cfg.uart.tCmdMs s).trans
    (sendExpectOk_exchanged (composeSockOpen s.cfg.uart s.str1Bytes port) s.cfg.uart.tCmdMs _)
  have hsession := ((sendExpectOk_spec s.cfg.uart.cmdSockClose s.cfg.uart.tCmdMs s).1.trans
    (sendExpectOk_spec (composeSockOpen s.cfg.uart s.str1Bytes port) s.cfg.uart.tCmdMs _).1).session_eq.trans hs
  unfold initSocket
  simp only
  split
  · obtain ⟨e, he, hends⟩ := initSockWait_ends hsession
    rw [hopen.cfg] at hends
    exact ⟨e, he.mono (by omega), hends.after hopen⟩
  · next hfail =>
    exact ⟨_, InitEnd.from_failed (by decide) (by decide),
      .failed ((sendExpectOk_status _ _ _).resolve_left hfail) hsession (hopen.mono (Nat.le_add_right _ _))⟩

/-- The commands from the set-APN step up to an end (R216). -/
def apnSequence (c : UartConfig) (apn host : Bytes) (port : Nat) : InitEnd → List Bytes
  | some .setApn => [composeSetApn c apn]
  | _ => [composeSetApn c apn] ++ c.diagCmds ++ [c.cmdSockClose, composeSockOpen c host port]

/-- The commands from the full-function step up to an end (R216). -/
def initSequence (c : UartConfig) (apn host : Bytes) (port : Nat) : InitEnd → List Bytes
  | some .handshake => []
  | some .fullFunc => [c.cmdFullFunc]
  | some .attach => [c.cmdFullFunc, c.cmdAttach]
  | e => [c.cmdFullFunc, c.cmdAttach] ++ apnSequence c apn host port e

theorem apnSequence_of_from {e : InitEnd} (he : e.From 5) (c : UartConfig) (apn host : Bytes) (port : Nat) :
    apnSequence c apn host port e =
      [composeSetApn c apn] ++ c.diagCmds ++ [c.cmdSockClose, composeSockOpen c host port] := by
  unfold apnSequence
  split
  · exact absurd (he _ rfl).1 (by decide)
  · rfl

theorem initSequence_of_from {e : InitEnd} (he : e.From 4) (c : UartConfig) (apn host : Bytes) (port : Nat) :
    initSequence c apn host port e = [c.cmdFullFunc, c.cmdAttach] ++ apnSequence c apn host port e := by
  unfold initSequence
  split
  · exact absurd (he _ rfl).1 (by decide)
  · exact absurd (he _ rfl).1 (by decide)
  · exact absurd (he _ rfl).1 (by decide)
  · rfl

/-- How long the steps from the set-APN step on can take (R222). -/
def apnTime (c : UartConfig) : Nat :=
  c.tCmdMs + c.diagCmds.length * c.tCmdMs + (c.tCmdMs + c.tCmdMs + c.tSockWaitMs)

theorem initSetApn_ends (port : Nat) {s : State} (hs : s.session = ⟨true, false⟩) :
    ∃ e : InitEnd, e.From 4 ∧
      EndsInit s (initSetApn port s) e (apnSequence s.cfg.uart s.str0Bytes s.str1Bytes port e)
        (apnTime s.cfg.uart) := by
  have hon := (sendExpectOk_spec (composeSetApn s.cfg.uart s.str0Bytes) s.cfg.uart.tCmdMs s).1
  have hapn := sendExpectOk_exchanged (composeSetApn s.cfg.uart s.str0Bytes) s.cfg.uart.tCmdMs s
  unfold initSetApn
  simp only
  split
  · have hdiag := hapn.trans (diagnostics_exchanged s.cfg.uart.diagCmds _)
    obtain ⟨e, he, hends⟩ := initSocket_ends port
      ((hon.trans (diagnostics_spec s.cfg.uart.diagCmds _).1).session_eq.trans hs)
    rw [hdiag.cfg, hdiag.str1] at hends
    rw [hapn.cfg] at hdiag
    refine ⟨e, he.mono (by omega), ?_⟩
    rw [apnSequence_of_from he]
    exact hends.after hdiag
  · next hfail =>
    exact ⟨some .setApn, InitEnd.from_failed (by decide) (by decide),
      .failed ((sendExpectOk_status _ _ s).resolve_left hfail) (hon.session_eq.trans hs)
        (hapn.mono (by unfold apnTime; omega))⟩

/-- The initialization after the handshake (R216). -/
theorem initFullFunc_ends (port : Nat) {s : State} (hs : s.session = ⟨false, false⟩) :
    ∃ e : InitEnd, e.From 2 ∧
      EndsInit s (initFullFunc port s) e (initSequence s.cfg.uart s.str0Bytes s.str1Bytes port e)
        (s.cfg.uart.tCmdMs + s.cfg.uart.tAttachMs + apnTime s.cfg.uart) := by
  have hon := (sendExpectOk_spec s.cfg.uart.cmdFullFunc s.cfg.uart.tCmdMs s).1
  have hfull := sendExpectOk_exchanged s.cfg.uart.cmdFullFunc s.cfg.uart.tCmdMs s
  have honAttach := hon.trans (sendExpectOk_spec s.cfg.uart.cmdAttach s.cfg.uart.tAttachMs _).1
  have hattach := hfull.trans (sendExpectOk_exchanged s.cfg.uart.cmdAttach s.cfg.uart.tAttachMs _)
  unfold initFullFunc
  simp only
  split
  · split
    · have hready := hattach.trans (setAttached_exchanged _)
      have hsession := congrArg (fun x : Session => { x with attached := true }) (honAttach.session_eq.trans hs)
      obtain ⟨e, he, hends⟩ := initSetApn_ends port (s := State.setAttached _) hsession
      rw [hready.cfg, hready.str0, hready.str1] at hends
      refine ⟨e, he.mono (by omega), ?_⟩
      rw [initSequence_of_from he]
      exact hends.after hready
    · next hfail =>
      exact ⟨some .attach, InitEnd.from_failed (by decide) (by decide),
        .failed ((sendExpectOk_status _ _ _).resolve_left hfail) (honAttach.session_eq.trans hs)
          (hattach.mono (Nat.le_add_right _ _))⟩
  · next hfail =>
    exact ⟨some .fullFunc, InitEnd.from_failed (by decide) (by decide),
      .failed ((sendExpectOk_status _ _ s).resolve_left hfail) (hon.session_eq.trans hs) (hfull.mono (by omega))⟩

/-- How long UART_INIT_SESSION can take (R222). -/
def initTime (c : UartConfig) : Nat := (1 + c.handshakeRetries) * c.tCmdMs + (c.tCmdMs + c.tAttachMs + apnTime c)

/-- Everything UART_INIT_SESSION can do (R214, R216). -/
theorem uartInitSessionOp_ends (port : Nat) (s : State) :
    ∃ (e : InitEnd) (attempts : Nat), e.From 1 ∧ 1 ≤ attempts ∧ attempts ≤ 1 + s.cfg.uart.handshakeRetries ∧
      (e = some .handshake → attempts = 1 + s.cfg.uart.handshakeRetries) ∧
      EndsInit s (uartInitSessionOp port s) e
        (List.replicate attempts s.cfg.uart.cmdHandshake ++
          initSequence s.cfg.uart s.str0Bytes s.str1Bytes port e)
        (initTime s.cfg.uart) := by
  obtain ⟨attempts, hpos, hle, hall, hshake⟩ := handshake_exchanged s.cfg.uart.handshakeRetries s.clearSession
  have hstart : Exchanged s s.clearSession [] 0 := setSession_exchanged s _
  have htried := hstart.trans hshake
  have hsession : (handshake s.cfg.uart.handshakeRetries s.clearSession).2.session = ⟨false, false⟩ :=
    (handshake_spec s.cfg.uart.handshakeRetries s.clearSession).1.session_eq
  rw [List.nil_append, Nat.zero_add] at htried
  unfold uartInitSessionOp
  simp only
  split
  · obtain ⟨e, he, hends⟩ := initFullFunc_ends port hsession
    rw [htried.cfg, htried.str0, htried.str1] at hends
    exact ⟨e, attempts, he.mono (by omega), hpos, hle, fun h => absurd (he _ h).1 (by decide), hends.after htried⟩
  · next hfail =>
    refine ⟨some .handshake, attempts, InitEnd.from_failed (by decide) (by decide), hpos, hle,
      fun _ => hall hfail, .failed ((handshake_status _ _).resolve_left hfail) hsession ?_⟩
    rw [show initSequence _ _ _ _ (some .handshake) = [] from rfl, List.append_nil]
    exact htried.mono (Nat.le_add_right _ _)

/-- The number of an end in `aux`: the phase that failed, 0 at OK (R109, R215). -/
def InitEnd.code : InitEnd → Byte
  | none => 0
  | some p => p.code

theorem InitEnd.eq_handshake {e : InitEnd} (h : e.code = 1) : e = some .handshake := by
  cases e with
  | none => simp [InitEnd.code] at h
  | some p => cases p <;> simp_all [InitEnd.code, SessionPhase.code]

theorem InitEnd.Answers.aux {e : InitEnd} {r : Rsp × State} (h : e.Answers r) : r.1.aux = e.code := by
  cases e with
  | none => exact congrArg Rsp.aux h.1
  | some p =>
    obtain ⟨-, st, -, hrsp⟩ := h
    exact congrArg Rsp.aux hrsp

/-- The commands up to an end, told by the phase in `aux` (R215). -/
theorem InitEnd.Answers.sequence {e : InitEnd} {r : Rsp × State} (h : e.Answers r) (c : UartConfig) (apn host : Bytes)
    (port : Nat) :
    initSequence c apn host port e =
      if r.1.aux = 1 then []
      else if r.1.aux = 2 then [c.cmdFullFunc]
      else if r.1.aux = 3 then [c.cmdFullFunc, c.cmdAttach]
      else if r.1.aux = 4 then [c.cmdFullFunc, c.cmdAttach, composeSetApn c apn]
      else [c.cmdFullFunc, c.cmdAttach, composeSetApn c apn] ++ c.diagCmds ++
        [c.cmdSockClose, composeSockOpen c host port] := by
  rw [h.aux]
  cases e with
  | none => rfl
  | some p => cases p <;> rfl

/-! ## UART_SEND_LINE -/

theorem uartSendLineOp_time (s : State) :
    (uartSendLineOp s).2.nowMs ≤ s.nowMs + (s.cfg.uart.tPromptMs + s.cfg.uart.tSendAckMs) := by
  have hprompt (bs : Bytes) := awaitByte_spec s.cfg.uart.promptChar s.cfg.uart.tPromptMs (s.transmit bs)
  have hreply (bs : Bytes) (s' : State) :=
    (awaitReply_spec s.cfg.uart.expSendAck s.cfg.uart.tSendAckMs (s'.transmit bs)).2.1
  unfold uartSendLineOp
  simp only
  rw [← Nat.add_assoc]
  split
  · exact (hprompt _).2.1.trans (Nat.le_add_right _ _)
  · split <;> exact (hreply _ _).trans (Nat.add_le_add_right (hprompt _).2.1 _)

/-- A command takes no longer than its body, and no time when it is refused (R110). -/
theorem exec_time {i : Instr} {s t : State} {ms : Nat}
    (hbody : i.wf s.cfg = true → (Instr.body i s.accept).2.nowMs ≤ s.nowMs + ms) (he : exec i s = .next t) :
    t.nowMs ≤ s.nowMs + ms := by
  obtain rfl | ⟨-, hw, rfl⟩ := exec_next he
  · exact Nat.le_add_right _ _
  · exact hbody hw

end Sys2Proof.Machine
open Sys2Proof Sys2Proof.Machine

/-- Settles O46: `uartInitSessionOp_ends`, read off for the answered state. -/
theorem initOutcome : Obligations.InitOutcome := by
  intro s port hb
  obtain ⟨e, attempts, he, hpos, hle, hall, hanswers, hexchanged⟩ := uartInitSessionOp_ends port.toNat s.accept
  refine ⟨_, attempts, exec_accepted hb rfl, hpos, hle, 
    fun haux => hall (InitEnd.eq_handshake (hanswers.aux.symm.trans haux)), ?_, ?_⟩
  · rw [hanswers.sequence] at hexchanged
    exact hexchanged.trace
  · cases e with
    | none => exact .inl hanswers
    | some p =>
      obtain ⟨hsession, st, hst, hrsp⟩ := hanswers
      obtain ⟨hfirst, hlast⟩ := he p rfl
      refine .inr ?_
      simp only [State.respond_rsp, State.respond_session, Instr.body, hrsp, hsession]
      exact ⟨trivial, hfirst, hlast, hst.code, trivial, trivial⟩

/-- Settles O42: each operation's own bound, of which the initialization's is `initTime`. -/
theorem uartBounded : Obligations.UartBounded := by
  intro s t
  refine ⟨fun m v he => exec_time (fun hw => ?_) he, fun v he => exec_time (fun _ => ?_) he, fun p he => ?_,
    fun he => ?_⟩
  · obtain ⟨-, hm⟩ : m ≠ 0 ∧ m.toNat ≤ s.cfg.uart.lineMax.val := by simpa [Instr.wf] using hw
    obtain ⟨-, -, -, htime, -⟩ := readLine_spec m.toNat v.toNat s.accept hm
    exact htime
  · obtain ⟨-, htime, -⟩ := sendCommand_spec s.str0Bytes s.str1Bytes v.toNat s.accept
    exact htime
  · have htime : t.nowMs ≤ s.nowMs + initTime s.cfg.uart := exec_time (fun _ => by
      obtain ⟨_, _, -, -, -, -, -, hexchanged⟩ := uartInitSessionOp_ends p.toNat s.accept
      exact hexchanged.time) he
    unfold initTime apnTime at htime
    omega
  · rw [Nat.add_assoc]
    exact exec_time (i := .uartSendLine) (fun _ => uartSendLineOp_time s.accept) he
end

section
/-! PROOFS. The family 42_uart_session_framer.md, part 5: UART_INIT_SESSION with the replies standing in RX.q (R213,
R216, R219). -/

namespace Sys2Proof.Machine

/-! ## A reply line for each command -/

/-- The state after commands whose replies stood in RX.q, the last of them in LINEBUF. -/
def State.afterReplies (s : State) (texts : List Bytes) (m : Memory) (n : Byte) (rest : List RxItem) : State :=
  { s.withQ rest with
    trace := s.trace ++ texts.map (commandEvent s.cfg.uart)
    linebuf := m
    linelen := n }

@[simp] theorem State.afterReplies_cfg (s : State) (sent : List Bytes) (m : Memory) (n : Byte) (rest : List RxItem) :
    (s.afterReplies sent m n rest).cfg = s.cfg := rfl

@[simp] theorem State.afterReplies_str0Bytes (s : State) (sent : List Bytes) (m : Memory) (n : Byte)
    (rest : List RxItem) : (s.afterReplies sent m n rest).str0Bytes = s.str0Bytes := rfl

@[simp] theorem State.afterReplies_str1Bytes (s : State) (sent : List Bytes) (m : Memory) (n : Byte)
    (rest : List RxItem) : (s.afterReplies sent m n rest).str1Bytes = s.str1Bytes := rfl

theorem State.afterReplies_nil (s : State) : s.afterReplies [] s.linebuf s.linelen s.rx.q = s := by
  simp [State.afterReplies, State.withQ]

theorem State.afterReplies_afterReply (s : State) (sent : List Bytes) (text : Bytes) (m m' : Memory) (n : Byte)
    (k : Nat) (rest rest' : List RxItem) :
    (s.afterReplies sent m n rest).afterReply text m' k rest' =
      s.afterReplies (sent ++ [text]) m' (BitVec.ofNat 8 k) rest' := by
  simp [State.afterReply, State.afterReplies, State.withQ, commandEvent]

/-- `l` is a whole reply line that decides `st` for a step that expects EXP_OK. -/
def Replies (c : UartConfig) (l : QueuedLine) (st : Status) : Prop :=
  l.Fits c ∧ lineOutcome c c.expOk l.text = some st

theorem replies_ok {c : UartConfig} {l : QueuedLine} (hl : l.Fits c) (h : contains l.text c.expOk = true) :
    Replies c l .ok := ⟨hl, lineOutcome_expected h⟩

theorem replies_of_decides {c : UartConfig} {l : QueuedLine} {code : Byte} (hl : l.Fits c)
    (h : Decides c c.expOk l.text code) : ∃ st, Replies c l st ∧ st.code = code := by
  obtain ⟨st, ho, hcode⟩ := (decides_iff _ _ _ _).mp h
  exact ⟨st, ⟨hl, ho⟩, hcode⟩

section

variable {s : State} {sent : List Bytes} {m : Memory} {n : Byte} {rest : List RxItem} {port : Nat}

/-- A further command, whose reply comes next in RX.q. -/
theorem sendExpectOk_replied {text : Bytes} {timeout : Nat} {l : QueuedLine} {st : Status} (hwf : m.wf = true)
    (hl : Replies s.cfg.uart l st) (ht : 0 < timeout) :
    ∃ m' n', Memory.wf m' = true ∧ sendExpectOk text timeout (s.afterReplies sent m n (l.items ++ rest)) =
      (st, s.afterReplies (sent ++ [text]) m' n' rest) := by
  obtain ⟨m', hm', -, hsend⟩ := sendExpectOk_queued (text := text)
    (s := s.afterReplies sent m n (l.items ++ rest)) hwf hl.1 hl.2 rfl ht
  exact ⟨m', _, hm', hsend.trans (congrArg (Prod.mk st) (State.afterReplies_afterReply ..))⟩

theorem handshake_replied {k : Nat} {l : QueuedLine} (hwf : m.wf = true) (hl : Replies s.cfg.uart l .ok)
    (ht : 0 < s.cfg.uart.tCmdMs) :
    ∃ m' n', Memory.wf m' = true ∧ handshake k (s.afterReplies sent m n (l.items ++ rest)) =
      (.ok, s.afterReplies (sent ++ [s.cfg.uart.cmdHandshake]) m' n' rest) := by
  obtain ⟨m', hm', hshake⟩ := handshake_queued (k := k) (s := s.afterReplies sent m n (l.items ++ rest)) hwf hl.1 hl.2
    rfl ht
  exact ⟨m', _, hm', hshake.trans (congrArg (Prod.mk Status.ok) (State.afterReplies_afterReply ..))⟩

theorem diagnostics_replied {ls : List QueuedLine} (hwf : m.wf = true)
    (hlen : ls.length = s.cfg.uart.diagCmds.length) (hl : ∀ l ∈ ls, ∃ st, Replies s.cfg.uart l st)
    (ht : 0 < s.cfg.uart.tCmdMs) :
    ∃ m' n', Memory.wf m' = true ∧
      diagnostics s.cfg.uart.diagCmds (s.afterReplies sent m n (queuedItems ls ++ rest)) =
        s.afterReplies (sent ++ s.cfg.uart.diagCmds) m' n' rest := by
  obtain ⟨m', n', hm', hdiag⟩ := diagnostics_queued s.cfg.uart.diagCmds ls rest
    (s.afterReplies sent m n (queuedItems ls ++ rest)) hlen hwf
    (fun l hmem => (hl l hmem).elim fun st h => ⟨h.1, st, h.2⟩) rfl ht
  refine ⟨m', n', hm', hdiag.trans ?_⟩
  simp [State.afterReplies, State.withQ, commandEvent]

/-! ## The parts of the initialization -/

/-- The full-function and attach steps answered OK (R213, R216). -/
theorem initFullFunc_attached {ff att : QueuedLine} (hwf : m.wf = true) (hcmd : 0 < s.cfg.uart.tCmdMs)
    (hatt : 0 < s.cfg.uart.tAttachMs) (hff : Replies s.cfg.uart ff .ok) (hat : Replies s.cfg.uart att .ok) :
    ∃ m' n', Memory.wf m' = true ∧
      initFullFunc port (s.afterReplies sent m n (ff.items ++ (att.items ++ rest))) =
        initSetApn port
          (s.setAttached.afterReplies (sent ++ [s.cfg.uart.cmdFullFunc] ++ [s.cfg.uart.cmdAttach]) m' n' rest) := by
  obtain ⟨m1, n1, hm1, h1⟩ := sendExpectOk_replied (text := s.cfg.uart.cmdFullFunc) (sent := sent) (n := n)
    (rest := att.items ++ rest) hwf hff hcmd
  obtain ⟨m2, n2, hm2, h2⟩ := sendExpectOk_replied (text := s.cfg.uart.cmdAttach)
    (sent := sent ++ [s.cfg.uart.cmdFullFunc]) (n := n1) (rest := rest) hm1 hat hatt
  refine ⟨m2, n2, hm2, ?_⟩
  simp only [initFullFunc, State.afterReplies_cfg, h1, h2, if_true]
  rfl

/-- The handshake, full-function and attach steps answered OK, from the accepted state on (R216). -/
theorem uartInitSessionOp_attached {hs ff att : QueuedLine} (hwf : s.linebuf.wf = true)
    (hcmd : 0 < s.cfg.uart.tCmdMs) (hatt : 0 < s.cfg.uart.tAttachMs)
    (h : ∀ l ∈ [hs, ff, att], Replies s.cfg.uart l .ok) (hq : s.rx.q = queuedItems [hs, ff, att] ++ rest) :
    ∃ m' n', Memory.wf m' = true ∧ uartInitSessionOp port s = initSetApn port
      (s.clearSession.setAttached.afterReplies
        [s.cfg.uart.cmdHandshake, s.cfg.uart.cmdFullFunc, s.cfg.uart.cmdAttach] m' n' rest) := by
  have hstart : s.clearSession =
      s.clearSession.afterReplies [] s.linebuf s.linelen (hs.items ++ (ff.items ++ (att.items ++ rest))) := by
    have hq' : s.rx.q = hs.items ++ (ff.items ++ (att.items ++ rest)) := hq.trans (by simp [queuedItems])
    rw [← hq']
    exact (State.afterReplies_nil s.clearSession).symm
  obtain ⟨m1, n1, hm1, h1⟩ := handshake_replied (s := s.clearSession) (sent := []) (n := s.linelen)
    (k := s.cfg.uart.handshakeRetries) (rest := ff.items ++ (att.items ++ rest)) hwf (h hs (by simp)) hcmd
  obtain ⟨m2, n2, hm2, h2⟩ := initFullFunc_attached (s := s.clearSession) (sent := [s.cfg.uart.cmdHandshake]) (n := n1)
    (rest := rest) (port := port) hm1 hcmd hatt (h ff (by simp)) (h att (by simp))
  refine ⟨m2, n2, hm2, ?_⟩
  rw [← hstart] at h1
  simp only [uartInitSessionOp, h1, if_true]
  exact h2

/-- The set-APN step answered by an error line (R213, R216). -/
theorem initSetApn_fails {apn : QueuedLine} {st : Status} (hwf : m.wf = true) (hcmd : 0 < s.cfg.uart.tCmdMs)
    (hapn : Replies s.cfg.uart apn st) (hst : st ≠ .ok) :
    ∃ m' n', initSetApn port (s.afterReplies sent m n (apn.items ++ rest)) =
      initFail .setApn st (s.afterReplies (sent ++ [composeSetApn s.cfg.uart s.str0Bytes]) m' n' rest) := by
  obtain ⟨m1, n1, -, h1⟩ := sendExpectOk_replied (text := composeSetApn s.cfg.uart s.str0Bytes) (sent := sent)
    (n := n) (rest := rest) hwf hapn hcmd
  refine ⟨m1, n1, ?_⟩
  simp only [initSetApn, State.afterReplies_cfg, State.afterReplies_str0Bytes, h1, if_neg hst]

/-- The set-APN step answered OK and the diagnostic queries answered in any way (R216). -/
theorem initSetApn_replied {apn : QueuedLine} {diag : List QueuedLine} (hwf : m.wf = true)
    (hcmd : 0 < s.cfg.uart.tCmdMs) (hapn : Replies s.cfg.uart apn .ok)
    (hlen : diag.length = s.cfg.uart.diagCmds.length) (hdiag : ∀ l ∈ diag, ∃ st, Replies s.cfg.uart l st) :
    ∃ m' n', Memory.wf m' = true ∧
      initSetApn port (s.afterReplies sent m n (apn.items ++ (queuedItems diag ++ rest))) =
        initSocket port (s.afterReplies
          (sent ++ [composeSetApn s.cfg.uart s.str0Bytes] ++ s.cfg.uart.diagCmds) m' n' rest) := by
  obtain ⟨m1, n1, hm1, h1⟩ := sendExpectOk_replied (text := composeSetApn s.cfg.uart s.str0Bytes) (sent := sent)
    (n := n) (rest := queuedItems diag ++ rest) hwf hapn hcmd
  obtain ⟨m2, n2, hm2, h2⟩ := diagnostics_replied (sent := sent ++ [composeSetApn s.cfg.uart s.str0Bytes]) (n := n1)
    (rest := rest) hm1 hlen hdiag hcmd
  refine ⟨m2, n2, hm2, ?_⟩
  simp only [initSetApn, State.afterReplies_cfg, State.afterReplies_str0Bytes, h1, h2, if_true]

/-- The notification of the opened socket comes next in RX.q (R219). -/
theorem initSockWait_replied {ev : QueuedLine} (hwf : m.wf = true) (ht : 0 < s.cfg.uart.tSockWaitMs)
    (hev : ev.Fits s.cfg.uart) (h : contains ev.text s.cfg.uart.expSockOpened = true) :
    ∃ m', Memory.prefixBytes m' ev.text.length = ev.text ∧
      initSockWait (s.afterReplies sent m n (ev.items ++ rest)) =
        (response .ok 0 0 s.setSocketOpen.session.flags,
          s.setSocketOpen.afterReplies sent m' (BitVec.ofNat 8 ev.text.length) rest) := by
  obtain ⟨m', -, hline, hwait⟩ := awaitReply_queued (s := s.afterReplies sent m n (ev.items ++ rest)) (ignored := [])
    (rest := rest) hwf (by simp) hev (lineOutcome_expected h) rfl ht
  refine ⟨m', hline, ?_⟩
  simp only [initSockWait, State.afterReplies_cfg] at hwait ⊢
  simp only [hwait, if_true]
  rfl

/-- From the stale-socket close on, which may be answered in any way (R216). -/
theorem initSocket_replied {cl op ev : QueuedLine} {st : Status} (hwf : m.wf = true) (hcmd : 0 < s.cfg.uart.tCmdMs)
    (ht : 0 < s.cfg.uart.tSockWaitMs) (hcl : Replies s.cfg.uart cl st) (hop : Replies s.cfg.uart op .ok)
    (hev : ev.Fits s.cfg.uart) (h : contains ev.text s.cfg.uart.expSockOpened = true) :
    ∃ m', Memory.prefixBytes m' ev.text.length = ev.text ∧
      initSocket port (s.afterReplies sent m n (cl.items ++ (op.items ++ (ev.items ++ rest)))) =
        (response .ok 0 0 s.setSocketOpen.session.flags,
          s.setSocketOpen.afterReplies
            (sent ++ [s.cfg.uart.cmdSockClose] ++ [composeSockOpen s.cfg.uart s.str1Bytes port]) m'
            (BitVec.ofNat 8 ev.text.length) rest) := by
  obtain ⟨m1, n1, hm1, h1⟩ := sendExpectOk_replied (text := s.cfg.uart.cmdSockClose) (sent := sent) (n := n)
    (rest := op.items ++ (ev.items ++ rest)) hwf hcl hcmd
  obtain ⟨m2, n2, hm2, h2⟩ := sendExpectOk_replied (text := composeSockOpen s.cfg.uart s.str1Bytes port)
    (sent := sent ++ [s.cfg.uart.cmdSockClose]) (n := n1) (rest := ev.items ++ rest) hm1 hop hcmd
  obtain ⟨m3, hline, h3⟩ := initSockWait_replied
    (sent := sent ++ [s.cfg.uart.cmdSockClose] ++ [composeSockOpen s.cfg.uart s.str1Bytes port]) (n := n2)
    (rest := rest) hm2 ht hev h
  refine ⟨m3, hline, ?_⟩
  simp only [initSocket, State.afterReplies_cfg, State.afterReplies_str1Bytes, h1, h2, if_true, h3]

end

theorem Status.code_ok_iff (st : Status) : st.code = 0x00 ↔ st = .ok := by
  cases st <;> decide

end Sys2Proof.Machine
open Sys2Proof Sys2Proof.Machine

/-- Settles O44: up to the attach step all is answered OK, then `initSetApn_fails`. -/
theorem initStopsAtSetApn : Obligations.InitStopsAtSetApn := by
  intro s port hs ff att apn rest code hb hwf hcmd hatt hfits hok hd hcode hq
  obtain ⟨st, hapn, rfl⟩ := replies_of_decides (hfits apn (by simp)) hd
  obtain ⟨m1, n1, hm1, h1⟩ := uartInitSessionOp_attached (s := s.accept) (hs := hs) (ff := ff) (att := att)
    (rest := apn.items ++ rest) (port := port.toNat) hwf hcmd hatt
    (fun l hl => replies_ok (hfits l (by simp at hl ⊢; tauto)) (hok l hl)) (hq.trans (by simp [queuedItems]))
  obtain ⟨m2, n2, h2⟩ := initSetApn_fails (s := s.accept.clearSession.setAttached) (n := n1) (rest := rest)
    (sent := [s.cfg.uart.cmdHandshake, s.cfg.uart.cmdFullFunc, s.cfg.uart.cmdAttach]) (port := port.toNat) hm1 hcmd
    hapn (fun h => hcode ((Status.code_ok_iff st).mpr h))
  exact ⟨_, exec_answers hb rfl (h1.trans h2), rfl, rfl, rfl, rfl, rfl⟩

/-- Settles O43: every part of the initialization with its replies. -/
theorem initAllStepsOk : Obligations.InitAllStepsOk := by
  intro s port hs ff att apn diag cl op ev rest hb hwf hcmd hatt hwait hfits hok hlen hany hev hq
  have hdiag : ∀ l ∈ diag ++ [cl], ∃ st, Replies s.cfg.uart l st := fun l hl => by
    obtain ⟨code, hd⟩ := hany l hl
    obtain ⟨st, hst, -⟩ := replies_of_decides (hfits l (by simp at hl ⊢; tauto)) hd
    exact ⟨st, hst⟩
  have hreply : ∀ l ∈ [hs, ff, att, apn, op], Replies s.cfg.uart l .ok :=
    fun l hl => replies_ok (hfits l (by simp at hl ⊢; tauto)) (hok l hl)
  obtain ⟨st, hcl⟩ := hdiag cl (by simp)
  obtain ⟨m1, n1, hm1, h1⟩ := uartInitSessionOp_attached (s := s.accept) (hs := hs) (ff := ff) (att := att)
    (rest := apn.items ++ (queuedItems diag ++ (cl.items ++ (op.items ++ (ev.items ++ rest)))))
    (port := port.toNat) hwf hcmd hatt (fun l hl => hreply l (by simp at hl ⊢; tauto))
    (hq.trans (by simp [queuedItems]))
  obtain ⟨m2, n2, hm2, h2⟩ := initSetApn_replied (s := s.accept.clearSession.setAttached) (n := n1)
    (rest := cl.items ++ (op.items ++ (ev.items ++ rest))) (port := port.toNat)
    (sent := [s.cfg.uart.cmdHandshake, s.cfg.uart.cmdFullFunc, s.cfg.uart.cmdAttach]) hm1 hcmd
    (hreply apn (by simp)) hlen (fun l hl => hdiag l (by simp [hl]))
  obtain ⟨m3, hline, h3⟩ := initSocket_replied (s := s.accept.clearSession.setAttached) (n := n2) (rest := rest)
    (port := port.toNat) (sent := _) hm2 hcmd hwait hcl (hreply op (by simp)) (hfits ev (by simp)) hev
  refine ⟨_, exec_answers hb rfl (h1.trans (h2.trans h3)), rfl, rfl, ?_, rfl, rfl, ?_⟩
  · refine congrArg (fun texts => s.trace ++ List.map (commandEvent s.cfg.uart) texts) ?_
    rw [List.append_assoc _ [_] [_]]
    rfl
  · exact State.hostReadLinebuf_of_fits rfl hline (hfits ev (by simp)).2
end

section
/-! PROOFS. The family 42_uart_session_framer.md, part 6: a handshake none of whose attempts succeeds (R214, R215). -/

namespace Sys2Proof.Machine

/-! ## Waits that no line decides -/

/-- The state with another line in LINEBUF. -/
def State.withLine (s : State) (m : Memory) (n : Byte) : State := { s with linebuf := m, linelen := n }

/-- Lines in RX.q that decide nothing are passed over (R207). -/
theorem awaitReplyLoop_skip {expected : Bytes} {dl fuel : Nat} {ignored : List QueuedLine} {rest : List RxItem}
    {s : State} (hwf : s.linebuf.wf = true)
    (hi : ∀ x ∈ ignored, x.Fits s.cfg.uart ∧ lineOutcome s.cfg.uart expected x.text = none)
    (hq : s.rx.q = queuedItems ignored ++ rest) (ht : s.nowMs < dl) :
    ∃ (m : Memory) (n : Byte), m.wf = true ∧ awaitReplyLoop expected dl (fuel + ignored.length) s =
      awaitReplyLoop expected dl fuel ((s.withQ rest).withLine m n) := by
  induction ignored generalizing s with
  | nil =>
    obtain rfl : s.rx.q = rest := by simpa [queuedItems] using hq
    exact ⟨s.linebuf, s.linelen, hwf, rfl⟩
  | cons x xs ih =>
    obtain ⟨hfit, hnone⟩ := hi x (by simp)
    obtain ⟨m, n, hm, hloop⟩ := ih (s := s.afterLine x.text (queuedItems xs ++ rest)) (Memory.writeAll_wf 0 _ hwf)
      (fun y hy => hi y (by simp [hy])) rfl ht
    refine ⟨m, n, hm, Eq.trans ?_ hloop⟩
    exact awaitReplyLoop_ignored hwf hfit hnone (by rw [hq]; simp [queuedItems]) ht

/-- With terminators only in RX.q and nothing arriving before the deadline, the wait removes them and ends there
(R207). -/
theorem awaitReplyLoop_ends {expected : Bytes} {dl fuel : Nat} {s : State} (hl : ∀ x ∈ s.rx.q, x.ends)
    (ha : s.rx.acc = []) (h : ∀ a ∈ s.env.arrivals, dl ≤ a.1) (ht : s.nowMs < dl) :
    awaitReplyLoop expected dl (fuel + 2) s = (.protocolTimeout, s.cutLine dl []) := by
  have hd : s.nowMs + (dl - s.nowMs) = dl := by omega
  have hread := readLine_cut (maxLen := s.cfg.uart.lineMax.val) (timeout := dl - s.nowMs) (lead := s.rx.q) (text := [])
    hl (by simp) (by simp) ha (by omega) (by rwa [hd])
  have hnow : dl ≤ (s.cutLine dl []).nowMs := by
    show dl ≤ 1000 * dl / 1000
    omega
  rw [hd] at hread
  rw [awaitReplyLoop, if_neg (by omega)]
  simp only [hread, List.length_nil, Nat.zero_min, List.take_nil, if_true]
  rw [awaitReplyLoop, if_pos hnow]

/-- With nothing to arrive up to the deadline, a read that it ends leaves the receive side empty. -/
theorem State.cutLine_rx {s : State} {dl : Nat} (bs : Bytes) (ha : s.rx.acc = []) (h : ∀ a ∈ s.env.arrivals, dl < a.1) :
    (s.cutLine dl bs).rx = { s.rx with q := [] } ∧ (s.cutLine dl bs).env.arrivals = s.env.arrivals := by
  have hnow : 1000 * dl / 1000 = dl := by omega
  have hrun : rxRun s.cfg.uart (1000 * dl / 1000) { s.rx with q := [] } s.env.arrivals =
      ({ s.rx with q := [] }, s.env.arrivals) := by
    rw [hnow, rxRun_later _ _ h, Rx.NotDue.idleBefore (rx := { s.rx with q := [] }) (.inl ha)]
  exact ⟨congrArg Prod.fst hrun, congrArg Prod.snd hrun⟩

/-- RX.q holds lines that decide nothing and terminators, and nothing is to arrive before `dl`. -/
structure State.Unanswered (s : State) (expected : Bytes) (dl : Nat) : Prop where
  wf : s.linebuf.wf = true
  queue : ∃ (ignored : List QueuedLine) (ends : List RxItem),
    (∀ x ∈ ignored, x.Fits s.cfg.uart ∧ lineOutcome s.cfg.uart expected x.text = none) ∧
      (∀ x ∈ ends, x.ends) ∧ s.rx.q = queuedItems ignored ++ ends
  acc : s.rx.acc = []
  arrivals : ∀ a ∈ s.env.arrivals, dl ≤ a.1

/-- The bound on the lines read leaves two rounds after the lines that stand in RX.q. -/
theorem awaitReply_fuel {ls : List QueuedLine} {rest : List RxItem} {s : State} (hq : s.rx.q = queuedItems ls ++ rest) :
    ∃ fuel, s.rxBudget + 2 = (fuel + 2) + ls.length := by
  have hbudget : ls.length ≤ s.rxBudget := by
    have := queuedItems_length ls
    simp only [State.rxBudget, rxItems, hq, List.length_append]
    omega
  exact ⟨s.rxBudget - ls.length, by omega⟩

/-- A wait that nothing answers times out; short of `dl`, or with no time to wait, neither is the next one answered. -/
theorem awaitReply_unanswered {expected : Bytes} {timeout dl : Nat} {s : State} (h : s.Unanswered expected dl)
    (hdl : s.nowMs + timeout ≤ dl) :
    ∃ s', awaitReply expected timeout s = (.protocolTimeout, s') ∧ s'.nowMs = s.nowMs + timeout ∧
      (timeout = 0 ∨ s.nowMs + timeout < dl → s'.Unanswered expected dl) := by
  obtain ⟨ignored, ends, hi, hends, hq⟩ := h.queue
  rcases Nat.eq_zero_or_pos timeout with rfl | hpos
  · exact ⟨s, awaitReply_zero expected s, rfl, fun _ => h⟩
  · obtain ⟨fuel, hfuel⟩ := awaitReply_fuel hq
    obtain ⟨m, n, hm, hskip⟩ := awaitReplyLoop_skip (expected := expected) (dl := s.nowMs + timeout) (fuel := fuel + 2)
      h.wf hi hq (by omega)
    have hwait := awaitReplyLoop_ends (expected := expected) (dl := s.nowMs + timeout) (fuel := fuel)
      (s := (s.withQ ends).withLine m n) hends h.acc (fun a ha => hdl.trans (h.arrivals a ha))
      (by show s.nowMs < _; omega)
    refine ⟨((s.withQ ends).withLine m n).cutLine (s.nowMs + timeout) [], ?_, ?_, fun hlater => ?_⟩
    · rw [awaitReply, hfuel, hskip, hwait]
    · show 1000 * (s.nowMs + timeout) / 1000 = s.nowMs + timeout
      omega
    · obtain ⟨hrx, harr⟩ := State.cutLine_rx (s := (s.withQ ends).withLine m n) (dl := s.nowMs + timeout) [] h.acc
        fun a ha => by have := h.arrivals a ha; omega
      exact ⟨hm, ⟨[], [], by simp, by simp, congrArg Rx.q hrx⟩, (congrArg Rx.acc hrx).trans h.acc,
        fun a ha => h.arrivals a (harr ▸ ha)⟩

theorem sendExpectOk_unanswered {text : Bytes} {timeout dl : Nat} {s : State} (h : s.Unanswered s.cfg.uart.expOk dl)
    (hdl : s.nowMs + timeout ≤ dl) :
    ∃ s', sendExpectOk text timeout s = (.protocolTimeout, s') ∧ s'.nowMs = s.nowMs + timeout ∧
      (timeout = 0 ∨ s.nowMs + timeout < dl → s'.Unanswered s.cfg.uart.expOk dl) :=
  awaitReply_unanswered (s := s.transmit (text ++ s.cfg.uart.cmdTerm)) ⟨h.wf, h.queue, h.acc, h.arrivals⟩ hdl

/-- Every attempt of the handshake times out (R214). -/
theorem handshake_unanswered {k : Nat} {s : State}
    (h : s.Unanswered s.cfg.uart.expOk (s.nowMs + (1 + k) * s.cfg.uart.tCmdMs)) :
    (handshake k s).1 = .protocolTimeout ∧
      (handshake k s).2.nowMs = s.nowMs + (1 + k) * s.cfg.uart.tCmdMs := by
  induction k generalizing s with
  | zero =>
    rw [Nat.add_zero, Nat.one_mul] at h ⊢
    obtain ⟨s', hsend, hnow, -⟩ := sendExpectOk_unanswered (text := s.cfg.uart.cmdHandshake) h (le_refl _)
    rw [handshake, hsend]
    exact ⟨rfl, hnow⟩
  | succ k ih =>
    have htotal : s.nowMs + (1 + (k + 1)) * s.cfg.uart.tCmdMs =
        s.nowMs + s.cfg.uart.tCmdMs + (1 + k) * s.cfg.uart.tCmdMs := by ring
    rw [htotal] at h ⊢
    obtain ⟨s', hsend, hnow, hnext⟩ := sendExpectOk_unanswered (text := s.cfg.uart.cmdHandshake) h
      (Nat.le_add_right _ _)
    have hcfg : s'.cfg = s.cfg := by
      have hon := (sendExpectOk_spec s.cfg.uart.cmdHandshake s.cfg.uart.tCmdMs s).1
      rw [hsend] at hon
      exact hon.cfg_eq
    have hagain : s'.Unanswered s.cfg.uart.expOk _ := hnext (by
      rcases Nat.eq_zero_or_pos s.cfg.uart.tCmdMs with hzero | hpos
      · exact .inl hzero
      · have : 0 < (1 + k) * s.cfg.uart.tCmdMs := Nat.mul_pos (by omega) hpos
        exact .inr (by omega))
    have hrest := ih (s := s')
    rw [hcfg, hnow] at hrest
    simp only [handshake, hsend]
    exact hrest hagain

/-! ## The end in phase 1 -/

/-- A handshake that fails ends the initialization with both flags clear (R215, R216). -/
theorem uartInitSessionOp_exhausted {port : Nat} {s s' : State} {st : Status}
    (h : handshake s.cfg.uart.handshakeRetries s.clearSession = (st, s')) (hst : st ≠ .ok) :
    uartInitSessionOp port s = (⟨0x06, 1, st.code, 0⟩, s') ∧ s'.session = ⟨false, false⟩ := by
  have hon := (handshake_spec s.cfg.uart.handshakeRetries s.clearSession).1
  rw [h] at hon
  have hsession : s'.session = ⟨false, false⟩ := hon.session_eq
  refine ⟨?_, hsession⟩
  simp only [uartInitSessionOp, h, if_neg hst, initFail, hsession]
  rfl

/-- UART_INIT_SESSION, given a handshake that fails. -/
theorem exec_uartInitSession_exhausted {port : Half} {s s' : State} {st : Status} (hb : s.busy = false)
    (h : handshake s.cfg.uart.handshakeRetries s.accept.clearSession = (st, s')) (hst : st ≠ .ok) :
    exec (.uartInitSession port) s = .next (s'.respond ⟨0x06, 1, st.code, 0⟩) ∧ s'.session = ⟨false, false⟩ := by
  obtain ⟨hop, hsession⟩ := uartInitSessionOp_exhausted (port := port.toNat) (s := s.accept) h hst
  exact ⟨exec_answers hb rfl hop, hsession⟩

/-- Naming two fields a state already has changes nothing. -/
theorem State.respond_named {t : State} {x : Session} {tr : List Event} (r : Rsp) (hx : t.session = x)
    (htr : t.trace = tr) : t.respond r = { t with rsp := r, busy := false, session := x, trace := tr } := by
  rw [← hx, ← htr]
  rfl

end Sys2Proof.Machine
open Sys2Proof Sys2Proof.Machine

/-- Settles O45: attempts given by their outcomes through `handshake_chain`, error lines through `handshake_exhausted`,
silence through `handshake_unanswered`. -/
theorem initHandshakeExhausted : Obligations.InitHandshakeExhausted := by
  refine ⟨?_, ?_, ?_⟩
  · intro s port u hb attempt h0 h
    have hcfg : (u 0).cfg.uart = s.cfg.uart := by rw [h0]; rfl
    have hchain := handshake_chain s.cfg.uart s.cfg.uart.handshakeRetries u hcfg h
    obtain ⟨-, htrace⟩ := handshake_chain_trace s.cfg.uart s.cfg.uart.handshakeRetries u hcfg fun j hj => (h j hj).2
    rw [show u 0 = s.accept.clearSession from h0] at hchain htrace
    obtain ⟨hexec, hsession⟩ := exec_uartInitSession_exhausted (port := port) hb hchain (h _ (le_refl _)).1
    rw [hexec, State.respond_named _ hsession htrace]
    rfl
  · intro s port errs last rest code hb hwf hcmd hlen herrs hlast hq
    have hreply : ∀ a ∈ errs ++ [last], ∃ st, st ≠ .ok ∧ Replies s.cfg.uart a.2 st := fun a hmem => by
      obtain ⟨-, hfit, c, hc, hd⟩ := herrs a hmem
      obtain ⟨st, hst, rfl⟩ := replies_of_decides hfit hd
      exact ⟨st, fun h => hc ((Status.code_ok_iff st).mpr h), hst⟩
    obtain ⟨st, hne, hfit, hst⟩ := hreply last (by simp)
    obtain ⟨st', hst', rfl⟩ := (decides_iff _ _ _ _).mp hlast
    obtain rfl : st = st' := Option.some.inj (hst.symm.trans hst')
    obtain ⟨m, n, -, hshake⟩ := handshake_exhausted errs last rest st s.accept.clearSession hwf
      (fun a hmem => fits_ignored (herrs a hmem).1)
      (fun a hmem => by
        obtain ⟨x, hx, hr⟩ := hreply a (by simp [hmem])
        exact ⟨hr.1, x, hx, hr.2⟩) hfit hst hq hcmd
    rw [hlen] at hshake
    obtain ⟨hexec, hsession⟩ := exec_uartInitSession_exhausted (port := port) hb hshake hne
    exact ⟨_, hexec, rfl, hsession, rfl, rfl, rfl⟩
  · intro s port ignored ends total hb hwf hi hends hq ha harr
    have hquiet : s.accept.clearSession.Unanswered s.cfg.uart.expOk (s.t / 1000 + total) :=
      ⟨hwf, ⟨ignored, ends, fits_ignored hi, hends, hq⟩, ha, harr⟩
    obtain ⟨hst, hnow⟩ := handshake_unanswered (k := s.cfg.uart.handshakeRetries) hquiet
    obtain ⟨attempts, -, -, hall, htrace⟩ := handshake_trace s.cfg.uart.handshakeRetries s.accept.clearSession
    rw [hall (by rw [hst]; decide)] at htrace
    obtain ⟨hexec, hsession⟩ := exec_uartInitSession_exhausted (port := port) hb (Prod.ext hst rfl) (by decide)
    exact ⟨_, hexec, rfl, hsession, htrace, hnow⟩
end

section
/-! PROOFS. The family 42_uart_session_framer.md, part 7: UART_SEND_LINE (R107, R209, R220). -/

namespace Sys2Proof.Machine

/-! ## The two ways the operation goes -/

/-- The payload's length N (R107). -/
def payloadLength (s : State) : Nat := s.str0len.toNat + s.cfg.uart.payloadTerm.length

theorem payload_length (s : State) : (s.str0Bytes ++ s.cfg.uart.payloadTerm).length = payloadLength s := by
  rw [List.length_append, State.str0Bytes, Memory.prefixBytes_length, payloadLength]

/-- The state after the prepare command (R220). -/
def State.prepared (s : State) : State :=
  s.transmit (composeSendPrep s.cfg.uart (payloadLength s) ++ s.cfg.uart.cmdTerm)

/-- The state after the payload and the end-of-data byte, transmitted from `s1` (R220). -/
def State.sentFrom (s s1 : State) : State :=
  s1.transmit (s.str0Bytes ++ s.cfg.uart.payloadTerm ++ [s.cfg.uart.eodByte])

/-- The answer to a payload whose acknowledgement ended in `code` (R215, R220). -/
def sendAnswer (code : Byte) (n : Nat) : Rsp :=
  if code = 0x00 then ⟨0x00, 0, 0, BitVec.ofNat 16 n⟩ else ⟨0x06, 8, code, BitVec.ofNat 16 n⟩

theorem uartSendLineOp_noPrompt {s s1 : State}
    (h : awaitByte s.cfg.uart.promptChar s.cfg.uart.tPromptMs s.prepared = (false, s1)) :
    uartSendLineOp s = (⟨0x06, 7, 0x03, BitVec.ofNat 16 (payloadLength s)⟩, s1) := by
  simp only [State.prepared, ← payload_length] at h
  simp only [uartSendLineOp, h, ← payload_length]
  rfl

theorem uartSendLineOp_prompted {s s1 s2 : State} {st : Status}
    (h : awaitByte s.cfg.uart.promptChar s.cfg.uart.tPromptMs s.prepared = (true, s1))
    (hr : awaitReply s.cfg.uart.expSendAck s.cfg.uart.tSendAckMs (s.sentFrom s1) = (st, s2)) :
    uartSendLineOp s = (sendAnswer st.code (payloadLength s), s2) := by
  simp only [State.prepared, ← payload_length] at h
  simp only [State.sentFrom] at hr
  simp only [uartSendLineOp, h, hr, ← payload_length, sendAnswer, Status.code_ok_iff, Bool.not_true, Bool.false_eq_true,
    if_false]
  split <;> rfl

/-! ## The acknowledgement that comes later -/

theorem State.Unanswered.until {s : State} {expected : Bytes} {dl dl' : Nat} (h : s.Unanswered expected dl)
    (harr : ∀ a ∈ s.env.arrivals, dl' ≤ a.1) : s.Unanswered expected dl' :=
  ⟨h.wf, h.queue, h.acc, harr⟩

/-- A reply line that arrives in one later millisecond before the deadline, after lines that decide nothing (R207). -/
theorem awaitReply_later {expected : Bytes} {timeout dl m : Nat} {text : Bytes} {stop : Byte} {later : List Arrival}
    {st : Status} {s : State} (h : s.Unanswered expected dl)
    (harr : s.env.arrivals = text.map (fun b => (m, b)) ++ (m, stop) :: later) (h1 : s.nowMs < m)
    (h2 : m < s.nowMs + timeout) (hne : text ≠ []) (hc : ∀ b ∈ text, b ≠ 0x0D ∧ b ≠ 0x0A)
    (hs : stop = 0x0D ∨ stop = 0x0A) (hlen : text.length ≤ s.cfg.uart.lineMax.val)
    (hacc : text.length ≤ s.cfg.uart.rxAccCap) (hcap : text.length < s.cfg.uart.rxQCap)
    (ho : lineOutcome s.cfg.uart expected text = some st) :
    ∃ s', awaitReply expected timeout s = (st, s') ∧ s'.nowMs = m := by
  obtain ⟨ignored, ends, hi, hends, hq⟩ := h.queue
  obtain ⟨fuel, hfuel⟩ := awaitReply_fuel hq
  obtain ⟨mem, n, hmem, hskip⟩ := awaitReplyLoop_skip (expected := expected) (dl := s.nowMs + timeout)
    (fuel := fuel + 2) h.wf hi hq (by omega)
  obtain ⟨rest, hloop⟩ := awaitReplyLoop_later (expected := expected) (dl := s.nowMs + timeout) (fuel := fuel + 1)
    (s := (s.withQ ends).withLine mem n) hmem hends h.acc harr h1 h2 hne hc hs hlen hacc hcap ho
  refine ⟨_, by rw [awaitReply, hfuel, hskip, hloop], ?_⟩
  show 1000 * m / 1000 = m
  omega

/-- The rest of a line whose first byte was the prompt, as it stands in RX.q after its idle commit: no line at all, or
one that decides nothing. -/
theorem unanswered_rest {s : State} {expected more : Bytes} {dl : Nat} (hwf : s.linebuf.wf = true)
    (hq : s.rx.q = more.map RxItem.byte ++ [RxItem.idleEol]) (ha : s.rx.acc = [])
    (hc : ∀ b ∈ more, b ≠ 0x0D ∧ b ≠ 0x0A) (hi : more ≠ [] → Ignored s.cfg.uart expected more)
    (hlen : more.length ≤ s.cfg.uart.lineMax.val) (harr : ∀ a ∈ s.env.arrivals, dl ≤ a.1) :
    s.Unanswered expected dl := by
  refine ⟨hwf, ?_, ha, harr⟩
  by_cases hne : more = []
  · subst hne
    exact ⟨[], [.idleEol], by simp, by simp [RxItem.ends], hq⟩
  · refine ⟨[⟨[], more, .idleEol⟩], [], ?_, by simp, hq.trans (by simp [queuedItems, QueuedLine.items])⟩
    intro x hx
    obtain rfl := List.mem_singleton.mp hx
    exact ⟨⟨⟨by simp, hne, hc, .inr (.inr rfl)⟩, hlen⟩, (ignored_iff _ _ _).mp (hi hne)⟩

end Sys2Proof.Machine
open Sys2Proof Sys2Proof.Machine

/-- Settles O48: a prompt that cannot come before the deadline is not found, so the wait ends exactly there. -/
theorem sendLineNoPrompt : Obligations.SendLineNoPrompt := by
  intro s hb hq hacc harr n
  have hlacks := awaitByteLoop_lacks s.cfg.uart.promptChar (s.t / 1000 + s.cfg.uart.tPromptMs)
    (s.accept.prepared.rxBudget + 1) s.accept.prepared ⟨⟨hacc, hq⟩, harr⟩
  obtain ⟨hon, hle, htrace, hbuf, hlen, hdl⟩ := awaitByte_spec s.cfg.uart.promptChar s.cfg.uart.tPromptMs
    s.accept.prepared
  have hop := uartSendLineOp_noPrompt (s := s.accept) (Prod.ext hlacks rfl)
  exact ⟨_, exec_answers hb rfl hop, rfl, htrace, le_antisymm hle (hdl hlacks), hon.session_eq, hbuf, hlen⟩

/-- Settles O47: prompt and reply in RX.q by `awaitByte_queued` and `awaitReply_queued`; a prompt seen at its idle
commit by `awaitByte_idle`, after which the acknowledgement is waited for as at the start of a wait. -/
theorem sendLineOutcome : Obligations.SendLineOutcome := by
  refine ⟨?_, ?_⟩
  · intro s junk ignored l rest code hb hwf ht1 ht2 hj hi hl hd hq n
    obtain ⟨st, hst, rfl⟩ := (decides_iff _ _ _ _).mp hd
    have hprompt := awaitByte_queued (s := s.accept.prepared) hj hq ht1
    obtain ⟨m, -, -, hreply⟩ := awaitReply_queued (rest := rest)
      (s := s.accept.sentFrom (s.accept.prepared.withQ (queuedItems ignored ++ l.items ++ rest))) hwf (fits_ignored hi)
      hl hst rfl ht2
    refine ⟨_, exec_answers hb rfl (uartSendLineOp_prompted (s := s.accept) hprompt hreply), rfl, ?_, rfl, rfl, rfl⟩
    exact List.append_assoc _ _ _
  · intro s m more later c seen n hb hwf hj ha harr hlater hm hseen hc hi hlen hacc hcap
    obtain ⟨s1, hprompt, hon, hnow, htrace, hbuf, hacc1, harr1, hq1⟩ :=
      awaitByte_idle (s := s.accept.prepared) hj ha harr hlater hm hseen hc hacc hcap
    have hcfg : (s.accept.sentFrom s1).cfg = s.cfg := hon.cfg_eq
    have hwait : (s.accept.sentFrom s1).Unanswered c.expSendAck (seen + 1) := by
      refine unanswered_rest (more := more) (hon.wf hwf) hq1 hacc1 (fun b hmem => hc b (by simp [hmem])) ?_ ?_ ?_
      · rw [hcfg]
        exact hi
      · rw [hcfg]
        exact hlen
      · intro a hmem
        exact hlater a (harr1 ▸ hmem)
    have hspec := awaitReply_spec c.expSendAck c.tSendAckMs (s.accept.sentFrom s1)
    cases hreply : awaitReply c.expSendAck c.tSendAckMs (s.accept.sentFrom s1) with
    | mk st s2 =>
      rw [hreply] at hspec
      obtain ⟨hon2, -, htrace2, -⟩ := hspec
      refine ⟨_, exec_answers hb rfl (uartSendLineOp_prompted (s := s.accept) hprompt hreply),
        hon2.session_eq.trans hon.session_eq, ?_, fun hquiet => ?_, ?_⟩
      · refine (htrace2.trans (congrArg (· ++ [_]) htrace)).trans ?_
        exact List.append_assoc _ _ _
      · obtain ⟨s', hend, hnow', -⟩ := awaitReply_unanswered (timeout := c.tSendAckMs)
          (hwait.until fun a hmem => hquiet a (harr1 ▸ hmem)) (Nat.add_le_add_right hnow.le _)
        obtain ⟨rfl, rfl⟩ := Prod.mk.inj (hreply.symm.trans hend)
        exact ⟨rfl, hnow'.trans (congrArg (· + c.tSendAckMs) hnow)⟩
      · intro reply stop m2 rest code hl hm2 hne hcr hs hlenr haccr hcapr hd
        obtain ⟨st', hst, rfl⟩ := (decides_iff _ _ _ _).mp hd
        have hafter : seen < m2 := hlater (m2, stop) (by rw [hl]; simp)
        have hnow1 : (s.accept.sentFrom s1).nowMs = seen := hnow
        obtain ⟨s', hend, hnow'⟩ := awaitReply_later (timeout := c.tSendAckMs) hwait (harr1.trans hl) (by omega)
          (by omega) hne hcr hs (by rwa [hcfg]) (by rwa [hcfg]) (by rwa [hcfg]) (by rwa [hcfg])
        obtain ⟨rfl, rfl⟩ := Prod.mk.inj (hreply.symm.trans hend)
        exact ⟨rfl, hnow'⟩
end

section
/-! PROOFS. The family 43_button_debouncer.md, part 1: what one poll makes of BTN, and what BTN_POLL makes of the state
(R251 to R253). -/

namespace Sys2Proof.Machine
namespace Btn

variable {c : BtnConfig} {settleMs longMs now : Nat} {p : Level} {b : Btn}

/-! ## Debouncing (R251) -/

@[simp] theorem debounce_phase : (b.debounce settleMs p now).phase = b.phase := by
  unfold debounce
  split
  · rfl
  · split <;> rfl

@[simp] theorem debounce_pressStartMs : (b.debounce settleMs p now).pressStartMs = b.pressStartMs := by
  unfold debounce
  split
  · rfl
  · split <;> rfl

/-- A raw level that differs from the last one restarts the settle time. -/
theorem debounce_changed (h : p ≠ b.rawPrev) :
    b.debounce settleMs p now = { b with rawPrev := p, rawSinceMs := now } := if_pos h

/-- A raw level seen unchanged for the settle time is accepted. -/
theorem debounce_settled (h : p = b.rawPrev) (hs : b.rawSinceMs + settleMs ≤ now) :
    b.debounce settleMs p now = { b with debouncedLevel := p } := by
  unfold debounce
  rw [if_neg (not_not_intro h)]
  by_cases hp : p = b.debouncedLevel
  · rw [if_neg (fun hc => hc.1 hp), hp]
  · rw [if_pos ⟨hp, hs⟩]

/-- An unchanged raw level leaves BTN alone when it is accepted already or has not settled. -/
theorem debounce_unchanged (h : p = b.rawPrev) (hk : p = b.debouncedLevel ∨ now < b.rawSinceMs + settleMs) :
    b.debounce settleMs p now = b := by
  unfold debounce
  rw [if_neg (not_not_intro h)]
  refine if_neg fun ⟨hp, hs⟩ => ?_
  obtain hd | hlt := hk
  · exact hp hd
  · omega

theorem debounce_rawPrev : (b.debounce settleMs p now).rawPrev = p := by
  by_cases h : p = b.rawPrev
  · by_cases hs : b.rawSinceMs + settleMs ≤ now
    · rw [debounce_settled h hs, h]
    · rw [debounce_unchanged h (.inr (not_le.mp hs)), h]
  · rw [debounce_changed h]

theorem debounce_rawSinceMs :
    (b.debounce settleMs p now).rawSinceMs = if p = b.rawPrev then b.rawSinceMs else now := by
  by_cases h : p = b.rawPrev
  · rw [if_pos h]
    by_cases hs : b.rawSinceMs + settleMs ≤ now
    · rw [debounce_settled h hs]
    · rw [debounce_unchanged h (.inr (not_le.mp hs))]
  · rw [if_neg h, debounce_changed h]

theorem debounce_debouncedLevel : (b.debounce settleMs p now).debouncedLevel =
    if p = b.rawPrev ∧ b.rawSinceMs + settleMs ≤ now then p else b.debouncedLevel := by
  by_cases h : p = b.rawPrev
  · by_cases hs : b.rawSinceMs + settleMs ≤ now
    · rw [debounce_settled h hs, if_pos ⟨h, hs⟩]
    · rw [debounce_unchanged h (.inr (not_le.mp hs)), if_neg fun hc => hs hc.2]
  · rw [debounce_changed h, if_neg fun hc => h hc.1]

/-! ## The event machine (R252) -/

theorem events_idle (h : b.phase = .idle) : b.events longMs now =
    (.noEvent, if b.debouncedLevel then { b with phase := .pressed, pressStartMs := now } else b) := by
  unfold events
  rw [h]
  dsimp only
  split <;> rfl

/-- In Pressed the long-press test comes first, whatever the level. -/
theorem events_held (h : b.phase = .pressed) (hheld : b.pressStartMs + longMs ≤ now) :
    b.events longMs now = (.longPress, { b with phase := .longReported }) := by
  unfold events
  rw [h]
  exact if_pos hheld

theorem events_released (h : b.phase = .pressed) (hheld : ¬ b.pressStartMs + longMs ≤ now)
    (hd : b.debouncedLevel = false) : b.events longMs now = (.shortPress, { b with phase := .idle }) := by
  unfold events
  rw [h]
  dsimp only
  rw [if_neg hheld, if_neg (by simp [hd])]

theorem events_pressed (h : b.phase = .pressed) (hheld : ¬ b.pressStartMs + longMs ≤ now)
    (hd : b.debouncedLevel = true) : b.events longMs now = (.noEvent, b) := by
  unfold events
  rw [h]
  dsimp only
  rw [if_neg hheld, if_pos hd]

theorem events_longReported (h : b.phase = .longReported) :
    b.events longMs now = (.noEvent, if b.debouncedLevel then b else { b with phase := .idle }) := by
  unfold events
  rw [h]
  dsimp only
  split <;> rfl

/-- The event machine writes the phase and, from Idle, the press time; nothing else. -/
theorem events_frame (longMs now : Nat) (b : Btn) : ∃ phase start, (b.phase ≠ .idle → start = b.pressStartMs) ∧
    (b.events longMs now).2 = { b with phase := phase, pressStartMs := start } := by
  cases h : b.phase with
  | idle =>
    rw [events_idle h]
    split
    · exact ⟨.pressed, now, fun hne => absurd rfl hne, rfl⟩
    · exact ⟨b.phase, b.pressStartMs, fun _ => rfl, rfl⟩
  | pressed =>
    by_cases hheld : b.pressStartMs + longMs ≤ now
    · rw [events_held h hheld]
      exact ⟨.longReported, b.pressStartMs, fun _ => rfl, rfl⟩
    · obtain hd | hd := b.debouncedLevel.eq_false_or_eq_true
      · rw [events_pressed h hheld hd]
        exact ⟨b.phase, b.pressStartMs, fun _ => rfl, rfl⟩
      · rw [events_released h hheld hd]
        exact ⟨.idle, b.pressStartMs, fun _ => rfl, rfl⟩
  | longReported =>
    rw [events_longReported h]
    split
    · exact ⟨b.phase, b.pressStartMs, fun _ => rfl, rfl⟩
    · exact ⟨.idle, b.pressStartMs, fun _ => rfl, rfl⟩

@[simp] theorem events_debouncedLevel : (b.events longMs now).2.debouncedLevel = b.debouncedLevel := by
  obtain ⟨phase, start, -, h⟩ := events_frame longMs now b
  rw [h]

@[simp] theorem events_rawPrev : (b.events longMs now).2.rawPrev = b.rawPrev := by
  obtain ⟨phase, start, -, h⟩ := events_frame longMs now b
  rw [h]

@[simp] theorem events_rawSinceMs : (b.events longMs now).2.rawSinceMs = b.rawSinceMs := by
  obtain ⟨phase, start, -, h⟩ := events_frame longMs now b
  rw [h]

theorem events_pressStartMs (hp : b.phase ≠ .idle) : (b.events longMs now).2.pressStartMs = b.pressStartMs := by
  obtain ⟨phase, start, hstart, h⟩ := events_frame longMs now b
  rw [h]
  exact hstart hp

/-! ## One poll (R253) -/

theorem poll_changed (h : p ≠ b.rawPrev) :
    b.poll c p now = Btn.events c.longMs now { b with rawPrev := p, rawSinceMs := now } :=
  congrArg (events c.longMs now) (debounce_changed h)

theorem poll_settled (h : p = b.rawPrev) (hs : b.rawSinceMs + c.settleMs ≤ now) :
    b.poll c p now = Btn.events c.longMs now { b with debouncedLevel := p } :=
  congrArg (events c.longMs now) (debounce_settled h hs)

theorem poll_unchanged (h : p = b.rawPrev) (hk : p = b.debouncedLevel ∨ now < b.rawSinceMs + c.settleMs) :
    b.poll c p now = b.events c.longMs now :=
  congrArg (events c.longMs now) (debounce_unchanged h hk)

@[simp] theorem poll_rawPrev : (b.poll c p now).2.rawPrev = p := events_rawPrev.trans debounce_rawPrev

theorem poll_rawSinceMs : (b.poll c p now).2.rawSinceMs = if p = b.rawPrev then b.rawSinceMs else now :=
  events_rawSinceMs.trans debounce_rawSinceMs

theorem poll_debouncedLevel : (b.poll c p now).2.debouncedLevel =
    if p = b.rawPrev ∧ b.rawSinceMs + c.settleMs ≤ now then p else b.debouncedLevel :=
  events_debouncedLevel.trans debounce_debouncedLevel

theorem poll_pressStartMs (hp : b.phase ≠ .idle) : (b.poll c p now).2.pressStartMs = b.pressStartMs :=
  (events_pressStartMs (debounce_phase.trans_ne hp)).trans debounce_pressStartMs

theorem poll_idle (h : b.phase = .idle) : (b.poll c p now).1 = .noEvent ∧
    ((b.poll c p now).2.debouncedLevel = true →
      (b.poll c p now).2.phase = .pressed ∧ (b.poll c p now).2.pressStartMs = now) ∧
    ((b.poll c p now).2.debouncedLevel = false →
      (b.poll c p now).2.phase = .idle ∧ (b.poll c p now).2.pressStartMs = b.pressStartMs) := by
  have hphase : (b.debounce c.settleMs p now).phase = .idle := debounce_phase.trans h
  rw [poll, events_debouncedLevel, events_idle hphase]
  refine ⟨rfl, fun hd => ?_, fun hd => ?_⟩
  · rw [hd]
    exact ⟨rfl, rfl⟩
  · rw [hd]
    exact ⟨hphase, debounce_pressStartMs⟩

theorem poll_held (h : b.phase = .pressed) (hheld : b.pressStartMs + c.longMs ≤ now) :
    (b.poll c p now).2.phase = .longReported ∧ (b.poll c p now).1 = .longPress := by
  rw [poll, events_held (debounce_phase.trans h) (debounce_pressStartMs.symm ▸ hheld)]
  exact ⟨rfl, rfl⟩

theorem poll_released (h : b.phase = .pressed) (hheld : ¬ b.pressStartMs + c.longMs ≤ now)
    (hd : (b.poll c p now).2.debouncedLevel = false) :
    (b.poll c p now).2.phase = .idle ∧ (b.poll c p now).1 = .shortPress := by
  rw [poll, events_released (debounce_phase.trans h) (debounce_pressStartMs.symm ▸ hheld)
    (events_debouncedLevel.symm.trans hd)]
  exact ⟨rfl, rfl⟩

theorem poll_pressed (h : b.phase = .pressed) (hheld : ¬ b.pressStartMs + c.longMs ≤ now)
    (hd : (b.poll c p now).2.debouncedLevel = true) :
    (b.poll c p now).2.phase = .pressed ∧ (b.poll c p now).1 = .noEvent := by
  have hphase : (b.debounce c.settleMs p now).phase = .pressed := debounce_phase.trans h
  rw [poll, events_pressed hphase (debounce_pressStartMs.symm ▸ hheld) (events_debouncedLevel.symm.trans hd)]
  exact ⟨hphase, rfl⟩

theorem poll_longReported (h : b.phase = .longReported) : (b.poll c p now).1 = .noEvent ∧
    (b.poll c p now).2.phase = if (b.poll c p now).2.debouncedLevel then .longReported else .idle := by
  have hphase : (b.debounce c.settleMs p now).phase = .longReported := debounce_phase.trans h
  rw [poll, events_debouncedLevel, events_longReported hphase]
  refine ⟨rfl, ?_⟩
  split
  · exact hphase
  · rfl

end Btn

/-! ## BTN_POLL (R253) -/

theorem btnResponse_eq (r : BtnEvent × Btn) :
    btnResponse r = ⟨0x00, r.2.phase.code, if r.2.debouncedLevel then 1 else 0, r.1.code⟩ := by
  unfold btnResponse
  cases r.2.debouncedLevel <;> rfl

/-- A sample of the button with a scripted answer consumes it and appends its event (R250). -/
theorem State.sampleBtn_scripted {s : State} {p : Level} {rest : List Level} (h : s.env.btnAnswers = p :: rest) :
    s.sampleBtn =
      (p, { s with trace := s.trace ++ [.sampleBtn p], env := { s.env with btnAnswers := rest } }) := by
  unfold State.sampleBtn State.drawBtn
  rw [h]
  rfl

/-- BTN_POLL, accepted with the answer `p`: one poll of BTN at the present millisecond (R253). -/
theorem exec_btnPoll {s : State} {p : Level} {rest : List Level} (hb : s.busy = false)
    (h : s.env.btnAnswers = p :: rest) :
    exec .btnPoll s = .next { s.pump with
      rsp := btnResponse (s.btn.poll s.cfg.btn p s.nowMs)
      trace := s.trace ++ [.sampleBtn p]
      env := { s.pump.env with btnAnswers := rest }
      btn := (s.btn.poll s.cfg.btn p s.nowMs).2 } := by
  have hbody : Instr.body .btnPoll s.accept = (btnResponse (s.btn.poll s.cfg.btn p s.nowMs),
      { s.accept with
        trace := s.trace ++ [.sampleBtn p]
        env := { s.pump.env with btnAnswers := rest }
        btn := (s.btn.poll s.cfg.btn p s.nowMs).2 }) := by
    simp only [Instr.body, btnPollOp, State.sampleBtn_scripted (s := s.accept) h]
    rfl
  have hbusy : s.pump.busy = false := hb
  rw [exec_answers hb rfl hbody, State.respond, State.accept_eq_pump, ← hbusy]

end Sys2Proof.Machine
open Sys2Proof Sys2Proof.Machine

/-- Settles O50: BTN_POLL is one poll of BTN, `exec_btnPoll`; its clauses are those of the debouncer and, phase by
phase, of the event machine. -/
theorem buttonPollExact : Obligations.ButtonPollExact := by
  intro s p rest hb h
  dsimp only
  have hsettled : (s.cfg.btn.settleMs : Int) ≤ ((s.t / 1000 : Nat) : Int) - (s.btn.rawSinceMs : Int) ↔
      s.btn.rawSinceMs + s.cfg.btn.settleMs ≤ s.nowMs := by
    unfold State.nowMs
    omega
  have hheld : (s.cfg.btn.longMs : Int) ≤ ((s.t / 1000 : Nat) : Int) - (s.btn.pressStartMs : Int) ↔
      s.btn.pressStartMs + s.cfg.btn.longMs ≤ s.nowMs := by
    unfold State.nowMs
    omega
  rw [hsettled, hheld]
  refine ⟨_, (s.btn.poll s.cfg.btn p s.nowMs).1.code, exec_btnPoll hb h, rfl, Btn.poll_rawPrev, Btn.poll_rawSinceMs,
    fun hs => Btn.poll_debouncedLevel.trans (if_pos hs), fun hs => Btn.poll_debouncedLevel.trans (if_neg hs),
    fun hp => ?_, Btn.poll_pressStartMs, fun hp hl => ?_, fun hp hl hd => ?_, fun hp hl hd => ?_, fun hp => ?_,
    btnResponse_eq _⟩
  · obtain ⟨hev, hphase⟩ := Btn.poll_idle hp
    exact ⟨congrArg BtnEvent.code hev, hphase⟩
  · obtain ⟨hphase, hev⟩ := Btn.poll_held hp hl
    exact ⟨hphase, congrArg BtnEvent.code hev⟩
  · obtain ⟨hphase, hev⟩ := Btn.poll_released hp hl hd
    exact ⟨hphase, congrArg BtnEvent.code hev⟩
  · obtain ⟨hphase, hev⟩ := Btn.poll_pressed hp hl hd
    exact ⟨hphase, congrArg BtnEvent.code hev⟩
  · obtain ⟨hev, hphase⟩ := Btn.poll_longReported hp
    exact ⟨congrArg BtnEvent.code hev, hphase⟩
end

section
/-! PROOFS. The family 43_button_debouncer.md, part 2: the button over a sequence of polls (R251, R252; S3, S4). -/

namespace Sys2Proof.Machine
namespace Btn

variable {c : BtnConfig} {b : Btn}

theorem polls_append (c : BtnConfig) (l l' : List (Level × Nat)) (b : Btn) : polls c (l ++ l') b =
    ((polls c l b).1 ++ (polls c l' (polls c l b).2).1, (polls c l' (polls c l b).2).2) := by
  induction l generalizing b with
  | nil => rfl
  | cons x l ih => simp only [List.cons_append, polls, ih]

/-! ## The accepted level over a sequence of polls (S3) -/

/-- While every change of the raw level away from the accepted one is less than the settle time old, the accepted level
stands: an unsettled raw level was first seen at `t0` or later. -/
theorem polls_bounce {t0 : Nat} {l : List (Level × Nat)} (hraw : b.rawPrev = b.debouncedLevel ∨ t0 ≤ b.rawSinceMs)
    (hl : ∀ x ∈ l, t0 ≤ x.2 ∧ x.2 < t0 + c.settleMs) : (polls c l b).2.debouncedLevel = b.debouncedLevel := by
  induction l generalizing b with
  | nil => rfl
  | cons x l ih =>
    obtain ⟨p, now⟩ := x
    obtain ⟨⟨hlo, hhi⟩, hrest⟩ := List.forall_mem_cons.mp hl
    have hkept : (b.poll c p now).2.debouncedLevel = b.debouncedLevel := by
      rw [poll_debouncedLevel]
      split
      · next hs =>
        obtain ⟨rfl, hs⟩ := hs
        exact hraw.resolve_right (by dsimp only at hhi; omega)
      · rfl
    have hraw' : (b.poll c p now).2.rawPrev = (b.poll c p now).2.debouncedLevel ∨
        t0 ≤ (b.poll c p now).2.rawSinceMs := by
      rw [poll_rawPrev, hkept, poll_rawSinceMs]
      split
      · next hp => exact hp ▸ hraw
      · exact .inr hlo
    exact (ih hraw' hrest).trans hkept

/-- A raw level seen unchanged is the accepted one after polls of which one is the settle time after it was first seen,
and otherwise only if it was before them. -/
theorem polls_unchanged {times : List Nat} :
    (polls c (times.map fun u => (b.rawPrev, u)) b).2.debouncedLevel = b.rawPrev ↔
      b.debouncedLevel = b.rawPrev ∨ ∃ u ∈ times, b.rawSinceMs + c.settleMs ≤ u := by
  induction times generalizing b with
  | nil => simp [polls]
  | cons u times ih =>
    have hraw : (b.poll c b.rawPrev u).2.rawPrev = b.rawPrev := poll_rawPrev
    have hsince : (b.poll c b.rawPrev u).2.rawSinceMs = b.rawSinceMs := poll_rawSinceMs.trans (if_pos rfl)
    have hlevel : (b.poll c b.rawPrev u).2.debouncedLevel = b.rawPrev ↔
        b.debouncedLevel = b.rawPrev ∨ b.rawSinceMs + c.settleMs ≤ u := by
      rw [poll_debouncedLevel]
      split
      · next hs => simp [hs.2]
      · next hs => simp [show ¬ b.rawSinceMs + c.settleMs ≤ u from fun h => hs ⟨rfl, h⟩]
    have hrest := ih (b := (b.poll c b.rawPrev u).2)
    rw [hraw, hsince, hlevel] at hrest
    rw [List.exists_mem_cons_iff, ← or_assoc]
    exact hrest

/-! ## Polls that change nothing -/

/-- At `now` the event machine has nothing to do: the level agrees with the phase and no long press is due (R252). -/
def Still (c : BtnConfig) (now : Nat) (b : Btn) : Prop :=
  match b.phase with
  | .idle => b.debouncedLevel = false
  | .pressed => b.debouncedLevel = true ∧ now < b.pressStartMs + c.longMs
  | .longReported => b.debouncedLevel = true

theorem events_still {now : Nat} (h : b.Still c now) : b.events c.longMs now = (.noEvent, b) := by
  unfold Still at h
  cases hp : b.phase <;> rw [hp] at h
  case idle => rw [events_idle hp, h]; rfl
  case pressed => exact events_pressed hp (not_le.mpr h.2) h.1
  case longReported => rw [events_longReported hp, h]; rfl

/-- The polls `l` take `b` to `b'` and report nothing. -/
def Silent (c : BtnConfig) (l : List (Level × Nat)) (b b' : Btn) : Prop :=
  polls c l b = (List.replicate l.length .noEvent, b')

theorem Silent.polls_eq {l : List (Level × Nat)} {b' : Btn} (h : Silent c l b b') :
    polls c l b = (List.replicate l.length .noEvent, b') := h

theorem Silent.cons {p : Level} {u : Nat} {l : List (Level × Nat)} {b' b'' : Btn}
    (h : b.poll c p u = (.noEvent, b')) (h' : Silent c l b' b'') : Silent c ((p, u) :: l) b b'' := by
  simp only [Silent, polls, h, h'.polls_eq]
  rfl

theorem Silent.append {l l' : List (Level × Nat)} {b' b'' : Btn} (h : Silent c l b b') (h' : Silent c l' b' b'') :
    Silent c (l ++ l') b b'' := by
  rw [Silent, polls_append, h.polls_eq, h'.polls_eq, List.length_append, List.replicate_add]

/-- Polls of an unchanged raw level, accepted already or not settled by any of them, change nothing. -/
theorem silent_unchanged {p : Level} {times : List Nat} (hraw : p = b.rawPrev)
    (hkept : ∀ u ∈ times, p = b.debouncedLevel ∨ u < b.rawSinceMs + c.settleMs) (hstill : ∀ u ∈ times, b.Still c u) :
    Silent c (times.map fun u => (p, u)) b b := by
  induction times with
  | nil => rfl
  | cons u times ih =>
    obtain ⟨hk, hkept⟩ := List.forall_mem_cons.mp hkept
    obtain ⟨hs, hstill⟩ := List.forall_mem_cons.mp hstill
    exact .cons ((poll_unchanged hraw hk).trans (events_still hs)) (ih hkept hstill)

/-- Polls of a new raw level within the settle time of the first of them only record it. -/
theorem silent_unsettled {p : Level} {t0 : Nat} {times : List Nat} (hraw : p ≠ b.rawPrev)
    (htimes : ∀ u ∈ times, u < t0 + c.settleMs) (hstill : ∀ u ∈ t0 :: times, b.Still c u) :
    Silent c ((t0 :: times).map fun u => (p, u)) b { b with rawPrev := p, rawSinceMs := t0 } := by
  obtain ⟨hs, hstill⟩ := List.forall_mem_cons.mp hstill
  have hfirst : b.poll c p t0 = (.noEvent, { b with rawPrev := p, rawSinceMs := t0 }) :=
    (poll_changed hraw).trans (events_still hs)
  exact .cons hfirst (silent_unchanged rfl (fun u hu => .inr (htimes u hu)) hstill)

/-! ## A press, a hold and a release (S4) -/

/-- The button in Pressed since `ta`, with the raw level `raw` seen since `since`. -/
def pressedAt (ta : Nat) (raw : Level) (since : Nat) : Btn := ⟨true, ta, .pressed, raw, since⟩

/-- A press from a released idle button moves it to Pressed, without an event, at the poll that accepts it. -/
theorem silent_press {t0 ta : Nat} {before : List Nat} (hphase : b.phase = .idle) (hlevel : b.debouncedLevel = false)
    (hraw : b.rawPrev = false) (hbefore : ∀ u ∈ before, u < t0 + c.settleMs) (hta : t0 + c.settleMs ≤ ta) :
    Silent c ((t0 :: before ++ [ta]).map fun u => (true, u)) b (pressedAt ta true t0) := by
  have hstill : ∀ u ∈ t0 :: before, b.Still c u := fun u _ => by simp [Still, hphase, hlevel]
  have haccept : Btn.poll c true ta { b with rawPrev := true, rawSinceMs := t0 } = (.noEvent, pressedAt ta true t0) :=
    Eq.trans (poll_settled rfl hta) (events_idle hphase)
  rw [List.map_append]
  exact (silent_unsettled (by simp [hraw]) hbefore hstill).append (.cons haccept rfl)

/-- A held button reports one LongPress when a poll finds the threshold reached, and then nothing. -/
theorem polls_hold (t0 ta : Nat) {times : List Nat} (h : ∃ u ∈ times, ta + c.longMs ≤ u) :
    ∃ m n, polls c (times.map fun u => (true, u)) (pressedAt ta true t0) =
      (List.replicate m .noEvent ++ .longPress :: List.replicate n .noEvent, ⟨true, ta, .longReported, true, t0⟩) := by
  induction times with
  | nil => simp at h
  | cons u times ih =>
    by_cases hu : ta + c.longMs ≤ u
    · have hpoll : Btn.poll c true u (pressedAt ta true t0) = (.longPress, ⟨true, ta, .longReported, true, t0⟩) :=
        Eq.trans (poll_unchanged rfl (.inl rfl)) (events_held rfl hu)
      have hrest : Silent c (times.map fun u => (true, u)) ⟨true, ta, .longReported, true, t0⟩
          ⟨true, ta, .longReported, true, t0⟩ :=
        silent_unchanged rfl (fun _ _ => .inl rfl) fun _ _ => rfl
      refine ⟨0, (times.map fun u => (true, u)).length, ?_⟩
      simp only [List.map_cons, polls, hpoll, hrest.polls_eq]
      rfl
    · obtain ⟨m, n, hrest⟩ := ih (by simpa [hu] using h)
      have hpoll : Btn.poll c true u (pressedAt ta true t0) = (.noEvent, pressedAt ta true t0) :=
        Eq.trans (poll_unchanged rfl (.inl rfl)) (events_still ⟨rfl, not_le.mp hu⟩)
      refine ⟨m + 1, n, ?_⟩
      simp only [List.map_cons, polls, hpoll, hrest]
      rfl

/-- The press is over for the event machine: reported as a LongPress, or released. -/
def Spent (b : Btn) : Prop := b.phase = .longReported ∨ (b.phase = .idle ∧ b.debouncedLevel = false)

/-- A released raw level cannot start a press: a poll of it reports nothing once the press is spent. -/
theorem poll_spent {u : Nat} (h : b.Spent) : (b.poll c false u).1 = .noEvent ∧ (b.poll c false u).2.Spent := by
  obtain hp | ⟨hp, hd⟩ := h
  · obtain ⟨hev, hphase⟩ := poll_longReported (c := c) (p := false) (now := u) hp
    refine ⟨hev, ?_⟩
    split at hphase
    · exact .inl hphase
    · next hd => exact .inr ⟨hphase, Bool.eq_false_of_not_eq_true hd⟩
  · obtain ⟨hev, -, hreleased⟩ := poll_idle (c := c) (p := false) (now := u) hp
    have hlevel : (b.poll c false u).2.debouncedLevel = false := by
      rw [poll_debouncedLevel, hd, ite_self]
    exact ⟨hev, .inr ⟨(hreleased hlevel).1, hlevel⟩⟩

theorem polls_spent {times : List Nat} (h : b.Spent) :
    (polls c (times.map fun u => (false, u)) b).1 = List.replicate times.length .noEvent := by
  induction times generalizing b with
  | nil => rfl
  | cons u times ih =>
    obtain ⟨hev, hspent⟩ := poll_spent (c := c) (u := u) h
    simp only [List.map_cons, polls, hev, ih hspent]
    rfl

end Btn
end Sys2Proof.Machine
open Sys2Proof Sys2Proof.Machine

/-- Settles O51: `Btn.polls_bounce`, from a raw level equal to the accepted one. -/
theorem bounceIgnored : Obligations.BounceIgnored :=
  fun _ _ _ _ hraw hl => Btn.polls_bounce (.inl hraw) hl

/-- Settles O52: the first poll restarts the settle time, from where `Btn.polls_unchanged` counts. -/
theorem cleanTransitionAccepted : Obligations.CleanTransitionAccepted := by
  intro c b x t0 times hraw hx
  have hnew : x ≠ b.rawPrev := hraw ▸ hx
  have hsince : (b.poll c x t0).2.rawSinceMs = t0 := Btn.poll_rawSinceMs.trans (if_neg hnew)
  have hlevel : (b.poll c x t0).2.debouncedLevel = b.debouncedLevel :=
    Btn.poll_debouncedLevel.trans (if_neg fun h => hnew h.1)
  have hrest := Btn.polls_unchanged (c := c) (b := (b.poll c x t0).2) (times := times)
  rw [Btn.poll_rawPrev, hsince, hlevel, or_iff_right (Ne.symm hx)] at hrest
  exact hrest

/-- Settles O53: the press by `Btn.silent_press`, the hold by `Btn.polls_hold`, the release by `Btn.polls_spent`. -/
theorem holdGivesOneLongPress : Obligations.HoldGivesOneLongPress := by
  intro c b t0 ta tl before mid after release hphase hlevel hraw _ hbefore hta htl
  have hpress := Btn.silent_press hphase hlevel hraw hbefore hta
  obtain ⟨m, n, hhold⟩ := Btn.polls_hold (c := c) t0 ta (times := mid ++ tl :: after) ⟨tl, by simp, htl⟩
  have hrelease := Btn.polls_spent (c := c) (times := release)
    (b := ⟨true, ta, .longReported, true, t0⟩) (.inl rfl)
  have htimes : t0 :: before ++ ta :: mid ++ tl :: after = t0 :: before ++ [ta] ++ (mid ++ tl :: after) := by simp
  dsimp only
  rw [htimes, List.map_append, Btn.polls_append, Btn.polls_append, hpress.polls_eq, hhold, hrelease]
  simp [List.count_replicate]

/-- Settles O54: the press, the rest of it and the unsettled release are silent; the poll that accepts the release comes
before the threshold, so it reports the ShortPress; after it `Btn.polls_spent`. -/
theorem shortPressOnce : Obligations.ShortPressOnce := by
  intro c b t0 ta r0 tr before mid between after hphase hlevel hraw hrising hbefore hta hbetween htr hshort
  have hsplit : t0 :: before ++ ta :: mid = t0 :: before ++ [ta] ++ mid := by simp
  have hstill : ∀ u ∈ mid ++ r0 :: between, (Btn.pressedAt ta true t0).Still c u := fun u hu => by
    have hle : u ≤ tr := by
      rw [Rising, hsplit, List.append_assoc _ mid] at hrising
      exact (List.pairwise_append.mp hrising).2.2 u (List.mem_append_right _ hu) tr (List.mem_cons_self ..)
    exact ⟨rfl, hle.trans_lt hshort⟩
  have hsilent : Btn.Silent c ((t0 :: before ++ ta :: mid).map (fun u => (true, u)) ++
      (r0 :: between).map fun u => (false, u)) b (Btn.pressedAt ta false r0) := by
    rw [hsplit, List.map_append]
    exact ((Btn.silent_press hphase hlevel hraw hbefore hta).append
      (Btn.silent_unchanged rfl (fun _ _ => .inl rfl) fun u hu => hstill u (List.mem_append_left _ hu))).append
      (Btn.silent_unsettled Bool.false_ne_true hbetween fun u hu => hstill u (List.mem_append_right _ hu))
  have haccept : Btn.poll c false tr (Btn.pressedAt ta false r0) = (.shortPress, ⟨false, ta, .idle, false, r0⟩) :=
    Eq.trans (Btn.poll_settled rfl htr) (Btn.events_released rfl (not_le.mpr hshort) rfl)
  have hafter := Btn.polls_spent (c := c) (times := after) (b := ⟨false, ta, .idle, false, r0⟩) (.inr ⟨rfl, rfl⟩)
  dsimp only
  rw [Btn.polls_append, hsilent.polls_eq]
  simp only [List.map_cons, Btn.polls, haccept, hafter]
  simp [List.count_replicate]
end

section
/-! PROOFS. The family 44_duty_alarm.md, part 1: the auto duty and the motor (R270, R275, R276). -/

namespace Sys2Proof.Machine

/-! ## The auto duty (R270) -/

section
variable {c : DutyConfig} {t : Int}

theorem autoDuty_low (h : t ≤ c.tLow) : autoDuty c t = 0 := if_pos h

theorem autoDuty_high (hl : c.tLow < t) (hh : c.tHigh ≤ t) : autoDuty c t = 100 :=
  (if_neg (not_le.mpr hl)).trans (if_pos hh)

/-- Between the thresholds the duty is the ramp, in integers: neither subtraction of the model is cut off at 0. -/
theorem autoDuty_ramp (hl : c.tLow < t) (hh : t < c.tHigh) : (autoDuty c t : Int) =
    (c.rampMin.val : Int) + (100 - (c.rampMin.val : Int)) * (t - c.tLow) / (c.tHigh - c.tLow) := by
  have hmin : c.rampMin.val ≤ 100 := Nat.le_of_lt_succ c.rampMin.isLt
  unfold autoDuty
  rw [if_neg (not_le.mpr hl), if_neg (not_le.mpr hh)]
  push_cast [hmin]
  rw [Int.toNat_of_nonneg (sub_nonneg.mpr hl.le), Int.toNat_of_nonneg (by omega)]

end

/-- The duty does not fall: on the ramp by the monotonicity of floor division, and past it it is 100. -/
theorem autoDuty_mono (c : DutyConfig) {t u : Int} (h : t ≤ u) : autoDuty c t ≤ autoDuty c u := by
  rcases le_or_gt t c.tLow with htl | htl
  · rw [autoDuty_low htl]
    exact Nat.zero_le _
  · have hul : c.tLow < u := htl.trans_le h
    rcases le_or_gt c.tHigh u with huh | huh
    · rw [autoDuty_high hul huh]
      exact autoDuty_le c t
    · have hmin : c.rampMin.val ≤ 100 := Nat.le_of_lt_succ c.rampMin.isLt
      have hramp : (100 - (c.rampMin.val : Int)) * (t - c.tLow) / (c.tHigh - c.tLow) ≤
          (100 - (c.rampMin.val : Int)) * (u - c.tLow) / (c.tHigh - c.tLow) :=
        Int.ediv_le_ediv (by omega) (mul_le_mul_of_nonneg_left (by omega) (by omega))
      have ht := autoDuty_ramp htl (h.trans_lt huh)
      have hu := autoDuty_ramp hul huh
      omega

/-- DUTY_AUTO, accepted: the receive steps due, and RSP (R270). -/
theorem exec_dutyAuto {s : State} (v : Half) (hb : s.busy = false) : exec (.dutyAuto v) s =
    .next { s.pump with rsp := ⟨0x00, 0, 0, BitVec.ofNat 16 (autoDuty s.cfg.duty v.toInt)⟩ } := by
  rw [exec_accepted hb rfl, ← sext16_eq_toInt]
  exact congrArg Host.Outcome.next (State.accept_respond hb _)

/-! ## The motor (R275, R276) -/

namespace Motor

variable (c : DutyConfig) (rv : Bool) (ev : EventArg) (t : Int) (m : Motor)

theorem update_mode : (m.update c rv ev t).mode = (m.press c.motorMap ev).mode := rfl

theorem update_manualOn : (m.update c rv ev t).manualOn = (m.press c.motorMap ev).manualOn := rfl

/-- The duty is R276's for the mode and the request that the event leaves: a percentage fits in its seven bits. -/
theorem update_dutyPercent : (m.update c rv ev t).dutyPercent.toNat =
    motorDuty c (m.update c rv ev t).mode (m.update c rv ev t).manualOn rv t :=
  Nat.mod_eq_of_lt ((motorDuty_le c _ _ rv t).trans_lt (by decide))

/-- A long press toggles the mode only. -/
theorem press_longPress : (m.press .r275 .longPress).mode ≠ m.mode ∧
    (m.press .r275 .longPress).manualOn = m.manualOn := by
  obtain ⟨mode, manualOn, duty⟩ := m
  cases mode <;> cases manualOn <;> exact ⟨nofun, rfl⟩

/-- A short press toggles the request in Manual and does nothing in Auto. -/
theorem press_shortPress : (m.press .r275 .shortPress).mode = m.mode ∧
    (m.press .r275 .shortPress).manualOn = if m.mode = .manual then !m.manualOn else m.manualOn := by
  obtain ⟨mode, manualOn, duty⟩ := m
  cases mode <;> cases manualOn <;> exact ⟨rfl, rfl⟩

theorem flags_eq : m.flags = (if m.manualOn then 2 else 0) + (if m.mode = .manual then 1 else 0) := by
  obtain ⟨mode, manualOn, duty⟩ := m
  cases mode <;> cases manualOn <;> rfl

end Motor

/-- MOTOR_UPDATE, accepted: the receive steps due, RSP and MOTOR (R275). -/
theorem exec_motorUpdate {s : State} (rv : Bool) {ev : EventArg} (v : Half) (hb : s.busy = false)
    (hev : ev ≠ .reserved3) : exec (.motorUpdate rv ev v) s =
    .next { s.pump with
      rsp := ⟨0x00, (s.motor.update s.cfg.duty rv ev v.toInt).flags, 0,
        (s.motor.update s.cfg.duty rv ev v.toInt).dutyPercent.zeroExtend 16⟩
      motor := s.motor.update s.cfg.duty rv ev v.toInt } := by
  have hw : (Instr.motorUpdate rv ev v).wf s.cfg = true := decide_eq_true hev
  rw [exec_accepted hb hw, ← sext16_eq_toInt]
  exact congrArg Host.Outcome.next (State.accept_respond
    (s := { s with motor := s.motor.update s.cfg.duty rv ev (sext16 v) }) hb _)

end Sys2Proof.Machine
open Sys2Proof Sys2Proof.Machine

/-- Settles O55: `exec_dutyAuto`, and the duty's three clauses; the bounds of the ramp are those of a floor division. -/
theorem autoDutyExact : Obligations.AutoDutyExact := by
  intro s v hb
  refine ⟨_, autoDuty_le _ _, exec_dutyAuto v hb, autoDuty_low, autoDuty_high, fun hl hh => ?_⟩
  have hramp := autoDuty_ramp hl hh
  have hpos : 0 < s.cfg.duty.tHigh - s.cfg.duty.tLow := by omega
  refine ⟨hramp, ?_, ?_⟩
  · rw [hramp, add_sub_cancel_left]
    exact Int.mul_ediv_self_le hpos.ne'
  · rw [hramp, add_sub_cancel_left, mul_add_one]
    exact Int.lt_mul_ediv_self_add hpos

/-- Settles O56: `autoDuty_mono` and the bound `autoDuty_le`. -/
theorem autoDutyMonotone : Obligations.AutoDutyMonotone :=
  fun c _ u h => ⟨autoDuty_mono c h, autoDuty_le c u⟩

/-- Settles O57: the duty by `Motor.update_dutyPercent`, mode and request by what the event leaves of them. -/
theorem motorUpdateExact : Obligations.MotorUpdateExact := by
  intro s rv ev v hb hev
  have hduty := Motor.update_dutyPercent s.cfg.duty rv ev v.toInt s.motor
  refine ⟨_, exec_motorUpdate rv v hb hev, rfl,
    fun hm hon => by rw [hduty, hm, hon]; rfl, fun hm hon => by rw [hduty, hm, hon]; rfl,
    fun hm hrv => by rw [hduty, hm, hrv]; rfl, fun hm hrv => by rw [hduty, hm, hrv]; rfl,
    ?_, ?_, fun hmap => ⟨?_, ?_⟩⟩
  · rw [← Motor.flags_eq, BitVec.ofNat_toNat]
  · rintro rfl
    exact ⟨rfl, rfl⟩
  · rintro rfl
    dsimp only
    rw [Motor.update_mode, Motor.update_manualOn, hmap]
    exact s.motor.press_longPress
  · rintro rfl
    dsimp only
    rw [Motor.update_mode, Motor.update_manualOn, hmap]
    exact s.motor.press_shortPress
end

section
/-! PROOFS. The family 44_duty_alarm.md, part 2: the alarms, one update and a sequence of them (R280, R281, R283). -/

namespace Sys2Proof.Machine

/-- A flag after a reading: set by the outer threshold, kept by the inner one (R281). -/
theorem hyst_iff (flag : Bool) (x high hystv : Int) : hyst flag x high hystv = true ↔
    (flag = false ∧ high < x) ∨ (flag = true ∧ high - hystv ≤ x) := by
  unfold hyst
  cases flag <;> simp

/-- A pattern may beep when it never has or its cooldown has elapsed, the difference of times in integers (R283). -/
theorem mayBeep_iff (beeped : Bool) (lastMs cooldownMs now : Nat) : mayBeep beeped lastMs cooldownMs now = true ↔
    beeped = false ∨ (cooldownMs : Int) ≤ (now : Int) - (lastMs : Int) := by
  have hcool : lastMs + cooldownMs ≤ now ↔ (cooldownMs : Int) ≤ (now : Int) - (lastMs : Int) := by omega
  simp [mayBeep, hcool]

namespace Beep

theorem code_eq_iff {b b' : Beep} : b.code = b'.code ↔ b = b' := by
  cases b <;> cases b' <;> decide

theorem code_eq_zero {b : Beep} : b.code = 0 ↔ b = .none := code_eq_iff (b' := .none)

theorem code_eq_one {b : Beep} : b.code = 1 ↔ b = .temperatureOnly := code_eq_iff (b' := .temperatureOnly)

theorem code_eq_two {b : Beep} : b.code = 2 ↔ b = .humidityOnly := code_eq_iff (b' := .humidityOnly)

theorem code_eq_three {b : Beep} : b.code = 3 ↔ b = .both := code_eq_iff (b' := .both)

theorem eq_none_or_pattern (b : Beep) : b = .none ∨ b = .temperatureOnly ∨ b = .humidityOnly ∨ b = .both := by
  cases b <;> decide

end Beep

namespace Alarm

/-! ## A beep request, pattern by pattern (R283)

The three patterns have a time and a bit each; what a request does is the same for the three. -/

/-- The pattern that the two flags select. -/
def pattern (a : Alarm) : Beep :=
  match a.temperatureAbnormal, a.humidityAbnormal with
  | true, true => .both
  | true, false => .temperatureOnly
  | false, true => .humidityOnly
  | false, false => .none

/-- The bit of a pattern: it has beeped. -/
def beeped (a : Alarm) : Beep → Bool
  | .none => false
  | .temperatureOnly => a.tempBeeped
  | .humidityOnly => a.humBeeped
  | .both => a.bothBeeped

/-- The time of a pattern's last beep. -/
def lastBeepMs (a : Alarm) : Beep → Nat
  | .none => 0
  | .temperatureOnly => a.lastTempBeepMs
  | .humidityOnly => a.lastHumidityBeepMs
  | .both => a.lastBothBeepMs

/-- Write the time and the bit of a pattern. -/
def stamp (a : Alarm) (now : Nat) : Beep → Alarm
  | .none => a
  | .temperatureOnly => { a with lastTempBeepMs := now, tempBeeped := true }
  | .humidityOnly => { a with lastHumidityBeepMs := now, humBeeped := true }
  | .both => { a with lastBothBeepMs := now, bothBeeped := true }

@[simp] theorem stamp_temperatureAbnormal (a : Alarm) (now : Nat) (q : Beep) :
    (a.stamp now q).temperatureAbnormal = a.temperatureAbnormal := by
  cases q <;> rfl

@[simp] theorem stamp_humidityAbnormal (a : Alarm) (now : Nat) (q : Beep) :
    (a.stamp now q).humidityAbnormal = a.humidityAbnormal := by
  cases q <;> rfl

theorem stamp_beeped (a : Alarm) (now : Nat) (p : Beep) {q : Beep} (hq : q ≠ .none) :
    (a.stamp now p).beeped q = (a.beeped q || decide (p = q)) := by
  cases q with
  | none => exact absurd rfl hq
  | temperatureOnly | humidityOnly | both => cases p <;> simp [stamp, beeped]

theorem stamp_lastBeepMs (a : Alarm) (now : Nat) (p : Beep) {q : Beep} (hq : q ≠ .none) :
    (a.stamp now p).lastBeepMs q = if p = q then now else a.lastBeepMs q := by
  cases q with
  | none => exact absurd rfl hq
  | temperatureOnly | humidityOnly | both => cases p <;> rfl

theorem pattern_eq_temperatureOnly (a : Alarm) :
    a.pattern = .temperatureOnly ↔ a.temperatureAbnormal = true ∧ a.humidityAbnormal = false := by
  unfold pattern
  cases a.temperatureAbnormal <;> cases a.humidityAbnormal <;> decide

theorem pattern_eq_humidityOnly (a : Alarm) :
    a.pattern = .humidityOnly ↔ a.temperatureAbnormal = false ∧ a.humidityAbnormal = true := by
  unfold pattern
  cases a.temperatureAbnormal <;> cases a.humidityAbnormal <;> decide

theorem pattern_eq_both (a : Alarm) :
    a.pattern = .both ↔ a.temperatureAbnormal = true ∧ a.humidityAbnormal = true := by
  unfold pattern
  cases a.temperatureAbnormal <;> cases a.humidityAbnormal <;> decide

theorem flags_eq (a : Alarm) :
    a.flags = (if a.humidityAbnormal then 2 else 0) + (if a.temperatureAbnormal then 1 else 0) := by
  unfold flags
  cases a.humidityAbnormal <;> cases a.temperatureAbnormal <;> rfl

/-- The request is the selected pattern when that pattern may beep, and its time and bit are written. -/
theorem beepRequest_eq (cooldownMs now : Nat) (a : Alarm) : a.beepRequest cooldownMs now =
    if mayBeep (a.beeped a.pattern) (a.lastBeepMs a.pattern) cooldownMs now then (a.pattern, a.stamp now a.pattern)
    else (.none, a) := by
  obtain ⟨temperatureAbnormal, humidityAbnormal, _⟩ := a
  cases temperatureAbnormal <;> cases humidityAbnormal
  · exact (ite_self _).symm
  · rfl
  · rfl
  · rfl

/-! ## One update (R280) -/

section
variable (c : DutyConfig) (h t : Int) (now : Nat) (a : Alarm)

/-- What an update leaves: the two flags of the reading, and the requested pattern's time and bit. -/
theorem update_snd : (a.update c h t now).2 = (a.setFlags c h t).stamp now (a.update c h t now).1 := by
  unfold update
  rw [beepRequest_eq]
  split <;> rfl

theorem update_temperatureAbnormal : (a.update c h t now).2.temperatureAbnormal =
    hyst a.temperatureAbnormal t c.alTHigh c.alTHyst := by
  rw [update_snd, stamp_temperatureAbnormal]
  rfl

theorem update_humidityAbnormal : (a.update c h t now).2.humidityAbnormal =
    hyst a.humidityAbnormal h c.alHHigh c.alHHyst := by
  rw [update_snd, stamp_humidityAbnormal]
  rfl

theorem update_pattern : (a.update c h t now).2.pattern = (a.setFlags c h t).pattern := by
  rw [update_snd]
  simp [pattern]

/-- A reading writes no pattern's bit. -/
theorem setFlags_beeped (q : Beep) : (a.setFlags c h t).beeped q = a.beeped q := by
  cases q <;> rfl

/-- A reading writes no pattern's time. -/
theorem setFlags_lastBeepMs (q : Beep) : (a.setFlags c h t).lastBeepMs q = a.lastBeepMs q := by
  cases q <;> rfl

variable {q : Beep} (hq : q ≠ .none)
include hq

theorem update_beeped :
    (a.update c h t now).2.beeped q = (a.beeped q || decide ((a.update c h t now).1 = q)) := by
  rw [update_snd, stamp_beeped _ _ _ hq, setFlags_beeped]

theorem update_lastBeepMs :
    (a.update c h t now).2.lastBeepMs q = if (a.update c h t now).1 = q then now else a.lastBeepMs q := by
  rw [update_snd, stamp_lastBeepMs _ _ _ hq, setFlags_lastBeepMs]

/-- A pattern is requested exactly when the flags select it and it may beep. -/
theorem update_requests_iff : (a.update c h t now).1 = q ↔
    (a.update c h t now).2.pattern = q ∧ mayBeep (a.beeped q) (a.lastBeepMs q) c.cooldownMs now = true := by
  rw [update_pattern]
  unfold update
  rw [beepRequest_eq, setFlags_beeped, setFlags_lastBeepMs]
  split
  · next hmay => exact ⟨fun he => ⟨he, he ▸ hmay⟩, And.left⟩
  · next hmay => exact ⟨fun he => absurd he.symm hq, fun ⟨he, hm⟩ => absurd (he ▸ hm) hmay⟩

end

/-! ## A sequence of updates (R283) -/

/-- A pattern that has beeped is requested again no earlier than the cooldown after its last beep. -/
theorem updates_spaced {c : DutyConfig} {readings : List (Int × Int × Nat)} {a : Alarm} {q : Beep} (hq : q ≠ .none)
    (hbeeped : a.beeped q = true) {y : Nat × Beep} (hy : y ∈ (updates c readings a).1) (hyq : y.2 = q) :
    a.lastBeepMs q + c.cooldownMs ≤ y.1 := by
  induction readings generalizing a with
  | nil => cases hy
  | cons reading rest ih =>
    obtain ⟨h, t, now⟩ := reading
    have hnow (he : (a.update c h t now).1 = q) : a.lastBeepMs q + c.cooldownMs ≤ now := by
      simpa [mayBeep, hbeeped] using ((update_requests_iff c h t now a hq).mp he).2
    obtain rfl | hy := List.mem_cons.mp hy
    · exact hnow hyq
    · have hrest := ih (by rw [update_beeped c h t now a hq, hbeeped, Bool.true_or]) hy
      rw [update_lastBeepMs c h t now a hq] at hrest
      split at hrest
      · next he => exact (hnow he).trans (by omega)
      · exact hrest

end Alarm

/-- ALARM_UPDATE, accepted: the receive steps due, RSP and ALARM (R280). -/
theorem exec_alarmUpdate {s : State} (h : Byte) (v : Half) (hb : s.busy = false) : exec (.alarmUpdate h v) s =
    .next { s.pump with
      rsp := ⟨0x00, (s.alarm.update s.cfg.duty h.toNat v.toInt s.nowMs).1.code, 0,
        (s.alarm.update s.cfg.duty h.toNat v.toInt s.nowMs).2.flags⟩
      alarm := (s.alarm.update s.cfg.duty h.toNat v.toInt s.nowMs).2 } := by
  rw [exec_accepted hb rfl, ← sext16_eq_toInt]
  exact congrArg Host.Outcome.next (State.accept_respond
    (s := { s with alarm := (s.alarm.update s.cfg.duty h.toNat (sext16 v) s.nowMs).2 }) hb _)

end Sys2Proof.Machine
open Sys2Proof Sys2Proof.Machine

/-- Settles O58: the flags by `hyst_iff`; a request, its time and its bit, pattern by pattern, by
`Alarm.update_requests_iff`, `Alarm.update_lastBeepMs` and `Alarm.update_beeped`. -/
theorem alarmUpdateExact : Obligations.AlarmUpdateExact := by
  intro s h v hb
  have htemp := Alarm.update_temperatureAbnormal s.cfg.duty h.toNat v.toInt s.nowMs s.alarm
  have hhum := Alarm.update_humidityAbnormal s.cfg.duty h.toNat v.toInt s.nowMs s.alarm
  have hrequest (q : Beep) := Alarm.update_requests_iff s.cfg.duty h.toNat v.toInt s.nowMs s.alarm (q := q)
  have hlast (q : Beep) := Alarm.update_lastBeepMs s.cfg.duty h.toNat v.toInt s.nowMs s.alarm (q := q)
  have hbeeped (q : Beep) := Alarm.update_beeped s.cfg.duty h.toNat v.toInt s.nowMs s.alarm (q := q)
  simp only [mayBeep_iff] at hrequest
  refine ⟨_, exec_alarmUpdate h v hb, rfl, ?_⟩
  simp only [Beep.code_eq_zero, Beep.code_eq_one, Beep.code_eq_two, Beep.code_eq_three, true_and]
  refine ⟨htemp ▸ hyst_iff .., hhum ▸ hyst_iff .., Alarm.flags_eq _, ?_, ?_, ?_, Beep.eq_none_or_pattern _,
    hlast .both nofun, hlast .temperatureOnly nofun, hlast .humidityOnly nofun,
    hbeeped .both nofun, hbeeped .temperatureOnly nofun, hbeeped .humidityOnly nofun⟩
  · rw [hrequest .both nofun, Alarm.pattern_eq_both, and_assoc]
    rfl
  · rw [hrequest .temperatureOnly nofun, Alarm.pattern_eq_temperatureOnly, and_assoc]
    rfl
  · rw [hrequest .humidityOnly nofun, Alarm.pattern_eq_humidityOnly, and_assoc]
    rfl

/-- Settles O59: by `Alarm.updates_spaced` from the first request of a pattern, which leaves its time and its bit. -/
theorem beepCooldown : Obligations.BeepCooldown := by
  intro c readings a
  induction readings generalizing a with
  | nil => exact .nil
  | cons reading rest ih =>
    obtain ⟨h, t, now⟩ := reading
    refine .cons (fun y hy heq hne => ?_) (ih _)
    have hspaced := Alarm.updates_spaced hne (by rw [Alarm.update_beeped c h t now a hne]; simp) hy heq.symm
    rwa [Alarm.update_lastBeepMs c h t now a hne, if_pos rfl] at hspaced
end

section
/-! PROOFS. The family 60_exceptions.md: no step stops the machine, the time does not go back and the trace is only
extended (R314, R320); a read on a line held low (R303). -/

namespace Sys2Proof.Machine

/-! ## What every step keeps -/

/-- `s'` is no earlier than `s`, under the same configuration, with the trace of `s` extended at its end. -/
structure Advances (s s' : State) : Prop where
  cfg : s'.cfg = s.cfg
  time : s.t ≤ s'.t
  trace : s.trace <+: s'.trace

theorem Advances.of_eq {s s' : State} (hcfg : s'.cfg = s.cfg) (ht : s'.t = s.t) (htrace : s'.trace = s.trace) :
    Advances s s' :=
  ⟨hcfg, ht.ge, htrace ▸ List.prefix_rfl⟩

/-- UART_SEND_LINE emits transmissions only, whichever way it ends (R206, R220). -/
theorem uartSendLineOp_extends_trace (s : State) : s.trace <+: (uartSendLineOp s).2.trace := by
  have hprompt (bs : Bytes) :
      s.trace <+: (awaitByte s.cfg.uart.promptChar s.cfg.uart.tPromptMs (s.transmit bs)).2.trace := by
    obtain ⟨-, -, htrace, -⟩ := awaitByte_spec s.cfg.uart.promptChar s.cfg.uart.tPromptMs (s.transmit bs)
    exact ⟨[.tx bs], htrace.symm⟩
  have hreply (bs : Bytes) (s' : State) :
      s'.trace <+: (awaitReply s.cfg.uart.expSendAck s.cfg.uart.tSendAckMs (s'.transmit bs)).2.trace := by
    obtain ⟨-, -, htrace, -⟩ := awaitReply_spec s.cfg.uart.expSendAck s.cfg.uart.tSendAckMs (s'.transmit bs)
    exact ⟨[.tx bs], htrace.symm⟩
  unfold uartSendLineOp
  simp only
  split
  · exact hprompt _
  · split <;> exact (hprompt _).trans (hreply _ _)

/-- A UART operation removes no event (R25, R206). -/
theorem uartBody_extends_trace {i : Instr} (hi : subBlock i = .uart) {s : State} (hw : i.wf s.cfg = true) :
    s.trace <+: (Instr.body i s).2.trace := by
  obtain ⟨-, -, htrace⟩ := uartBody_frame hi hw
  rcases instr_of_uart hi with ⟨m, v, rfl⟩ | ⟨v, rfl⟩ | ⟨p, rfl⟩ | rfl
  · exact (htrace.resolve_left fun h => h m v rfl) ▸ List.prefix_rfl
  · obtain ⟨-, -, hsent, -⟩ := sendCommand_spec s.str0Bytes s.str1Bytes v.toNat s
    exact ⟨_, hsent.symm⟩
  · obtain ⟨_, _, -, -, -, -, -, hexchanged⟩ := uartInitSessionOp_ends p.toNat s
    exact ⟨_, hexchanged.trace.symm⟩
  · exact uartSendLineOp_extends_trace s

/-- The body of a command: `OnLine` for a UART operation, `OnWires` for every other. -/
theorem body_advances {i : Instr} {s : State} (hw : i.wf s.cfg = true) : Advances s (Instr.body i s).2 := by
  by_cases hi : subBlock i = .uart
  · obtain ⟨hon, -, -⟩ := uartBody_frame hi hw
    exact ⟨hon.cfg_eq, hon.mono, uartBody_extends_trace hi hw⟩
  · have hon := body_onWires hi s
    obtain ⟨evs, htrace⟩ := hon.trace
    exact ⟨hon.cfg_eq, hon.mono, evs, htrace.symm⟩

/-- A command is answered, refused or carried out (R314, assumption 6). -/
theorem exec_advances (i : Instr) (s : State) : ∃ t, exec i s = .next t ∧ Advances s t := by
  obtain ⟨-, he⟩ | ⟨-, hw, he⟩ := exec_cases i s
  · exact ⟨_, he, .of_eq rfl rfl rfl⟩
  · obtain ⟨hcfg, htime, htrace⟩ := body_advances (i := i) (s := s.accept) hw
    exact ⟨_, he, hcfg, htime, htrace⟩

theorem runAction_advances (a : HostAct) (s : State) : ∃ t, runAction a s = .next t ∧ Advances s t := by
  cases a with
  | command w =>
    simp only [runAction, runWord, State.writeCmd_eq]
    split
    · next i _ =>
      obtain ⟨t, he, hcfg, htime, htrace⟩ := exec_advances i { s with cmd := if s.busy then s.cmd else w }
      exact ⟨t, he, hcfg, htime, htrace⟩
    · exact ⟨_, rfl, .of_eq rfl rfl rfl⟩
  | writeByte b i v =>
    refine ⟨_, rfl, ?_⟩
    rw [State.hostWriteByte_frame]
    exact .of_eq rfl rfl rfl
  | writeLength r n =>
    refine ⟨_, rfl, ?_⟩
    rw [State.hostWriteLength_eq]
    exact .of_eq rfl rfl rfl
  | wait us => exact ⟨_, rfl, rfl, Nat.le_add_right _ _, List.prefix_rfl⟩

theorem step_advances (s : State) : ∃ t, step s = .next t ∧ Advances s t := by
  cases hh : s.host with
  | nil =>
    rw [step_of_idleHost hh]
    obtain ⟨t, hr, hcfg, htime, htrace⟩ := runAction_advances (.wait 1) { s with env := _ }
    exact ⟨t, hr, hcfg, htime, htrace⟩
  | cons a rest =>
    rw [step_of_host hh]
    obtain ⟨t, hr, hcfg, htime, htrace⟩ := runAction_advances a { s with host := rest, env := _ }
    exact ⟨t, hr, hcfg, htime, htrace⟩

/-! ## A line held low -/

/-- A line read low at the health check: the read ends there, before the start signal (R172, R303). -/
theorem dhtReadFrameOp_heldLow {s : State} (tmo : Nat) (hsoon : s.tooSoon = false) (hlow : (lineHealth s).1 = false) :
    dhtReadFrameOp tmo s = (response .lineIdleFault 0 0 0, (lineHealth s).2) := by
  simp only [dhtReadFrameOp, State.rateLimited_eq, hsoon, hlow]
  rfl

end Sys2Proof.Machine
open Sys2Proof Sys2Proof.Machine

/-- Settles O10: `step_advances`, by the cases of HOST's action and, for a command, of its sub-block. -/
theorem stepAnswersAndTimeAdvances : Obligations.StepAnswersAndTimeAdvances := by
  intro s
  obtain ⟨t, hs, hcfg, htime, evs, htrace⟩ := step_advances s
  exact ⟨t, evs, hs, hcfg, htime, htrace.symm⟩

/-- Settles O27: the operation ends in the state of the health check, which `lineHealth_spec` gives. -/
theorem dhtLineHeldLow : Obligations.DhtLineHeldLow := by
  intro s tmo hb hsoon hwave
  obtain ⟨hlevel, ht, -, hpins, htrace⟩ := lineHealth_spec s.accept
  have hlow : (lineHealth s.accept).1 = false := hlevel.trans hwave
  obtain ⟨hexec, hreading, hdht⟩ :=
    exec_dht_onWires hb (dhtReadFrameOp_heldLow (s := s.accept) tmo.toNat hsoon hlow) (lineHealth_onWires s.accept)
  rw [hlow] at htrace
  exact ⟨_, hexec, rfl, htrace, hpins, ht, hreading, hdht⟩
end
